-- ==== Sys2Proof/Word.lean ====
section
/-!
DEFINITION. The word types of the machine: 64-bit scalar registers and pointers, 32-bit words, half-words and bytes, and
the 512-bit vector register of sixteen 32-bit lanes (R23, R129).
-/
namespace Sys2Proof

/-- A 64-bit scalar register or pointer (R23). -/
abbrev Word := BitVec 64
/-- A 32-bit word: a lane, a tray word, an accumulator word. -/
abbrev HWord := BitVec 32
/-- A byte. -/
abbrev Byte := BitVec 8
/-- A vector register: lane i is bits [32i+31:32i] (R23). -/
abbrev Vec := BitVec 512

end Sys2Proof
end

