-- ==== Sys2Proof/Syntax.lean ====
section
/-!
DEFINITION. The abstract syntax of the Gweyn instruction set and of the part's other steps: one constructor of `Instr`
for each row of spec/opcode_table.json. The first 202 are the encoded instructions, their operands being the fields of
the row's encoding from the lowest bit up; the other 93 are the events of the part (replies, firmware and host commands,
fabric traffic), whose operands say what the outside world or the firmware chose.
-/
namespace Sys2Proof

/-- A scalar or vector register field (R27): 0-15 private, 16-31 shared. -/
abbrev Reg := BitVec 5
/-- A predicate index q0-q7 (R27). -/
abbrev PredNo := BitVec 3
/-- A tile number t0-t7 (R27). -/
abbrev TileNo := BitVec 3

/-- The fourteen operand formats (R51), in the order of their codes. -/
inductive Fmt where
  | fp64 | fp32 | bf16 | fp16 | fp8e4 | fp8e5 | fp6e3 | fp6e2 | fp4 | fp4s | i8 | n8 | i4 | n4
  deriving DecidableEq, Repr

/-- The lane types (R129), in the order of their codes. -/
inductive LaneType where
  | i32 | f32 | bf16x2 | f16x2 | f64
  deriving DecidableEq, Repr

/-- Access sizes (R34): 1, 2, 4 and 8 bytes. -/
inductive Size where
  | b | h | w | d
  deriving DecidableEq, Repr

/-- Compare conditions of CMP and CMPI (R31). -/
inductive Cond where
  | eq | ne | lt | le | ltu | leu
  deriving DecidableEq, Repr

/-- Compare conditions of VCMP (R40, R140): those of R31 and the unordered condition. -/
inductive VCond where
  | eq | ne | lt | le | ltu | leu | uno
  deriving DecidableEq, Repr

/-- Rounding modes (R65), in the order of their codes. -/
inductive Rounding where
  | rne | rtz | rdn | rup | sr
  deriving DecidableEq, Repr

/-- Accumulator classes of ACST, ACT and ACADD (R216). -/
inductive AccClass where
  | f32 | f64 | i32
  deriving DecidableEq, Repr

/-- Functions of ACT (R219). -/
inductive ActFn where
  | scale | min | max
  deriving DecidableEq, Repr

/-- Read-modify-write operations of the atomics (R288). -/
inductive AmoOp where
  | add | and | or | xor | min | max | minu | maxu | swap | fadd
  deriving DecidableEq, Repr

/-- Ports of a mesh router (R308, R320). -/
inductive MeshPort where
  | north | east | south | west | core | slice | bridge
  deriving DecidableEq, Repr

/-- What a scrubber or an access finds on a line (R327). -/
inductive EccFinding where
  | clean | corrected | uncorrectable
  deriving DecidableEq, Repr

/-- Why firmware contains a plot (R329, R382). -/
inductive ContainCause where
  | watchdog | mce | vecFault | killed | fabric
  deriving DecidableEq, Repr

/-- Causes of a fetch fault (R26). MCE stands for a fetch that consumes poisoned data (R180). -/
inductive FetchCause where
  | bounds | page | prot | mce
  deriving DecidableEq, Repr

/-- The answer of another package, or of a fence, to a request (R330, R412, R416, R420). -/
inductive RemoteAnswer where
  | data (v : BitVec 512) | poisoned | prot | contained | fabric
  /-- The chain of developments that the request started has failed (R252, R253), with the block of a recipe. -/
  | devfault (block : Word) | devdepth (block : Word)
  deriving DecidableEq, Repr

/-- A reply as it arrives from another package (R407, R412, R416): that package, the sequence number it answers, the answer, and the
rounds the request and the reply lost there, by structure (R321). -/
structure RemoteReply where
  package : Nat
  seq : BitVec 32
  answer : RemoteAnswer
  lost : List (Nat × Nat)
  deriving DecidableEq, Repr

/-- The SPDM transports (R389): a function's DOE mailbox (0 the PF, v the VF v) or MCTP on the side band. -/
inductive SpdmPort where
  | doe (fn : Nat) | sideBand
  deriving DecidableEq, Repr

/-- The head of a Tabhus command (R386): the function whose admin queue held it (0 the PF, v the VF v) and its host tag. -/
structure Cmd where
  fn : Nat
  tag : BitVec 32
  deriving DecidableEq, Repr

/-- Parameters of PARTITION_CREATE (R387). -/
structure PartitionParams where
  vf : Nat
  clusters : BitVec 64
  recipes : Nat
  contextMiB : Nat
  queues : Nat
  segmentCap : Nat
  tvb : Word
  strong : Bool
  sealedOnly : Bool
  deriving DecidableEq, Repr

/-- Parameters of QUEUE_CREATE (R376). -/
structure QueueParams where
  vf : Nat
  index : Nat
  number : Nat
  owner : Nat
  die : Nat
  subBase : Nat
  cplBase : Nat
  subSize : Nat
  cplSize : Nat
  vector : Nat
  events : Bool
  deriving DecidableEq, Repr

/-- Parameters of POWER_POLICY (R387): a mask for a partition, and the operator's floor, limit and cap. -/
structure PowerParams where
  vf : Nat
  mask : Option (BitVec 4)
  floor : Option Nat
  limit : Option Nat
  cap : Option Nat
  deriving DecidableEq, Repr

/-- What a fabric request asks of its target (R411). -/
inductive FabricOp where
  | read (n : Nat) | write (bytes : List Byte) | amo (op : AmoOp) (dword : Bool) (operand : Word)
  | cas (dword : Bool) (expected new : Word)
  deriving DecidableEq, Repr

/-- A fabric request as it arrives (R407, R415): its source, sequence number, the source's cumulative acknowledgement,
domain tag, owner identity, class, remote PA and operation. -/
structure FabricReq where
  source : Nat
  seq : BitVec 32
  ackBelow : BitVec 32
  dtag : BitVec 16
  part : Nat
  owner : Nat
  cls : BitVec 2
  pa : Nat
  op : FabricOp
  deriving DecidableEq, Repr

/-- The instructions and events of the part, one constructor per row of spec/opcode_table.json. -/
inductive Instr where
  /-- ADD (R100). Adds two scalar registers modulo 2^64. -/
  | add (d : Reg) (a : Reg) (b : Reg)
  /-- SUB (R100). Subtracts the second scalar register from the first modulo 2^64. -/
  | sub (d : Reg) (a : Reg) (b : Reg)
  /-- MUL (R100). Writes the low 64 bits of the product of two scalar registers. -/
  | mul (d : Reg) (a : Reg) (b : Reg)
  /-- MULH (R100). Writes the high 64 bits of the signed product. -/
  | mulh (d : Reg) (a : Reg) (b : Reg)
  /-- MULHU (R100). Writes the high 64 bits of the unsigned product. -/
  | mulhu (d : Reg) (a : Reg) (b : Reg)
  /-- DIV (R101). Signed divide; takes the slot out of the rotation for 34 cycles. -/
  | div (d : Reg) (a : Reg) (b : Reg)
  /-- DIVU (R101). Unsigned divide; takes the slot out of the rotation for 34 cycles. -/
  | divu (d : Reg) (a : Reg) (b : Reg)
  /-- REM (R101). Signed remainder; takes the slot out of the rotation for 34 cycles. -/
  | rem (d : Reg) (a : Reg) (b : Reg)
  /-- REMU (R101). Unsigned remainder; takes the slot out of the rotation for 34 cycles. -/
  | remu (d : Reg) (a : Reg) (b : Reg)
  /-- AND (R100). Bitwise and of two scalar registers. -/
  | and (d : Reg) (a : Reg) (b : Reg)
  /-- OR (R100). Bitwise or of two scalar registers. -/
  | or (d : Reg) (a : Reg) (b : Reg)
  /-- XOR (R100). Bitwise exclusive or of two scalar registers. -/
  | xor (d : Reg) (a : Reg) (b : Reg)
  /-- ANDN (R100). Ands the first register with the complement of the second. -/
  | andn (d : Reg) (a : Reg) (b : Reg)
  /-- SHL (R100). Shifts left by B[5:0]. -/
  | shl (d : Reg) (a : Reg) (b : Reg)
  /-- SHR (R100). Logical shift right by B[5:0]. -/
  | shr (d : Reg) (a : Reg) (b : Reg)
  /-- SAR (R100). Arithmetic shift right by B[5:0]. -/
  | sar (d : Reg) (a : Reg) (b : Reg)
  /-- ROL (R100). Rotates left by B[5:0]. -/
  | rol (d : Reg) (a : Reg) (b : Reg)
  /-- MIN (R100). Signed minimum of two scalar registers. -/
  | min (d : Reg) (a : Reg) (b : Reg)
  /-- MINU (R100). Unsigned minimum of two scalar registers. -/
  | minu (d : Reg) (a : Reg) (b : Reg)
  /-- MAX (R100). Signed maximum of two scalar registers. -/
  | max (d : Reg) (a : Reg) (b : Reg)
  /-- MAXU (R100). Unsigned maximum of two scalar registers. -/
  | maxu (d : Reg) (a : Reg) (b : Reg)
  /-- CLZ (R100). Counts leading zero bits. -/
  | clz (d : Reg) (a : Reg)
  /-- POPC (R100). Counts one bits. -/
  | popc (d : Reg) (a : Reg)
  /-- SEXT_B (R100). Sign-extends the low byte. -/
  | sextB (d : Reg) (a : Reg)
  /-- SEXT_H (R100). Sign-extends the low half-word. -/
  | sextH (d : Reg) (a : Reg)
  /-- SEXT_W (R100). Sign-extends the low word. -/
  | sextW (d : Reg) (a : Reg)
  /-- LEA_1 (R102). Forms a pointer with scale 1, keeping the tag and marking a wrap with tag 0xE. -/
  | lea1 (d : Reg) (a : Reg) (b : Reg)
  /-- LEA_2 (R102). Forms a pointer with scale 2, keeping the tag and marking a wrap with tag 0xE. -/
  | lea2 (d : Reg) (a : Reg) (b : Reg)
  /-- LEA_4 (R102). Forms a pointer with scale 4, keeping the tag and marking a wrap with tag 0xE. -/
  | lea4 (d : Reg) (a : Reg) (b : Reg)
  /-- LEA_8 (R102). Forms a pointer with scale 8, keeping the tag and marking a wrap with tag 0xE. -/
  | lea8 (d : Reg) (a : Reg) (b : Reg)
  /-- MOV (R100). Copies a scalar register. -/
  | mov (d : Reg) (a : Reg)
  /-- PTAG (R104). Replaces the pointer tag with B[3:0]. -/
  | ptag (d : Reg) (a : Reg) (b : Reg)
  /-- C_MOV (R38). Compact scalar move d := s. -/
  | cMov (d : Reg) (s : Reg)
  /-- C_ADD (R38). Compact scalar add d := d + s. -/
  | cAdd (d : Reg) (s : Reg)
  /-- C_SUB (R38). Compact scalar subtract. -/
  | cSub (d : Reg) (s : Reg)
  /-- C_MUL (R38). Compact scalar multiply. -/
  | cMul (d : Reg) (s : Reg)
  /-- C_AND (R38). Compact scalar and. -/
  | cAnd (d : Reg) (s : Reg)
  /-- C_OR (R38). Compact scalar or. -/
  | cOr (d : Reg) (s : Reg)
  /-- C_XOR (R38). Compact scalar exclusive or. -/
  | cXor (d : Reg) (s : Reg)
  /-- C_SHL (R38). Compact scalar shift left. -/
  | cShl (d : Reg) (s : Reg)
  /-- C_SHR (R38). Compact scalar logical shift right. -/
  | cShr (d : Reg) (s : Reg)
  /-- C_SAR (R38). Compact scalar arithmetic shift right. -/
  | cSar (d : Reg) (s : Reg)
  /-- C_MIN (R38). Compact scalar signed minimum. -/
  | cMin (d : Reg) (s : Reg)
  /-- C_MAX (R38). Compact scalar signed maximum. -/
  | cMax (d : Reg) (s : Reg)
  /-- C_VMOV (R146). Compact lane move of the active lanes from s. -/
  | cVmov (d : Reg) (s : Reg)
  /-- C_VADD_I32 (R146). Compact i32 lane add. -/
  | cVaddI32 (d : Reg) (s : Reg)
  /-- C_VSUB_I32 (R146). Compact i32 lane subtract. -/
  | cVsubI32 (d : Reg) (s : Reg)
  /-- C_VMUL_I32 (R146). Compact i32 lane multiply. -/
  | cVmulI32 (d : Reg) (s : Reg)
  /-- C_VAND (R146). Compact lane and. -/
  | cVand (d : Reg) (s : Reg)
  /-- C_VOR (R146). Compact lane or. -/
  | cVor (d : Reg) (s : Reg)
  /-- C_VXOR (R146). Compact lane exclusive or. -/
  | cVxor (d : Reg) (s : Reg)
  /-- C_VSHL (R146). Compact lane shift left. -/
  | cVshl (d : Reg) (s : Reg)
  /-- C_VSHR (R146). Compact lane logical shift right. -/
  | cVshr (d : Reg) (s : Reg)
  /-- C_VSAR (R146). Compact lane arithmetic shift right. -/
  | cVsar (d : Reg) (s : Reg)
  /-- C_VMIN_I32 (R146). Compact i32 lane minimum. -/
  | cVminI32 (d : Reg) (s : Reg)
  /-- C_VMAX_I32 (R146). Compact i32 lane maximum. -/
  | cVmaxI32 (d : Reg) (s : Reg)
  /-- C_VADD_F32 (R146). Compact f32 lane add. -/
  | cVaddF32 (d : Reg) (s : Reg)
  /-- C_VSUB_F32 (R146). Compact f32 lane subtract. -/
  | cVsubF32 (d : Reg) (s : Reg)
  /-- C_VMUL_F32 (R146). Compact f32 lane multiply. -/
  | cVmulF32 (d : Reg) (s : Reg)
  /-- C_VMAX_F32 (R146). Compact f32 lane maximum. -/
  | cVmaxF32 (d : Reg) (s : Reg)
  /-- ADDI (R105). Adds a sign-extended 15-bit immediate. -/
  | addi (d : Reg) (a : Reg) (i : BitVec 15)
  /-- ANDI (R105). Ands with a zero-extended immediate. -/
  | andi (d : Reg) (a : Reg) (i : BitVec 15)
  /-- ORI (R105). Ors with a zero-extended immediate. -/
  | ori (d : Reg) (a : Reg) (i : BitVec 15)
  /-- XORI (R105). Exclusive-ors with a zero-extended immediate. -/
  | xori (d : Reg) (a : Reg) (i : BitVec 15)
  /-- SHLI (R106). Shifts left by an immediate count. -/
  | shli (d : Reg) (a : Reg) (n : BitVec 6)
  /-- SHRI (R106). Logical shift right by an immediate count. -/
  | shri (d : Reg) (a : Reg) (n : BitVec 6)
  /-- SARI (R106). Arithmetic shift right by an immediate count. -/
  | sari (d : Reg) (a : Reg) (n : BitVec 6)
  /-- LI (R107). Loads a sign-extended 15-bit immediate. -/
  | li (d : Reg) (i : BitVec 15)
  /-- LIU (R108). Shifts the destination left by 20 and ors in a 20-bit immediate. -/
  | liu (d : Reg) (i : BitVec 20)
  /-- BFX (R109). Extracts a zero-extended bit field. -/
  | bfx (d : Reg) (a : Reg) (p : BitVec 6) (l : BitVec 6)
  /-- BFI (R109). Inserts the low bits of a register into a bit field. -/
  | bfi (d : Reg) (a : Reg) (p : BitVec 6) (l : BitVec 6)
  /-- CMP (R110). Compares two scalar registers into a predicate. -/
  | cmp (q : PredNo) (a : Reg) (b : Reg) (c : Cond)
  /-- CMPI (R111). Compares a register with a sign-extended immediate into a predicate. -/
  | cmpi (q : PredNo) (a : Reg) (c : Cond) (i : BitVec 12)
  /-- PLOG_AND (R112). Predicate and. -/
  | plogAnd (d : PredNo) (a : PredNo) (b : PredNo)
  /-- PLOG_OR (R112). Predicate or. -/
  | plogOr (d : PredNo) (a : PredNo) (b : PredNo)
  /-- PLOG_XOR (R112). Predicate exclusive or. -/
  | plogXor (d : PredNo) (a : PredNo) (b : PredNo)
  /-- PLOG_ANDN (R112). Predicate and-not. -/
  | plogAndn (d : PredNo) (a : PredNo) (b : PredNo)
  /-- PLOG_NOT (R112). Predicate not. -/
  | plogNot (d : PredNo) (a : PredNo)
  /-- PLOG_SET (R112). Sets a predicate. -/
  | plogSet (d : PredNo)
  /-- PLOG_CLR (R112). Clears a predicate. -/
  | plogClr (d : PredNo)
  /-- SEL (R113). Selects one of two registers by a predicate. -/
  | sel (d : Reg) (a : Reg) (b : Reg) (p : PredNo) (n : Bool)
  /-- BR (R116). Branches PC-relative when the selected predicate differs from n. -/
  | br (q : BitVec 4) (n : Bool) (o : BitVec 20)
  /-- JAL (R117). Jumps PC-relative and writes the link. -/
  | jal (d : Reg) (i : BitVec 20)
  /-- JALR (R118). Jumps through a register plus immediate and writes the link. -/
  | jalr (d : Reg) (a : Reg) (i : BitVec 15)
  /-- LOOP (R119). Starts a hardware loop over the body up to LEND. -/
  | loop (a : Reg) (e : BitVec 15)
  /-- EXIT (R120). Releases and ends the slot's task, completing a development if it is one. -/
  | exit
  /-- YIELD (R121). Takes the slot out of the rotation for 8 cycles. -/
  | yield
  /-- VADD (R135). Lane add for the given type. -/
  | vadd (d : Reg) (a : Reg) (b : Reg) (t : LaneType)
  /-- VSUB (R135). Lane subtract for the given type. -/
  | vsub (d : Reg) (a : Reg) (b : Reg) (t : LaneType)
  /-- VMUL (R135). Lane multiply for the given type. -/
  | vmul (d : Reg) (a : Reg) (b : Reg) (t : LaneType)
  /-- VMULH (R134). i32 lane signed multiply high. -/
  | vmulh (d : Reg) (a : Reg) (b : Reg)
  /-- VMIN (R135). Lane minimum for the given type. -/
  | vmin (d : Reg) (a : Reg) (b : Reg) (t : LaneType)
  /-- VMAX (R135). Lane maximum for the given type. -/
  | vmax (d : Reg) (a : Reg) (b : Reg) (t : LaneType)
  /-- VMINU (R134). i32 lane unsigned minimum. -/
  | vminu (d : Reg) (a : Reg) (b : Reg)
  /-- VMAXU (R134). i32 lane unsigned maximum. -/
  | vmaxu (d : Reg) (a : Reg) (b : Reg)
  /-- VAND (R134). Lane and. -/
  | vand (d : Reg) (a : Reg) (b : Reg)
  /-- VOR (R134). Lane or. -/
  | vor (d : Reg) (a : Reg) (b : Reg)
  /-- VXOR (R134). Lane exclusive or. -/
  | vxor (d : Reg) (a : Reg) (b : Reg)
  /-- VANDN (R134). Lane and-not. -/
  | vandn (d : Reg) (a : Reg) (b : Reg)
  /-- VSHL (R134). Lane shift left. -/
  | vshl (d : Reg) (a : Reg) (b : Reg)
  /-- VSHR (R134). Lane logical shift right. -/
  | vshr (d : Reg) (a : Reg) (b : Reg)
  /-- VSAR (R134). Lane arithmetic shift right. -/
  | vsar (d : Reg) (a : Reg) (b : Reg)
  /-- VABS (R135). Lane absolute value for the given type. -/
  | vabs (d : Reg) (a : Reg) (t : LaneType)
  /-- VNEG (R135). Lane negation for the given type. -/
  | vneg (d : Reg) (a : Reg) (t : LaneType)
  /-- VMOV (R136). Moves the active lanes. -/
  | vmov (d : Reg) (a : Reg)
  /-- VSEL (R136). Blends two registers by the lane mask, writing all lanes. -/
  | vsel (d : Reg) (a : Reg) (b : Reg)
  /-- VPERM (R136). Permutes lanes by an index register. -/
  | vperm (d : Reg) (a : Reg) (b : Reg)
  /-- VBC (R136). Broadcasts the low word of a scalar register to the active lanes. -/
  | vbc (d : Reg) (a : Reg)
  /-- VRED_ADD (R139). Reduces the active elements by a fixed pairwise add tree into element 0. -/
  | vredAdd (d : Reg) (a : Reg) (t : LaneType)
  /-- VRED_MIN (R139). Reduces the active elements by minimum into element 0. -/
  | vredMin (d : Reg) (a : Reg) (t : LaneType)
  /-- VRED_MAX (R139). Reduces the active elements by maximum into element 0. -/
  | vredMax (d : Reg) (a : Reg) (t : LaneType)
  /-- VFMA (R135). Fused multiply-add d := a × b + d with one rounding. -/
  | vfma (d : Reg) (a : Reg) (b : Reg) (t : LaneType)
  /-- VFRCP (R137). Reciprocal estimate to 12 significant bits. -/
  | vfrcp (d : Reg) (a : Reg) (t : LaneType)
  /-- VFRSQ (R137). Reciprocal square-root estimate to 12 significant bits. -/
  | vfrsq (d : Reg) (a : Reg) (t : LaneType)
  /-- VCMP (R140). Compares every element and writes the lane mask, optionally anded. -/
  | vcmp (a : Reg) (b : Reg) (c : VCond) (n : Bool) (t : LaneType)
  /-- VEXT (R141). Moves one lane into a scalar register, zero-extended. -/
  | vext (d : Reg) (a : Reg) (l : BitVec 4)
  /-- VINS (R141). Moves the low word of a scalar register into one lane. -/
  | vins (d : Reg) (a : Reg) (l : BitVec 4)
  /-- VCVT (R144). Converts elements between formats with the encoded rounding and saturation. -/
  | vcvt (d : Reg) (a : Reg) (b : Fmt) (r : Rounding) (s : Bool) (f : Fmt)
  /-- LD (R185). Loads 1–8 bytes zero-extended into a scalar register. -/
  | ld (d : Reg) (a : Reg) (z : Size) (r : Bool) (o : BitVec 12)
  /-- ST (R185). Stores 1–8 bytes of a scalar register. -/
  | st (d : Reg) (a : Reg) (z : Size) (r : Bool) (o : BitVec 12)
  /-- LDV (R186). Loads 64 bytes into the active lanes, row or frame column. -/
  | ldv (d : Reg) (a : Reg) (r : Bool) (o : BitVec 12)
  /-- STV (R186). Stores the active lanes of a vector register as 64 bytes. -/
  | stv (d : Reg) (a : Reg) (r : Bool) (o : BitVec 12)
  /-- LDB (R187). Loads from the home slice after recall, bypassing L1. -/
  | ldb (d : Reg) (a : Reg) (z : Size) (r : Bool) (o : BitVec 12)
  /-- LDC (R187). Loads through the cluster constant cache. -/
  | ldc (d : Reg) (a : Reg) (z : Size) (r : Bool) (o : BitVec 12)
  /-- LDFE (R190). Waits for a full tray word, reads it and sets it empty. -/
  | ldfe (d : Reg) (a : Reg) (r : Bool) (o : BitVec 12)
  /-- STFE (R190). Waits for an empty tray word, writes it and sets it full. -/
  | stfe (d : Reg) (a : Reg) (r : Bool) (o : BitVec 12)
  /-- LDFF (R190). Waits for a full tray word and reads it without changing its state. -/
  | ldff (d : Reg) (a : Reg) (r : Bool) (o : BitVec 12)
  /-- FESET (R192). Sets the full/empty state of a range of tray words. -/
  | feset (a : Reg) (b : Reg) (s : Bool)
  /-- LDG (R189). Gathers one element per active lane from base plus scaled index. -/
  | ldg (d : Reg) (a : Reg) (b : Reg) (z : Size)
  /-- STS (R189). Scatters one element per active lane to base plus scaled index. -/
  | sts (d : Reg) (a : Reg) (b : Reg) (z : Size)
  /-- PREF (R188). Prefetches a line into L1 or the home slice by hint, never trapping on the address. -/
  | pref (h : BitVec 5) (a : Reg) (o : BitVec 12)
  /-- AMO_ADD (R288). Atomic add at the home, returning the old value. -/
  | amoAdd (d : Reg) (a : Reg) (b : Reg) (s : Bool)
  /-- AMO_AND (R288). Atomic and, returning the old value. -/
  | amoAnd (d : Reg) (a : Reg) (b : Reg) (s : Bool)
  /-- AMO_OR (R288). Atomic or, returning the old value. -/
  | amoOr (d : Reg) (a : Reg) (b : Reg) (s : Bool)
  /-- AMO_XOR (R288). Atomic exclusive or, returning the old value. -/
  | amoXor (d : Reg) (a : Reg) (b : Reg) (s : Bool)
  /-- AMO_MIN (R288). Atomic signed minimum, returning the old value. -/
  | amoMin (d : Reg) (a : Reg) (b : Reg) (s : Bool)
  /-- AMO_MAX (R288). Atomic signed maximum, returning the old value. -/
  | amoMax (d : Reg) (a : Reg) (b : Reg) (s : Bool)
  /-- AMO_MINU (R288). Atomic unsigned minimum, returning the old value. -/
  | amoMinu (d : Reg) (a : Reg) (b : Reg) (s : Bool)
  /-- AMO_MAXU (R288). Atomic unsigned maximum, returning the old value. -/
  | amoMaxu (d : Reg) (a : Reg) (b : Reg) (s : Bool)
  /-- AMO_SWAP (R288). Atomic swap, returning the old value. -/
  | amoSwap (d : Reg) (a : Reg) (b : Reg) (s : Bool)
  /-- AMOF (R288). Atomic float add rounded to nearest even; NONDET in a deterministic launch. -/
  | amof (d : Reg) (a : Reg) (b : Reg) (s : Bool)
  /-- CAS (R288). Compare-and-swap at the home, returning the old value. -/
  | cas (d : Reg) (a : Reg) (b : Reg) (s : Bool)
  /-- LDA (R290). Home read followed by an acquire. -/
  | lda (d : Reg) (a : Reg) (z : Size) (o : BitVec 12)
  /-- STL (R290). Release followed by a write performed at the home slice. -/
  | stl (d : Reg) (a : Reg) (z : Size) (o : BitVec 12)
  /-- FACQ (R291). Acquire fence invalidating every unowned L1 word of the core. -/
  | facq
  /-- FREL (R291). Release fence writing back owned words and awaiting remote acknowledgements. -/
  | frel
  /-- FSEQ (R291). Release, one home event in H, then acquire. -/
  | fseq
  /-- FCON (R291). Release, then invalidation of the cluster constant cache. -/
  | fcon
  /-- CPY (R193). Releases, reads a copy descriptor and queues it on a copy queue with a pending handle. -/
  | cpy (d : BitVec 4) (a : Reg) (r : Bool) (f : Bool) (s : Bool) (c : Bool) (q : BitVec 2)
  /-- GTH (R193). Releases, reads a gather descriptor and queues it on a gather queue with a pending handle. -/
  | gth (d : BitVec 4) (a : Reg) (f : Bool) (s : Bool) (c : Bool) (q : BitVec 1)
  /-- FWAIT (R195). Waits for a future to complete, then acquires. -/
  | fwait (a : BitVec 4)
  /-- FTEST (R195). Sets a predicate when the future is complete, without waiting. -/
  | ftest (q : PredNo) (a : BitVec 4)
  /-- FCAN (R195). Requests cancellation of a pending engine entry. -/
  | fcan (a : BitVec 4)
  /-- FMOV (R195). Copies a future handle with its pending mark. -/
  | fmov (d : BitVec 4) (a : BitVec 4)
  /-- QFN (R195). Places a fence entry at the tail of each named engine queue. -/
  | qfn (m : BitVec 6)
  /-- SPAWN (R197). Reserves a deque place, releases and pushes a new task record. -/
  | spawn (a : Reg) (b : Reg)
  /-- JINIT (R198). Stores a join counter atomically at its home. -/
  | jinit (a : Reg) (b : Reg)
  /-- ENQ (R200). Releases, reads a task record and appends it to a task-queue segment. -/
  | enq (a : Reg) (q : BitVec 6)
  /-- DEQ (R200). Ends the current task and starts a record taken from a task queue. -/
  | deq (q : BitVec 6)
  /-- QST (R345). Reads a task queue's capacity, segments and record count. -/
  | qst (d : Reg) (q : BitVec 6)
  /-- FORK (R199). Reserves a place, releases, increments the join counter and pushes a record for the target. -/
  | fork (j : Reg) (o : BitVec 20)
  /-- JOIN (R199). Releases and decrements the join counter; continues at the target at zero, else ends the task. -/
  | join (j : Reg) (o : BitVec 20)
  /-- SEND (R201). Releases and places a 64-byte packet in a target endpoint FIFO. -/
  | send (a : Reg) (b : Reg)
  /-- RECV (R202). Waits for a packet on an endpoint, takes it and acquires. -/
  | recv (d : Reg) (e : BitVec 4)
  /-- RECVT (R202). Takes a packet if one is present and sets a predicate. -/
  | recvt (d : Reg) (e : BitVec 4) (q : PredNo)
  /-- TLD (R206). Loads a tile register from the local tray, by rows or transposed by columns. -/
  | tld (t : TileNo) (a : Reg) (b : Reg) (o : Bool)
  /-- TST (R206). Stores a tile register to the local tray, by rows or by columns. -/
  | tst (t : TileNo) (a : Reg) (b : Reg) (o : Bool)
  /-- MWL (R211). Copies a weight tile and its scales into the array and latches its format and shape. -/
  | mwl (t : TileNo) (f : Fmt)
  /-- MST (R213). Streams activation tiles through the array into the accumulator store, resumable at tile boundaries. -/
  | mst (t : TileNo) (r : BitVec 9) (c : BitVec 5) (f : Fmt)
  /-- ACZ (R216). Zeroes accumulator rows. -/
  | acz (a : Reg) (b : Reg)
  /-- ACLD (R217). Copies tile bits into accumulator rows. -/
  | acld (t : TileNo) (a : Reg)
  /-- ACST (R218). Converts accumulator elements into a tile of the target format. -/
  | acst (t : TileNo) (a : Reg) (f : Fmt) (s : Bool) (c : AccClass)
  /-- ACT (R219). Applies SCALE, MIN or MAX with a scalar to accumulator rows. -/
  | act (d : Reg) (a : Reg) (b : Reg) (c : AccClass) (u : ActFn)
  /-- ACADD (R220). Adds a tile into accumulator rows. -/
  | acadd (t : TileNo) (a : Reg) (c : AccClass)
  /-- TZR (R210). Zeroes the used bytes of a tile register in the loader lane. -/
  | tzr (t : TileNo)
  /-- MSTAT (R221). Reads array status and optionally clears OVF. -/
  | mstat (d : Reg) (x : Bool)
  /-- RREC (R292). Releases, reads a recipe block, pins its sources and records the tile. -/
  | rrec (a : Reg) (b : Reg)
  /-- RFIX (R293). Develops if latent, writes the tile back and removes its record. -/
  | rfix (a : Reg)
  /-- RDROP (R293). Removes a record without developing; latent lines become zero. -/
  | rdrop (a : Reg)
  /-- RQRY (R295). Reads the record state and pin count of a line. -/
  | rqry (d : Reg) (a : Reg)
  /-- RDEV (R293). Develops a latent tile. -/
  | rdev (a : Reg)
  /-- RDEV_V (R294). Runs a verify development of a resident tile and sets a predicate on difference. -/
  | rdevV (a : Reg) (q : PredNo)
  /-- RLAT (R293). Removes a recorded tile's lines from L2 and marks them latent. -/
  | rlat (a : Reg)
  /-- SEEDRD (R296). Reads half of the bound owner's seed. -/
  | seedrd (d : Reg) (a : Reg)
  /-- RESEED (R297). Installs a new seed for the core's owner in every structure and resets its counters. -/
  | reseed (a : Reg) (b : Reg)
  /-- XQRY (R298). Returns the exceedance probability of rounds lost over a listed path. -/
  | xqry (d : Reg) (a : Reg) (b : Reg)
  /-- XOBS (R299). Returns the count of the owner's requests whose rounds lost reached 2^j. -/
  | xobs (d : Reg) (a : Reg)
  /-- GARR (R300). Arrives at a group barrier, with a release. -/
  | garr (g : BitVec 8)
  /-- GWT (R300). Waits for the group episode to complete, then acquires. -/
  | gwt (g : BitVec 8)
  /-- GBAR (R300). Arrives and then waits at a group barrier. -/
  | gbar (g : BitVec 8)
  /-- GQRY (R301). Reads a group entry's state. -/
  | gqry (d : Reg) (g : BitVec 8)
  /-- TLBI (R302). Removes translations from every cluster TLB of the partition and purges L1 lines. -/
  | tlbi (a : Reg) (b : Reg)
  /-- RAFW (R303). Writes a region attribute file entry in every cluster. -/
  | rafw (a : Reg) (b : Reg)
  /-- TRAP (R122). Raises SWTRAP with a software code. -/
  | trap (c : BitVec 6)
  /-- TRET (R123). Returns from an S-mode trap, restoring sw fields from sst. -/
  | tret
  /-- URET (R124). Returns from an upcall, re-enabling upcalls. -/
  | uret
  /-- RDC (R126). Reads a control register. -/
  | rdc (d : Reg) (r : BitVec 6)
  /-- WRC (R127). Writes a control register with its per-register effect. -/
  | wrc (a : Reg) (r : BitVec 6)
  /-- RDP (R114). Reads the predicate word. -/
  | rdp (d : Reg)
  /-- WRP (R114). Writes the predicate word. -/
  | wrp (a : Reg)
  /-- BRK (R125). Debug-halts the slot when a debugger is attached, otherwise traps BRK. -/
  | brk
  /-- HMSG (R385). Posts a message entry to the launch's completion ring. -/
  | hmsg (a : Reg) (b : Reg)
  /-- DIVIDE_RESULT_WRITE (R82). The divide result is written at issue + 34 and the slot returns to the rotation. -/
  | divideResultWrite (core slot : Nat)
  /-- YIELD_EXPIRY (R121). After 8 cycles the yielding slot returns to the rotation. -/
  | yieldExpiry (core slot : Nat)
  /-- MEMORY_REPLY (R181). The reply of a memory operation arrives and the slot becomes ready. -/
  | memoryReply (core slot : Nat) (reply : Option RemoteReply)
  /-- REMOTE_STORE_ACK (R181). The acknowledgement of a peer-tray or fabric store arrives, or a refusal is recorded as a NACK. -/
  | remoteStoreAck (store : Nat) (reply : Option RemoteReply)
  /-- FP6_EMULATION (R64). The die control core performs an FP6 operation and writes its result, returning the slot. -/
  | fp6Emulation (core slot : Nat)
  /-- MATRIX_OP_COMPLETE (R168). A sequencer operation completes and its issuing slot returns to the rotation. -/
  | matrixOpComplete (core slot : Nat)
  /-- CHANNEL_PACKET_ARRIVAL (R178). A packet arrives at an endpoint FIFO and is delivered to the longest-waiting RECV. -/
  | channelPacketArrival (packet : Nat)
  /-- REMOTE_FE_REQUEST (R156). A remote full/empty operation arrives, is served, parked, or NACKed when the park entries are full. -/
  | remoteFeRequest (packet : Nat)
  /-- FE_NACK_RETRY (R156). 32 cycles after a NACK the requester retries; the 1,024th NACK traps FERETRY. -/
  | feNackRetry (core slot : Nat)
  /-- ENGINE_ENTRY_START (R174). A queue starts its next entry once the entries ahead and any fences are complete. -/
  | engineEntryStart (core queue rows : Nat)
  /-- ENGINE_ENTRY_COMPLETE (R175). An engine entry ends and its handle becomes complete with DONE and STATUS. -/
  | engineEntryComplete (core queue : Nat)
  /-- TASK_TAKE (R177). A free slot takes the top deque record and starts it by R81. -/
  | taskTake (core : Nat)
  /-- STEAL_ROUND (R177). An idle slot with an empty deque steals from plot cores, on a push or after 256 cycles. -/
  | stealRound (core slot : Nat)
  /-- PAGE_FAULT_REQUEST (R231). The die control core maps the faulted page or forwards it to the host, then sends a completion notice. -/
  | pageFaultRequest (part : Nat) (token : BitVec 32) (frame : Option Nat)
  /-- PAGE_MIGRATION (R232). Firmware holds writes, copies a page, switches the leaf and releases the held writes. -/
  | pageMigration (part : Nat) (va : Word) (frame : Nat)
  /-- DEVELOPMENT_SLOT_TIMEOUT (R251). When no slot becomes free within 64 cycles the development runs in the requester's slot, parking its state. -/
  | developmentSlotTimeout (core slot : Nat)
  /-- ROUTER_PACKET_FORWARD (R311). A router arbitrates and forwards a packet towards its destination. -/
  | routerPacketForward (router net : Nat) (out : MeshPort)
  /-- VAULT_BANK_ACCESS (R315). A ready bank's scheduler chooses a queued request by draw and performs it. -/
  | vaultBankAccess (vault bank : Nat)
  /-- VAULT_REFRESH (R315). A bank spends one refresh of at most 113 cycles in each 3.9 µs window. -/
  | vaultRefresh (vault bank cycles : Nat)
  /-- SCRUB_VISIT (R327). A scrubber reads and checks a line, correcting or poisoning it. -/
  | scrubVisit (vaultSide : Bool) (line : Nat) (found : EccFinding)
  /-- LANE_START (R80). Dispatch starts an idle slot whose bind record became valid, running the binding step first. -/
  | laneStart (core slot : Nat)
  /-- LAUNCH_COMPLETE (R335). When every completion condition holds, firmware clears the records and sends the completion record. -/
  | launchComplete (part : Nat) (launch : BitVec 32)
  /-- WATCHDOG_EXPIRY (R384). The watchdog count reaches WDOG; the launch completes OK or is contained with WATCHDOG. -/
  | watchdogExpiry (part : Nat) (launch : BitVec 32)
  /-- CONTAINMENT (R329). Firmware fences, stops and resets a plot and sends its completion record. -/
  | containment (part : Nat) (launch : BitVec 32) (why : ContainCause) (detail : Word)
  /-- IE_STOP_TIMEOUT (R95). An asynchronous stop waiting for IE proceeds after 4,096 cycles. -/
  | ieStopTimeout (core slot : Nat)
  /-- PREEMPTION (R352). Firmware stops a whole core, drains it and streams its context to a free core or the vault. -/
  | preemption (core : Nat) (dest : Option Nat)
  /-- FORWARDED_REQUEST (R353). A request reaching a vacated core is passed on to the context's new core in arrival order. -/
  | forwardedRequest (packet : Nat)
  /-- CONTEXT_RETRY_NACK (R354). A request to a context resting in the vault is NACKed and repeated every 32 cycles. -/
  | contextRetryNack (packet : Nat)
  /-- CONTEXT_RESTORE (R355). Checks capw, loads a context, refetches staged frames, updates maps and resumes the slots. -/
  | contextRestore (part position core : Nat)
  /-- THERMAL_RANKING (R358). Every 100 µs each die ranks its cores by temperature. -/
  | thermalRanking (die : Nat) (temps : List (Nat × Nat))
  /-- THERMAL_SLOT_DISABLE (R358). Every 10 µs above the limit one more slot is disabled and its state moved to a guest slot. -/
  | thermalSlotDisable (core : Nat)
  /-- THERMAL_SLOT_ENABLE (R358). Every 10 µs below the limit minus 5 °C one slot is re-enabled and its guest returns. -/
  | thermalSlotEnable (core : Nat)
  /-- SUBMISSION_DOORBELL (R375). A host write to a queue's submission tail doorbell, ignored and reported when out of range. -/
  | submissionDoorbell (fn index value : Nat)
  /-- COMPLETION_DOORBELL (R375). A host write to a queue's completion head doorbell frees ring entries. -/
  | completionDoorbell (fn index value : Nat)
  /-- ADMIN_DOORBELL (R375). A host write to an admin queue doorbell submits Tabhus commands. -/
  | adminDoorbell (fn : Nat) (completion : Bool) (value : Nat)
  /-- LAUNCH_RECORD_FETCH (R422). The SMC fetches a launch record, numbers it and runs the first-stage checks. -/
  | launchRecordFetch (queue : Nat)
  /-- PLACEMENT_ATTEMPT (R336). Firmware tries to place a waiting launch, running the second-stage checks, when plots free up. -/
  | placementAttempt (part : Nat) (launch : BitVec 32) (row col lanes : Nat)
  /-- COMPLETION_ENTRY_WRITE (R380). The SMC writes a completion, message or event entry when the ring has room and raises MSI-X. -/
  | completionEntryWrite (queue : Nat)
  /-- PARTITION_CREATE (R387). Creates a partition on unowned clusters, zeroing vaults and generating its memory key. -/
  | partitionCreate (cmd : Cmd) (params : PartitionParams)
  /-- PARTITION_RESIZE (R356). Changes a partition's clusters by pre-empting, writing back, migrating and restoring. -/
  | partitionResize (cmd : Cmd) (vf : Nat) (clusters : BitVec 64)
  /-- PARTITION_DESTROY (R387). Kills every launch, zeroes vaults, erases keys and seeds and frees the clusters. -/
  | partitionDestroy (cmd : Cmd) (vf : Nat)
  /-- OWNER_CREATE (R423). Creates or replaces an owner with a seed and zeroed counters. -/
  | ownerCreate (cmd : Cmd) (vf owner : Nat) (seed : BitVec 128)
  /-- QUEUE_CREATE (R376). Creates or replaces a hardware queue with its rings, owner, die and vector. -/
  | queueCreate (cmd : Cmd) (params : QueueParams)
  /-- KEY_BIND (R391). Binds an SM4 key to a handle of the session's partition. -/
  | keyBind (cmd : Cmd) (session handle : Nat) (key : BitVec 128)
  /-- MAP_MAP (R424). Maps a VA to a pool page or named PA with owner and rights. -/
  | mapMap (cmd : Cmd) (vf : Nat) (va : Word) (owner : Nat) (rights : BitVec 3) (frame : Nat) (fromPool : Bool)
  /-- MAP_UNMAP (R424). Unmaps a page, refusing pages of recorded or pinned lines, and purges as TLBI. -/
  | mapUnmap (cmd : Cmd) (vf : Nat) (va : Word)
  /-- MAP_REGION_ENTRY (R387). Writes a region attribute entry with the checks of RAFW. -/
  | mapRegionEntry (cmd : Cmd) (vf : Nat) (index : BitVec 4) (value : Word)
  /-- MAP_IMPORT (R392). Decrypts host pages with SM4-GCM into sealed device pages. -/
  | mapImport (cmd : Cmd) (vf hostAddr handle : Nat) (iv : BitVec 96) (gcmTag : BitVec 128) (va : Word) (len : Nat)
  /-- MAP_EXPORT (R392). Writes device pages to the host, encrypted when sealed. -/
  | mapExport (cmd : Cmd) (vf : Nat) (va : Word) (hostAddr len handle : Nat) (iv : BitVec 96)
  /-- MAP_LOAD (R393). Copies plaintext host pages into device pages through the home slices. -/
  | mapLoad (cmd : Cmd) (vf hostAddr : Nat) (va : Word) (len : Nat)
  /-- CONTEXT_SAVE (R352). Pre-empts named positions or the whole partition to the vault. -/
  | contextSave (cmd : Cmd) (vf : Nat) (positions : List Nat)
  /-- DEBUG_HALT (R360). Halts named lanes at an instruction boundary, optionally holding the watchdog or killing. -/
  | debugHalt (cmd : Cmd) (vf : Nat) (launch : BitVec 32) (lanes : List Nat) (hold kill : Bool)
  /-- DEBUG_RESUME (R360). Returns halted lanes to the rotation and releases the watchdog hold. -/
  | debugResume (cmd : Cmd) (vf : Nat) (launch : BitVec 32) (lanes : List Nat)
  /-- ECC_MODE (R326). Changes the partition's L2 between SECDED and strong correction. -/
  | eccMode (cmd : Cmd) (vf : Nat) (strong : Bool)
  /-- POWER_POLICY (R387). Sets the slice column mask, lowest power state, thermal limit and power cap. -/
  | powerPolicy (cmd : Cmd) (params : PowerParams)
  /-- TELEMETRY (R387). Returns error counts, temperatures, power and disabled units. -/
  | telemetry (cmd : Cmd)
  /-- GET_VERSION (R389). SPDM request for supported versions. -/
  | getVersion (port : SpdmPort)
  /-- GET_CAPABILITIES (R389). SPDM request for capabilities. -/
  | getCapabilities (port : SpdmPort)
  /-- NEGOTIATE_ALGORITHMS (R389). SPDM algorithm negotiation. -/
  | negotiateAlgorithms (port : SpdmPort) (asym hash dhe aead : Bool)
  /-- GET_DIGESTS (R389). SPDM request for certificate digests. -/
  | getDigests (port : SpdmPort)
  /-- GET_CERTIFICATE (R389). SPDM request for the certificate chain. -/
  | getCertificate (port : SpdmPort) (slot offset len : Nat)
  /-- CHALLENGE (R389). SPDM challenge-response authentication. -/
  | challenge (port : SpdmPort) (slot : Nat) (nonce : BitVec 256)
  /-- GET_MEASUREMENTS (R390). SPDM request for the firmware and configuration measurements. -/
  | getMeasurements (port : SpdmPort) (index : Nat)
  /-- KEY_EXCHANGE (R389). SPDM session key exchange. -/
  | keyExchange (port : SpdmPort) (slot : Nat) (peerKey : BitVec 512)
  /-- FINISH (R389). SPDM session finish. -/
  | finish (port : SpdmPort) (session : Nat) (verify : BitVec 256)
  /-- HEARTBEAT (R389). SPDM session heartbeat. -/
  | heartbeat (port : SpdmPort) (session : Nat)
  /-- KEY_UPDATE (R389). SPDM session key update. -/
  | keyUpdate (port : SpdmPort) (session : Nat)
  /-- END_SESSION (R389). SPDM session end. -/
  | endSession (port : SpdmPort) (session : Nat)
  /-- VENDOR_DEFINED_REQUEST (R389). SPDM vendor-defined request carrying KEY_BIND. -/
  | vendorDefinedRequest (port : SpdmPort) (session handle : Nat) (key : BitVec 128)
  /-- FIRMWARE_UPDATE (R397). Stages a signed firmware image for activation at the next reset. -/
  | firmwareUpdate (port : SpdmPort) (version : Nat) (digest : BitVec 256) (signature : BitVec 512)
  /-- PACKAGE_RESET (R400). Cold or package reset: verifies firmware, trains bridges, zeroes vaults and opens the link. -/
  | packageReset (failedBridges : List Nat)
  /-- FUNCTION_LEVEL_RESET (R401). FLR of a VF kills its launches and destroys its queues, owners and keys. -/
  | functionLevelReset (fn : Nat)
  /-- THERMAL_RESET (R399). At 110 °C the SMC resets the package, losing every launch. -/
  | thermalReset
  /-- POWER_STATE_CHANGE (R398). A die enters the lowest allowed state or wakes on a doorbell, fabric request or side-band command. -/
  | powerStateChange (die : Nat) (wake : Bool)
  /-- REGISTER_WRITE (R408). Write to a BAR register with no behaviour of its own, such as PKGID, partition and route entries. -/
  | registerWrite (fn bar offset : Nat) (value : Word)
  /-- PORT_RATE_WRITE (R405). A write to a port's RATE bit retrains the port. -/
  | portRateWrite (port : Nat) (rate : Bool)
  /-- LINK_FLIT_RECEIVE (R406). A Relran flit arrives, is checked, acknowledged or triggers replay. -/
  | linkFlitReceive (port : Nat) (seq : BitVec 16) (crcOk : Bool) (ack : BitVec 16)
  /-- KEEPALIVE_SEND (R406). An idle link sends a keep-alive flit every 10 µs. -/
  | keepaliveSend (port : Nat)
  /-- LINK_DOWN (R418). A link is declared down after 8 failures or 100 µs silence; routes are updated. -/
  | linkDown (port : Nat)
  /-- FABRIC_REQUEST_ARRIVAL (R416). A fabric request arrives at the target and is performed, replayed from the window or discarded. -/
  | fabricRequestArrival (req : FabricReq)
  /-- REQUEST_RETRANSMIT (R416). A fabric request unanswered after 20 µs is sent again with the same sequence number. -/
  | requestRetransmit (target : Nat) (seq : BitVec 32)
  /-- SEQUENCE_ACK_KEEPALIVE (R415). After 20 µs a keep-alive packet carries the source's cumulative acknowledgements. -/
  | sequenceAckKeepalive (target : Nat)
  /-- PACKAGE_FAILURE_DECLARED (R418). A package is declared failed on announcement or 200 ms without a route, and is fenced. -/
  | packageFailureDeclared (package : Nat)
  /-- FABRIC_FAILURE_ANSWER (R419). By t0 + 1 s every outstanding request to the failed package is answered FABRIC. -/
  | fabricFailureAnswer (package : Nat)
  /-- ILLEGAL_ENCODING (R43). A fetched encoding that is not an instruction traps ILL with no effect. -/
  | illegalEncoding (w : BitVec 32)
  /-- FETCH_FAULT (R26). A fetch that fails on either half-word traps with EPC = PC before anything is decoded. -/
  | fetchFault (cause : FetchCause) (addr : Word)
  /-- L2_SLICE_REQUEST (R320). A home slice takes one request per cycle by draw on structure 4, then recalls, registers, fills, places or performs an atomic. -/
  | l2SliceRequest (slice : Nat)
  /-- REMOTE_PORT_ACCESS (R160). A peer-tray load, store or atomic arrives at the target core's remote port, is served at its bank and answered or acknowledged. -/
  | remotePortAccess (packet : Nat)
  /-- RELRAN_PORT_ARBITRATION (R320). A Relran port makes one decision per packet by draw on structure 9 and sends it on a route choice. -/
  | relranPortArbitration (port : Nat)
  /-- HOST_INTERFACE_TRANSFER (R320). The host interface arbitrates one 256-byte transfer by draw on structure 8 and performs it. -/
  | hostInterfaceTransfer
  /-- LINK_TRAINING_COMPLETE (R405). A Relran port finishes training and comes up on 4 or 2 lanes, or stays down, with LANES reported. -/
  | linkTrainingComplete (port lanes : Nat)
  /-- BRIDGE_FLIT_REPLAY (R313). A die-to-die bridge detects a CRC failure on a flit and replays it from its link-level buffer. -/
  | bridgeFlitReplay (edge bridge : Nat)
  /-- IDE_KM_REQUEST (R395). An IDE_KM key-exchange message sets up a PCIe IDE selective stream for a function. -/
  | ideKmRequest (fn : Nat) (stream : BitVec 8) (key : BitVec 256)
  deriving DecidableEq, Repr

end Sys2Proof
end

