-- ==== Sys2Proof/WellFormed.lean ====
section
/-!
DEFINITION. Which terms of `Instr` are instructions: the operand rules of R27, R40-R43 that the field types of the syntax
do not already say. An encoded instruction is well formed when every sub-code it carries is one its entry accepts; the
events of the part carry no encoding and are always well formed as syntax.
-/
namespace Sys2Proof

/-- The float lane types (R41, R135). -/
def LaneType.isFloat : LaneType → Bool
  | .i32 => false
  | .f32 | .bf16x2 | .f16x2 | .f64 => true

/-- The types RED.ADD, RED.MIN and RED.MAX accept (R41). -/
def LaneType.reduces : LaneType → Bool
  | .i32 | .f32 | .f64 => true
  | .bf16x2 | .f16x2 => false

/-- The types FRCP and FRSQ accept (R41). -/
def LaneType.estimates : LaneType → Bool
  | .f32 | .f64 => true
  | .i32 | .bf16x2 | .f16x2 => false

/-- The conditions VCMP accepts for a type (R40): i32 takes eq to leu, f32 and f64 take eq to le and unordered. -/
def LaneType.compares : LaneType → VCond → Bool
  | .i32, c => c != .uno
  | .f32, c | .f64, c => c == .eq || c == .ne || c == .lt || c == .le || c == .uno
  | .bf16x2, _ | .f16x2, _ => false

/-- The control register numbers R42 assigns. -/
def ctlAssigned (r : BitVec 6) : Bool :=
  let n := r.toNat
  n ≤ 18 || n == 32 || n == 33 || (40 ≤ n && n ≤ 47)

/-- The operand rules of every instruction (R27, R38-R43). -/
def Instr.wf : Instr → Bool
  | .add _ _ _ => true
  | .sub _ _ _ => true
  | .mul _ _ _ => true
  | .mulh _ _ _ => true
  | .mulhu _ _ _ => true
  | .div _ _ _ => true
  | .divu _ _ _ => true
  | .rem _ _ _ => true
  | .remu _ _ _ => true
  | .and _ _ _ => true
  | .or _ _ _ => true
  | .xor _ _ _ => true
  | .andn _ _ _ => true
  | .shl _ _ _ => true
  | .shr _ _ _ => true
  | .sar _ _ _ => true
  | .rol _ _ _ => true
  | .min _ _ _ => true
  | .minu _ _ _ => true
  | .max _ _ _ => true
  | .maxu _ _ _ => true
  | .clz _ _ => true
  | .popc _ _ => true
  | .sextB _ _ => true
  | .sextH _ _ => true
  | .sextW _ _ => true
  | .lea1 _ _ _ => true
  | .lea2 _ _ _ => true
  | .lea4 _ _ _ => true
  | .lea8 _ _ _ => true
  | .mov _ _ => true
  | .ptag _ _ _ => true
  | .cMov _ _ => true
  | .cAdd _ _ => true
  | .cSub _ _ => true
  | .cMul _ _ => true
  | .cAnd _ _ => true
  | .cOr _ _ => true
  | .cXor _ _ => true
  | .cShl _ _ => true
  | .cShr _ _ => true
  | .cSar _ _ => true
  | .cMin _ _ => true
  | .cMax _ _ => true
  | .cVmov d s => !(d == 0 && s == 0)
  | .cVaddI32 _ _ => true
  | .cVsubI32 _ _ => true
  | .cVmulI32 _ _ => true
  | .cVand _ _ => true
  | .cVor _ _ => true
  | .cVxor _ _ => true
  | .cVshl _ _ => true
  | .cVshr _ _ => true
  | .cVsar _ _ => true
  | .cVminI32 _ _ => true
  | .cVmaxI32 _ _ => true
  | .cVaddF32 _ _ => true
  | .cVsubF32 _ _ => true
  | .cVmulF32 _ _ => true
  | .cVmaxF32 _ _ => true
  | .addi _ _ _ => true
  | .andi _ _ _ => true
  | .ori _ _ _ => true
  | .xori _ _ _ => true
  | .shli _ _ _ => true
  | .shri _ _ _ => true
  | .sari _ _ _ => true
  | .li _ _ => true
  | .liu _ _ => true
  | .bfx _ _ p l => p.toNat + l.toNat + 1 ≤ 64
  | .bfi _ _ p l => p.toNat + l.toNat + 1 ≤ 64
  | .cmp _ _ _ _ => true
  | .cmpi _ _ _ _ => true
  | .plogAnd _ _ _ => true
  | .plogOr _ _ _ => true
  | .plogXor _ _ _ => true
  | .plogAndn _ _ _ => true
  | .plogNot _ _ => true
  | .plogSet _ => true
  | .plogClr _ => true
  | .sel _ _ _ _ _ => true
  | .br q n _ => q.toNat ≤ 8 && !(n && q == 8)
  | .jal _ _ => true
  | .jalr _ _ _ => true
  | .loop _ _ => true
  | .exit => true
  | .yield => true
  | .vadd _ _ _ _ => true
  | .vsub _ _ _ _ => true
  | .vmul _ _ _ _ => true
  | .vmulh _ _ _ => true
  | .vmin _ _ _ _ => true
  | .vmax _ _ _ _ => true
  | .vminu _ _ _ => true
  | .vmaxu _ _ _ => true
  | .vand _ _ _ => true
  | .vor _ _ _ => true
  | .vxor _ _ _ => true
  | .vandn _ _ _ => true
  | .vshl _ _ _ => true
  | .vshr _ _ _ => true
  | .vsar _ _ _ => true
  | .vabs _ _ _ => true
  | .vneg _ _ _ => true
  | .vmov _ _ => true
  | .vsel _ _ _ => true
  | .vperm _ _ _ => true
  | .vbc _ _ => true
  | .vredAdd _ _ t => t.reduces
  | .vredMin _ _ t => t.reduces
  | .vredMax _ _ t => t.reduces
  | .vfma _ _ _ t => t.isFloat
  | .vfrcp _ _ t => t.estimates
  | .vfrsq _ _ t => t.estimates
  | .vcmp _ _ c _ t => t.compares c
  | .vext _ _ _ => true
  | .vins _ _ _ => true
  | .vcvt _ _ b _ _ f => f != .fp4s && b != .fp4s
  | .ld _ _ _ _ _ => true
  | .st _ _ _ _ _ => true
  | .ldv _ _ _ _ => true
  | .stv _ _ _ _ => true
  | .ldb _ _ _ _ _ => true
  | .ldc _ _ _ _ _ => true
  | .ldfe _ _ _ _ => true
  | .stfe _ _ _ _ => true
  | .ldff _ _ _ _ => true
  | .feset _ _ _ => true
  | .ldg _ _ _ z => z != .d
  | .sts _ _ _ z => z != .d
  | .pref h _ _ => h.toNat ≤ 3 || (8 ≤ h.toNat && h.toNat ≤ 15)
  | .amoAdd _ _ _ _ => true
  | .amoAnd _ _ _ _ => true
  | .amoOr _ _ _ _ => true
  | .amoXor _ _ _ _ => true
  | .amoMin _ _ _ _ => true
  | .amoMax _ _ _ _ => true
  | .amoMinu _ _ _ _ => true
  | .amoMaxu _ _ _ _ => true
  | .amoSwap _ _ _ _ => true
  | .amof _ _ _ _ => true
  | .cas _ _ _ _ => true
  | .lda _ _ _ _ => true
  | .stl _ _ _ _ => true
  | .facq => true
  | .frel => true
  | .fseq => true
  | .fcon => true
  | .cpy _ _ _ _ _ _ _ => true
  | .gth _ _ _ _ _ _ => true
  | .fwait _ => true
  | .ftest _ _ => true
  | .fcan _ => true
  | .fmov _ _ => true
  | .qfn m => m != 0
  | .spawn _ _ => true
  | .jinit _ _ => true
  | .enq _ _ => true
  | .deq _ => true
  | .qst _ _ => true
  | .fork _ _ => true
  | .join _ _ => true
  | .send _ _ => true
  | .recv _ _ => true
  | .recvt _ _ _ => true
  | .tld _ _ _ _ => true
  | .tst _ _ _ _ => true
  | .mwl _ _ => true
  | .mst _ _ c _ => 1 ≤ c.toNat && c.toNat ≤ 8
  | .acz _ _ => true
  | .acld _ _ => true
  | .acst _ _ f _ _ => f != .fp4s
  | .act _ _ _ c u => !(u == .scale && c == .i32)
  | .acadd _ _ _ => true
  | .tzr _ => true
  | .mstat _ _ => true
  | .rrec _ _ => true
  | .rfix _ => true
  | .rdrop _ => true
  | .rqry _ _ => true
  | .rdev _ => true
  | .rdevV _ _ => true
  | .rlat _ => true
  | .seedrd _ _ => true
  | .reseed _ _ => true
  | .xqry _ _ _ => true
  | .xobs _ _ => true
  | .garr _ => true
  | .gwt _ => true
  | .gbar _ => true
  | .gqry _ _ => true
  | .tlbi _ _ => true
  | .rafw _ _ => true
  | .trap _ => true
  | .tret => true
  | .uret => true
  | .rdc _ r => ctlAssigned r
  | .wrc _ r => ctlAssigned r
  | .rdp _ => true
  | .wrp _ => true
  | .brk => true
  | .hmsg _ _ => true
  | .divideResultWrite _ _ => true
  | .yieldExpiry _ _ => true
  | .memoryReply _ _ _ => true
  | .remoteStoreAck _ _ => true
  | .fp6Emulation _ _ => true
  | .matrixOpComplete _ _ => true
  | .channelPacketArrival _ => true
  | .remoteFeRequest _ => true
  | .feNackRetry _ _ => true
  | .engineEntryStart _ _ _ => true
  | .engineEntryComplete _ _ => true
  | .taskTake _ => true
  | .stealRound _ _ => true
  | .pageFaultRequest _ _ _ => true
  | .pageMigration _ _ _ => true
  | .developmentSlotTimeout _ _ => true
  | .routerPacketForward _ _ _ => true
  | .vaultBankAccess _ _ => true
  | .vaultRefresh _ _ _ => true
  | .scrubVisit _ _ _ => true
  | .laneStart _ _ => true
  | .launchComplete _ _ => true
  | .watchdogExpiry _ _ => true
  | .containment _ _ _ _ => true
  | .ieStopTimeout _ _ => true
  | .preemption _ _ => true
  | .forwardedRequest _ => true
  | .contextRetryNack _ => true
  | .contextRestore _ _ _ => true
  | .thermalRanking _ _ => true
  | .thermalSlotDisable _ => true
  | .thermalSlotEnable _ => true
  | .submissionDoorbell _ _ _ => true
  | .completionDoorbell _ _ _ => true
  | .adminDoorbell _ _ _ => true
  | .launchRecordFetch _ => true
  | .placementAttempt _ _ _ _ _ => true
  | .completionEntryWrite _ => true
  | .partitionCreate _ _ => true
  | .partitionResize _ _ _ => true
  | .partitionDestroy _ _ => true
  | .ownerCreate _ _ _ _ => true
  | .queueCreate _ _ => true
  | .keyBind _ _ _ _ => true
  | .mapMap _ _ _ _ _ _ _ => true
  | .mapUnmap _ _ _ => true
  | .mapRegionEntry _ _ _ _ => true
  | .mapImport _ _ _ _ _ _ _ _ => true
  | .mapExport _ _ _ _ _ _ _ => true
  | .mapLoad _ _ _ _ _ => true
  | .contextSave _ _ _ => true
  | .debugHalt _ _ _ _ _ _ => true
  | .debugResume _ _ _ _ => true
  | .eccMode _ _ _ => true
  | .powerPolicy _ _ => true
  | .telemetry _ => true
  | .getVersion _ => true
  | .getCapabilities _ => true
  | .negotiateAlgorithms _ _ _ _ _ => true
  | .getDigests _ => true
  | .getCertificate _ _ _ _ => true
  | .challenge _ _ _ => true
  | .getMeasurements _ _ => true
  | .keyExchange _ _ _ => true
  | .finish _ _ _ => true
  | .heartbeat _ _ => true
  | .keyUpdate _ _ => true
  | .endSession _ _ => true
  | .vendorDefinedRequest _ _ _ _ => true
  | .firmwareUpdate _ _ _ _ => true
  | .packageReset _ => true
  | .functionLevelReset _ => true
  | .thermalReset => true
  | .powerStateChange _ _ => true
  | .registerWrite _ _ _ _ => true
  | .portRateWrite _ _ => true
  | .linkFlitReceive _ _ _ _ => true
  | .keepaliveSend _ => true
  | .linkDown _ => true
  | .fabricRequestArrival _ => true
  | .requestRetransmit _ _ => true
  | .sequenceAckKeepalive _ => true
  | .packageFailureDeclared _ => true
  | .fabricFailureAnswer _ => true
  | .illegalEncoding _ => true
  | .fetchFault _ _ => true
  | .l2SliceRequest _ => true
  | .remotePortAccess _ => true
  | .relranPortArbitration _ => true
  | .hostInterfaceTransfer => true
  | .linkTrainingComplete _ _ => true
  | .bridgeFlitReplay _ _ => true
  | .ideKmRequest _ _ _ => true

/-- Whether a term is one of the part's events, which have no encoding (spec/opcode_table.json's rows without bits). -/
def Instr.isEvent : Instr → Bool
  | .add _ _ _ => false
  | .sub _ _ _ => false
  | .mul _ _ _ => false
  | .mulh _ _ _ => false
  | .mulhu _ _ _ => false
  | .div _ _ _ => false
  | .divu _ _ _ => false
  | .rem _ _ _ => false
  | .remu _ _ _ => false
  | .and _ _ _ => false
  | .or _ _ _ => false
  | .xor _ _ _ => false
  | .andn _ _ _ => false
  | .shl _ _ _ => false
  | .shr _ _ _ => false
  | .sar _ _ _ => false
  | .rol _ _ _ => false
  | .min _ _ _ => false
  | .minu _ _ _ => false
  | .max _ _ _ => false
  | .maxu _ _ _ => false
  | .clz _ _ => false
  | .popc _ _ => false
  | .sextB _ _ => false
  | .sextH _ _ => false
  | .sextW _ _ => false
  | .lea1 _ _ _ => false
  | .lea2 _ _ _ => false
  | .lea4 _ _ _ => false
  | .lea8 _ _ _ => false
  | .mov _ _ => false
  | .ptag _ _ _ => false
  | .cMov _ _ => false
  | .cAdd _ _ => false
  | .cSub _ _ => false
  | .cMul _ _ => false
  | .cAnd _ _ => false
  | .cOr _ _ => false
  | .cXor _ _ => false
  | .cShl _ _ => false
  | .cShr _ _ => false
  | .cSar _ _ => false
  | .cMin _ _ => false
  | .cMax _ _ => false
  | .cVmov _ _ => false
  | .cVaddI32 _ _ => false
  | .cVsubI32 _ _ => false
  | .cVmulI32 _ _ => false
  | .cVand _ _ => false
  | .cVor _ _ => false
  | .cVxor _ _ => false
  | .cVshl _ _ => false
  | .cVshr _ _ => false
  | .cVsar _ _ => false
  | .cVminI32 _ _ => false
  | .cVmaxI32 _ _ => false
  | .cVaddF32 _ _ => false
  | .cVsubF32 _ _ => false
  | .cVmulF32 _ _ => false
  | .cVmaxF32 _ _ => false
  | .addi _ _ _ => false
  | .andi _ _ _ => false
  | .ori _ _ _ => false
  | .xori _ _ _ => false
  | .shli _ _ _ => false
  | .shri _ _ _ => false
  | .sari _ _ _ => false
  | .li _ _ => false
  | .liu _ _ => false
  | .bfx _ _ _ _ => false
  | .bfi _ _ _ _ => false
  | .cmp _ _ _ _ => false
  | .cmpi _ _ _ _ => false
  | .plogAnd _ _ _ => false
  | .plogOr _ _ _ => false
  | .plogXor _ _ _ => false
  | .plogAndn _ _ _ => false
  | .plogNot _ _ => false
  | .plogSet _ => false
  | .plogClr _ => false
  | .sel _ _ _ _ _ => false
  | .br _ _ _ => false
  | .jal _ _ => false
  | .jalr _ _ _ => false
  | .loop _ _ => false
  | .exit => false
  | .yield => false
  | .vadd _ _ _ _ => false
  | .vsub _ _ _ _ => false
  | .vmul _ _ _ _ => false
  | .vmulh _ _ _ => false
  | .vmin _ _ _ _ => false
  | .vmax _ _ _ _ => false
  | .vminu _ _ _ => false
  | .vmaxu _ _ _ => false
  | .vand _ _ _ => false
  | .vor _ _ _ => false
  | .vxor _ _ _ => false
  | .vandn _ _ _ => false
  | .vshl _ _ _ => false
  | .vshr _ _ _ => false
  | .vsar _ _ _ => false
  | .vabs _ _ _ => false
  | .vneg _ _ _ => false
  | .vmov _ _ => false
  | .vsel _ _ _ => false
  | .vperm _ _ _ => false
  | .vbc _ _ => false
  | .vredAdd _ _ _ => false
  | .vredMin _ _ _ => false
  | .vredMax _ _ _ => false
  | .vfma _ _ _ _ => false
  | .vfrcp _ _ _ => false
  | .vfrsq _ _ _ => false
  | .vcmp _ _ _ _ _ => false
  | .vext _ _ _ => false
  | .vins _ _ _ => false
  | .vcvt _ _ _ _ _ _ => false
  | .ld _ _ _ _ _ => false
  | .st _ _ _ _ _ => false
  | .ldv _ _ _ _ => false
  | .stv _ _ _ _ => false
  | .ldb _ _ _ _ _ => false
  | .ldc _ _ _ _ _ => false
  | .ldfe _ _ _ _ => false
  | .stfe _ _ _ _ => false
  | .ldff _ _ _ _ => false
  | .feset _ _ _ => false
  | .ldg _ _ _ _ => false
  | .sts _ _ _ _ => false
  | .pref _ _ _ => false
  | .amoAdd _ _ _ _ => false
  | .amoAnd _ _ _ _ => false
  | .amoOr _ _ _ _ => false
  | .amoXor _ _ _ _ => false
  | .amoMin _ _ _ _ => false
  | .amoMax _ _ _ _ => false
  | .amoMinu _ _ _ _ => false
  | .amoMaxu _ _ _ _ => false
  | .amoSwap _ _ _ _ => false
  | .amof _ _ _ _ => false
  | .cas _ _ _ _ => false
  | .lda _ _ _ _ => false
  | .stl _ _ _ _ => false
  | .facq => false
  | .frel => false
  | .fseq => false
  | .fcon => false
  | .cpy _ _ _ _ _ _ _ => false
  | .gth _ _ _ _ _ _ => false
  | .fwait _ => false
  | .ftest _ _ => false
  | .fcan _ => false
  | .fmov _ _ => false
  | .qfn _ => false
  | .spawn _ _ => false
  | .jinit _ _ => false
  | .enq _ _ => false
  | .deq _ => false
  | .qst _ _ => false
  | .fork _ _ => false
  | .join _ _ => false
  | .send _ _ => false
  | .recv _ _ => false
  | .recvt _ _ _ => false
  | .tld _ _ _ _ => false
  | .tst _ _ _ _ => false
  | .mwl _ _ => false
  | .mst _ _ _ _ => false
  | .acz _ _ => false
  | .acld _ _ => false
  | .acst _ _ _ _ _ => false
  | .act _ _ _ _ _ => false
  | .acadd _ _ _ => false
  | .tzr _ => false
  | .mstat _ _ => false
  | .rrec _ _ => false
  | .rfix _ => false
  | .rdrop _ => false
  | .rqry _ _ => false
  | .rdev _ => false
  | .rdevV _ _ => false
  | .rlat _ => false
  | .seedrd _ _ => false
  | .reseed _ _ => false
  | .xqry _ _ _ => false
  | .xobs _ _ => false
  | .garr _ => false
  | .gwt _ => false
  | .gbar _ => false
  | .gqry _ _ => false
  | .tlbi _ _ => false
  | .rafw _ _ => false
  | .trap _ => false
  | .tret => false
  | .uret => false
  | .rdc _ _ => false
  | .wrc _ _ => false
  | .rdp _ => false
  | .wrp _ => false
  | .brk => false
  | .hmsg _ _ => false
  | .divideResultWrite _ _ => true
  | .yieldExpiry _ _ => true
  | .memoryReply _ _ _ => true
  | .remoteStoreAck _ _ => true
  | .fp6Emulation _ _ => true
  | .matrixOpComplete _ _ => true
  | .channelPacketArrival _ => true
  | .remoteFeRequest _ => true
  | .feNackRetry _ _ => true
  | .engineEntryStart _ _ _ => true
  | .engineEntryComplete _ _ => true
  | .taskTake _ => true
  | .stealRound _ _ => true
  | .pageFaultRequest _ _ _ => true
  | .pageMigration _ _ _ => true
  | .developmentSlotTimeout _ _ => true
  | .routerPacketForward _ _ _ => true
  | .vaultBankAccess _ _ => true
  | .vaultRefresh _ _ _ => true
  | .scrubVisit _ _ _ => true
  | .laneStart _ _ => true
  | .launchComplete _ _ => true
  | .watchdogExpiry _ _ => true
  | .containment _ _ _ _ => true
  | .ieStopTimeout _ _ => true
  | .preemption _ _ => true
  | .forwardedRequest _ => true
  | .contextRetryNack _ => true
  | .contextRestore _ _ _ => true
  | .thermalRanking _ _ => true
  | .thermalSlotDisable _ => true
  | .thermalSlotEnable _ => true
  | .submissionDoorbell _ _ _ => true
  | .completionDoorbell _ _ _ => true
  | .adminDoorbell _ _ _ => true
  | .launchRecordFetch _ => true
  | .placementAttempt _ _ _ _ _ => true
  | .completionEntryWrite _ => true
  | .partitionCreate _ _ => true
  | .partitionResize _ _ _ => true
  | .partitionDestroy _ _ => true
  | .ownerCreate _ _ _ _ => true
  | .queueCreate _ _ => true
  | .keyBind _ _ _ _ => true
  | .mapMap _ _ _ _ _ _ _ => true
  | .mapUnmap _ _ _ => true
  | .mapRegionEntry _ _ _ _ => true
  | .mapImport _ _ _ _ _ _ _ _ => true
  | .mapExport _ _ _ _ _ _ _ => true
  | .mapLoad _ _ _ _ _ => true
  | .contextSave _ _ _ => true
  | .debugHalt _ _ _ _ _ _ => true
  | .debugResume _ _ _ _ => true
  | .eccMode _ _ _ => true
  | .powerPolicy _ _ => true
  | .telemetry _ => true
  | .getVersion _ => true
  | .getCapabilities _ => true
  | .negotiateAlgorithms _ _ _ _ _ => true
  | .getDigests _ => true
  | .getCertificate _ _ _ _ => true
  | .challenge _ _ _ => true
  | .getMeasurements _ _ => true
  | .keyExchange _ _ _ => true
  | .finish _ _ _ => true
  | .heartbeat _ _ => true
  | .keyUpdate _ _ => true
  | .endSession _ _ => true
  | .vendorDefinedRequest _ _ _ _ => true
  | .firmwareUpdate _ _ _ _ => true
  | .packageReset _ => true
  | .functionLevelReset _ => true
  | .thermalReset => true
  | .powerStateChange _ _ => true
  | .registerWrite _ _ _ _ => true
  | .portRateWrite _ _ => true
  | .linkFlitReceive _ _ _ _ => true
  | .keepaliveSend _ => true
  | .linkDown _ => true
  | .fabricRequestArrival _ => true
  | .requestRetransmit _ _ => true
  | .sequenceAckKeepalive _ => true
  | .packageFailureDeclared _ => true
  | .fabricFailureAnswer _ => true
  | .illegalEncoding _ => true
  | .fetchFault _ _ => true
  | .l2SliceRequest _ => true
  | .remotePortAccess _ => true
  | .relranPortArbitration _ => true
  | .hostInterfaceTransfer => true
  | .linkTrainingComplete _ _ => true
  | .bridgeFlitReplay _ _ => true
  | .ideKmRequest _ _ _ => true

end Sys2Proof
end

