-- ==== Sys2Proof/Decode.lean ====
section
/-!
DEFINITION. The decoder, total on any bytes, and after it the encoder. A field is read by position out of the instruction
word (R28-R37); a row of the opcode map (R38, R40-R42) is recognised by its fixed fields and refuses an operand field
that R43 makes illegal. Every refusal is named.
-/
namespace Sys2Proof

/-- Why bytes are not an instruction. Each reason but `truncated` is an encoding that traps ILL (R43). -/
inductive DecodeError where
  /-- Fewer bytes than the first half-word's length bit asks for (R25). -/
  | truncated
  /-- The half-word 0x0000 (R39). -/
  | zeroHalfWord
  /-- A C16 form with k = 1 and op4 12-15 (R38). -/
  | c16Unassigned
  /-- A major opcode that R40 leaves unassigned. -/
  | reservedMajor (maj : Nat)
  /-- A sub-code that is not assigned, or a reserved-zero field that is not zero (R40, R43). -/
  | reservedField (maj : Nat)
  /-- An operand field outside what the instruction accepts (R27, R41-R43). -/
  | operand (maj : Nat)
  deriving DecidableEq, Repr

/-- Bits [hi:lo] of an instruction word, as a number. -/
def fieldOf (w hi lo : Nat) : Nat := w / 2 ^ lo % 2 ^ (hi + 1 - lo)

/-- A field of n bits as a bit vector. -/
def fieldBits (w hi lo n : Nat) : BitVec n := BitVec.ofNat n (fieldOf w hi lo)

/-- A one-bit field. -/
def fieldBool (w bit : Nat) : Bool := fieldOf w bit bit == 1

/-- A format code (R51). -/
def Fmt.ofCode : Nat → Option Fmt
  | 0 => some .fp64 | 1 => some .fp32 | 2 => some .bf16 | 3 => some .fp16 | 4 => some .fp8e4 | 5 => some .fp8e5
  | 6 => some .fp6e3 | 7 => some .fp6e2 | 8 => some .fp4 | 9 => some .fp4s | 10 => some .i8 | 11 => some .n8
  | 12 => some .i4 | 13 => some .n4 | _ => none

/-- The code of a format (R51). -/
def Fmt.code : Fmt → Nat
  | .fp64 => 0 | .fp32 => 1 | .bf16 => 2 | .fp16 => 3 | .fp8e4 => 4 | .fp8e5 => 5 | .fp6e3 => 6 | .fp6e2 => 7
  | .fp4 => 8 | .fp4s => 9 | .i8 => 10 | .n8 => 11 | .i4 => 12 | .n4 => 13

def LaneType.ofCode : Nat → Option LaneType
  | 0 => some .i32 | 1 => some .f32 | 2 => some .bf16x2 | 3 => some .f16x2 | 4 => some .f64 | _ => none

def LaneType.code : LaneType → Nat
  | .i32 => 0 | .f32 => 1 | .bf16x2 => 2 | .f16x2 => 3 | .f64 => 4

def Size.ofCode : Nat → Option Size
  | 0 => some .b | 1 => some .h | 2 => some .w | 3 => some .d | _ => none

def Size.code : Size → Nat
  | .b => 0 | .h => 1 | .w => 2 | .d => 3

def Cond.ofCode : Nat → Option Cond
  | 0 => some .eq | 1 => some .ne | 2 => some .lt | 3 => some .le | 4 => some .ltu | 5 => some .leu | _ => none

def Cond.code : Cond → Nat
  | .eq => 0 | .ne => 1 | .lt => 2 | .le => 3 | .ltu => 4 | .leu => 5

def VCond.ofCode : Nat → Option VCond
  | 0 => some .eq | 1 => some .ne | 2 => some .lt | 3 => some .le | 4 => some .ltu | 5 => some .leu | 6 => some .uno
  | _ => none

def VCond.code : VCond → Nat
  | .eq => 0 | .ne => 1 | .lt => 2 | .le => 3 | .ltu => 4 | .leu => 5 | .uno => 6

def Rounding.ofCode : Nat → Option Rounding
  | 0 => some .rne | 1 => some .rtz | 2 => some .rdn | 3 => some .rup | 4 => some .sr | _ => none

def Rounding.code : Rounding → Nat
  | .rne => 0 | .rtz => 1 | .rdn => 2 | .rup => 3 | .sr => 4

def AccClass.ofCode : Nat → Option AccClass
  | 0 => some .f32 | 1 => some .f64 | 2 => some .i32 | _ => none

def AccClass.code : AccClass → Nat
  | .f32 => 0 | .f64 => 1 | .i32 => 2

def ActFn.ofCode : Nat → Option ActFn
  | 0 => some .scale | 1 => some .min | 2 => some .max | _ => none

def ActFn.code : ActFn → Nat
  | .scale => 0 | .min => 1 | .max => 2

/-- A five-bit field that names one of eight tiles or predicates: 8-31 is refused (R27). -/
def eightOf (n : Nat) : Option (BitVec 3) := if n < 8 then some (BitVec.ofNat 3 n) else none

/-- The C16 operations with k = 1, scalar registers (R38). -/
def decodeC16Scalar (w : Nat) : Option Instr :=
  match fieldOf w 4 1 with
  | 0 => some (.cMov (fieldBits w 9 5 5) (fieldBits w 14 10 5))
  | 1 => some (.cAdd (fieldBits w 9 5 5) (fieldBits w 14 10 5))
  | 2 => some (.cSub (fieldBits w 9 5 5) (fieldBits w 14 10 5))
  | 3 => some (.cMul (fieldBits w 9 5 5) (fieldBits w 14 10 5))
  | 4 => some (.cAnd (fieldBits w 9 5 5) (fieldBits w 14 10 5))
  | 5 => some (.cOr (fieldBits w 9 5 5) (fieldBits w 14 10 5))
  | 6 => some (.cXor (fieldBits w 9 5 5) (fieldBits w 14 10 5))
  | 7 => some (.cShl (fieldBits w 9 5 5) (fieldBits w 14 10 5))
  | 8 => some (.cShr (fieldBits w 9 5 5) (fieldBits w 14 10 5))
  | 9 => some (.cSar (fieldBits w 9 5 5) (fieldBits w 14 10 5))
  | 10 => some (.cMin (fieldBits w 9 5 5) (fieldBits w 14 10 5))
  | 11 => some (.cMax (fieldBits w 9 5 5) (fieldBits w 14 10 5))
  | _ => none

/-- The C16 operations with k = 0, vector registers (R38). -/
def decodeC16Lane (w : Nat) : Option Instr :=
  match fieldOf w 4 1 with
  | 0 => some (.cVmov (fieldBits w 9 5 5) (fieldBits w 14 10 5))
  | 1 => some (.cVaddI32 (fieldBits w 9 5 5) (fieldBits w 14 10 5))
  | 2 => some (.cVsubI32 (fieldBits w 9 5 5) (fieldBits w 14 10 5))
  | 3 => some (.cVmulI32 (fieldBits w 9 5 5) (fieldBits w 14 10 5))
  | 4 => some (.cVand (fieldBits w 9 5 5) (fieldBits w 14 10 5))
  | 5 => some (.cVor (fieldBits w 9 5 5) (fieldBits w 14 10 5))
  | 6 => some (.cVxor (fieldBits w 9 5 5) (fieldBits w 14 10 5))
  | 7 => some (.cVshl (fieldBits w 9 5 5) (fieldBits w 14 10 5))
  | 8 => some (.cVshr (fieldBits w 9 5 5) (fieldBits w 14 10 5))
  | 9 => some (.cVsar (fieldBits w 9 5 5) (fieldBits w 14 10 5))
  | 10 => some (.cVminI32 (fieldBits w 9 5 5) (fieldBits w 14 10 5))
  | 11 => some (.cVmaxI32 (fieldBits w 9 5 5) (fieldBits w 14 10 5))
  | 12 => some (.cVaddF32 (fieldBits w 9 5 5) (fieldBits w 14 10 5))
  | 13 => some (.cVsubF32 (fieldBits w 9 5 5) (fieldBits w 14 10 5))
  | 14 => some (.cVmulF32 (fieldBits w 9 5 5) (fieldBits w 14 10 5))
  | 15 => some (.cVmaxF32 (fieldBits w 9 5 5) (fieldBits w 14 10 5))
  | _ => none

/-- Major opcode 0x00 (R40): ADD, SUB, MUL, MULH, MULHU, DIV, DIVU, REM, REMU, AND, OR, XOR, ANDN, SHL, SHR, SAR, ROL, MIN, MINU, MAX, MAXU, CLZ, POPC, SEXT_B, SEXT_H, SEXT_W, LEA_1, LEA_2, LEA_4, LEA_8, MOV, PTAG. The outer option is none when no assigned sub-code with zero
reserved fields matches, the inner one when an operand field is illegal. -/
def decodeMajor00 (w : Nat) : Option (Option Instr) :=
  if fieldOf w 31 22 = 0 then some (some (.add (fieldBits w 11 7 5) (fieldBits w 16 12 5) (fieldBits w 21 17 5)))
  else if fieldOf w 31 22 = 1 then some (some (.sub (fieldBits w 11 7 5) (fieldBits w 16 12 5) (fieldBits w 21 17 5)))
  else if fieldOf w 31 22 = 2 then some (some (.mul (fieldBits w 11 7 5) (fieldBits w 16 12 5) (fieldBits w 21 17 5)))
  else if fieldOf w 31 22 = 3 then some (some (.mulh (fieldBits w 11 7 5) (fieldBits w 16 12 5) (fieldBits w 21 17 5)))
  else if fieldOf w 31 22 = 4 then some (some (.mulhu (fieldBits w 11 7 5) (fieldBits w 16 12 5) (fieldBits w 21 17 5)))
  else if fieldOf w 31 22 = 5 then some (some (.div (fieldBits w 11 7 5) (fieldBits w 16 12 5) (fieldBits w 21 17 5)))
  else if fieldOf w 31 22 = 6 then some (some (.divu (fieldBits w 11 7 5) (fieldBits w 16 12 5) (fieldBits w 21 17 5)))
  else if fieldOf w 31 22 = 7 then some (some (.rem (fieldBits w 11 7 5) (fieldBits w 16 12 5) (fieldBits w 21 17 5)))
  else if fieldOf w 31 22 = 8 then some (some (.remu (fieldBits w 11 7 5) (fieldBits w 16 12 5) (fieldBits w 21 17 5)))
  else if fieldOf w 31 22 = 9 then some (some (.and (fieldBits w 11 7 5) (fieldBits w 16 12 5) (fieldBits w 21 17 5)))
  else if fieldOf w 31 22 = 10 then some (some (.or (fieldBits w 11 7 5) (fieldBits w 16 12 5) (fieldBits w 21 17 5)))
  else if fieldOf w 31 22 = 11 then some (some (.xor (fieldBits w 11 7 5) (fieldBits w 16 12 5) (fieldBits w 21 17 5)))
  else if fieldOf w 31 22 = 12 then some (some (.andn (fieldBits w 11 7 5) (fieldBits w 16 12 5) (fieldBits w 21 17 5)))
  else if fieldOf w 31 22 = 13 then some (some (.shl (fieldBits w 11 7 5) (fieldBits w 16 12 5) (fieldBits w 21 17 5)))
  else if fieldOf w 31 22 = 14 then some (some (.shr (fieldBits w 11 7 5) (fieldBits w 16 12 5) (fieldBits w 21 17 5)))
  else if fieldOf w 31 22 = 15 then some (some (.sar (fieldBits w 11 7 5) (fieldBits w 16 12 5) (fieldBits w 21 17 5)))
  else if fieldOf w 31 22 = 16 then some (some (.rol (fieldBits w 11 7 5) (fieldBits w 16 12 5) (fieldBits w 21 17 5)))
  else if fieldOf w 31 22 = 17 then some (some (.min (fieldBits w 11 7 5) (fieldBits w 16 12 5) (fieldBits w 21 17 5)))
  else if fieldOf w 31 22 = 18 then some (some (.minu (fieldBits w 11 7 5) (fieldBits w 16 12 5) (fieldBits w 21 17 5)))
  else if fieldOf w 31 22 = 19 then some (some (.max (fieldBits w 11 7 5) (fieldBits w 16 12 5) (fieldBits w 21 17 5)))
  else if fieldOf w 31 22 = 20 then some (some (.maxu (fieldBits w 11 7 5) (fieldBits w 16 12 5) (fieldBits w 21 17 5)))
  else if fieldOf w 31 17 = 672 then some (some (.clz (fieldBits w 11 7 5) (fieldBits w 16 12 5)))
  else if fieldOf w 31 17 = 704 then some (some (.popc (fieldBits w 11 7 5) (fieldBits w 16 12 5)))
  else if fieldOf w 31 17 = 736 then some (some (.sextB (fieldBits w 11 7 5) (fieldBits w 16 12 5)))
  else if fieldOf w 31 17 = 768 then some (some (.sextH (fieldBits w 11 7 5) (fieldBits w 16 12 5)))
  else if fieldOf w 31 17 = 800 then some (some (.sextW (fieldBits w 11 7 5) (fieldBits w 16 12 5)))
  else if fieldOf w 31 22 = 26 then some (some (.lea1 (fieldBits w 11 7 5) (fieldBits w 16 12 5) (fieldBits w 21 17 5)))
  else if fieldOf w 31 22 = 27 then some (some (.lea2 (fieldBits w 11 7 5) (fieldBits w 16 12 5) (fieldBits w 21 17 5)))
  else if fieldOf w 31 22 = 28 then some (some (.lea4 (fieldBits w 11 7 5) (fieldBits w 16 12 5) (fieldBits w 21 17 5)))
  else if fieldOf w 31 22 = 29 then some (some (.lea8 (fieldBits w 11 7 5) (fieldBits w 16 12 5) (fieldBits w 21 17 5)))
  else if fieldOf w 31 17 = 960 then some (some (.mov (fieldBits w 11 7 5) (fieldBits w 16 12 5)))
  else if fieldOf w 31 22 = 31 then some (some (.ptag (fieldBits w 11 7 5) (fieldBits w 16 12 5) (fieldBits w 21 17 5)))
  else none

/-- Major opcode 0x01 (R40): ADDI. The outer option is none when no assigned sub-code with zero
reserved fields matches, the inner one when an operand field is illegal. -/
def decodeMajor01 (w : Nat) : Option (Option Instr) :=
  some (some (.addi (fieldBits w 11 7 5) (fieldBits w 16 12 5) (fieldBits w 31 17 15)))

/-- Major opcode 0x02 (R40): ANDI. The outer option is none when no assigned sub-code with zero
reserved fields matches, the inner one when an operand field is illegal. -/
def decodeMajor02 (w : Nat) : Option (Option Instr) :=
  some (some (.andi (fieldBits w 11 7 5) (fieldBits w 16 12 5) (fieldBits w 31 17 15)))

/-- Major opcode 0x03 (R40): ORI. The outer option is none when no assigned sub-code with zero
reserved fields matches, the inner one when an operand field is illegal. -/
def decodeMajor03 (w : Nat) : Option (Option Instr) :=
  some (some (.ori (fieldBits w 11 7 5) (fieldBits w 16 12 5) (fieldBits w 31 17 15)))

/-- Major opcode 0x04 (R40): XORI. The outer option is none when no assigned sub-code with zero
reserved fields matches, the inner one when an operand field is illegal. -/
def decodeMajor04 (w : Nat) : Option (Option Instr) :=
  some (some (.xori (fieldBits w 11 7 5) (fieldBits w 16 12 5) (fieldBits w 31 17 15)))

/-- Major opcode 0x05 (R40): SHLI. The outer option is none when no assigned sub-code with zero
reserved fields matches, the inner one when an operand field is illegal. -/
def decodeMajor05 (w : Nat) : Option (Option Instr) :=
  if fieldOf w 31 23 = 0 then some (some (.shli (fieldBits w 11 7 5) (fieldBits w 16 12 5) (fieldBits w 22 17 6)))
  else none

/-- Major opcode 0x06 (R40): SHRI. The outer option is none when no assigned sub-code with zero
reserved fields matches, the inner one when an operand field is illegal. -/
def decodeMajor06 (w : Nat) : Option (Option Instr) :=
  if fieldOf w 31 23 = 0 then some (some (.shri (fieldBits w 11 7 5) (fieldBits w 16 12 5) (fieldBits w 22 17 6)))
  else none

/-- Major opcode 0x07 (R40): SARI. The outer option is none when no assigned sub-code with zero
reserved fields matches, the inner one when an operand field is illegal. -/
def decodeMajor07 (w : Nat) : Option (Option Instr) :=
  if fieldOf w 31 23 = 0 then some (some (.sari (fieldBits w 11 7 5) (fieldBits w 16 12 5) (fieldBits w 22 17 6)))
  else none

/-- Major opcode 0x08 (R40): LI. The outer option is none when no assigned sub-code with zero
reserved fields matches, the inner one when an operand field is illegal. -/
def decodeMajor08 (w : Nat) : Option (Option Instr) :=
  if fieldOf w 16 12 = 0 then some (some (.li (fieldBits w 11 7 5) (fieldBits w 31 17 15)))
  else none

/-- Major opcode 0x09 (R40): LIU. The outer option is none when no assigned sub-code with zero
reserved fields matches, the inner one when an operand field is illegal. -/
def decodeMajor09 (w : Nat) : Option (Option Instr) :=
  some (some (.liu (fieldBits w 11 7 5) (fieldBits w 31 12 20)))

/-- Major opcode 0x0A (R40): BFX. The outer option is none when no assigned sub-code with zero
reserved fields matches, the inner one when an operand field is illegal. -/
def decodeMajor0A (w : Nat) : Option (Option Instr) :=
  if fieldOf w 31 29 = 0 then some (some (.bfx (fieldBits w 11 7 5) (fieldBits w 16 12 5) (fieldBits w 22 17 6) (fieldBits w 28 23 6)))
  else none

/-- Major opcode 0x0B (R40): BFI. The outer option is none when no assigned sub-code with zero
reserved fields matches, the inner one when an operand field is illegal. -/
def decodeMajor0B (w : Nat) : Option (Option Instr) :=
  if fieldOf w 31 29 = 0 then some (some (.bfi (fieldBits w 11 7 5) (fieldBits w 16 12 5) (fieldBits w 22 17 6) (fieldBits w 28 23 6)))
  else none

/-- Major opcode 0x0C (R40): CMP. The outer option is none when no assigned sub-code with zero
reserved fields matches, the inner one when an operand field is illegal. -/
def decodeMajor0C (w : Nat) : Option (Option Instr) :=
  if fieldOf w 11 10 = 0 ∧ fieldOf w 31 25 = 0 then some ((Cond.ofCode (fieldOf w 24 22)).bind fun c' => some (.cmp (fieldBits w 9 7 3) (fieldBits w 16 12 5) (fieldBits w 21 17 5) c'))
  else none

/-- Major opcode 0x0D (R40): CMPI. The outer option is none when no assigned sub-code with zero
reserved fields matches, the inner one when an operand field is illegal. -/
def decodeMajor0D (w : Nat) : Option (Option Instr) :=
  some ((eightOf (fieldOf w 11 7)).bind fun q' => ((Cond.ofCode (fieldOf w 19 17)).bind fun c' => some (.cmpi q' (fieldBits w 16 12 5) c' (fieldBits w 31 20 12))))

/-- Major opcode 0x0E (R40): PLOG_AND, PLOG_OR, PLOG_XOR, PLOG_ANDN, PLOG_NOT, PLOG_SET, PLOG_CLR. The outer option is none when no assigned sub-code with zero
reserved fields matches, the inner one when an operand field is illegal. -/
def decodeMajor0E (w : Nat) : Option (Option Instr) :=
  if fieldOf w 31 22 = 0 then some ((eightOf (fieldOf w 11 7)).bind fun d' => ((eightOf (fieldOf w 16 12)).bind fun a' => ((eightOf (fieldOf w 21 17)).bind fun b' => some (.plogAnd d' a' b'))))
  else if fieldOf w 31 22 = 1 then some ((eightOf (fieldOf w 11 7)).bind fun d' => ((eightOf (fieldOf w 16 12)).bind fun a' => ((eightOf (fieldOf w 21 17)).bind fun b' => some (.plogOr d' a' b'))))
  else if fieldOf w 31 22 = 2 then some ((eightOf (fieldOf w 11 7)).bind fun d' => ((eightOf (fieldOf w 16 12)).bind fun a' => ((eightOf (fieldOf w 21 17)).bind fun b' => some (.plogXor d' a' b'))))
  else if fieldOf w 31 22 = 3 then some ((eightOf (fieldOf w 11 7)).bind fun d' => ((eightOf (fieldOf w 16 12)).bind fun a' => ((eightOf (fieldOf w 21 17)).bind fun b' => some (.plogAndn d' a' b'))))
  else if fieldOf w 31 17 = 128 then some ((eightOf (fieldOf w 11 7)).bind fun d' => ((eightOf (fieldOf w 16 12)).bind fun a' => some (.plogNot d' a')))
  else if fieldOf w 31 12 = 5120 then some ((eightOf (fieldOf w 11 7)).bind fun d' => some (.plogSet d'))
  else if fieldOf w 31 12 = 6144 then some ((eightOf (fieldOf w 11 7)).bind fun d' => some (.plogClr d'))
  else none

/-- Major opcode 0x0F (R40): SEL. The outer option is none when no assigned sub-code with zero
reserved fields matches, the inner one when an operand field is illegal. -/
def decodeMajor0F (w : Nat) : Option (Option Instr) :=
  if fieldOf w 31 26 = 0 then some (some (.sel (fieldBits w 11 7 5) (fieldBits w 16 12 5) (fieldBits w 21 17 5) (fieldBits w 24 22 3) (fieldBool w 25)))
  else none

/-- Major opcode 0x10 (R40): BR. The outer option is none when no assigned sub-code with zero
reserved fields matches, the inner one when an operand field is illegal. -/
def decodeMajor10 (w : Nat) : Option (Option Instr) :=
  some (some (.br (fieldBits w 10 7 4) (fieldBool w 11) (fieldBits w 31 12 20)))

/-- Major opcode 0x11 (R40): JAL. The outer option is none when no assigned sub-code with zero
reserved fields matches, the inner one when an operand field is illegal. -/
def decodeMajor11 (w : Nat) : Option (Option Instr) :=
  some (some (.jal (fieldBits w 11 7 5) (fieldBits w 31 12 20)))

/-- Major opcode 0x12 (R40): JALR. The outer option is none when no assigned sub-code with zero
reserved fields matches, the inner one when an operand field is illegal. -/
def decodeMajor12 (w : Nat) : Option (Option Instr) :=
  some (some (.jalr (fieldBits w 11 7 5) (fieldBits w 16 12 5) (fieldBits w 31 17 15)))

/-- Major opcode 0x13 (R40): LOOP. The outer option is none when no assigned sub-code with zero
reserved fields matches, the inner one when an operand field is illegal. -/
def decodeMajor13 (w : Nat) : Option (Option Instr) :=
  if fieldOf w 11 7 = 0 then some (some (.loop (fieldBits w 16 12 5) (fieldBits w 31 17 15)))
  else none

/-- Major opcode 0x14 (R40): EXIT, YIELD. The outer option is none when no assigned sub-code with zero
reserved fields matches, the inner one when an operand field is illegal. -/
def decodeMajor14 (w : Nat) : Option (Option Instr) :=
  if fieldOf w 31 7 = 0 then some (some .exit)
  else if fieldOf w 31 7 = 32768 then some (some .yield)
  else none

/-- Major opcode 0x18 (R40): VADD, VSUB, VMUL, VMULH, VMIN, VMAX, VMINU, VMAXU, VAND, VOR, VXOR, VANDN, VSHL, VSHR, VSAR, VABS, VNEG, VMOV, VSEL, VPERM, VBC, VRED_ADD, VRED_MIN, VRED_MAX, VFMA, VFRCP, VFRSQ. The outer option is none when no assigned sub-code with zero
reserved fields matches, the inner one when an operand field is illegal. -/
def decodeMajor18 (w : Nat) : Option (Option Instr) :=
  if fieldOf w 27 22 = 0 then some ((LaneType.ofCode (fieldOf w 31 28)).bind fun t' => some (.vadd (fieldBits w 11 7 5) (fieldBits w 16 12 5) (fieldBits w 21 17 5) t'))
  else if fieldOf w 27 22 = 1 then some ((LaneType.ofCode (fieldOf w 31 28)).bind fun t' => some (.vsub (fieldBits w 11 7 5) (fieldBits w 16 12 5) (fieldBits w 21 17 5) t'))
  else if fieldOf w 27 22 = 2 then some ((LaneType.ofCode (fieldOf w 31 28)).bind fun t' => some (.vmul (fieldBits w 11 7 5) (fieldBits w 16 12 5) (fieldBits w 21 17 5) t'))
  else if fieldOf w 31 22 = 3 then some (some (.vmulh (fieldBits w 11 7 5) (fieldBits w 16 12 5) (fieldBits w 21 17 5)))
  else if fieldOf w 27 22 = 4 then some ((LaneType.ofCode (fieldOf w 31 28)).bind fun t' => some (.vmin (fieldBits w 11 7 5) (fieldBits w 16 12 5) (fieldBits w 21 17 5) t'))
  else if fieldOf w 27 22 = 5 then some ((LaneType.ofCode (fieldOf w 31 28)).bind fun t' => some (.vmax (fieldBits w 11 7 5) (fieldBits w 16 12 5) (fieldBits w 21 17 5) t'))
  else if fieldOf w 31 22 = 6 then some (some (.vminu (fieldBits w 11 7 5) (fieldBits w 16 12 5) (fieldBits w 21 17 5)))
  else if fieldOf w 31 22 = 7 then some (some (.vmaxu (fieldBits w 11 7 5) (fieldBits w 16 12 5) (fieldBits w 21 17 5)))
  else if fieldOf w 31 22 = 8 then some (some (.vand (fieldBits w 11 7 5) (fieldBits w 16 12 5) (fieldBits w 21 17 5)))
  else if fieldOf w 31 22 = 9 then some (some (.vor (fieldBits w 11 7 5) (fieldBits w 16 12 5) (fieldBits w 21 17 5)))
  else if fieldOf w 31 22 = 10 then some (some (.vxor (fieldBits w 11 7 5) (fieldBits w 16 12 5) (fieldBits w 21 17 5)))
  else if fieldOf w 31 22 = 11 then some (some (.vandn (fieldBits w 11 7 5) (fieldBits w 16 12 5) (fieldBits w 21 17 5)))
  else if fieldOf w 31 22 = 12 then some (some (.vshl (fieldBits w 11 7 5) (fieldBits w 16 12 5) (fieldBits w 21 17 5)))
  else if fieldOf w 31 22 = 13 then some (some (.vshr (fieldBits w 11 7 5) (fieldBits w 16 12 5) (fieldBits w 21 17 5)))
  else if fieldOf w 31 22 = 14 then some (some (.vsar (fieldBits w 11 7 5) (fieldBits w 16 12 5) (fieldBits w 21 17 5)))
  else if fieldOf w 27 17 = 480 then some ((LaneType.ofCode (fieldOf w 31 28)).bind fun t' => some (.vabs (fieldBits w 11 7 5) (fieldBits w 16 12 5) t'))
  else if fieldOf w 27 17 = 512 then some ((LaneType.ofCode (fieldOf w 31 28)).bind fun t' => some (.vneg (fieldBits w 11 7 5) (fieldBits w 16 12 5) t'))
  else if fieldOf w 31 17 = 544 then some (some (.vmov (fieldBits w 11 7 5) (fieldBits w 16 12 5)))
  else if fieldOf w 31 22 = 18 then some (some (.vsel (fieldBits w 11 7 5) (fieldBits w 16 12 5) (fieldBits w 21 17 5)))
  else if fieldOf w 31 22 = 19 then some (some (.vperm (fieldBits w 11 7 5) (fieldBits w 16 12 5) (fieldBits w 21 17 5)))
  else if fieldOf w 31 17 = 640 then some (some (.vbc (fieldBits w 11 7 5) (fieldBits w 16 12 5)))
  else if fieldOf w 27 17 = 672 then some ((LaneType.ofCode (fieldOf w 31 28)).bind fun t' => some (.vredAdd (fieldBits w 11 7 5) (fieldBits w 16 12 5) t'))
  else if fieldOf w 27 17 = 704 then some ((LaneType.ofCode (fieldOf w 31 28)).bind fun t' => some (.vredMin (fieldBits w 11 7 5) (fieldBits w 16 12 5) t'))
  else if fieldOf w 27 17 = 736 then some ((LaneType.ofCode (fieldOf w 31 28)).bind fun t' => some (.vredMax (fieldBits w 11 7 5) (fieldBits w 16 12 5) t'))
  else if fieldOf w 27 22 = 32 then some ((LaneType.ofCode (fieldOf w 31 28)).bind fun t' => some (.vfma (fieldBits w 11 7 5) (fieldBits w 16 12 5) (fieldBits w 21 17 5) t'))
  else if fieldOf w 27 17 = 1056 then some ((LaneType.ofCode (fieldOf w 31 28)).bind fun t' => some (.vfrcp (fieldBits w 11 7 5) (fieldBits w 16 12 5) t'))
  else if fieldOf w 27 17 = 1088 then some ((LaneType.ofCode (fieldOf w 31 28)).bind fun t' => some (.vfrsq (fieldBits w 11 7 5) (fieldBits w 16 12 5) t'))
  else none

/-- Major opcode 0x19 (R40): VCMP. The outer option is none when no assigned sub-code with zero
reserved fields matches, the inner one when an operand field is illegal. -/
def decodeMajor19 (w : Nat) : Option (Option Instr) :=
  if fieldOf w 11 7 = 0 ∧ fieldOf w 27 26 = 0 then some ((VCond.ofCode (fieldOf w 24 22)).bind fun c' => ((LaneType.ofCode (fieldOf w 31 28)).bind fun t' => some (.vcmp (fieldBits w 16 12 5) (fieldBits w 21 17 5) c' (fieldBool w 25) t')))
  else none

/-- Major opcode 0x1A (R40): VEXT, VINS. The outer option is none when no assigned sub-code with zero
reserved fields matches, the inner one when an operand field is illegal. -/
def decodeMajor1A (w : Nat) : Option (Option Instr) :=
  if fieldOf w 31 21 = 0 then some (some (.vext (fieldBits w 11 7 5) (fieldBits w 16 12 5) (fieldBits w 20 17 4)))
  else if fieldOf w 31 21 = 1024 then some (some (.vins (fieldBits w 11 7 5) (fieldBits w 16 12 5) (fieldBits w 20 17 4)))
  else none

/-- Major opcode 0x1B (R40): VCVT. The outer option is none when no assigned sub-code with zero
reserved fields matches, the inner one when an operand field is illegal. -/
def decodeMajor1B (w : Nat) : Option (Option Instr) :=
  if fieldOf w 26 26 = 0 then some ((Fmt.ofCode (fieldOf w 21 17)).bind fun b' => ((Rounding.ofCode (fieldOf w 24 22)).bind fun r' => ((Fmt.ofCode (fieldOf w 31 27)).bind fun f' => some (.vcvt (fieldBits w 11 7 5) (fieldBits w 16 12 5) b' r' (fieldBool w 25) f'))))
  else none

/-- Major opcode 0x20 (R40): LD. The outer option is none when no assigned sub-code with zero
reserved fields matches, the inner one when an operand field is illegal. -/
def decodeMajor20 (w : Nat) : Option (Option Instr) :=
  some ((Size.ofCode (fieldOf w 18 17)).bind fun z' => some (.ld (fieldBits w 11 7 5) (fieldBits w 16 12 5) z' (fieldBool w 19) (fieldBits w 31 20 12)))

/-- Major opcode 0x21 (R40): ST. The outer option is none when no assigned sub-code with zero
reserved fields matches, the inner one when an operand field is illegal. -/
def decodeMajor21 (w : Nat) : Option (Option Instr) :=
  some ((Size.ofCode (fieldOf w 18 17)).bind fun z' => some (.st (fieldBits w 11 7 5) (fieldBits w 16 12 5) z' (fieldBool w 19) (fieldBits w 31 20 12)))

/-- Major opcode 0x22 (R40): LDV. The outer option is none when no assigned sub-code with zero
reserved fields matches, the inner one when an operand field is illegal. -/
def decodeMajor22 (w : Nat) : Option (Option Instr) :=
  if fieldOf w 18 17 = 2 then some (some (.ldv (fieldBits w 11 7 5) (fieldBits w 16 12 5) (fieldBool w 19) (fieldBits w 31 20 12)))
  else none

/-- Major opcode 0x23 (R40): STV. The outer option is none when no assigned sub-code with zero
reserved fields matches, the inner one when an operand field is illegal. -/
def decodeMajor23 (w : Nat) : Option (Option Instr) :=
  if fieldOf w 18 17 = 2 then some (some (.stv (fieldBits w 11 7 5) (fieldBits w 16 12 5) (fieldBool w 19) (fieldBits w 31 20 12)))
  else none

/-- Major opcode 0x24 (R40): LDB. The outer option is none when no assigned sub-code with zero
reserved fields matches, the inner one when an operand field is illegal. -/
def decodeMajor24 (w : Nat) : Option (Option Instr) :=
  some ((Size.ofCode (fieldOf w 18 17)).bind fun z' => some (.ldb (fieldBits w 11 7 5) (fieldBits w 16 12 5) z' (fieldBool w 19) (fieldBits w 31 20 12)))

/-- Major opcode 0x25 (R40): LDC. The outer option is none when no assigned sub-code with zero
reserved fields matches, the inner one when an operand field is illegal. -/
def decodeMajor25 (w : Nat) : Option (Option Instr) :=
  some ((Size.ofCode (fieldOf w 18 17)).bind fun z' => some (.ldc (fieldBits w 11 7 5) (fieldBits w 16 12 5) z' (fieldBool w 19) (fieldBits w 31 20 12)))

/-- Major opcode 0x26 (R40): LDFE. The outer option is none when no assigned sub-code with zero
reserved fields matches, the inner one when an operand field is illegal. -/
def decodeMajor26 (w : Nat) : Option (Option Instr) :=
  if fieldOf w 18 17 = 2 then some (some (.ldfe (fieldBits w 11 7 5) (fieldBits w 16 12 5) (fieldBool w 19) (fieldBits w 31 20 12)))
  else none

/-- Major opcode 0x27 (R40): STFE. The outer option is none when no assigned sub-code with zero
reserved fields matches, the inner one when an operand field is illegal. -/
def decodeMajor27 (w : Nat) : Option (Option Instr) :=
  if fieldOf w 18 17 = 2 then some (some (.stfe (fieldBits w 11 7 5) (fieldBits w 16 12 5) (fieldBool w 19) (fieldBits w 31 20 12)))
  else none

/-- Major opcode 0x28 (R40): LDFF. The outer option is none when no assigned sub-code with zero
reserved fields matches, the inner one when an operand field is illegal. -/
def decodeMajor28 (w : Nat) : Option (Option Instr) :=
  if fieldOf w 18 17 = 2 then some (some (.ldff (fieldBits w 11 7 5) (fieldBits w 16 12 5) (fieldBool w 19) (fieldBits w 31 20 12)))
  else none

/-- Major opcode 0x29 (R40): FESET. The outer option is none when no assigned sub-code with zero
reserved fields matches, the inner one when an operand field is illegal. -/
def decodeMajor29 (w : Nat) : Option (Option Instr) :=
  if fieldOf w 11 7 = 0 ∧ fieldOf w 31 23 = 0 then some (some (.feset (fieldBits w 16 12 5) (fieldBits w 21 17 5) (fieldBool w 22)))
  else none

/-- Major opcode 0x2A (R40): LDG. The outer option is none when no assigned sub-code with zero
reserved fields matches, the inner one when an operand field is illegal. -/
def decodeMajor2A (w : Nat) : Option (Option Instr) :=
  if fieldOf w 31 24 = 0 then some ((Size.ofCode (fieldOf w 23 22)).bind fun z' => some (.ldg (fieldBits w 11 7 5) (fieldBits w 16 12 5) (fieldBits w 21 17 5) z'))
  else none

/-- Major opcode 0x2B (R40): STS. The outer option is none when no assigned sub-code with zero
reserved fields matches, the inner one when an operand field is illegal. -/
def decodeMajor2B (w : Nat) : Option (Option Instr) :=
  if fieldOf w 31 24 = 0 then some ((Size.ofCode (fieldOf w 23 22)).bind fun z' => some (.sts (fieldBits w 11 7 5) (fieldBits w 16 12 5) (fieldBits w 21 17 5) z'))
  else none

/-- Major opcode 0x2C (R40): PREF. The outer option is none when no assigned sub-code with zero
reserved fields matches, the inner one when an operand field is illegal. -/
def decodeMajor2C (w : Nat) : Option (Option Instr) :=
  if fieldOf w 19 17 = 0 then some (some (.pref (fieldBits w 11 7 5) (fieldBits w 16 12 5) (fieldBits w 31 20 12)))
  else none

/-- Major opcode 0x2D (R40): AMO_ADD, AMO_AND, AMO_OR, AMO_XOR, AMO_MIN, AMO_MAX, AMO_MINU, AMO_MAXU, AMO_SWAP, AMOF. The outer option is none when no assigned sub-code with zero
reserved fields matches, the inner one when an operand field is illegal. -/
def decodeMajor2D (w : Nat) : Option (Option Instr) :=
  if fieldOf w 25 22 = 0 ∧ fieldOf w 31 27 = 0 then some (some (.amoAdd (fieldBits w 11 7 5) (fieldBits w 16 12 5) (fieldBits w 21 17 5) (fieldBool w 26)))
  else if fieldOf w 25 22 = 1 ∧ fieldOf w 31 27 = 0 then some (some (.amoAnd (fieldBits w 11 7 5) (fieldBits w 16 12 5) (fieldBits w 21 17 5) (fieldBool w 26)))
  else if fieldOf w 25 22 = 2 ∧ fieldOf w 31 27 = 0 then some (some (.amoOr (fieldBits w 11 7 5) (fieldBits w 16 12 5) (fieldBits w 21 17 5) (fieldBool w 26)))
  else if fieldOf w 25 22 = 3 ∧ fieldOf w 31 27 = 0 then some (some (.amoXor (fieldBits w 11 7 5) (fieldBits w 16 12 5) (fieldBits w 21 17 5) (fieldBool w 26)))
  else if fieldOf w 25 22 = 4 ∧ fieldOf w 31 27 = 0 then some (some (.amoMin (fieldBits w 11 7 5) (fieldBits w 16 12 5) (fieldBits w 21 17 5) (fieldBool w 26)))
  else if fieldOf w 25 22 = 5 ∧ fieldOf w 31 27 = 0 then some (some (.amoMax (fieldBits w 11 7 5) (fieldBits w 16 12 5) (fieldBits w 21 17 5) (fieldBool w 26)))
  else if fieldOf w 25 22 = 6 ∧ fieldOf w 31 27 = 0 then some (some (.amoMinu (fieldBits w 11 7 5) (fieldBits w 16 12 5) (fieldBits w 21 17 5) (fieldBool w 26)))
  else if fieldOf w 25 22 = 7 ∧ fieldOf w 31 27 = 0 then some (some (.amoMaxu (fieldBits w 11 7 5) (fieldBits w 16 12 5) (fieldBits w 21 17 5) (fieldBool w 26)))
  else if fieldOf w 25 22 = 8 ∧ fieldOf w 31 27 = 0 then some (some (.amoSwap (fieldBits w 11 7 5) (fieldBits w 16 12 5) (fieldBits w 21 17 5) (fieldBool w 26)))
  else if fieldOf w 25 22 = 9 ∧ fieldOf w 31 27 = 0 then some (some (.amof (fieldBits w 11 7 5) (fieldBits w 16 12 5) (fieldBits w 21 17 5) (fieldBool w 26)))
  else none

/-- Major opcode 0x2E (R40): CAS. The outer option is none when no assigned sub-code with zero
reserved fields matches, the inner one when an operand field is illegal. -/
def decodeMajor2E (w : Nat) : Option (Option Instr) :=
  if fieldOf w 31 23 = 0 then some (some (.cas (fieldBits w 11 7 5) (fieldBits w 16 12 5) (fieldBits w 21 17 5) (fieldBool w 22)))
  else none

/-- Major opcode 0x2F (R40): LDA. The outer option is none when no assigned sub-code with zero
reserved fields matches, the inner one when an operand field is illegal. -/
def decodeMajor2F (w : Nat) : Option (Option Instr) :=
  if fieldOf w 19 19 = 0 then some ((Size.ofCode (fieldOf w 18 17)).bind fun z' => some (.lda (fieldBits w 11 7 5) (fieldBits w 16 12 5) z' (fieldBits w 31 20 12)))
  else none

/-- Major opcode 0x30 (R40): STL. The outer option is none when no assigned sub-code with zero
reserved fields matches, the inner one when an operand field is illegal. -/
def decodeMajor30 (w : Nat) : Option (Option Instr) :=
  if fieldOf w 19 19 = 0 then some ((Size.ofCode (fieldOf w 18 17)).bind fun z' => some (.stl (fieldBits w 11 7 5) (fieldBits w 16 12 5) z' (fieldBits w 31 20 12)))
  else none

/-- Major opcode 0x31 (R40): FACQ, FREL, FSEQ, FCON. The outer option is none when no assigned sub-code with zero
reserved fields matches, the inner one when an operand field is illegal. -/
def decodeMajor31 (w : Nat) : Option (Option Instr) :=
  if fieldOf w 31 7 = 0 then some (some .facq)
  else if fieldOf w 31 7 = 32768 then some (some .frel)
  else if fieldOf w 31 7 = 65536 then some (some .fseq)
  else if fieldOf w 31 7 = 98304 then some (some .fcon)
  else none

/-- Major opcode 0x32 (R40): CPY, GTH. The outer option is none when no assigned sub-code with zero
reserved fields matches, the inner one when an operand field is illegal. -/
def decodeMajor32 (w : Nat) : Option (Option Instr) :=
  if fieldOf w 11 11 = 0 ∧ fieldOf w 21 17 = 0 ∧ fieldOf w 28 26 = 0 ∧ fieldOf w 31 31 = 0 then some (some (.cpy (fieldBits w 10 7 4) (fieldBits w 16 12 5) (fieldBool w 22) (fieldBool w 23) (fieldBool w 24) (fieldBool w 25) (fieldBits w 30 29 2)))
  else if fieldOf w 11 11 = 0 ∧ fieldOf w 22 17 = 0 ∧ fieldOf w 28 26 = 0 ∧ fieldOf w 31 30 = 2 then some (some (.gth (fieldBits w 10 7 4) (fieldBits w 16 12 5) (fieldBool w 23) (fieldBool w 24) (fieldBool w 25) (fieldBits w 29 29 1)))
  else none

/-- Major opcode 0x33 (R40): FWAIT, FTEST, FCAN, FMOV, QFN. The outer option is none when no assigned sub-code with zero
reserved fields matches, the inner one when an operand field is illegal. -/
def decodeMajor33 (w : Nat) : Option (Option Instr) :=
  if fieldOf w 11 7 = 0 ∧ fieldOf w 31 16 = 0 then some (some (.fwait (fieldBits w 15 12 4)))
  else if fieldOf w 11 10 = 0 ∧ fieldOf w 31 16 = 64 then some (some (.ftest (fieldBits w 9 7 3) (fieldBits w 15 12 4)))
  else if fieldOf w 11 7 = 0 ∧ fieldOf w 31 16 = 128 then some (some (.fcan (fieldBits w 15 12 4)))
  else if fieldOf w 11 11 = 0 ∧ fieldOf w 31 16 = 192 then some (some (.fmov (fieldBits w 10 7 4) (fieldBits w 15 12 4)))
  else if fieldOf w 25 7 = 131072 then some (some (.qfn (fieldBits w 31 26 6)))
  else none

/-- Major opcode 0x34 (R40): SPAWN, JINIT, ENQ, DEQ, QST. The outer option is none when no assigned sub-code with zero
reserved fields matches, the inner one when an operand field is illegal. -/
def decodeMajor34 (w : Nat) : Option (Option Instr) :=
  if fieldOf w 11 7 = 0 ∧ fieldOf w 31 22 = 0 then some (some (.spawn (fieldBits w 16 12 5) (fieldBits w 21 17 5)))
  else if fieldOf w 11 7 = 0 ∧ fieldOf w 31 22 = 1 then some (some (.jinit (fieldBits w 16 12 5) (fieldBits w 21 17 5)))
  else if fieldOf w 11 7 = 0 ∧ fieldOf w 24 17 = 64 ∧ fieldOf w 31 31 = 0 then some (some (.enq (fieldBits w 16 12 5) (fieldBits w 30 25 6)))
  else if fieldOf w 24 7 = 98304 ∧ fieldOf w 31 31 = 0 then some (some (.deq (fieldBits w 30 25 6)))
  else if fieldOf w 24 12 = 4096 ∧ fieldOf w 31 31 = 0 then some (some (.qst (fieldBits w 11 7 5) (fieldBits w 30 25 6)))
  else none

/-- Major opcode 0x35 (R40): FORK. The outer option is none when no assigned sub-code with zero
reserved fields matches, the inner one when an operand field is illegal. -/
def decodeMajor35 (w : Nat) : Option (Option Instr) :=
  some (some (.fork (fieldBits w 11 7 5) (fieldBits w 31 12 20)))

/-- Major opcode 0x36 (R40): JOIN. The outer option is none when no assigned sub-code with zero
reserved fields matches, the inner one when an operand field is illegal. -/
def decodeMajor36 (w : Nat) : Option (Option Instr) :=
  some (some (.join (fieldBits w 11 7 5) (fieldBits w 31 12 20)))

/-- Major opcode 0x37 (R40): SEND, RECV, RECVT. The outer option is none when no assigned sub-code with zero
reserved fields matches, the inner one when an operand field is illegal. -/
def decodeMajor37 (w : Nat) : Option (Option Instr) :=
  if fieldOf w 11 7 = 0 ∧ fieldOf w 31 22 = 0 then some (some (.send (fieldBits w 16 12 5) (fieldBits w 21 17 5)))
  else if fieldOf w 24 12 = 1024 ∧ fieldOf w 31 29 = 0 then some (some (.recv (fieldBits w 11 7 5) (fieldBits w 28 25 4)))
  else if fieldOf w 24 12 = 2048 then some (some (.recvt (fieldBits w 11 7 5) (fieldBits w 28 25 4) (fieldBits w 31 29 3)))
  else none

/-- Major opcode 0x38 (R40): TLD. The outer option is none when no assigned sub-code with zero
reserved fields matches, the inner one when an operand field is illegal. -/
def decodeMajor38 (w : Nat) : Option (Option Instr) :=
  if fieldOf w 31 23 = 0 then some ((eightOf (fieldOf w 11 7)).bind fun t' => some (.tld t' (fieldBits w 16 12 5) (fieldBits w 21 17 5) (fieldBool w 22)))
  else none

/-- Major opcode 0x39 (R40): TST. The outer option is none when no assigned sub-code with zero
reserved fields matches, the inner one when an operand field is illegal. -/
def decodeMajor39 (w : Nat) : Option (Option Instr) :=
  if fieldOf w 31 23 = 0 then some ((eightOf (fieldOf w 11 7)).bind fun t' => some (.tst t' (fieldBits w 16 12 5) (fieldBits w 21 17 5) (fieldBool w 22)))
  else none

/-- Major opcode 0x3A (R40): MWL. The outer option is none when no assigned sub-code with zero
reserved fields matches, the inner one when an operand field is illegal. -/
def decodeMajor3A (w : Nat) : Option (Option Instr) :=
  if fieldOf w 26 12 = 0 then some ((eightOf (fieldOf w 11 7)).bind fun t' => ((Fmt.ofCode (fieldOf w 31 27)).bind fun f' => some (.mwl t' f')))
  else none

/-- Major opcode 0x3B (R40): MST. The outer option is none when no assigned sub-code with zero
reserved fields matches, the inner one when an operand field is illegal. -/
def decodeMajor3B (w : Nat) : Option (Option Instr) :=
  if fieldOf w 21 21 = 0 then some ((eightOf (fieldOf w 11 7)).bind fun t' => ((Fmt.ofCode (fieldOf w 31 27)).bind fun f' => some (.mst t' (fieldBits w 20 12 9) (fieldBits w 26 22 5) f')))
  else none

/-- Major opcode 0x3C (R40): ACZ, ACLD, ACST, ACT, ACADD, TZR, MSTAT. The outer option is none when no assigned sub-code with zero
reserved fields matches, the inner one when an operand field is illegal. -/
def decodeMajor3C (w : Nat) : Option (Option Instr) :=
  if fieldOf w 11 7 = 0 ∧ fieldOf w 31 22 = 0 then some (some (.acz (fieldBits w 16 12 5) (fieldBits w 21 17 5)))
  else if fieldOf w 31 17 = 32 then some ((eightOf (fieldOf w 11 7)).bind fun t' => some (.acld t' (fieldBits w 16 12 5)))
  else if fieldOf w 24 22 = 2 ∧ fieldOf w 31 28 = 0 then some ((eightOf (fieldOf w 11 7)).bind fun t' => ((Fmt.ofCode (fieldOf w 21 17)).bind fun f' => ((AccClass.ofCode (fieldOf w 27 26)).bind fun c' => some (.acst t' (fieldBits w 16 12 5) f' (fieldBool w 25) c'))))
  else if fieldOf w 25 22 = 3 then some ((AccClass.ofCode (fieldOf w 27 26)).bind fun c' => ((ActFn.ofCode (fieldOf w 31 28)).bind fun u' => some (.act (fieldBits w 11 7 5) (fieldBits w 16 12 5) (fieldBits w 21 17 5) c' u')))
  else if fieldOf w 25 17 = 128 ∧ fieldOf w 31 28 = 0 then some ((eightOf (fieldOf w 11 7)).bind fun t' => ((AccClass.ofCode (fieldOf w 27 26)).bind fun c' => some (.acadd t' (fieldBits w 16 12 5) c')))
  else if fieldOf w 31 12 = 5120 then some ((eightOf (fieldOf w 11 7)).bind fun t' => some (.tzr t'))
  else if fieldOf w 24 12 = 6144 ∧ fieldOf w 31 26 = 0 then some (some (.mstat (fieldBits w 11 7 5) (fieldBool w 25)))
  else none

/-- Major opcode 0x3D (R40): RREC, RFIX, RDROP, RQRY, RDEV, RDEV_V, RLAT, SEEDRD, RESEED, XQRY, XOBS, GARR, GWT, GBAR, GQRY, TLBI, RAFW. The outer option is none when no assigned sub-code with zero
reserved fields matches, the inner one when an operand field is illegal. -/
def decodeMajor3D (w : Nat) : Option (Option Instr) :=
  if fieldOf w 11 7 = 0 ∧ fieldOf w 31 22 = 0 then some (some (.rrec (fieldBits w 16 12 5) (fieldBits w 21 17 5)))
  else if fieldOf w 11 7 = 0 ∧ fieldOf w 31 17 = 32 then some (some (.rfix (fieldBits w 16 12 5)))
  else if fieldOf w 11 7 = 0 ∧ fieldOf w 31 17 = 64 then some (some (.rdrop (fieldBits w 16 12 5)))
  else if fieldOf w 31 17 = 96 then some (some (.rqry (fieldBits w 11 7 5) (fieldBits w 16 12 5)))
  else if fieldOf w 11 7 = 0 ∧ fieldOf w 31 17 = 128 then some (some (.rdev (fieldBits w 16 12 5)))
  else if fieldOf w 11 7 = 0 ∧ fieldOf w 27 17 = 1152 ∧ fieldOf w 31 31 = 0 then some (some (.rdevV (fieldBits w 16 12 5) (fieldBits w 30 28 3)))
  else if fieldOf w 11 7 = 0 ∧ fieldOf w 31 17 = 160 then some (some (.rlat (fieldBits w 16 12 5)))
  else if fieldOf w 31 17 = 256 then some (some (.seedrd (fieldBits w 11 7 5) (fieldBits w 16 12 5)))
  else if fieldOf w 11 7 = 0 ∧ fieldOf w 31 22 = 9 then some (some (.reseed (fieldBits w 16 12 5) (fieldBits w 21 17 5)))
  else if fieldOf w 31 22 = 10 then some (some (.xqry (fieldBits w 11 7 5) (fieldBits w 16 12 5) (fieldBits w 21 17 5)))
  else if fieldOf w 31 17 = 352 then some (some (.xobs (fieldBits w 11 7 5) (fieldBits w 16 12 5)))
  else if fieldOf w 11 7 = 0 ∧ fieldOf w 31 20 = 64 then some (some (.garr (fieldBits w 19 12 8)))
  else if fieldOf w 11 7 = 0 ∧ fieldOf w 31 20 = 68 then some (some (.gwt (fieldBits w 19 12 8)))
  else if fieldOf w 11 7 = 0 ∧ fieldOf w 31 20 = 72 then some (some (.gbar (fieldBits w 19 12 8)))
  else if fieldOf w 31 20 = 76 then some (some (.gqry (fieldBits w 11 7 5) (fieldBits w 19 12 8)))
  else if fieldOf w 11 7 = 0 ∧ fieldOf w 31 22 = 24 then some (some (.tlbi (fieldBits w 16 12 5) (fieldBits w 21 17 5)))
  else if fieldOf w 11 7 = 0 ∧ fieldOf w 31 22 = 25 then some (some (.rafw (fieldBits w 16 12 5) (fieldBits w 21 17 5)))
  else none

/-- Major opcode 0x3E (R40): TRAP, TRET, URET, RDC, WRC, RDP, WRP, BRK, HMSG. The outer option is none when no assigned sub-code with zero
reserved fields matches, the inner one when an operand field is illegal. -/
def decodeMajor3E (w : Nat) : Option (Option Instr) :=
  if fieldOf w 25 7 = 0 then some (some (.trap (fieldBits w 31 26 6)))
  else if fieldOf w 31 7 = 32768 then some (some .tret)
  else if fieldOf w 31 7 = 65536 then some (some .uret)
  else if fieldOf w 25 12 = 3072 then some (some (.rdc (fieldBits w 11 7 5) (fieldBits w 31 26 6)))
  else if fieldOf w 11 7 = 0 ∧ fieldOf w 25 17 = 128 then some (some (.wrc (fieldBits w 16 12 5) (fieldBits w 31 26 6)))
  else if fieldOf w 31 12 = 5120 then some (some (.rdp (fieldBits w 11 7 5)))
  else if fieldOf w 11 7 = 0 ∧ fieldOf w 31 17 = 192 then some (some (.wrp (fieldBits w 16 12 5)))
  else if fieldOf w 31 7 = 229376 then some (some .brk)
  else if fieldOf w 11 7 = 0 ∧ fieldOf w 31 22 = 8 then some (some (.hmsg (fieldBits w 16 12 5) (fieldBits w 21 17 5)))
  else none

/-- The opcode map of the 32-bit forms (R40): none for a major opcode that is not assigned. -/
def decodeMajor (maj w : Nat) : Option (Option (Option Instr)) :=
  match maj with
  | 0 => some (decodeMajor00 w)
  | 1 => some (decodeMajor01 w)
  | 2 => some (decodeMajor02 w)
  | 3 => some (decodeMajor03 w)
  | 4 => some (decodeMajor04 w)
  | 5 => some (decodeMajor05 w)
  | 6 => some (decodeMajor06 w)
  | 7 => some (decodeMajor07 w)
  | 8 => some (decodeMajor08 w)
  | 9 => some (decodeMajor09 w)
  | 10 => some (decodeMajor0A w)
  | 11 => some (decodeMajor0B w)
  | 12 => some (decodeMajor0C w)
  | 13 => some (decodeMajor0D w)
  | 14 => some (decodeMajor0E w)
  | 15 => some (decodeMajor0F w)
  | 16 => some (decodeMajor10 w)
  | 17 => some (decodeMajor11 w)
  | 18 => some (decodeMajor12 w)
  | 19 => some (decodeMajor13 w)
  | 20 => some (decodeMajor14 w)
  | 24 => some (decodeMajor18 w)
  | 25 => some (decodeMajor19 w)
  | 26 => some (decodeMajor1A w)
  | 27 => some (decodeMajor1B w)
  | 32 => some (decodeMajor20 w)
  | 33 => some (decodeMajor21 w)
  | 34 => some (decodeMajor22 w)
  | 35 => some (decodeMajor23 w)
  | 36 => some (decodeMajor24 w)
  | 37 => some (decodeMajor25 w)
  | 38 => some (decodeMajor26 w)
  | 39 => some (decodeMajor27 w)
  | 40 => some (decodeMajor28 w)
  | 41 => some (decodeMajor29 w)
  | 42 => some (decodeMajor2A w)
  | 43 => some (decodeMajor2B w)
  | 44 => some (decodeMajor2C w)
  | 45 => some (decodeMajor2D w)
  | 46 => some (decodeMajor2E w)
  | 47 => some (decodeMajor2F w)
  | 48 => some (decodeMajor30 w)
  | 49 => some (decodeMajor31 w)
  | 50 => some (decodeMajor32 w)
  | 51 => some (decodeMajor33 w)
  | 52 => some (decodeMajor34 w)
  | 53 => some (decodeMajor35 w)
  | 54 => some (decodeMajor36 w)
  | 55 => some (decodeMajor37 w)
  | 56 => some (decodeMajor38 w)
  | 57 => some (decodeMajor39 w)
  | 58 => some (decodeMajor3A w)
  | 59 => some (decodeMajor3B w)
  | 60 => some (decodeMajor3C w)
  | 61 => some (decodeMajor3D w)
  | 62 => some (decodeMajor3E w)
  | _ => none

/-- Decode a 32-bit instruction word (bit 0 set, R25). -/
def decode32 (w : Nat) : Except DecodeError Instr :=
  let maj := fieldOf w 6 1
  match decodeMajor maj w with
  | none => .error (.reservedMajor maj)
  | some none => .error (.reservedField maj)
  | some (some none) => .error (.operand maj)
  | some (some (some i)) => if i.wf then .ok i else .error (.operand maj)

/-- Decode a 16-bit instruction (bit 0 clear, R25, R38, R39). -/
def decode16 (w : Nat) : Except DecodeError Instr :=
  if w = 0 then .error .zeroHalfWord
  else if fieldBool w 15 then
    match decodeC16Scalar w with
    | none => .error .c16Unassigned
    | some i => .ok i
  else
    match decodeC16Lane w with
    | none => .error .c16Unassigned
    | some i => .ok i

/-- Bytes as a little-endian number (R21). -/
def numberOfBytes : List Byte → Nat
  | [] => 0
  | b :: rest => b.toNat + 256 * numberOfBytes rest

/-- The n bytes of a number, lowest first (R21). -/
def bytesOfNumber : Nat → Nat → List Byte
  | 0, _ => []
  | n + 1, v => BitVec.ofNat 8 v :: bytesOfNumber n (v / 256)

/-- The decoder: the instruction at the head of the bytes and how many bytes it takes (R25). -/
def decode (bytes : List Byte) : Except DecodeError (Instr × Nat) :=
  match bytes with
  | b0 :: b1 :: rest =>
    if b0.toNat % 2 = 0 then
      (decode16 (numberOfBytes [b0, b1])).map fun i => (i, 2)
    else
      match rest with
      | b2 :: b3 :: _ => (decode32 (numberOfBytes [b0, b1, b2, b3])).map fun i => (i, 4)
      | _ => .error .truncated
  | _ => .error .truncated

/-- The instruction the decoder reads from a table word: `nbits` bits of `w`, every bit above them zero, laid out as the
hardware stores them (R21, R25) up to the longest instruction of four bytes. -/
def decodeTableWord (nbits w : Nat) : Option Instr :=
  match decode (bytesOfNumber 4 (w % 2 ^ nbits)) with
  | .ok (i, _) => some i
  | .error _ => none

/-- The length in bytes of the instruction whose first half-word is h (R25). -/
def lengthOfHalf (h : Nat) : Nat := if h % 2 = 0 then 2 else 4

/-- The instruction's word: bits [15:0] of a 16-bit form, [31:0] of a 32-bit form, from the encoding tables of R28-R41.
An event of the part has no encoding. -/
def encode : Instr → Option Nat
  | .add d a b => some (1 + d.toNat * 128 + a.toNat * 4096 + b.toNat * 131072)
  | .sub d a b => some (4194305 + d.toNat * 128 + a.toNat * 4096 + b.toNat * 131072)
  | .mul d a b => some (8388609 + d.toNat * 128 + a.toNat * 4096 + b.toNat * 131072)
  | .mulh d a b => some (12582913 + d.toNat * 128 + a.toNat * 4096 + b.toNat * 131072)
  | .mulhu d a b => some (16777217 + d.toNat * 128 + a.toNat * 4096 + b.toNat * 131072)
  | .div d a b => some (20971521 + d.toNat * 128 + a.toNat * 4096 + b.toNat * 131072)
  | .divu d a b => some (25165825 + d.toNat * 128 + a.toNat * 4096 + b.toNat * 131072)
  | .rem d a b => some (29360129 + d.toNat * 128 + a.toNat * 4096 + b.toNat * 131072)
  | .remu d a b => some (33554433 + d.toNat * 128 + a.toNat * 4096 + b.toNat * 131072)
  | .and d a b => some (37748737 + d.toNat * 128 + a.toNat * 4096 + b.toNat * 131072)
  | .or d a b => some (41943041 + d.toNat * 128 + a.toNat * 4096 + b.toNat * 131072)
  | .xor d a b => some (46137345 + d.toNat * 128 + a.toNat * 4096 + b.toNat * 131072)
  | .andn d a b => some (50331649 + d.toNat * 128 + a.toNat * 4096 + b.toNat * 131072)
  | .shl d a b => some (54525953 + d.toNat * 128 + a.toNat * 4096 + b.toNat * 131072)
  | .shr d a b => some (58720257 + d.toNat * 128 + a.toNat * 4096 + b.toNat * 131072)
  | .sar d a b => some (62914561 + d.toNat * 128 + a.toNat * 4096 + b.toNat * 131072)
  | .rol d a b => some (67108865 + d.toNat * 128 + a.toNat * 4096 + b.toNat * 131072)
  | .min d a b => some (71303169 + d.toNat * 128 + a.toNat * 4096 + b.toNat * 131072)
  | .minu d a b => some (75497473 + d.toNat * 128 + a.toNat * 4096 + b.toNat * 131072)
  | .max d a b => some (79691777 + d.toNat * 128 + a.toNat * 4096 + b.toNat * 131072)
  | .maxu d a b => some (83886081 + d.toNat * 128 + a.toNat * 4096 + b.toNat * 131072)
  | .clz d a => some (88080385 + d.toNat * 128 + a.toNat * 4096)
  | .popc d a => some (92274689 + d.toNat * 128 + a.toNat * 4096)
  | .sextB d a => some (96468993 + d.toNat * 128 + a.toNat * 4096)
  | .sextH d a => some (100663297 + d.toNat * 128 + a.toNat * 4096)
  | .sextW d a => some (104857601 + d.toNat * 128 + a.toNat * 4096)
  | .lea1 d a b => some (109051905 + d.toNat * 128 + a.toNat * 4096 + b.toNat * 131072)
  | .lea2 d a b => some (113246209 + d.toNat * 128 + a.toNat * 4096 + b.toNat * 131072)
  | .lea4 d a b => some (117440513 + d.toNat * 128 + a.toNat * 4096 + b.toNat * 131072)
  | .lea8 d a b => some (121634817 + d.toNat * 128 + a.toNat * 4096 + b.toNat * 131072)
  | .mov d a => some (125829121 + d.toNat * 128 + a.toNat * 4096)
  | .ptag d a b => some (130023425 + d.toNat * 128 + a.toNat * 4096 + b.toNat * 131072)
  | .cMov d s => some (32768 + d.toNat * 32 + s.toNat * 1024)
  | .cAdd d s => some (32770 + d.toNat * 32 + s.toNat * 1024)
  | .cSub d s => some (32772 + d.toNat * 32 + s.toNat * 1024)
  | .cMul d s => some (32774 + d.toNat * 32 + s.toNat * 1024)
  | .cAnd d s => some (32776 + d.toNat * 32 + s.toNat * 1024)
  | .cOr d s => some (32778 + d.toNat * 32 + s.toNat * 1024)
  | .cXor d s => some (32780 + d.toNat * 32 + s.toNat * 1024)
  | .cShl d s => some (32782 + d.toNat * 32 + s.toNat * 1024)
  | .cShr d s => some (32784 + d.toNat * 32 + s.toNat * 1024)
  | .cSar d s => some (32786 + d.toNat * 32 + s.toNat * 1024)
  | .cMin d s => some (32788 + d.toNat * 32 + s.toNat * 1024)
  | .cMax d s => some (32790 + d.toNat * 32 + s.toNat * 1024)
  | .cVmov d s => some (0 + d.toNat * 32 + s.toNat * 1024)
  | .cVaddI32 d s => some (2 + d.toNat * 32 + s.toNat * 1024)
  | .cVsubI32 d s => some (4 + d.toNat * 32 + s.toNat * 1024)
  | .cVmulI32 d s => some (6 + d.toNat * 32 + s.toNat * 1024)
  | .cVand d s => some (8 + d.toNat * 32 + s.toNat * 1024)
  | .cVor d s => some (10 + d.toNat * 32 + s.toNat * 1024)
  | .cVxor d s => some (12 + d.toNat * 32 + s.toNat * 1024)
  | .cVshl d s => some (14 + d.toNat * 32 + s.toNat * 1024)
  | .cVshr d s => some (16 + d.toNat * 32 + s.toNat * 1024)
  | .cVsar d s => some (18 + d.toNat * 32 + s.toNat * 1024)
  | .cVminI32 d s => some (20 + d.toNat * 32 + s.toNat * 1024)
  | .cVmaxI32 d s => some (22 + d.toNat * 32 + s.toNat * 1024)
  | .cVaddF32 d s => some (24 + d.toNat * 32 + s.toNat * 1024)
  | .cVsubF32 d s => some (26 + d.toNat * 32 + s.toNat * 1024)
  | .cVmulF32 d s => some (28 + d.toNat * 32 + s.toNat * 1024)
  | .cVmaxF32 d s => some (30 + d.toNat * 32 + s.toNat * 1024)
  | .addi d a i => some (3 + d.toNat * 128 + a.toNat * 4096 + i.toNat * 131072)
  | .andi d a i => some (5 + d.toNat * 128 + a.toNat * 4096 + i.toNat * 131072)
  | .ori d a i => some (7 + d.toNat * 128 + a.toNat * 4096 + i.toNat * 131072)
  | .xori d a i => some (9 + d.toNat * 128 + a.toNat * 4096 + i.toNat * 131072)
  | .shli d a n => some (11 + d.toNat * 128 + a.toNat * 4096 + n.toNat * 131072)
  | .shri d a n => some (13 + d.toNat * 128 + a.toNat * 4096 + n.toNat * 131072)
  | .sari d a n => some (15 + d.toNat * 128 + a.toNat * 4096 + n.toNat * 131072)
  | .li d i => some (17 + d.toNat * 128 + i.toNat * 131072)
  | .liu d i => some (19 + d.toNat * 128 + i.toNat * 4096)
  | .bfx d a p l => some (21 + d.toNat * 128 + a.toNat * 4096 + p.toNat * 131072 + l.toNat * 8388608)
  | .bfi d a p l => some (23 + d.toNat * 128 + a.toNat * 4096 + p.toNat * 131072 + l.toNat * 8388608)
  | .cmp q a b c => some (25 + q.toNat * 128 + a.toNat * 4096 + b.toNat * 131072 + c.code * 4194304)
  | .cmpi q a c i => some (27 + q.toNat * 128 + a.toNat * 4096 + c.code * 131072 + i.toNat * 1048576)
  | .plogAnd d a b => some (29 + d.toNat * 128 + a.toNat * 4096 + b.toNat * 131072)
  | .plogOr d a b => some (4194333 + d.toNat * 128 + a.toNat * 4096 + b.toNat * 131072)
  | .plogXor d a b => some (8388637 + d.toNat * 128 + a.toNat * 4096 + b.toNat * 131072)
  | .plogAndn d a b => some (12582941 + d.toNat * 128 + a.toNat * 4096 + b.toNat * 131072)
  | .plogNot d a => some (16777245 + d.toNat * 128 + a.toNat * 4096)
  | .plogSet d => some (20971549 + d.toNat * 128)
  | .plogClr d => some (25165853 + d.toNat * 128)
  | .sel d a b p n => some (31 + d.toNat * 128 + a.toNat * 4096 + b.toNat * 131072 + p.toNat * 4194304 + n.toNat * 33554432)
  | .br q n o => some (33 + q.toNat * 128 + n.toNat * 2048 + o.toNat * 4096)
  | .jal d i => some (35 + d.toNat * 128 + i.toNat * 4096)
  | .jalr d a i => some (37 + d.toNat * 128 + a.toNat * 4096 + i.toNat * 131072)
  | .loop a e => some (39 + a.toNat * 4096 + e.toNat * 131072)
  | .exit => some (41)
  | .yield => some (4194345)
  | .vadd d a b t => some (49 + d.toNat * 128 + a.toNat * 4096 + b.toNat * 131072 + t.code * 268435456)
  | .vsub d a b t => some (4194353 + d.toNat * 128 + a.toNat * 4096 + b.toNat * 131072 + t.code * 268435456)
  | .vmul d a b t => some (8388657 + d.toNat * 128 + a.toNat * 4096 + b.toNat * 131072 + t.code * 268435456)
  | .vmulh d a b => some (12582961 + d.toNat * 128 + a.toNat * 4096 + b.toNat * 131072)
  | .vmin d a b t => some (16777265 + d.toNat * 128 + a.toNat * 4096 + b.toNat * 131072 + t.code * 268435456)
  | .vmax d a b t => some (20971569 + d.toNat * 128 + a.toNat * 4096 + b.toNat * 131072 + t.code * 268435456)
  | .vminu d a b => some (25165873 + d.toNat * 128 + a.toNat * 4096 + b.toNat * 131072)
  | .vmaxu d a b => some (29360177 + d.toNat * 128 + a.toNat * 4096 + b.toNat * 131072)
  | .vand d a b => some (33554481 + d.toNat * 128 + a.toNat * 4096 + b.toNat * 131072)
  | .vor d a b => some (37748785 + d.toNat * 128 + a.toNat * 4096 + b.toNat * 131072)
  | .vxor d a b => some (41943089 + d.toNat * 128 + a.toNat * 4096 + b.toNat * 131072)
  | .vandn d a b => some (46137393 + d.toNat * 128 + a.toNat * 4096 + b.toNat * 131072)
  | .vshl d a b => some (50331697 + d.toNat * 128 + a.toNat * 4096 + b.toNat * 131072)
  | .vshr d a b => some (54526001 + d.toNat * 128 + a.toNat * 4096 + b.toNat * 131072)
  | .vsar d a b => some (58720305 + d.toNat * 128 + a.toNat * 4096 + b.toNat * 131072)
  | .vabs d a t => some (62914609 + d.toNat * 128 + a.toNat * 4096 + t.code * 268435456)
  | .vneg d a t => some (67108913 + d.toNat * 128 + a.toNat * 4096 + t.code * 268435456)
  | .vmov d a => some (71303217 + d.toNat * 128 + a.toNat * 4096)
  | .vsel d a b => some (75497521 + d.toNat * 128 + a.toNat * 4096 + b.toNat * 131072)
  | .vperm d a b => some (79691825 + d.toNat * 128 + a.toNat * 4096 + b.toNat * 131072)
  | .vbc d a => some (83886129 + d.toNat * 128 + a.toNat * 4096)
  | .vredAdd d a t => some (88080433 + d.toNat * 128 + a.toNat * 4096 + t.code * 268435456)
  | .vredMin d a t => some (92274737 + d.toNat * 128 + a.toNat * 4096 + t.code * 268435456)
  | .vredMax d a t => some (96469041 + d.toNat * 128 + a.toNat * 4096 + t.code * 268435456)
  | .vfma d a b t => some (134217777 + d.toNat * 128 + a.toNat * 4096 + b.toNat * 131072 + t.code * 268435456)
  | .vfrcp d a t => some (138412081 + d.toNat * 128 + a.toNat * 4096 + t.code * 268435456)
  | .vfrsq d a t => some (142606385 + d.toNat * 128 + a.toNat * 4096 + t.code * 268435456)
  | .vcmp a b c n t => some (51 + a.toNat * 4096 + b.toNat * 131072 + c.code * 4194304 + n.toNat * 33554432 + t.code * 268435456)
  | .vext d a l => some (53 + d.toNat * 128 + a.toNat * 4096 + l.toNat * 131072)
  | .vins d a l => some (2147483701 + d.toNat * 128 + a.toNat * 4096 + l.toNat * 131072)
  | .vcvt d a b r s f => some (55 + d.toNat * 128 + a.toNat * 4096 + b.code * 131072 + r.code * 4194304 + s.toNat * 33554432 + f.code * 134217728)
  | .ld d a z r o => some (65 + d.toNat * 128 + a.toNat * 4096 + z.code * 131072 + r.toNat * 524288 + o.toNat * 1048576)
  | .st d a z r o => some (67 + d.toNat * 128 + a.toNat * 4096 + z.code * 131072 + r.toNat * 524288 + o.toNat * 1048576)
  | .ldv d a r o => some (262213 + d.toNat * 128 + a.toNat * 4096 + r.toNat * 524288 + o.toNat * 1048576)
  | .stv d a r o => some (262215 + d.toNat * 128 + a.toNat * 4096 + r.toNat * 524288 + o.toNat * 1048576)
  | .ldb d a z r o => some (73 + d.toNat * 128 + a.toNat * 4096 + z.code * 131072 + r.toNat * 524288 + o.toNat * 1048576)
  | .ldc d a z r o => some (75 + d.toNat * 128 + a.toNat * 4096 + z.code * 131072 + r.toNat * 524288 + o.toNat * 1048576)
  | .ldfe d a r o => some (262221 + d.toNat * 128 + a.toNat * 4096 + r.toNat * 524288 + o.toNat * 1048576)
  | .stfe d a r o => some (262223 + d.toNat * 128 + a.toNat * 4096 + r.toNat * 524288 + o.toNat * 1048576)
  | .ldff d a r o => some (262225 + d.toNat * 128 + a.toNat * 4096 + r.toNat * 524288 + o.toNat * 1048576)
  | .feset a b s => some (83 + a.toNat * 4096 + b.toNat * 131072 + s.toNat * 4194304)
  | .ldg d a b z => some (85 + d.toNat * 128 + a.toNat * 4096 + b.toNat * 131072 + z.code * 4194304)
  | .sts d a b z => some (87 + d.toNat * 128 + a.toNat * 4096 + b.toNat * 131072 + z.code * 4194304)
  | .pref h a o => some (89 + h.toNat * 128 + a.toNat * 4096 + o.toNat * 1048576)
  | .amoAdd d a b s => some (91 + d.toNat * 128 + a.toNat * 4096 + b.toNat * 131072 + s.toNat * 67108864)
  | .amoAnd d a b s => some (4194395 + d.toNat * 128 + a.toNat * 4096 + b.toNat * 131072 + s.toNat * 67108864)
  | .amoOr d a b s => some (8388699 + d.toNat * 128 + a.toNat * 4096 + b.toNat * 131072 + s.toNat * 67108864)
  | .amoXor d a b s => some (12583003 + d.toNat * 128 + a.toNat * 4096 + b.toNat * 131072 + s.toNat * 67108864)
  | .amoMin d a b s => some (16777307 + d.toNat * 128 + a.toNat * 4096 + b.toNat * 131072 + s.toNat * 67108864)
  | .amoMax d a b s => some (20971611 + d.toNat * 128 + a.toNat * 4096 + b.toNat * 131072 + s.toNat * 67108864)
  | .amoMinu d a b s => some (25165915 + d.toNat * 128 + a.toNat * 4096 + b.toNat * 131072 + s.toNat * 67108864)
  | .amoMaxu d a b s => some (29360219 + d.toNat * 128 + a.toNat * 4096 + b.toNat * 131072 + s.toNat * 67108864)
  | .amoSwap d a b s => some (33554523 + d.toNat * 128 + a.toNat * 4096 + b.toNat * 131072 + s.toNat * 67108864)
  | .amof d a b s => some (37748827 + d.toNat * 128 + a.toNat * 4096 + b.toNat * 131072 + s.toNat * 67108864)
  | .cas d a b s => some (93 + d.toNat * 128 + a.toNat * 4096 + b.toNat * 131072 + s.toNat * 4194304)
  | .lda d a z o => some (95 + d.toNat * 128 + a.toNat * 4096 + z.code * 131072 + o.toNat * 1048576)
  | .stl d a z o => some (97 + d.toNat * 128 + a.toNat * 4096 + z.code * 131072 + o.toNat * 1048576)
  | .facq => some (99)
  | .frel => some (4194403)
  | .fseq => some (8388707)
  | .fcon => some (12583011)
  | .cpy d a r f s c q => some (101 + d.toNat * 128 + a.toNat * 4096 + r.toNat * 4194304 + f.toNat * 8388608 + s.toNat * 16777216 + c.toNat * 33554432 + q.toNat * 536870912)
  | .gth d a f s c q => some (2147483749 + d.toNat * 128 + a.toNat * 4096 + f.toNat * 8388608 + s.toNat * 16777216 + c.toNat * 33554432 + q.toNat * 536870912)
  | .fwait a => some (103 + a.toNat * 4096)
  | .ftest q a => some (4194407 + q.toNat * 128 + a.toNat * 4096)
  | .fcan a => some (8388711 + a.toNat * 4096)
  | .fmov d a => some (12583015 + d.toNat * 128 + a.toNat * 4096)
  | .qfn m => some (16777319 + m.toNat * 67108864)
  | .spawn a b => some (105 + a.toNat * 4096 + b.toNat * 131072)
  | .jinit a b => some (4194409 + a.toNat * 4096 + b.toNat * 131072)
  | .enq a q => some (8388713 + a.toNat * 4096 + q.toNat * 33554432)
  | .deq q => some (12583017 + q.toNat * 33554432)
  | .qst d q => some (16777321 + d.toNat * 128 + q.toNat * 33554432)
  | .fork j o => some (107 + j.toNat * 128 + o.toNat * 4096)
  | .join j o => some (109 + j.toNat * 128 + o.toNat * 4096)
  | .send a b => some (111 + a.toNat * 4096 + b.toNat * 131072)
  | .recv d e => some (4194415 + d.toNat * 128 + e.toNat * 33554432)
  | .recvt d e q => some (8388719 + d.toNat * 128 + e.toNat * 33554432 + q.toNat * 536870912)
  | .tld t a b o => some (113 + t.toNat * 128 + a.toNat * 4096 + b.toNat * 131072 + o.toNat * 4194304)
  | .tst t a b o => some (115 + t.toNat * 128 + a.toNat * 4096 + b.toNat * 131072 + o.toNat * 4194304)
  | .mwl t f => some (117 + t.toNat * 128 + f.code * 134217728)
  | .mst t r c f => some (119 + t.toNat * 128 + r.toNat * 4096 + c.toNat * 4194304 + f.code * 134217728)
  | .acz a b => some (121 + a.toNat * 4096 + b.toNat * 131072)
  | .acld t a => some (4194425 + t.toNat * 128 + a.toNat * 4096)
  | .acst t a f s c => some (8388729 + t.toNat * 128 + a.toNat * 4096 + f.code * 131072 + s.toNat * 33554432 + c.code * 67108864)
  | .act d a b c u => some (12583033 + d.toNat * 128 + a.toNat * 4096 + b.toNat * 131072 + c.code * 67108864 + u.code * 268435456)
  | .acadd t a c => some (16777337 + t.toNat * 128 + a.toNat * 4096 + c.code * 67108864)
  | .tzr t => some (20971641 + t.toNat * 128)
  | .mstat d x => some (25165945 + d.toNat * 128 + x.toNat * 33554432)
  | .rrec a b => some (123 + a.toNat * 4096 + b.toNat * 131072)
  | .rfix a => some (4194427 + a.toNat * 4096)
  | .rdrop a => some (8388731 + a.toNat * 4096)
  | .rqry d a => some (12583035 + d.toNat * 128 + a.toNat * 4096)
  | .rdev a => some (16777339 + a.toNat * 4096)
  | .rdevV a q => some (150995067 + a.toNat * 4096 + q.toNat * 268435456)
  | .rlat a => some (20971643 + a.toNat * 4096)
  | .seedrd d a => some (33554555 + d.toNat * 128 + a.toNat * 4096)
  | .reseed a b => some (37748859 + a.toNat * 4096 + b.toNat * 131072)
  | .xqry d a b => some (41943163 + d.toNat * 128 + a.toNat * 4096 + b.toNat * 131072)
  | .xobs d a => some (46137467 + d.toNat * 128 + a.toNat * 4096)
  | .garr g => some (67108987 + g.toNat * 4096)
  | .gwt g => some (71303291 + g.toNat * 4096)
  | .gbar g => some (75497595 + g.toNat * 4096)
  | .gqry d g => some (79691899 + d.toNat * 128 + g.toNat * 4096)
  | .tlbi a b => some (100663419 + a.toNat * 4096 + b.toNat * 131072)
  | .rafw a b => some (104857723 + a.toNat * 4096 + b.toNat * 131072)
  | .trap c => some (125 + c.toNat * 67108864)
  | .tret => some (4194429)
  | .uret => some (8388733)
  | .rdc d r => some (12583037 + d.toNat * 128 + r.toNat * 67108864)
  | .wrc a r => some (16777341 + a.toNat * 4096 + r.toNat * 67108864)
  | .rdp d => some (20971645 + d.toNat * 128)
  | .wrp a => some (25165949 + a.toNat * 4096)
  | .brk => some (29360253)
  | .hmsg a b => some (33554557 + a.toNat * 4096 + b.toNat * 131072)
  | .divideResultWrite _ _ => none
  | .yieldExpiry _ _ => none
  | .memoryReply _ _ _ => none
  | .remoteStoreAck _ _ => none
  | .fp6Emulation _ _ => none
  | .matrixOpComplete _ _ => none
  | .channelPacketArrival _ => none
  | .remoteFeRequest _ => none
  | .feNackRetry _ _ => none
  | .engineEntryStart _ _ _ => none
  | .engineEntryComplete _ _ => none
  | .taskTake _ => none
  | .stealRound _ _ => none
  | .pageFaultRequest _ _ _ => none
  | .pageMigration _ _ _ => none
  | .developmentSlotTimeout _ _ => none
  | .routerPacketForward _ _ _ => none
  | .vaultBankAccess _ _ => none
  | .vaultRefresh _ _ _ => none
  | .scrubVisit _ _ _ => none
  | .laneStart _ _ => none
  | .launchComplete _ _ => none
  | .watchdogExpiry _ _ => none
  | .containment _ _ _ _ => none
  | .ieStopTimeout _ _ => none
  | .preemption _ _ => none
  | .forwardedRequest _ => none
  | .contextRetryNack _ => none
  | .contextRestore _ _ _ => none
  | .thermalRanking _ _ => none
  | .thermalSlotDisable _ => none
  | .thermalSlotEnable _ => none
  | .submissionDoorbell _ _ _ => none
  | .completionDoorbell _ _ _ => none
  | .adminDoorbell _ _ _ => none
  | .launchRecordFetch _ => none
  | .placementAttempt _ _ _ _ _ => none
  | .completionEntryWrite _ => none
  | .partitionCreate _ _ => none
  | .partitionResize _ _ _ => none
  | .partitionDestroy _ _ => none
  | .ownerCreate _ _ _ _ => none
  | .queueCreate _ _ => none
  | .keyBind _ _ _ _ => none
  | .mapMap _ _ _ _ _ _ _ => none
  | .mapUnmap _ _ _ => none
  | .mapRegionEntry _ _ _ _ => none
  | .mapImport _ _ _ _ _ _ _ _ => none
  | .mapExport _ _ _ _ _ _ _ => none
  | .mapLoad _ _ _ _ _ => none
  | .contextSave _ _ _ => none
  | .debugHalt _ _ _ _ _ _ => none
  | .debugResume _ _ _ _ => none
  | .eccMode _ _ _ => none
  | .powerPolicy _ _ => none
  | .telemetry _ => none
  | .getVersion _ => none
  | .getCapabilities _ => none
  | .negotiateAlgorithms _ _ _ _ _ => none
  | .getDigests _ => none
  | .getCertificate _ _ _ _ => none
  | .challenge _ _ _ => none
  | .getMeasurements _ _ => none
  | .keyExchange _ _ _ => none
  | .finish _ _ _ => none
  | .heartbeat _ _ => none
  | .keyUpdate _ _ => none
  | .endSession _ _ => none
  | .vendorDefinedRequest _ _ _ _ => none
  | .firmwareUpdate _ _ _ _ => none
  | .packageReset _ => none
  | .functionLevelReset _ => none
  | .thermalReset => none
  | .powerStateChange _ _ => none
  | .registerWrite _ _ _ _ => none
  | .portRateWrite _ _ => none
  | .linkFlitReceive _ _ _ _ => none
  | .keepaliveSend _ => none
  | .linkDown _ => none
  | .fabricRequestArrival _ => none
  | .requestRetransmit _ _ => none
  | .sequenceAckKeepalive _ => none
  | .packageFailureDeclared _ => none
  | .fabricFailureAnswer _ => none
  | .illegalEncoding _ => none
  | .fetchFault _ _ => none
  | .l2SliceRequest _ => none
  | .remotePortAccess _ => none
  | .relranPortArbitration _ => none
  | .hostInterfaceTransfer => none
  | .linkTrainingComplete _ _ => none
  | .bridgeFlitReplay _ _ => none
  | .ideKmRequest _ _ _ => none

/-- The length of an encoded instruction in bytes: 2 for the C16 forms, else 4 (R25). -/
def encodedLength (w : Nat) : Nat := lengthOfHalf w

/-- The bytes of an encoded instruction as memory holds them (R21, R25). -/
def encodeBytes (i : Instr) : Option (List Byte) :=
  (encode i).map fun w => bytesOfNumber (encodedLength w) w

end Sys2Proof
end

