-- ==== Sys2Proof/Config.lean ====
section
/-!
DEFINITION. What this part fixes, and the free values: opaque constants without a body, of which no proof can know more
than that they exist. Each is named in the assumption log.
-/
namespace Sys2Proof.Config

/-- capw of this part (R149). DEDUCED, log 38. -/
def capw : Word := 0x00000001C0420851#64
/-- Tray bytes that exist: offsets below 0x6_0000 (R150). -/
def trayBytes : Nat := 0x60000
/-- First offset of the tray's system area (R158). -/
def systemArea : Nat := 0x58000
/-- Task records a deque holds (R177). -/
def dequeRecords : Nat := 32
/-- Park entries of a core (R156). -/
def parkEntries : Nat := 16
/-- Entries of one engine queue (R171). -/
def engineQueueEntries : Nat := 16
/-- Packets a channel FIFO holds (R178). -/
def fifoPackets : Nat := 4
/-- Staging table entries (R176). -/
def stagingEntries : Nat := 16
/-- NACKs after which a full/empty operation traps FERETRY (R156). -/
def feNackLimit : Nat := 1024
/-- Cycles of the core clock in a microsecond at 940 MHz (R7). -/
def cyclesPerMicrosecond : Nat := 940

/-- FREE VALUE (log 6): the victim a first-level or constant cache chooses, which R161 and R238 leave open. -/
opaque freeVictim : Nat → Nat
/-- FREE VALUE (log 6): the TLB set of a page, which R228 leaves open. -/
opaque freeTlbSet : Nat → Nat
/-- FREE VALUE (log 10): the bytes a saved context takes in the context area (R352); R179 gives no layout. -/
opaque contextBytes : Nat
/-- FREE VALUE (log 7): 128 bits from the SMC's random source (R387, R394). -/
opaque freeRandom : Nat → BitVec 128
/-- FREE VALUE (log 86): cycles that bank conflicts add to a row transfer (R152, R205). -/
opaque freeRetries : Nat → Nat
/-- FREE VALUE (log 8): byte i of a place of the tray's system area whose layout R158 does not give, as a function of what the place
holds. -/
opaque freeSystemByte : List Nat → Nat → Byte
/-- FREE VALUE (log 12): bytes of a failing row that an engine has written before the fault (R175). -/
opaque freePartial : Nat → Nat
/-- FREE VALUE (log 13): which of the pending activities of the part comes about next, where the spec gives no order. -/
opaque freeChoice : Nat → Nat
/-- FREE VALUE (log 11): a byte of a latent line that the tile's own development has begun to store (R253). -/
opaque freeLatentByte : Nat → Byte
/-- FREE VALUE (log 16): the tray contents R49 assigns to a partition's entry kernel, which R148 copies at binding from
the program image by means the spec does not give: (offset, byte) pairs. -/
opaque trayImage : Nat → Word → List (Nat × Byte)
/-- FREE VALUE (log 94): the frames of a new partition's vaults that its context area, recipe table and task-queue segments lie in
(R424), which the firmware chooses: (address, bytes) pairs. -/
opaque freeAreas : Nat → List (Nat × Nat)
/-- FREE VALUE (log 14): the seed of another package's owner, which R412 copies to the target outside any step of the
part: by package, partition and owner. -/
opaque remoteSeed : Nat → BitVec 128
/-- FREE VALUE (log 111): whether a plain read that may return an older value does so (R266, R271). -/
opaque freeStale : Nat → Bool
/-- FREE VALUE (log 109): the place on its die, 16 × row + column, of the router by which a die's control core sends into the mesh, which no
rule gives (R309, R311). -/
opaque controlPlace : Nat → Fin 256
/-- FREE VALUE (log 84): the TYPE code of a mesh packet, which R309 does not make architectural. -/
opaque freeType : Nat → BitVec 8
/-- FREE VALUE (log 18): flits of a fabric packet, of which R407 says 1 to 3. -/
opaque freeFlits : Nat → Nat
/-- FREE VALUE (log 25): the result word of TELEMETRY, whose layout R387 does not give. -/
opaque freeTelemetry : Nat → BitVec 48
/-- FREE VALUE (log 63): the bridges, numbered 16 × edge + bridge, that fail their training after THERMAL_RESET (R373). -/
opaque freeBridges : Nat → List Nat
/-- FREE VALUE (log 9): the SM3 digest of a list of bytes. -/
opaque sm3 : List Byte → BitVec 256
/-- FREE VALUE (log 9): SM4-GCM decryption and its tag check (R392), as a function of key, IV, additional data,
ciphertext and tag; none is a failed tag. -/
opaque sm4GcmOpen : BitVec 128 → BitVec 96 → List Byte → List Byte → BitVec 128 → Option (List Byte)
/-- FREE VALUE (log 9): SM4-GCM encryption (R392): ciphertext bytes. -/
opaque sm4GcmSeal : BitVec 128 → BitVec 96 → List Byte → List Byte → List Byte
/-- FREE VALUE (log 9): SM4-XTS encryption of a line (R394), as a function of key, tweak and plaintext. -/
opaque sm4Xts : BitVec 128 → Nat → List Byte → List Byte
/-- FREE VALUE (log 9): whether an SM2 signature over an SM3 digest verifies under Swidesha's key (R397). -/
opaque sm2Verifies : BitVec 256 → BitVec 512 → Bool
/-- FREE VALUE (log 9): an SM2 signature by the device identity key over a transcript (R389). -/
opaque sm2Signature : Nat → BitVec 512
/-- FREE VALUE (log 9): the SM3 digest of measurement block i in a given configuration (R390). -/
opaque measurement : Nat → List Word → BitVec 256
/-- FREE VALUE (log 9): the device certificate chain of slot 0 (R389). -/
opaque certificateChain : Nat → List Byte
/-- FREE VALUE (log 9): the device's share and verify data of an SPDM key exchange (R389). -/
opaque keyShare : Nat → BitVec 512
/-- FREE VALUE (log 9): the verify data a session's peer must present in FINISH (R389). -/
opaque finishVerify : Nat → BitVec 256

end Sys2Proof.Config
end

