-- ==== Sys2Proof/Machine/SMap.lean ====
section
/-!
DEFINITION. Sparse maps from numbers, as lists of pairs in one canonical form: keys strictly rising. Where a map has a
default value (memory reads 0 where nothing is listed, R400), no listed value equals it, so that equal maps are equal
lists. Memory (the package's vaults, a tray, a tile) is such a list of (address, byte) pairs.
-/
namespace Sys2Proof

/-- A sparse map: pairs of key and value, keys strictly rising. -/
abbrev SMap (V : Type) := List (Nat × V)

namespace Machine

/-- The value at a key, if one is listed. -/
def mapGet? {V : Type} : SMap V → Nat → Option V
  | [], _ => none
  | (j, v) :: rest, k => if j = k then some v else if k < j then none else mapGet? rest k

/-- The value at a key, or a default. -/
def mapGet {V : Type} (m : SMap V) (k : Nat) (dflt : V) : V := (mapGet? m k).getD dflt

/-- Set the value at a key, keeping the keys rising. -/
def mapSet {V : Type} : SMap V → Nat → V → SMap V
  | [], k, v => [(k, v)]
  | (j, u) :: rest, k, v =>
    if j = k then (k, v) :: rest
    else if k < j then (k, v) :: (j, u) :: rest
    else (j, u) :: mapSet rest k v

/-- Remove a key. -/
def mapErase {V : Type} : SMap V → Nat → SMap V
  | [], _ => []
  | (j, u) :: rest, k => if j = k then rest else if k < j then (j, u) :: rest else (j, u) :: mapErase rest k

/-- Set a key in a map with a default: the default itself is never listed. -/
def mapPut {V : Type} [DecidableEq V] (dflt : V) (m : SMap V) (k : Nat) (v : V) : SMap V :=
  if v = dflt then mapErase m k else mapSet m k v

/-- Keys strictly rising, all above a bound. -/
def risesFrom {V : Type} (lo : Nat) : SMap V → Bool
  | [] => true
  | (j, _) :: rest => lo ≤ j && risesFrom (j + 1) rest

/-- The canonical form of a sparse map with a default (the form memory is kept in). -/
def mapWf {V : Type} [DecidableEq V] (dflt : V) (m : SMap V) : Bool :=
  risesFrom 0 m && m.all fun c => c.2 ≠ dflt

/-- What an unlisted address reads as: R400 zeroes every vault and every SRAM before the part is used. -/
def Memory.unlisted : Byte := 0

/-- The canonical form of memory: addresses strictly rising, no listed byte equal to what an unlisted address reads as. -/
def Memory.wf (m : List Host.Cell) : Bool := mapWf Memory.unlisted m

/-- One byte of memory. DESIGN CHOICE, log 3. -/
def Memory.read (m : List Host.Cell) (a : Nat) : Byte := mapGet m a Memory.unlisted

/-- Write one byte of memory. -/
def Memory.write (m : List Host.Cell) (a : Nat) (b : Byte) : List Host.Cell := mapPut Memory.unlisted m a b

/-- n bytes from an address, as a little-endian number (R21). -/
def Memory.readN (m : List Host.Cell) (a : Nat) : Nat → Nat
  | 0 => 0
  | n + 1 => (Memory.read m a).toNat + 256 * Memory.readN m (a + 1) n

/-- Write the low n bytes of a number from an address up (R21). -/
def Memory.writeN (m : List Host.Cell) (a : Nat) : Nat → Nat → List Host.Cell
  | 0, _ => m
  | n + 1, v => Memory.writeN (Memory.write m a (BitVec.ofNat 8 v)) (a + 1) n (v / 256)

/-- Write a list of (address, byte) pairs in order. -/
def Memory.writeCells (m : List Host.Cell) (cs : List Host.Cell) : List Host.Cell :=
  cs.foldl (fun acc c => Memory.write acc c.1 c.2) m

/-- Write a list of bytes from an address up. -/
def Memory.writeBytes (m : List Host.Cell) (a : Nat) : List Byte → List Host.Cell
  | [] => m
  | b :: rest => Memory.writeBytes (Memory.write m a b) (a + 1) rest

/-- n bytes from an address, in ascending order. -/
def Memory.readBytes (m : List Host.Cell) (a : Nat) : Nat → List Byte
  | 0 => []
  | n + 1 => Memory.read m a :: Memory.readBytes m (a + 1) n

/-- Every listed byte of [a, a + n) removed: the range reads as unlisted memory does. -/
def Memory.clear (m : List Host.Cell) (a n : Nat) : List Host.Cell :=
  m.filter fun c => !(a ≤ c.1 && c.1 < a + n)

/-- A set of numbers, kept strictly rising: membership. -/
def setHas (l : List Nat) (k : Nat) : Bool := l.contains k

/-- Add a number to a set, kept strictly rising. -/
def setAdd : List Nat → Nat → List Nat
  | [], k => [k]
  | j :: rest, k => if j = k then j :: rest else if k < j then k :: j :: rest else j :: setAdd rest k

/-- Remove a number from a set. -/
def setDel (l : List Nat) (k : Nat) : List Nat := l.filter (· ≠ k)

/-- Insert before the entries of the same key. -/
def insertKey {α : Type} (e : Nat × α) : List (Nat × α) → List (Nat × α)
  | [] => [e]
  | x :: rest => if e.1 ≤ x.1 then e :: x :: rest else x :: insertKey e rest

/-- Sort by key, keeping the order of equal keys. -/
def sortKeys {α : Type} : List (Nat × α) → List (Nat × α)
  | [] => []
  | e :: rest => insertKey e (sortKeys rest)

end Machine
end Sys2Proof
end

