-- ==== Sys2Proof/Machine/State.lean ====
section
/-!
DEFINITION. The state of one KN-1024 package, as plain data: the thread slots (R76-R79), the cores (R147), the clusters
(R228, R238), the memory behind the home slices (R234-R237), the partitions (R3, R223, R239, R241, R244), the launches
and queues (R333, R376-R382), the die and package controllers (R373-R401) and the fabric (R405-R420); the reasons a step
can stop; and the state after reset (R400).
-/
namespace Sys2Proof.Machine

/-- Trap causes (R88), in the order of their codes 1 to 25. -/
inductive Cause where
  | ill | priv | align | noncanon | bounds | page | prot | traysys | feretry | dqfull | loop | matfmt | group | nondet
  | pin | devdepth | devfault | mce | contained | badsst | notrap | swtrap | brk | fabric | rtfull
  deriving DecidableEq, Repr

/-- The code of a cause (R88). -/
def Cause.code : Cause → Nat
  | .ill => 1 | .priv => 2 | .align => 3 | .noncanon => 4 | .bounds => 5 | .page => 6 | .prot => 7 | .traysys => 8
  | .feretry => 9 | .dqfull => 10 | .loop => 11 | .matfmt => 12 | .group => 13 | .nondet => 14 | .pin => 15
  | .devdepth => 16 | .devfault => 17 | .mce => 18 | .contained => 19 | .badsst => 20 | .notrap => 21 | .swtrap => 22
  | .brk => 23 | .fabric => 24 | .rtfull => 25

/-- The status word sw (R78): the fields that are not reserved. -/
structure Status where
  owner : BitVec 8
  hl : Bool
  dm : Bool
  ue : Bool
  ie : Bool
  s : Bool
  deriving DecidableEq, Repr

/-- Full/empty operations (R190). -/
inductive FeOp where
  | ldfe | stfe | ldff
  deriving DecidableEq, Repr

/-- Where the data of a remote operation goes when its reply arrives (R181). -/
inductive Sink where
  | none
  | x (d : Reg)
  | row (d : Reg) (mask : BitVec 16)
  | lane (d : Reg) (lanes : List Nat) (n : Nat)
  | acquireX (d : Reg)
  /-- Words of a descriptor or record on a fabric page, kept for the instruction that reads them (R171, R200). -/
  | fetch (va : Nat)
  /-- The counter's old value of a FORK or a JOIN with its target (R199). -/
  | fork (target : Word)
  | join (target : Word)
  /-- The bytes an STL has written, at its VA, for the digest (R351). -/
  | written (va : Nat) (bytes : List Byte)
  deriving DecidableEq, Repr

/-- The requester at the root of a chain of developments (R252). -/
inductive Requester where
  | slot (core slot : Nat)
  | engine (core queue : Nat)
  /-- Another package's request (R412), with the core its developments run on, its source and its sequence number. -/
  | remote (core source seq : Nat)
  /-- A slot, or from number 8 on an engine queue, of another partition of this package, that has reached the tile by a fabric page
  that names this package (R410), with the core the developments run on. -/
  | across (host core slot : Nat)
  /-- The die control core, which reads the group image of a launch (R379), with the core the developments run on. -/
  | image (host part launch : Nat)
  /-- Firmware, which fetches the staged frames of a core's context again (R176, R355), with the core the developments run on. -/
  | refetch (host core : Nat)
  deriving DecidableEq, Repr

/-- The core on which the developments of a requester's chain run (R251). -/
def Requester.core : Requester → Nat
  | .slot c _ | .engine c _ | .remote c _ _ | .across c _ _ | .image c _ _ | .refetch c _ => c

/-- The development a task performs (R251): its recipe record, its depth and the root of its chain. -/
structure DevTask where
  recipe : Nat
  depth : Nat
  root : Requester
  deriving DecidableEq, Repr

/-- A task record (R81, R196, R340). -/
structure TaskRec where
  pc : Word
  p : BitVec 24
  key : BitVec 16
  depth : Nat
  type : BitVec 8
  x : Vector Word 16
  v : Vector Vec 8
  dev : Option DevTask
  /-- Words of the record that are poisoned (R180). -/
  bad : List Nat := []
  deriving DecidableEq, Repr

/-- What an engine entry does (R172, R173, R174). -/
inductive EntryOp where
  | copy (src dst : Word) (rb rows : Nat) (sstr dstr : Int) (scol dcol : Bool) (ro : Bool)
  | gather (base idx dst : Word) (cnt eb : Nat) (scol dcol : Bool)
  | fence (id : Nat)
  deriving DecidableEq, Repr

/-- The operands a matrix operation latches at issue (R128, R203): tc0-tc7 and X(a), X(b), X(d). -/
structure Latch where
  tcs : Vector Word 8
  a : Word
  b : Word
  d : Word
  deriving DecidableEq, Repr

/-- Why a slot is out of the rotation (R85). -/
inductive Wait where
  /-- In the rotation. -/
  | none
  /-- A memory operation is performed and its reply is awaited; the packets that carry it beyond the core. -/
  | reply (pkts : List Nat)
  /-- Remote tray accesses, a channel packet or fabric requests whose answers decide the instruction. -/
  | remote (pkts : List Nat)
  /-- A divide whose result is written at a cycle (R82). -/
  | divide (d : Reg) (q : Word) (due : Nat)
  /-- YIELD, until a cycle (R121). -/
  | yield (due : Nat)
  /-- An instruction the die control core performs by emulation (R64), with its latched operands and, for VCVT, its
  source register. -/
  | emulate (i : Instr) (l : Latch) (src : Vec)
  /-- A matrix operation that is performed and completes at a cycle (R168): its lane and its tile registers. -/
  | matrix (loader : Bool) (tiles : List Nat) (due : Nat)
  /-- An MST between two activation tiles (R169): the next tile, its first accumulator row and the cycle of the
  boundary. -/
  | stream (i : Instr) (l : Latch) (tile row due : Nat)
  /-- A matrix operation waiting for its lane or its tile registers (R168). -/
  | lane (i : Instr) (l : Latch)
  /-- RECV on an empty endpoint (R202), with its register. -/
  | recv (e : Nat) (d : Reg)
  /-- A read of a pending handle (R194). -/
  | future (entry : Nat)
  /-- A full/empty operation on a local word in the wrong state (R156): its register, pointer and store data. -/
  | fe (op : FeOp) (d : Reg) (p : Word) (b : HWord)
  /-- A remote full/empty operation that received a NACK, retried at a cycle (R156). -/
  | feNacked (pkt : Nat) (due : Nat)
  /-- QFN on engine queues without a free place each (R195). -/
  | queue
  /-- CPY or GTH whose entry is made and waits for a free place (R193): queue, entry and handle register. -/
  | engine (queue : Nat) (op : EntryOp) (full : Bool) (d : BitVec 4)
  /-- ENQ of a record it has read, on a full segment (R342). -/
  | enq (queue segment : Nat) (r : TaskRec)
  /-- DEQ without a record (R343). -/
  | deq (queue : Nat)
  /-- A release waiting for acknowledgements (R291). -/
  | release
  /-- A group barrier (R242). -/
  | barrier (g : Nat)
  /-- An access held by the development of a recipe record (R251); RDEV.V completes with its predicate 0 when the
  development it started ends (R293). -/
  | develop (recipe : Nat) (q : Option PredNo)
  /-- An access to a 64-byte row with unacknowledged stores of the slot (R183, R413). -/
  | row (line : Nat)
  /-- FESET on the local tray with rows still to be set (R192): offset, words left and state. -/
  | feRows (off count : Nat) (b : Bool)
  /-- HMSG until its entry is written (R385). -/
  | ring (queue : Nat)
  /-- An instruction that takes a stated number of cycles (R298). -/
  | cycles (due : Nat)
  /-- A write held by a page migration (R232). -/
  | migration
  /-- A request of an owner whose new seed is being installed, or a RESEED behind another one of the owner (R297). -/
  | reseed
  /-- A trap that ends in containment (R94, R180, R420), with its cause and detail: nothing issues until the plot is
  reset. -/
  | contained (why : ContainCause) (detail : Word)
  deriving DecidableEq, Repr

/-- Whether a slot is bound and running (R334). -/
inductive Life where
  | unbound | idle | running
  deriving DecidableEq, Repr

/-- What a slot's task was started from (R80, R81, R340). -/
inductive TaskKind where
  | lane | record | dev (t : DevTask)
  deriving DecidableEq, Repr

/-- A recorded refusal of a remote store (R182). -/
structure Nack where
  cause : Cause
  addr : Word
  deriving DecidableEq, Repr

/-- Stops of one slot (R95): debug halt (R360), with its hold of the watchdog, and thermal displacement (R358). -/
inductive StopKind where
  | halt | displace
  deriving DecidableEq, Repr

/-- A thread slot (R76-R79). -/
structure Slot where
  life : Life
  pc : Word
  p : HWord
  x : Vector Word 16
  v : Vector Vec 16
  sw : Status
  sst : Word
  epc : Word
  ecause : Word
  eaddr : Word
  uvb : Word
  uepc : Word
  ucause : Word
  uaddr : Word
  utoken : Word
  lc : Word
  lstart : Word
  lend : Word
  alost : BitVec 16
  lane : HWord
  lcount : HWord
  launch : HWord
  gm : Word
  /-- The SR counter (R67). -/
  sr : BitVec 44
  /-- Pending marks: for each register, the engine entry it names (R194). -/
  marks : Vector (Option Nat) 16
  nack : Option Nack
  /-- Words of a descriptor or record on a fabric page that have arrived for the instruction at the PC. -/
  fetched : SMap Word
  out : Wait
  /-- Arrival order of the wait (R156, R178, R342, R343). -/
  since : Nat
  lastIssue : Option Nat
  /-- The first cycle the slot may issue in after it left the rotation (R85). -/
  readyAt : Nat
  /-- The next instruction is the first of a trap or upcall vector (R94). -/
  atVector : Bool
  /-- GBAR has arrived and now waits (R242). -/
  arrived : Bool
  /-- A deque place is reserved (R196). -/
  reserved : Bool
  /-- DEQ has ended the slot's task (R200). -/
  dequeuing : Bool
  /-- An ENQ has issued and has not completed (R335). -/
  enqueuing : Bool
  /-- The shared registers as the waiting instruction read them at its issue (R287): y0-y15 and w0-w15. -/
  sources : Option (Vector Word 16 × Vector Vec 16)
  kind : TaskKind
  /-- uvb and DM of the slot, kept aside while it runs a development (R78, R251). -/
  aside : Option (Word × Bool)
  /-- Cycle of the next steal round while the slot is idle (R177). -/
  stealAt : Nat
  /-- An asynchronous stop and the cycle of its request (R95). -/
  stopAt : Option (StopKind × Nat)
  halted : Bool
  /-- Displaced by thermal policy (R358), and where it runs as a guest (R359). -/
  disabled : Bool
  guestAt : Option (Nat × Nat)
  /-- The state has been taken from poisoned words: MCE comes before the next instruction (R180). -/
  spoiled : Bool := false
  deriving DecidableEq, Repr

/-- A bind record of the die slot table (R333). -/
structure BindRec where
  v : Bool
  part : Nat
  owner : Nat
  cls : BitVec 2
  dig : Bool
  qf : Bool
  dm : Bool
  gv : BitVec 4
  gid : HWord
  launch : HWord
  lcm : BitVec 13
  lane : BitVec 13
  args : Word
  entry : Word
  deriving DecidableEq, Repr

/-- What a core is bound to (R147). -/
structure Binding where
  part : Nat
  owner : Nat
  launch : HWord
  cls : BitVec 2
  deriving DecidableEq, Repr

/-- A translation held by a cluster TLB (R228). -/
structure TlbEntry where
  region : Word
  leaf : Word
  psize : Nat
  deriving DecidableEq, Repr

/-- A line of a first-level data cache (R161): the physical line, the translation it is held under (R229), its words, and
which of them are valid, owned and poisoned. -/
structure L1Line where
  pa : Nat
  tr : Option TlbEntry
  data : Vec
  valid : BitVec 16
  owned : BitVec 16
  bad : BitVec 16
  deriving DecidableEq, Repr

/-- A line of an instruction cache or of the constant cache: the physical line, its bytes, and in an instruction cache the translation
it is held under (R228). -/
structure RoLine where
  pa : Nat
  data : Vec
  tr : Option TlbEntry
  deriving DecidableEq, Repr

/-- The weights held by the matrix array (R166, R167, R211): bytes as stored, block scales and band scale. -/
structure Weights where
  wv : Bool
  wbad : Bool
  fmt : Option Fmt
  rows : Nat
  cols : Nat
  w : List Host.Cell
  blk : List Host.Cell
  band : BitVec 16
  deriving DecidableEq, Repr

/-- The resume record of the sequencer (R169, R213). -/
structure Resume where
  slot : Nat
  pc : Word
  fields : Instr
  tiles : Nat
  deriving DecidableEq, Repr

/-- On whose behalf an access is made: a slot, or an engine entry a slot queued (R24, R193). -/
structure Agent where
  core : Nat
  slot : Option Nat
  /-- The engine queue, where no slot makes the access. -/
  queue : Nat
  part : Nat
  owner : Nat
  cls : BitVec 2
  smode : Bool
  dev : Option DevTask
  dig : Bool
  launch : HWord
  ports : Nat
  /-- The slot for whose access the page walker reads (R228). -/
  walksFor : Option Nat := none
  deriving DecidableEq, Repr

/-- An entry of an engine queue (R171, R174, R175). -/
structure Entry where
  id : Nat
  op : EntryOp
  full : Bool
  started : Bool
  /-- Rows performed, and bytes of the next one that are written. -/
  done : Nat
  part : Nat
  /-- The bytes of the next row that are written to global addresses, for the digest (R351). -/
  wrote : List Host.Cell
  cancel : Bool
  status : Option Nat
  wait : Wait
  agent : Agent
  /-- The present row has begun and is not done. -/
  inRow : Bool := false
  /-- Rows whose words have been set full. -/
  filled : Nat := 0
  deriving DecidableEq, Repr

/-- A staging table entry (R176): descriptor and destination frames. -/
structure Staging where
  src : Word
  dst : Word
  rb : Nat
  rows : Nat
  sstr : Int
  marked : Bool
  /-- The context has been restored and the frames are yet to be fetched again (R355). -/
  stale : Bool := false
  deriving DecidableEq, Repr

/-- Operations on another core's tray (R160, R181). -/
inductive TrayOp where
  | read (offs : List (Nat × Nat)) (sink : Sink)
  | write (cells : List Host.Cell)
  | amo (op : AmoOp) (n : Nat) (off : Nat) (b : Word) (sink : Sink)
  | cas (n : Nat) (off : Nat) (c b : Word) (sink : Sink)
  | fe (op : FeOp) (off : Nat) (b : HWord) (d : Reg)
  | feset (off count : Nat) (s : Bool)
  deriving DecidableEq, Repr

/-- Data of a request to a home slice, for the header of its packet (R309) and for a failed parity check (R313). -/
inductive HomeBody where
  | none
  /-- The reply brings n bytes. -/
  | read (n : Nat)
  /-- The reply brings a line to a place of a core's first-level cache, for an access that reads it or not. -/
  | fill (core va : Nat) (reads : Bool)
  /-- The request carries n bytes to some words of memory. -/
  | write (words : List Nat) (n : Nat)
  /-- The request carries the operands of a read-modify-write of some words, and the reply brings their n bytes. -/
  | atomic (words : List Nat) (n operands : Nat)
  deriving DecidableEq, Repr

/-- What a mesh packet carries. -/
inductive Load where
  /-- A request a home slice has accepted, on its way for the arbitration law alone (R321); whether its
  path reaches the vault (R235). -/
  | home (line : Nat) (vault : Bool)
  /-- A line that a home slice writes to a vault (R235, R236). -/
  | writeBack (line : Nat)
  /-- A home slice recalls words from a core that owns them (R162, R237): its request, and the words on their way back. -/
  | recall (line : Nat) (words : List Nat)
  /-- A prefetch to the home slice (R188): the line, its page's owner, with recall or not. -/
  | pref (line own : Nat) (recalls : Bool)
  /-- An access to another core's tray. -/
  | tray (op : TrayOp)
  /-- A channel packet (R201). -/
  | channel (e : Nat) (data : Vec)
  /-- A page-fault completion notice (R231). -/
  | notice (data : Vec)
  /-- A fabric request to another package (R411): target, sequence number, remote PA and where its data goes. -/
  | away (target seq pa : Nat) (sink : Sink)
  /-- Data an instruction already holds while it waits for other elements (R189). -/
  | held (sink : Sink)
  /-- A keep-alive of a sequence window (R415): its target and the cumulative acknowledgement it carries. -/
  | keepAlive (target below : Nat)
  /-- A packet of another package on its way to a third one, and the port it has come by (R320, R407). -/
  | transit (target inPort : Nat)
  /-- A fabric request being served at this package (R412). -/
  | fabric (req : FabricReq)
  /-- The reply to a fabric request that this package has served (R407). -/
  | reply (req : FabricReq) (answer : RemoteAnswer)
  deriving DecidableEq, Repr

/-- Where a packet stands. -/
inductive Place where
  /-- At its sender, before it has a buffer of its router's input port (R310), on the request network 0 or the response
  network 1. -/
  | enter (net n : Nat) (inPort : MeshPort)
  | router (n : Nat) (inPort : MeshPort)
  | slice (n : Nat)
  | bank (vault bank : Nat)
  | port
  | fifo
  | parked
  | nacked
  | back (n : Nat) (inPort : MeshPort)
  | done
  deriving DecidableEq, Repr

/-- What answered a remote operation. -/
inductive Answer where
  | data (bytes : List Byte) | ok | trap (c : Cause) | nack
  /-- A retry NACK: the context rests in the vault (R354). -/
  | retry
  /-- A development of another package has failed: DEVFAULT or DEVDEPTH with the block of its recipe (R252, R253). -/
  | blame (c : Cause) (block : Word)
  deriving DecidableEq, Repr

/-- A packet of the mesh (R309): requester, owner identity, class, route, the rounds it lost at each structure (R321)
and its answer. -/
structure Packet where
  id : Nat
  part : Nat
  owner : Nat
  cls : BitVec 2
  core : Nat
  slot : Nat
  /-- Destination column, row and unit (R309). -/
  dx : Nat
  dy : Nat
  unit : Nat
  esc : Bool
  poisoned : Bool
  load : Load
  ptr : Word
  place : Place
  since : Nat
  /-- The slot waits for the answer; otherwise the packet is a store whose acknowledgement releases wait for. -/
  sync : Bool
  answer : Option Answer
  nacks : Nat
  /-- The home slice that passed the request on to a vault of another cluster (R235). -/
  via : Option Nat
  /-- The package the request came from, if not this one (R407). -/
  origin : Option Nat
  /-- The first vacated core the request has been passed on from (R353). -/
  vacated : Option Nat
  /-- A retry NACK has sent the request back before (R354). -/
  retried : Bool
  /-- The request that caused a vault write (R235): its rounds count with that request's. -/
  causedBy : Option Nat
  body : HomeBody
  /-- Rounds lost at structures 4, 5, 6, 8 and 9. -/
  lost : SMap Nat
  deriving DecidableEq, Repr

/-- A requester's state parked by a development (R159). -/
structure Saved where
  slot : Nat
  state : Slot
  depth : Nat
  /-- Words of the save area that are poisoned (R180). -/
  bad : List Nat := []
  deriving DecidableEq, Repr

/-- A write to what the slots of a core share: a scalar register, the enabled bits of a vector register, or a control
register of the core (R27, R86, R131). -/
inductive SharedWrite where
  | x (r : Fin 16) (v : Word)
  | v (r : Fin 16) (en v : Vec)
  | ctl (r : Nat) (v : Word)
  deriving DecidableEq, Repr

/-- A shared write that lands at the end of a cycle (R82, R86), with the slot that made it. -/
structure LateWrite where
  due : Nat
  slot : Nat
  write : SharedWrite
  /-- It waits for the replies of its instruction (R87, R181). -/
  held : Bool := false
  deriving DecidableEq, Repr

/-- A core (R147). -/
structure Core where
  slots : Vector Slot 8
  binds : Vector BindRec 8
  bound : Option Binding
  last : Option (Nat × Nat)
  position : Option Nat
  fenced : Bool
  disabled : Bool
  y : Vector Word 16
  w : Vector Vec 16
  tc : Vector Word 8
  tvb : Word
  /-- Writes to the shared bank that have not landed yet, in the order of their issue (R82, R86). -/
  late : List LateWrite
  tray : List Host.Cell
  fe : List Nat
  trayBad : List Nat
  l1d : SMap L1Line
  l1i : SMap RoLine
  tiles : List Host.Cell
  tileBad : List Nat
  acc : SMap HWord
  accBad : List Nat
  array : Weights
  ovf : Bool
  resume : Option Resume
  queues : Vector (List Entry) 6
  staging : List Staging
  deque : List TaskRec
  overflow : List TaskRec
  /-- Channel FIFOs (R178): packets, and whether their data is poisoned (R313). -/
  fifos : Vector (List (Vec × Bool)) 16
  park : List Nat
  saved : Option Saved
  stack : List Saved
  lastIssuer : Nat
  /-- A pre-emption is pending: its destination, none for the vault, and the cycle of its request (R352). -/
  preempt : Option (Option Nat × Nat)
  /-- Slots that await replies of the home slices, each as it was before its instruction: an MCE of a reply is exact (R87, R313). -/
  undo : SMap Slot := []
  /-- The older values of tray words that other cores have written since the last acquire: a plain read may still return them (R265, R271). -/
  trayOld : SMap HWord := []
  deriving DecidableEq, Repr

/-- A cluster: its TLB and its constant cache (R228, R238). -/
structure Cluster where
  tlb : SMap TlbEntry
  cc : SMap RoLine
  deriving DecidableEq, Repr

/-- The older values of a line's words that a store of a core has replaced: until that core's next release a plain read of another core
may still return them, unless it has read the line since (R265, R266). -/
structure Older where
  writer : Nat
  words : List (Nat × HWord)
  barred : List Nat
  deriving DecidableEq, Repr

/-- A line of an L2 slice (R236, R237): where it is placed, whether it is dirty, its mode bit and the registered owner of
each word. -/
structure L2Line where
  slice : Nat
  set : Nat
  way : Nat
  owner : Nat
  dirty : Bool
  strong : Bool
  reg : SMap Nat
  /-- What the vault holds of the line, as a number: its bytes as they were filled, or last written back (R235, R394). -/
  stored : Nat := 0
  older : Option Older := none
  deriving DecidableEq, Repr

/-- An owner: its seed, its structure counters by structure and instance, and its XOBS counts (R239, R299). -/
structure Owner where
  seed : BitVec 128
  ctr : SMap Nat
  xobs : SMap Word
  deriving DecidableEq, Repr

/-- A group table entry (R241). -/
structure Group where
  n : Nat
  count : Nat
  phase : Bool
  broken : Bool
  launch : HWord
  deriving DecidableEq, Repr

/-- A verify run (R294): the slot and predicate that asked, and whether a byte differed. -/
structure Verify where
  core : Nat
  slot : Nat
  q : PredNo
  differ : Bool
  deriving DecidableEq, Repr

/-- A development in progress (R251, R253). -/
structure Dev where
  root : Requester
  depth : Nat
  /-- The requester it answers: the root, or the development slot one level up. -/
  asker : Requester
  verify : Option Verify
  written : List Nat
  deriving DecidableEq, Repr

/-- A record of the recipe table (R244, R246). -/
structure Recipe where
  id : Nat
  block : Word
  words : Vector Word 8
  /-- Virtual line and physical line of each tile line, ascending. -/
  lines : List (Nat × Nat)
  /-- Owners of the pages its tile lies in (R240). -/
  owners : List Nat
  /-- Physical lines pinned, one entry for each pin. -/
  pins : List Nat
  /-- Developments of the tile in progress, the innermost first (R253). -/
  devs : List Dev
  deriving DecidableEq, Repr

/-- A page-fault request (R230). -/
structure PageReq where
  token : HWord
  core : Nat
  slot : Nat
  owner : Nat
  lane : HWord
  va : Word
  deriving DecidableEq, Repr

/-- An entry of a completion ring before its phase bit is given (R380). -/
structure RingEntry where
  tag : Word
  launch : HWord
  status : BitVec 16
  type : BitVec 8
  data : Word
  detail : Word
  lane : BitVec 13
  elapsed : Word
  /-- The slot that waits for the entry (R385). -/
  sender : Option (Nat × Nat)
  /-- When it was posted, and the stores that come before it (R320, R381). -/
  since : Nat
  awaits : List Nat
  deriving DecidableEq, Repr

/-- Stages of a launch (R335, R336). -/
inductive LaunchStage where
  | waiting | running | complete
  deriving DecidableEq, Repr

/-- A launch (R6, R378): its record, queue, plot and digest. -/
structure Launch where
  words : List Word
  queue : Nat
  owner : Nat
  die : Nat
  stage : LaunchStage
  row : Nat
  col : Nat
  lanes : Nat
  digest : Word
  start : Nat
  /-- Watchdog cycles counted before the present run, where that run began, and whether the count is held (R384). -/
  wdog : Nat
  wdogFrom : Nat
  hold : Bool
  /-- The development of the tile that holds its group image has failed (R252, R379). -/
  imageFailed : Bool := false
  deriving DecidableEq, Repr

/-- A task queue (R341). -/
structure TaskQueue where
  segs : SMap (List TaskRec)
  deriving DecidableEq, Repr

/-- A partition (R3). -/
structure Partition where
  clusters : List Nat
  raf : Vector Word 16
  owners : SMap Owner
  groups : SMap Group
  recipes : List Recipe
  recipeCap : Nat
  queueCount : Nat
  segCap : Nat
  queues : SMap TaskQueue
  ctxMiB : Nat
  /-- Contexts at rest in the vault, by position (R354). -/
  contexts : SMap Core
  token : HWord
  faults : List PageReq
  nextLaunch : HWord
  launches : SMap Launch
  tvb : Word
  strong : Bool
  /-- A change of the L2's correction mode in progress: the sets that have the new code, in the scrubber's order (R326). -/
  recode : Option Nat
  sealedOnly : Bool
  mask : BitVec 4
  keys : SMap (BitVec 128)
  memKey : BitVec 128
  sealedPages : List Nat
  /-- Frames of the context area, the recipe table and the task-queue segments: first address and bytes (R424). -/
  areas : List (Nat × Nat)
  /-- Positions that a resize has pre-empted (R356). -/
  moved : List Nat
  /-- Frames and tables that mappings use: first address and bytes (R424). -/
  used : List (Nat × Nat)
  /-- Position map: position to physical core (R338). -/
  posMap : SMap Nat
  /-- Forwarding entries: a vacated core and the position that left it (R353). -/
  forward : List (Nat × Nat)
  /-- RESEEDs that wait, in the order in which the SMC received them: owner, core and slot (R297). -/
  reseeds : List (Nat × Nat × Nat)
  /-- A page migration in progress: the virtual page whose writes are held (R232). -/
  migrating : Option Word
  /-- Events kept while no queue carries EVENTS, and the number lost (R377). -/
  held : List RingEntry
  lostEvents : Nat
  /-- Corrected errors by structure (R180, R327): 0 the L2, 1 the vaults, 2 trays, 3 tile registers, 4 accumulator stores, 5 L1. -/
  corrected : SMap Nat
  deriving DecidableEq, Repr

/-- A hardware queue (R375, R376). -/
structure HwQueue where
  vf : Nat
  index : Nat
  owner : Nat
  die : Nat
  subBase : Nat
  cplBase : Nat
  subSize : Nat
  cplSize : Nat
  vector : Nat
  events : Bool
  subTail : Nat
  subHead : Nat
  cplHead : Nat
  cplTail : Nat
  phase : Bool
  pending : List RingEntry
  /-- MSI-X messages raised (R380). -/
  msix : Nat
  /-- Rounds its present request has lost at the host interface (R321). -/
  lost : Nat
  /-- Doorbells whose records are not all read: the tail each wrote and when it came (R320). -/
  bells : List (Nat × Nat)
  deriving DecidableEq, Repr

/-- A function's admin queue (R375, R386): doorbells and the next record to take, the responses given, what its completion ring has
yet to take, where the ring stands and its phase. -/
structure Admin where
  subTail : Nat
  subHead : Nat
  cplHead : Nat
  responses : List (BitVec 32 × BitVec 16 × Word)
  /-- Responses, and on the PF's ring event entries, that wait for a place. -/
  waiting : List (Sum (BitVec 32 × BitVec 16 × Word) RingEntry)
  cplTail : Nat
  phase : Bool
  deriving DecidableEq, Repr

/-- An SPDM session (R389, R391). -/
structure Session where
  port : SpdmPort
  established : Bool
  epoch : Nat
  deriving DecidableEq, Repr

/-- The SPDM responder's view of one transport (R389). -/
structure Spdm where
  version : Bool
  caps : Bool
  algs : Bool
  /-- Answers given: response code and contents. -/
  replies : List (Nat × List Byte)
  deriving DecidableEq, Repr

/-- A die: power state, admission floor, temperature ranking and refresh windows (R358, R398, R315). -/
structure Die where
  enabled : Bool
  power : Nat
  ranking : List (Nat × Nat)
  deriving DecidableEq, Repr

/-- A flit of a Relran link (R406): its sequence number, the cumulative acknowledgement it carries, and the packet it is of, none for a
keep-alive. -/
structure Flit where
  seq : BitVec 16
  ack : BitVec 16
  pkt : Option Nat
  deriving DecidableEq, Repr

/-- A Relran port (R405, R406): lanes, rate, link sequence numbers, the flits it keeps until they are acknowledged, and those it has
put on the line, oldest first. -/
structure Port where
  lanes : Nat
  rate : Bool
  up : Bool
  txSeq : BitVec 16
  rxSeq : BitVec 16
  acked : BitVec 16
  fails : Nat
  lastValid : Nat
  lastSent : Nat
  kept : List Flit
  line : List Flit
  deriving DecidableEq, Repr

/-- A fabric request of this package that has no answer yet (R415, R416). -/
structure Outstanding where
  target : Nat
  req : FabricReq
  /-- Who waits: core and slot, or an engine entry. -/
  who : Requester
  pkt : Nat
  ports : Nat
  sentAt : Nat
  /-- It waits at the ports for its turn, and it has been sent before. -/
  queued : Bool
  sent : Bool
  deriving DecidableEq, Repr

/-- Firmware's work that takes more than one step (R232, R240, R302, R352, R356, R381): a page migration, and commands that wait. -/
inductive Work where
  | migration (part : Nat) (va : Word) (frame : Nat)
  | ownerCreate (cmd : Cmd) (vf owner : Nat) (seed : BitVec 128)
  | contextSave (cmd : Cmd) (vf : Nat) (positions : List Nat)
  | resize (cmd : Cmd) (vf : Nat) (clusters : BitVec 64)
  | eccMode (cmd : Cmd) (vf : Nat) (strong : Bool)
  /-- A command that has taken a translation away, and is answered when the accesses under way by it have completed (R302, R424). -/
  | answer (cmd : Cmd) (vf : Nat) (accesses : List Nat)
  /-- A partition that is to be destroyed, or a function that is to be reset, once the stores of its launches are performed (R381). -/
  | destroy (cmd : Cmd) (vf : Nat)
  | reset (fn : Nat)
  deriving DecidableEq, Repr

/-- A vault bank (R315): the cycle in which it is ready again, and the start and length of its last refresh. -/
structure Bank where
  ready : Nat
  refreshed : Option (Nat × Nat)
  deriving DecidableEq, Repr

/-- The replay window a target keeps for a source (R415): the first sequence number inside and the entries performed. -/
structure Window where
  base : Nat
  done : SMap (Option Word)
  deriving DecidableEq, Repr

/-- Data of a core's SRAM in which an error is found (R180): a tray word, a byte's word of a tile register, an accumulator word, a
word of a first-level line, or the array weights. -/
inductive SramSite where
  | tray (word : Nat) | tile (word : Nat) | acc (word : Nat) | l1 (va word : Nat) | weights
  deriving DecidableEq, Repr

/-- A part of a halted lane's state that a debugger reads or writes (R360). -/
inductive DebugItem where
  | pc | p | x (r : Fin 16) | v (r : Fin 16) | ctl (r : Nat)
  /-- The SR counter (R76). -/
  | sr
  deriving DecidableEq, Repr

/-- What a debugger reads (R307, R360, R371). -/
inductive DebugAnswer where
  | value (v : Vec) | latent (block : Word) | developing (block : Word) | absent
  /-- The command draws: the values, for structure 1 the set each of them gives, and the owner's nonzero counters by instance. -/
  | draws (values : List HWord) (sets : List Nat) (counters : List (Nat × Nat))
  deriving DecidableEq, Repr

/-- A reply this package has sent (R407): its target, the sequence number, the answer, and the rounds lost here by structure. -/
structure SentReply where
  target : Nat
  seq : BitVec 32
  answer : RemoteAnswer
  lost : SMap Nat
  deriving DecidableEq, Repr

/-- What TELEMETRY reports (R327, R377, R387, R405): corrected errors and lost events by partition, temperatures of cores, power
states of dies, disabled dies and cores, and lanes and rate of ports. -/
structure Report where
  corrected : List (Nat × SMap Nat)
  lostEvents : List (Nat × Nat)
  temperatures : List (Nat × Nat)
  power : List (Nat × Nat)
  deadDies : List Nat
  deadCores : List Nat
  ports : List (Nat × Nat × Bool)
  /-- The last reset was a thermal one: the side band alone reports it (R399). -/
  thermalReset : Bool
  deriving DecidableEq, Repr

/-- What reaches the part from outside: a step of the table that firmware or an outside agent starts, or an event of the rules
that has no row there. DESIGN CHOICE, log 83. -/
inductive Input where
  | event (i : Instr)
  /-- A flit of a packet fails its parity check on a link (R313). -/
  | parity (pkt : Nat)
  /-- An error of a core's SRAM data is found, and corrected or not (R180). -/
  | sram (core : Nat) (site : SramSite) (corrected : Bool)
  /-- An access finds an error in a line of an L2 or a vault (R327). -/
  | lineError (vaultSide : Bool) (line : Nat) (found : EccFinding)
  /-- A debugger attaches to the part, or leaves it (R93). -/
  | debugger (attached : Bool)
  /-- The command x reads a word of a partition's global memory (R307). -/
  | debugWord (part : Nat) (va : Word)
  /-- The command draws shows an owner's draws on a structure, c of them from n on (R371). -/
  | draws (part owner st n c : Nat)
  /-- A debugger reads or writes the state of a halted lane (R360). -/
  | debugRead (core slot : Nat) (item : DebugItem)
  | debugWrite (core slot : Nat) (item : DebugItem) (v : Vec)
  /-- Firmware disables a core (R331, R357). -/
  | disableCore (core : Nat)
  /-- The host writes its own memory, where the rings' records stand (R376, R378, R386). -/
  | hostWrite (addr : Nat) (bytes : List Byte)
  /-- An admin queue holds a record whose code is unknown, or that has reserved bits set (R388). -/
  | badRecord (cmd : Cmd) (code : BitVec 8)
  /-- The side band asks for telemetry (R396). -/
  | sideTelemetry
  /-- A port's sender resends what the receiver has not acknowledged (R406). -/
  | resend (port : Nat)
  /-- The seed of another package's owner is copied to this package (R412). -/
  | copySeed (package part owner : Nat) (seed : BitVec 128)
  /-- A keep-alive of another package: its cumulative acknowledgement (R415). -/
  | keepalive (source : Nat) (below : BitVec 32)
  /-- A packet that passes through this package (R320, R407): its source, partition, owner and class, its target, and the port. -/
  | transit (source part owner : Nat) (cls : BitVec 2) (target inPort : Nat)
  deriving DecidableEq, Repr

/-- The state of the package. DESIGN CHOICE, log 5. -/
structure State where
  /-- Events of the outside world and of firmware still to come, first first. -/
  inbox : List Input
  /-- Commands and firmware actions that are under way: they go on by the same event (R232, R352, R356). -/
  begun : List Work
  /-- The slot whose instruction is being executed. -/
  curCore : Nat
  curSlot : Fin 8
  cycle : Nat
  turn : Nat
  /-- Next arrival stamp and next packet, entry or record identity. -/
  stamp : Nat
  /-- The model's own counter of free values. -/
  freeCtr : Nat
  /-- Packets the instruction being executed has sent so far. -/
  sent : List Nat
  /-- Performed values of memory by PA (R227); poisoned words; latent lines (R249). -/
  mem : List Host.Cell
  memBad : List Nat
  latent : List Nat
  /-- Lines whose copy in the vault is lost while the L2 holds them (R327). -/
  vaultBad : List Nat
  l2 : SMap L2Line
  cores : SMap Core
  clusters : SMap Cluster
  parts : SMap Partition
  packets : List Packet
  hostMem : List Host.Cell
  queues : SMap HwQueue
  admins : SMap Admin
  pfEvents : List RingEntry
  spdm : List (SpdmPort × Spdm)
  sessions : SMap Session
  ide : SMap (BitVec 8 × BitVec 256)
  ready : Bool
  recovery : Bool
  /-- The firmware image in force: version, SM3 digest and signature; the fuse; and the image staged (R397). -/
  fwVersion : Nat
  fwDigest : BitVec 256
  fwSignature : BitVec 512
  fwFuse : Nat
  fwStaged : Option (Nat × BitVec 256 × BitVec 512)
  dies : SMap Die
  thermalLimit : Nat
  powerFloor : Nat
  powerCap : Nat
  lastReset : Bool
  debugger : Bool
  /-- What debuggers have read, oldest first (R307, R360). -/
  debugLog : List DebugAnswer
  /-- The last decision of each structure instance: its cycle and its place in the order within a cycle (R320). -/
  decided : SMap (Nat × Nat)
  banks : SMap Bank
  scrubbed : Nat
  replays : SMap Nat
  pkgid : Word
  dtags : SMap Word
  routes : SMap Word
  bars : SMap Word
  ports : SMap Port
  nextSeq : SMap Nat
  /-- The last cumulative acknowledgement carried to each target, and the cycle it left (R415). -/
  ackSent : SMap (Nat × Nat)
  outstanding : List Outstanding
  windows : SMap Window
  failed : List Nat
  /-- Counters of other packages' owners at this package's structures (R412). -/
  remoteCtr : SMap (SMap Nat)
  /-- Seeds of other packages' owners that have been copied here since bring-up (R412). -/
  remoteSeeds : SMap (BitVec 128)
  /-- Sequence keep-alives sent: target and cumulative acknowledgement, oldest first (R415). -/
  keepalives : List (Nat × Nat)
  /-- Replies sent to other packages, oldest first (R407, R416). -/
  replied : List SentReply
  /-- Packages without a valid route, each with the cycle since which it has none (R418). -/
  unrouted : SMap Nat
  /-- Ports whose loss the SMC has announced to its neighbours (R418). -/
  announced : List Nat
  /-- Reports TELEMETRY has given, oldest first: to a function, or over the side band (R387, R396). -/
  reports : List (Option Nat × Report)
  deriving DecidableEq, Repr

/-- Why a step stops with a fault. -/
inductive Fault where
  /-- A translation names physical memory outside the partition's own vaults, or control space: raised by every access
  that uses the leaf. R227 says firmware refuses such a mapping and gives no effect of an access through one. Safe. -/
  | foreignFrame (pa : Nat)
  /-- An access to device space (R227, R374), whose devices the spec does not describe: raised by accesses to a DEVICE
  region. Safe. -/
  | device (pa : Nat)
  deriving DecidableEq, Repr

/-- Why an instruction has no meaning. -/
inductive Refusal where
  /-- Raised only by an arm of exec whose instruction has no meaning yet. Safe. -/
  | notModelled (mnemonic : String)
  deriving DecidableEq, Repr

/-- The status word of a slot that no launch has bound: sw at reset (R78). -/
def Status.reset : Status := { owner := 0, hl := false, dm := false, ue := true, ie := true, s := false }

/-- A slot after reset: unbound, every register 0, P and sw as R77 and R78 state. DESIGN CHOICE, log 1. -/
def Slot.reset : Slot :=
  { life := .unbound, pc := 0, p := 0xFFFF, x := Vector.replicate 16 0, v := Vector.replicate 16 0, sw := Status.reset,
    sst := 0, epc := 0, ecause := 0, eaddr := 0, uvb := 0, uepc := 0, ucause := 0, uaddr := 0, utoken := 0, lc := 0,
    lstart := 0, lend := 0, alost := 0, lane := 0, lcount := 0, launch := 0, gm := 0, sr := 0,
    marks := Vector.replicate 16 none, nack := none, fetched := [], out := .none, since := 0, lastIssue := none, readyAt := 0, atVector := false,
    arrived := false, reserved := false, dequeuing := false, enqueuing := false, sources := none, kind := .lane, aside := none, stealAt := 0, stopAt := none,
    halted := false, disabled := false, guestAt := none }

/-- A bind record after reset (R333). -/
def BindRec.reset : BindRec :=
  { v := false, part := 0, owner := 0, cls := 0, dig := false, qf := false, dm := false, gv := 0, gid := 0, launch := 0,
    lcm := 0, lane := 0, args := 0, entry := 0 }

/-- Array weights after reset (R221). -/
def Weights.reset : Weights :=
  { wv := false, wbad := false, fmt := none, rows := 0, cols := 0, w := [], blk := [], band := 0 }

/-- A core after reset (R400: every SRAM scrubbed; R165, R221). DEDUCED, log 2. The slot that issued last (R83) is 0 before any
has issued. DESIGN CHOICE, log 93. -/
def Core.reset : Core :=
  { slots := Vector.replicate 8 Slot.reset, binds := Vector.replicate 8 BindRec.reset, bound := none, last := none,
    position := none, fenced := false, disabled := false, y := Vector.replicate 16 0, w := Vector.replicate 16 0,
    tc := Vector.replicate 8 0, tvb := 0, late := [], tray := [], fe := [], trayBad := [], l1d := [], l1i := [], tiles := [],
    tileBad := [], acc := [], accBad := [], array := Weights.reset, ovf := false, resume := none,
    queues := Vector.replicate 6 [], staging := [], deque := [], overflow := [], fifos := Vector.replicate 16 [],
    park := [], saved := none, stack := [], lastIssuer := 0, preempt := none }

/-- A cluster after reset. -/
def Cluster.reset : Cluster := { tlb := [], cc := [] }

/-- A die after reset: enabled, in power state A0. -/
def Die.reset : Die := { enabled := true, power := 0, ranking := [] }

/-- A Relran port after reset (R405): LANES 0 until training completes. -/
def Port.reset : Port :=
  { lanes := 0, rate := false, up := false, txSeq := 0, rxSeq := 0, acked := 0, fails := 0, lastValid := 0,
    lastSent := 0, kept := [], line := [] }

/-- A function's admin queue after reset. -/
def Admin.reset : Admin := { subTail := 0, subHead := 0, cplHead := 0, responses := [], waiting := [], cplTail := 0, phase := true }

/-- The SPDM responder after reset. -/
def Spdm.reset : Spdm := { version := false, caps := false, algs := false, replies := [] }

/-- The package after bring-up (R400): vaults zero, no partition, owner, seed or key. DESIGN CHOICE, log 4. -/
def State.reset : State :=
  { inbox := [], begun := [], curCore := 0, curSlot := 0, cycle := 0, turn := 0, stamp := 0, freeCtr := 0, sent := [], mem := [], memBad := [],
    latent := [], vaultBad := [], l2 := [], cores := [], clusters := [], parts := [], packets := [], hostMem := [], queues := [],
    admins := [], pfEvents := [], spdm := [], sessions := [], ide := [], ready := true, recovery := false, fwVersion := 0,
    fwDigest := 0, fwSignature := 0, fwFuse := 0, fwStaged := none, dies := [], thermalLimit := 95, powerFloor := 0, powerCap := 2600, lastReset := false,
    debugger := false, debugLog := [], decided := [], banks := [], scrubbed := 0, replays := [], pkgid := 0x1FFF, dtags := [], routes := [],
    bars := [], ports := [], nextSeq := [], ackSent := [], outstanding := [], windows := [], failed := [], remoteCtr := [], remoteSeeds := [], keepalives := [], replied := [], unrouted := [],
    announced := [], reports := [] }

end Sys2Proof.Machine
end

