-- ==== Sys2Proof/Machine/Ops.lean ====
section
/-!
DEFINITION. The shared operations of every meaning: the slot being executed and its registers, the completion of an
instruction with the loop step (R97), taking an exception (R89, R90) and returning from one (R91, R92), the end of a
development chain (R252), and the frame `run` in which a meaning is written: its checks end it with no effect but the one
the stop itself has (R87).
-/
namespace Sys2Proof.Machine

/-- Why a meaning ends before its effect. -/
inductive Stop where
  /-- A trap (R88) with its cause and address. -/
  | trap (c : Cause) (addr : Word)
  /-- An MCE of a matrix instruction, which contains nothing (R180). -/
  | softMce (addr : Word)
  /-- A recorded NACK that a release reports (R182). -/
  | nack
  /-- The slot leaves the rotation having performed nothing; the instruction executes again (R157). -/
  | wait (w : Wait)
  /-- The access met a latent line: the development of a record is requested (R251). -/
  | develop (recipe : Nat)
  /-- A development task wrote outside its tile (R252). -/
  | devFault
  | fault (f : Fault)
  /-- The instruction pauses for words it has requested from another package; what it has done so far stands. -/
  | paused (s : State)
  /-- A stop after a part of the instruction that stays performed: a release (R193, R246) or a reservation (R196). -/
  | keep (s : State) (st : Stop)
  deriving DecidableEq, Repr

/-- The outcome of a step. -/
abbrev Out := Host.Outcome State Fault Refusal

/-- A meaning under construction: it reads and changes the state, and a stop discards the changes (R87). -/
abbrev M (α : Type) := StateT State (Except Stop) α

/-- End the instruction. -/
def halt {α : Type} (st : Stop) : M α := fun _ => .error st
/-- Raise a trap. -/
def trap {α : Type} (c : Cause) (addr : Word) : M α := halt (.trap c addr)
/-- Raise a trap when a check fails. -/
def check (ok : Bool) (c : Cause) (addr : Word) : M Unit := if ok then pure () else trap c addr
/-- The present state. -/
def look {α : Type} (f : State → α) : M α := fun s => .ok (f s, s)
/-- The stops of a part of a meaning leave what came before it performed. -/
def keeping {α : Type} (m : M α) : M α := fun s =>
  match m s with
  | .ok r => .ok r
  | .error st => .error (.keep s st)
/-- Change the state. -/
def change (f : State → State) : M Unit := fun s => .ok ((), f s)

/-! ### Cores, slots and the slot being executed -/

/-- Slot number as an index. -/
def slotNo (n : Nat) : Fin 8 := ⟨n % 8, Nat.mod_lt _ (by decide)⟩
/-- The low four bits of a register field: its index within its bank (R27). -/
def regLow (r : Reg) : Fin 16 := ⟨r.toNat % 16, Nat.mod_lt _ (by decide)⟩
/-- A register field that names the shared bank (R27). -/
def isShared (r : Reg) : Bool := 16 ≤ r.toNat

def State.core (s : State) (c : Nat) : Core := mapGet s.cores c Core.reset
def State.setCore (s : State) (c : Nat) (k : Core) : State := { s with cores := mapSet s.cores c k }
def State.modCore (s : State) (c : Nat) (f : Core → Core) : State := s.setCore c (f (s.core c))
def State.slotAt (s : State) (c : Nat) (k : Fin 8) : Slot := (s.core c).slots[k]
def State.setSlotAt (s : State) (c : Nat) (k : Fin 8) (t : Slot) : State :=
  s.setCore c { s.core c with slots := (s.core c).slots.set k t }
def State.modSlotAt (s : State) (c : Nat) (k : Fin 8) (f : Slot → Slot) : State := s.setSlotAt c k (f (s.slotAt c k))
/-- The core of the slot being executed. -/
def State.myCore (s : State) : Core := s.core s.curCore
def State.setMyCore (s : State) (k : Core) : State := s.setCore s.curCore k
def State.modMyCore (s : State) (f : Core → Core) : State := s.setMyCore (f s.myCore)
/-- The slot being executed. -/
def State.me (s : State) : Slot := s.slotAt s.curCore s.curSlot
def State.setMe (s : State) (t : Slot) : State := s.setSlotAt s.curCore s.curSlot t
def State.modMe (s : State) (f : Slot → Slot) : State := s.setMe (f s.me)
/-- Execute on behalf of another slot. -/
def State.focus (s : State) (c : Nat) (k : Fin 8) : State := { s with curCore := c, curSlot := k }
/-- Next arrival stamp. -/
def State.tick (s : State) : State := { s with stamp := s.stamp + 1 }

def Partition.reset : Partition :=
  { clusters := [], raf := Vector.replicate 16 0, owners := [], groups := [], recipes := [], recipeCap := 0,
    queueCount := 0, segCap := 1, queues := [], ctxMiB := 0, contexts := [], token := 1, faults := [], nextLaunch := 1,
    launches := [], tvb := 0, strong := false, recode := none, sealedOnly := false, mask := 0xF, keys := [], memKey := 0,
    sealedPages := [], areas := [], moved := [], used := [], posMap := [], forward := [], reseeds := [], migrating := none, held := [], lostEvents := 0,
    corrected := [] }
def State.part (s : State) (p : Nat) : Partition := mapGet s.parts p Partition.reset
def State.setPart (s : State) (p : Nat) (q : Partition) : State := { s with parts := mapSet s.parts p q }
def State.modPart (s : State) (p : Nat) (f : Partition → Partition) : State := s.setPart p (f (s.part p))
/-- The partition, owner and class of a core's binding; 0 where it has none. -/
def State.partOf (s : State) (c : Nat) : Nat := ((s.core c).bound.map (·.part)).getD 0
def State.ownerOf (s : State) (c : Nat) : Nat := ((s.core c).bound.map (·.owner)).getD 0
def State.classOf (s : State) (c : Nat) : BitVec 2 := ((s.core c).bound.map (·.cls)).getD 1
def State.myPartNo (s : State) : Nat := s.partOf s.curCore
def State.myPart (s : State) : Partition := s.part s.myPartNo
def State.myOwner (s : State) : Nat := s.ownerOf s.curCore
def State.modMyPart (s : State) (f : Partition → Partition) : State := s.modPart s.myPartNo f
/-- The slot runs a development task (R251). -/
def TaskKind.isDev : TaskKind → Bool
  | .dev _ => true
  | .lane | .record => false

/-! ### Registers -/

/-- The enabled bits of a register replaced (R130). -/
def mergeBits (old en v : Vec) : Vec := (old &&& ~~~en) ||| (v &&& en)
/-- A shared write applied to its core. -/
def Core.apply (k : Core) (w : SharedWrite) : Core :=
  match w with
  | .x r v => { k with y := k.y.set r v }
  | .v r en v => { k with w := k.w.set r (mergeBits k.w[r] en v) }
  | .ctl r v => if r = 32 then { k with tvb := v } else { k with tc := k.tc.set (slotNo r) v }
/-- The core as one of its slots sees it: the slot's own writes are forwarded to it before they land (R82, R86). -/
def Core.seenBy (k : Core) (slot : Nat) : Core := (k.late.filter fun l => l.slot == slot).foldl (fun k l => k.apply l.write) k
/-- The shared registers an instruction that has waited read at its issue (R287). -/
def Core.withSources (k : Core) (v : Option (Vector Word 16 × Vector Vec 16)) : Core :=
  match v with
  | some (y, w) => { k with y := y, w := w }
  | none => k
/-- The core of the slot being executed, as that slot sees it. -/
def State.mySight (s : State) : Core := (s.myCore.seenBy s.curSlot.val).withSources s.me.sources
/-- A shared write that lands at the end of the cycle `lat` cycles on (R82, R86). -/
def State.writeShared (s : State) (lat : Nat) (w : SharedWrite) : State :=
  s.modMyCore fun k => { k with late := k.late ++ [{ due := s.cycle + lat, slot := s.curSlot.val, write := w }] }

/-- The value of a scalar register; x0 is zero (R27). -/
def State.xval (s : State) (r : Reg) : Word :=
  if isShared r then s.mySight.y[regLow r] else if r.toNat = 0 then 0 else s.me.x[regLow r]
/-- The engine entry a register is marked with (R194). -/
def State.markOf (s : State) (r : Reg) : Option Nat :=
  if isShared r || r.toNat = 0 then none else s.me.marks[regLow r]
/-- Write a scalar register: x0 discards, a private register loses its mark (R27, R194); a shared one is seen by other slots
from the end of the cycle `lat` cycles on. -/
def State.setXAt (s : State) (lat : Nat) (r : Reg) (v : Word) : State :=
  if isShared r then s.writeShared lat (.x (regLow r) v)
  else if r.toNat = 0 then s
  else s.modMe fun t => { t with x := t.x.set (regLow r) v, marks := t.marks.set (regLow r) none }
/-- Write a scalar register in this cycle. DEDUCED, log 31. -/
def State.setX (s : State) (r : Reg) (v : Word) : State := s.setXAt 0 r v
/-- The value of a vector register (R27). -/
def State.vval (s : State) (r : Reg) : Vec := if isShared r then s.mySight.w[regLow r] else s.me.v[regLow r]
/-- Write the enabled bits of a vector register (R130, R131). -/
def State.setVAt (s : State) (lat : Nat) (r : Reg) (en v : Vec) : State :=
  if isShared r then s.writeShared lat (.v (regLow r) en v)
  else s.modMe fun t => { t with v := t.v.set (regLow r) (mergeBits t.v[regLow r] en v) }
/-- Write a vector register whole, in this cycle. -/
def State.setV (s : State) (r : Reg) (v : Vec) : State := s.setVAt 0 r (BitVec.allOnes 512) v

/-- Read a scalar register as a source: a pending handle holds the slot (R194). -/
def readX (r : Reg) : M Word := fun s =>
  match s.markOf r with
  | some id => .error (.wait (.future id))
  | none => .ok (s.xval r, s)
def writeX (r : Reg) (v : Word) : M Unit := change (·.setX r v)
/-- Write the result of an instruction of latency `lat` (R82). -/
def writeXAt (lat : Nat) (r : Reg) (v : Word) : M Unit := change (·.setXAt lat r v)
def readV (r : Reg) : M Vec := look (·.vval r)
def writeV (r : Reg) (v : Vec) : M Unit := change (·.setV r v)

/-! ### Completion of an instruction -/

/-- An address with bit 0 used as 0 (R79). -/
def evenAddr (a : Word) : Word := a &&& ~~~1#64

/-- The loop step of R97 and the next PC: `next` is the sequential or transferred PC, `taken` says a transfer was taken. -/
def loopStep (t : Slot) (next : Word) (taken : Bool) : Slot :=
  if t.sw.hl then
    if taken then
      if next < evenAddr t.lstart || evenAddr t.lend < next then { t with sw := { t.sw with hl := false }, pc := next }
      else { t with pc := next }
    else if t.pc = evenAddr t.lend then
      if t.lc - 1 = 0 then { t with lc := t.lc - 1, sw := { t.sw with hl := false }, pc := next }
      else { t with lc := t.lc - 1, pc := evenAddr t.lstart }
    else { t with pc := next }
  else { t with pc := next }

/-- A slot whose instruction has completed: no longer at a vector (R94), no half-done barrier or reservation. -/
def settled (t : Slot) : Slot :=
  { t with atVector := false, arrived := false, reserved := false, enqueuing := false, sources := none, fetched := [] }

/-- Complete the instruction of the slot being executed, without a transfer; `len` is its length in bytes (R25, R97). -/
def State.complete (s : State) (len : Word) : State := s.modMe fun t => settled (loopStep t (t.pc + len) false)
/-- Complete it with a taken transfer (R97, R115). -/
def State.jump (s : State) (target : Word) : State := s.modMe fun t => settled (loopStep t target true)
/-- Complete it at a given PC with no loop step (R99: TRET, URET). -/
def State.resumeAt (s : State) (pc : Word) : State := s.modMe fun t => settled { t with pc := pc }
/-- Take the slot out of the rotation (R85), noting the order in which its wait began. -/
def State.leave (s : State) (w : Wait) : State := (s.modMe fun t => { t with out := w, since := s.stamp }).tick

def finish (len : Word) : M Unit := change (·.complete len)
def leave (w : Wait) : M Unit := change (·.leave w)

/-! ### The status word -/

/-- A flag as a word. -/
def bit (b : Bool) : Word := if b then 1 else 0
/-- sw as read (R78). -/
def Status.toWord (w : Status) : Word :=
  (w.owner.setWidth 64 <<< 8) ||| (bit w.hl <<< 4) ||| (bit w.dm <<< 3) ||| (bit w.ue <<< 2) ||| (bit w.ie <<< 1) ||| bit w.s

/-! ### Developments: the end of a chain (R252) -/

/-- The development is part of the chain of a root. -/
def Dev.inChain (d : Dev) (root : Requester) : Bool := d.root == root
/-- The task belongs to the chain of a root. -/
def TaskKind.inChain (k : TaskKind) (root : Requester) : Bool :=
  match k with
  | .dev d => d.root == root
  | .lane | .record => false
/-- A task record of the chain of a root. -/
def TaskRec.inChain (r : TaskRec) (root : Requester) : Bool :=
  match r.dev with
  | some d => d.root == root
  | none => false

/-- An idle slot: its task has ended. A development gives the slot's own uvb and DM back (R78, R251). -/
def idleSlot (t : Slot) : Slot :=
  { t with life := .idle, out := .none, kind := .record, uvb := (t.aside.map (·.1)).getD t.uvb,
           aside := none, sw := { t.sw with hl := false, dm := (t.aside.map (·.2)).getD t.sw.dm }, arrived := false, reserved := false, dequeuing := false, enqueuing := false, sources := none, atVector := false,
           marks := Vector.replicate 16 none, nack := none, fetched := [] }

/-- The states a core has parked (R159): the save area first, then the stack. -/
def Core.parkedStates (k : Core) : List Saved := k.saved.toList ++ k.stack
/-- Store the parked states back: the first in the save area. -/
def Core.setParked (k : Core) (l : List Saved) : Core := { k with saved := l.head?, stack := l.tail }

/-- The state a parked slot takes back (R159), from poisoned words or not (R180). -/
def Saved.taken (sv : Saved) : Slot := { sv.state with spoiled := sv.state.spoiled || !sv.bad.isEmpty }

/-- What a slot becomes when the development chain it works for ends: its parked state, or idle. -/
def slotAfterChain (root : Requester) (parked : List Saved) (k : Fin 8) (t : Slot) : Slot :=
  if t.kind.inChain root then
    match parked.find? fun sv => sv.slot == k.val && !sv.state.kind.inChain root with
    | some sv => { sv.taken with out := .none }
    | none => idleSlot t
  else t

/-- A core after the chain of a root has ended on it. -/
def Core.endChain (k : Core) (root : Requester) : Core :=
  let parked := k.parkedStates
  let touched := fun (n : Nat) => k.slots.toList.zipIdx.any fun (t, i) => i == n && t.kind.inChain root
  { (k.setParked (parked.filter fun sv => !touched sv.slot && !sv.state.kind.inChain root)) with
    slots := k.slots.mapIdx fun i t => slotAfterChain root parked (slotNo i) t
    deque := k.deque.filter fun r => !r.inChain root
    overflow := k.overflow.filter fun r => !r.inChain root }

/-- Lines the chain's kernels have written, verify runs apart (R252, R294). -/
def chainWritten (rs : List Recipe) (root : Requester) : List Nat :=
  rs.flatMap fun r => r.devs.flatMap fun d => if d.inChain root && d.verify.isNone then d.written else []

/-- Wake the slots whose wait is one of those a test accepts. -/
def Core.wake (k : Core) (p : Wait → Bool) : Core :=
  { k with slots := k.slots.map fun t => if p t.out then { t with out := .none } else t }
/-- Wake in every core. -/
def State.wakeAll (s : State) (p : Wait → Bool) : State :=
  { s with cores := s.cores.map fun (c, k) => (c, k.wake p) }

/-- Line of a wait for a development. -/
def Wait.isDevelop (rids : List Nat) : Wait → Bool
  | .develop r _ => rids.contains r
  | _ => false

/-- Drop every first-level copy and registration of some physical lines. -/
def State.dropLines (s : State) (ls : List Nat) : State :=
  { s with
    cores := s.cores.map fun (c, k) => (c, { k with l1d := k.l1d.filter fun e => !ls.contains e.2.pa })
    l2 := s.l2.map fun (l, e) => (l, if ls.contains l then { e with reg := [], older := none } else e) }

/-- Wake the engine entries that wait for one of some developments. -/
def Core.wakeEngines (k : Core) (rids : List Nat) : Core :=
  { k with queues := k.queues.map fun q => q.map fun e => if e.wait.isDevelop rids then { e with wait := .none } else e }

/-- Engine entries of a chain's own kernels that wait for a development of the chain end with status 2 (R252).
DEDUCED, log 44. -/
def Core.failChainEntries (k : Core) (rids : List Nat) (root : Requester) : Core :=
  let mine := fun (e : Entry) => e.wait.isDevelop rids && match e.agent.dev with
    | some d => d.root == root
    | none => false
  { k with queues := k.queues.map fun q => q.map fun e => if mine e then { e with status := some 2, wait := .none } else e }

/-- End a chain of developments in partition p (R252): the lines its kernels wrote are latent again, its tasks end, its
waiters are released. -/
def State.endChain (s : State) (p core : Nat) (root : Requester) : State :=
  let rs := (s.part p).recipes
  let rids := (rs.filter fun r => r.devs.any (·.inChain root)).map (·.id)
  let wr := chainWritten rs root
  let s := s.dropLines wr
  let s := { s with latent := wr.foldl setAdd s.latent }
  let s := s.modPart p fun q =>
    { q with recipes := q.recipes.map fun r => { r with devs := r.devs.filter fun d => !d.inChain root } }
  let s := s.modCore core (·.endChain root)
  let s := s.wakeAll (·.isDevelop rids)
  { s with cores := s.cores.map fun (c, k) => (c, (k.failChainEntries rids root).wakeEngines rids) }

/-! ### Taking an exception -/

/-- The vector of a cause (R89); tvb's bits [10:0] read zero. -/
def vectorOf (tvb : Word) (c : Cause) : Word := tvb + BitVec.ofNat 64 (64 * c.code)

/-- The trap becomes an upcall (R90). -/
def isUpcall (t : Slot) (c : Cause) : Bool :=
  (c == .page || c == .pin || c == .devdepth || c == .devfault) && !t.sw.s && t.sw.ue && t.uvb != 0

/-- S-mode trap entry (R89): `code` is TRAP's code, `ret` the address saved in epc. -/
def trapEntry (t : Slot) (tvb : Word) (c : Cause) (addr : Word) (code : Nat) (ret : Word) : Slot :=
  let t := if (c == .notrap || c == .badsst) && t.sw.s then
      { t with ecause := BitVec.ofNat 64 c.code, eaddr := t.pc }
    else
      { t with sst := (1#64 <<< 63) ||| t.sw.toWord, epc := ret,
               ecause := BitVec.ofNat 64 (c.code + 256 * code), eaddr := addr,
               sw := { t.sw with s := true, ie := false, hl := false } }
  { t with pc := vectorOf tvb c, atVector := true, arrived := false, reserved := false, enqueuing := false, sources := none, fetched := [] }

/-- Upcall entry (R25, R90): the PC is even. DEDUCED, log 45. -/
def upcallEntry (t : Slot) (c : Cause) (addr token : Word) : Slot :=
  { t with uepc := t.pc, ucause := BitVec.ofNat 64 c.code ||| (bit t.sw.hl <<< 15), uaddr := addr, utoken := token,
           sw := { t.sw with ue := false, hl := false }, pc := evenAddr t.uvb, atVector := true, arrived := false,
           reserved := false, enqueuing := false, sources := none, fetched := [] }

/-- The token after one (R230): a 32-bit counter that skips 0. -/
def nextToken (t : HWord) : HWord := if t + 1 = 0 then 1 else t + 1

/-- Enter the handler of the slot being executed, which runs no development. An MCE or FABRIC that contains the plot lets
nothing issue at its vector (R180, R420). DEDUCED, log 71. -/
def State.enter (s : State) (c : Cause) (addr : Word) (contains : Bool) : State :=
  let t := s.me
  if isUpcall t c then
    if c == .page then
      let tok := s.myPart.token
      let req : PageReq := { token := tok, core := s.curCore, slot := s.curSlot.val, owner := s.myOwner, lane := t.lane, va := addr }
      (s.modMyPart fun q => { q with token := nextToken q.token, faults := q.faults ++ [req] }).setMe
        (upcallEntry t c addr (tok.setWidth 64))
    else s.setMe (upcallEntry t c addr 0)
  else
    let t := trapEntry t s.mySight.tvb c addr 0 t.pc
    s.setMe (if contains then { t with out := .contained (if c == .fabric then .fabric else .mce) addr } else t)

/-- The entry a queue is performing ends with a status, the first that an access of it has given. -/
def failHead (es : List Entry) (status : Nat) : List Entry :=
  match es with
  | [] => []
  | e :: rest =>
    { e with
      status := match e.status with
        | none | some 0 => some status
        | some first => some first
      wait := .none } :: rest

/-- The head entry of an engine queue ends with a status. -/
def State.failQueue (s : State) (core q status : Nat) : State :=
  s.modCore core fun k => { k with queues := k.queues.mapIdx fun i es => if i == q then failHead es status else es }

/-- The head entry of an engine queue, by number. -/
def Core.headOf (k : Core) (q : Nat) : Option Entry := (k.queues.toList.getD q []).head?

/-- A requester of another partition still waits for one of some developments; a requester of any other kind is there. -/
def State.rootWaits (s : State) (rids : List Nat) : Requester → Bool
  | .across _ core k =>
    if k < 8 then (s.slotAt core (slotNo k)).out.isDevelop rids
    else ((s.core core).headOf (k - 8)).any fun e => e.wait.isDevelop rids
  | .slot _ _ | .engine _ _ | .remote _ _ _ | .image _ _ _ | .refetch _ _ => true

/-- The development for which a requester of another partition has asked, if it works for one. -/
def State.devOf (s : State) : Requester → Option DevTask
  | .across _ core k =>
    if k < 8 then match (s.slotAt core (slotNo k)).kind with
      | .dev d => some d
      | .lane | .record => none
    else ((s.core core).headOf (k - 8)).bind fun e => e.agent.dev
  | .slot _ _ | .engine _ _ | .remote _ _ _ | .image _ _ _ | .refetch _ _ => none

/-- Bytes of the tray that a staging entry covers (R176). -/
def Staging.offsets (g : Staging) : Nat × Nat := (g.dst.toNat % 2 ^ 19, g.rows * g.rb)
/-- Some staged frames of a restored context are yet to be fetched again: its slots, developments apart, and the requests to its core
wait (R355). -/
def Core.refetching (k : Core) : Bool := k.staging.any (·.stale)
/-- A context comes without its staged frames. -/
def Core.unfetched (k : Core) : Core :=
  { k with staging := k.staging.map fun (g : Staging) => ({ g with stale := true } : Staging) }
/-- The frames of a staging entry are restored poisoned (R176). -/
def Core.poisonFrames (k : Core) (g : Staging) : Core :=
  { k with
    trayBad := ((List.range (g.offsets.2 / 4)).map fun i => g.offsets.1 / 4 + i).foldl setAdd k.trayBad
    staging := k.staging.map fun x => if x == g then { x with stale := false } else x }
/-- The frames that are being fetched cannot be read: they are poisoned. -/
def Core.failRefetch (k : Core) : Core :=
  match k.staging.find? (·.stale) with
  | some g => k.poisonFrames g
  | none => k

/-- Give the root of an abandoned chain its cause (R252, R253): a slot takes it at the held instruction, an engine entry
ends with status 2, another package's request is answered with the cause and the block (log 19), a group image is a fault while reading
(R379), and a staged frame cannot be fetched again. -/
def State.blameRoot (s : State) (root : Requester) (c : Cause) (block : Word) : State :=
  let slot := fun (core k : Nat) =>
    let here := (s.curCore, s.curSlot)
    ((s.focus core (slotNo k)).enter c block false).focus here.1 here.2
  match root with
  | .slot core k => slot core k
  | .engine core q => s.failQueue core q 2
  | .across _ core k => if k < 8 then slot core k else s.failQueue core (k - 8) 2
  | .image _ p n => s.modPart p fun q =>
      { q with launches := q.launches.map fun e => if e.1 = n then (e.1, { e.2 with imageFailed := true }) else e }
  | .refetch _ core => s.modCore core (·.failRefetch)
  | .remote _ source seq =>
    let mine := fun (p : Packet) => match p.load with
      | .fabric r => r.source == source && r.seq.toNat == seq
      | _ => false
    let answer := if c == .devdepth then RemoteAnswer.devdepth block else .devfault block
    { s with packets := s.packets.map fun p => match p.load with
        | .fabric r => if mine p then { p with load := .reply r answer, place := .port } else p
        | _ => p }

/-- Records of which a chain develops tiles. -/
def Partition.chainRecords (q : Partition) (root : Requester) : List Nat := (q.recipes.filter fun r => r.devs.any (·.inChain root)).map (·.id)

/-- Abandon a chain that runs on a core (R252). Where its root is itself a development of another partition, the root's chain is
abandoned too; `n` bounds how often that happens. -/
def State.abandonChain : Nat → Nat → Requester → Cause → Word → State → State
  | 0, _, _, _, _, s => s
  | n + 1, core, root, c, block, s =>
    let p := s.partOf core
    let u := s.endChain p core root
    if !s.rootWaits ((s.part p).chainRecords root) root then u
    else match root, s.devOf root with
      | .across _ at' _, some d => State.abandonChain n at' d.root c block u
      | _, _ => u.blameRoot root c block

/-- Abandon the chain a development task belongs to (R252): no chain has more than four levels (R253). -/
def State.abandon (s : State) (d : DevTask) (c : Cause) (block : Word) : State := s.abandonChain 5 s.curCore d.root c block

/-- The block address of a recipe record. -/
def State.blockOf (s : State) (rid : Nat) : Word :=
  match s.myPart.recipes.find? (·.id == rid) with
  | some r => r.block
  | none => 0

/-- Take a trap in the slot being executed (R89, R90); any trap of a development task ends its chain (R252). `contains`
says that an MCE or FABRIC of this trap contains the plot. -/
def State.takeTrap (s : State) (c : Cause) (addr : Word) (contains : Bool) : State :=
  match s.me.kind with
  | .dev d => s.abandon d .devfault (s.blockOf d.recipe)
  | .lane | .record => s.enter c addr contains

/-- TRAP and BRK (R122, R125): the loop step runs first, and epc is the next PC after it (R89); the HL that sst[4] keeps is the one
after it too. DEDUCED, log 97. -/
def State.takeSoftTrap (s : State) (c : Cause) (code : Nat) : State :=
  match s.me.kind with
  | .dev d => s.abandon d .devfault (s.blockOf d.recipe)
  | .lane | .record =>
    let t := settled (loopStep s.me (s.me.pc + 4) false)
    s.setMe (trapEntry t s.mySight.tvb c 0 code t.pc)

/-- Return from an S-mode trap (R123): the status fields and the PC. -/
def returnFromTrap (t : Slot) : Slot :=
  settled { t with
    sw := { t.sw with s := t.sst.getLsbD 0, ie := t.sst.getLsbD 1, ue := t.sst.getLsbD 2, hl := t.sst.getLsbD 4 }
    sst := t.sst &&& ~~~(1#64 <<< 63), pc := evenAddr t.epc }
/-- Return from an upcall (R124). -/
def returnFromUpcall (t : Slot) : Slot :=
  settled { t with sw := { t.sw with ue := true, hl := t.ucause.getLsbD 15 }, pc := evenAddr t.uepc }

/-! ### Task start and development requests -/

/-- The slot's start state for a task record (R81): registers of R79 at their start values, uvb kept. -/
def startRecord (t : Slot) (r : TaskRec) : Slot :=
  { t with
    life := .running, pc := evenAddr r.pc, p := r.p.setWidth 32, x := r.x.set 0 0
    v := Vector.ofFn fun i : Fin 16 => if h : i.val < 8 then r.v[i.val] else 0
    sw := { t.sw with hl := false, ue := true, ie := true, s := false }
    sst := 0, epc := 0, ecause := 0, eaddr := 0, uepc := 0, ucause := 0, uaddr := 0, utoken := 0
    lc := 0, lstart := 0, lend := 0, alost := 0, sr := 0, marks := Vector.replicate 16 none, nack := none
    fetched := [], out := .none, atVector := false, arrived := false, reserved := false, dequeuing := false, enqueuing := false, sources := none,
    kind := .record, spoiled := !r.bad.isEmpty }

/-- The slot's start state for a development (R251): strict rotation, uvb and DM kept aside, uvb 0. -/
def startDevelopment (t : Slot) (r : TaskRec) (d : DevTask) : Slot :=
  let u := startRecord t r
  { u with kind := .dev d, aside := some (t.uvb, t.sw.dm), uvb := 0, sw := { u.sw with dm := true } }

/-- Start a record in a slot. -/
def startTask (t : Slot) (r : TaskRec) : Slot :=
  match r.dev with
  | some d => startDevelopment t r d
  | none => startRecord t r

/-- Unowned words of a first-level line dropped (R163). -/
def L1Line.acquired (l : L1Line) : L1Line := { l with valid := l.owned, bad := l.bad &&& l.owned }
/-- The acquire of R163: every unowned word of the core's L1 is invalid, and no read is older than it (R265). -/
def Core.acquire (k : Core) : Core :=
  { k with
    trayOld := []
    l1d := (k.l1d.map fun (a, l) => (a, l.acquired)).filter fun e => e.2.owned != 0 }

/-- Deque places in use: records and the reservations of slots, parked ones too (R159, R177, R196). -/
def Core.dequeUsed (k : Core) : Nat :=
  k.deque.length + ((k.slots.toList ++ k.parkedStates.map (·.state)).filter (·.reserved)).length
/-- A place is free on the deque (R177). -/
def Core.dequeRoom (k : Core) : Bool := k.dequeUsed < Config.dequeRecords

/-- Bytes of a partition's context area that parked states and contexts take (R159, R352): a record of the development overflow takes
none. DESIGN CHOICE, log 98. -/
def State.contextUse (s : State) (p : Nat) : Nat :=
  let stacked := fun (k : Core) => k.stack.length * 1536
  ((s.cores.filter fun (e : Nat × Core) => (e.2.bound.map (·.part)) == some p).map fun e => stacked e.2).foldl (· + ·) 0 +
    ((s.part p).contexts.map fun e => stacked e.2 + Config.contextBytes).foldl (· + ·) 0
/-- Bytes kept for the contexts that pending pre-emptions bring to the vault, those of some cores apart: a pre-emption that has started
finds its room (R352). -/
def State.contextKept (s : State) (p : Nat) (but : List Nat) : Nat :=
  (s.cores.filter fun (e : Nat × Core) =>
    !but.contains e.1 && (e.2.bound.map (·.part)) == some p && (e.2.preempt.map (·.1)) == some none).length * Config.contextBytes
/-- Room for one more parked state on a core's stack in the context area (R159). -/
def State.stackRoom (s : State) (p : Nat) : Bool := s.contextUse p + s.contextKept p [] + 1536 ≤ (s.part p).ctxMiB * 0x100000
/-- Room for the contexts of some cores (R352). -/
def State.contextRoom (s : State) (p : Nat) (cs : List Nat) : Bool :=
  s.contextUse p + s.contextKept p cs + cs.length * Config.contextBytes ≤ (s.part p).ctxMiB * 0x100000

/-- A resize of its partition has pre-empted the core's context, which resumes when the resize ends (R356 step 6). -/
def State.resting (s : State) (k : Core) : Bool :=
  k.preempt.isNone && k.bound.any fun b => k.position.any fun pos => (s.part b.part).moved.contains pos

/-- Run a development in its requester's own slot, parking the requester (R159, R251). -/
def State.displace (s : State) (core : Nat) (k : Fin 8) (r : TaskRec) (depth : Nat) : State :=
  let c := s.core core
  let sv : Saved := { slot := k.val, state := s.slotAt core k, depth := depth }
  let c := match c.saved with
    | none => { c with saved := some sv }
    | some _ => { c with stack := c.stack ++ [sv] }
  let s := s.setCore core c.acquire
  s.modSlotAt core k fun t => startTask t r

/-- The task record of a development (R251). -/
def devRecord (rec : Recipe) (d : DevTask) : TaskRec :=
  { pc := rec.words[0], p := 0xFFFF, key := 0, depth := d.depth, type := 4
    x := ((Vector.replicate 16 0#64).set 1 rec.block).set 2 (BitVec.ofNat 64 d.depth)
    v := Vector.replicate 8 0, dev := some d }

/-- The core on which the developments of requesters outside a partition run: its lowest-numbered bound core that no containment or
pre-emption holds (log 19). -/
def State.hostCore (s : State) (home : Nat) : Option Nat :=
  (s.cores.find? fun e => (e.2.bound.map (·.part)) == some home && !e.2.fenced && e.2.preempt.isNone).map (·.1)

/-- The record of an identity in any partition. -/
def State.recordPart (s : State) (rid : Nat) : Option (Nat × Recipe) :=
  s.parts.findSome? fun (p, q) => (q.recipes.find? (·.id == rid)).map fun r => (p, r)

/-- A development is under way on a record of a partition. -/
def State.addDev (s : State) (p rid : Nat) (dv : Dev) : State :=
  s.modPart p fun q => { q with recipes := q.recipes.map fun r => if r.id == rid then { r with devs := dv :: r.devs } else r }

/-- Start the development of a tile for a requester outside its partition (R16, R251): its record goes to the deque of the
partition's host core, or to the overflow as an engine's does; none where there is no core or no room. DESIGN CHOICE, log 19. -/
def State.hostDevelopment (s : State) (home : Nat) (rec : Recipe) (depth : Nat) (root : Nat → Requester) : Option State :=
  (s.hostCore home).bind fun c =>
    let dv : Dev := { root := root c, depth := depth, asker := root c, verify := none, written := [] }
    let t := devRecord rec { recipe := rec.id, depth := depth, root := root c }
    let u := s.addDev home rec.id dv
    if (s.core c).dequeRoom then some (u.modCore c fun k => { k with deque := t :: k.deque })
    else if s.stackRoom home then some (u.modCore c fun k => { k with overflow := k.overflow ++ [t] })
    else none

/-- Firmware or the control core reads a latent tile (R16, R251): its development starts, if none is in progress and a core can run it.
Such a reader has no slot, and waits as an engine does. DESIGN CHOICE, log 108. -/
def State.developTile (s : State) (rid : Nat) (root : Nat → Requester) : State :=
  match s.recordPart rid with
  | some (home, rec) => if rec.devs.isEmpty then (s.hostDevelopment home rec 1 root).getD s else s
  | none => s

/-- A slot has reached a latent tile of another partition by a fabric page that names this package (R16, R410): it waits for the
development, or, where that cannot start yet, tries again. -/
def State.developAcross (s : State) (rid : Nat) : State :=
  match s.recordPart rid with
  | none => s
  | some (home, rec) =>
    let depth := match s.me.kind with
      | .dev d => d.depth + 1
      | .lane | .record => 1
    if !rec.devs.isEmpty then s.leave (.develop rid none)
    else match s.me.kind, decide (5 ≤ depth) with
      | .dev d, true => s.abandon d .devdepth rec.block
      | _, _ => ((s.leave (.develop rid none)).hostDevelopment home rec depth fun c => .across c s.curCore s.curSlot.val).getD s

/-- Request a development of a record for the slot being executed (R251, R253): depth 5 is not started; the slot waits;
the record is pushed at the top of the deque, or runs at once in the slot when the deque is full. A record that another
chain is developing is only waited for. Where neither the deque nor the context area has room the record goes to the overflow.
DESIGN CHOICE, log 98. -/
def State.requestDevelopment (s : State) (rid : Nat) (v : Option Verify) (pq : Option PredNo) : State :=
  match s.myPart.recipes.find? (·.id == rid) with
  | none => s.developAcross rid
  | some rec =>
    let asker := Requester.slot s.curCore s.curSlot.val
    let (root, depth) := match s.me.kind with
      | .dev d => (d.root, d.depth + 1)
      | .lane | .record => (asker, 1)
    if rec.devs.any (fun d => !d.inChain root) then s.leave (.develop rid none)
    else if 5 ≤ depth then
      match s.me.kind with
      | .dev d => s.abandon d .devdepth rec.block
      | .lane | .record => s
    else
      let d : DevTask := { recipe := rid, depth := depth, root := root }
      let s := s.addDev s.myPartNo rid { root := root, depth := depth, asker := asker, verify := v, written := [] }
      let s := s.leave (.develop rid pq)
      let r := devRecord rec d
      if s.myCore.dequeRoom then s.modMyCore fun k => { k with deque := r :: k.deque }
      else if s.myCore.saved.isNone || s.stackRoom s.myPartNo then s.displace s.curCore s.curSlot r depth
      else s.modMyCore fun k => { k with overflow := k.overflow ++ [r] }

/-! ### The frame of a meaning -/

/-- A wait for a handle comes before the sources are read (R194); every other wait keeps them as they were at issue (R287). -/
def Wait.keepsSources : Wait → Bool
  | .future _ => false
  | _ => true
/-- The slot being executed keeps its shared sources while its instruction waits. -/
def State.keepSources (s : State) : State :=
  s.modMe fun t => { t with sources := some (s.mySight.y, s.mySight.w) }

/-- Leave the rotation with nothing performed: the instruction executes again with the sources it has read (R157, R287). -/
def State.hold (s : State) (w : Wait) : State := (if w.keepsSources then s.keepSources else s).leave w

/-- What a stop does. -/
def stopped (st : Stop) (s : State) : Out :=
  match st with
  | .trap c a => .next (s.takeTrap c a (c == .mce || c == .fabric))
  | .softMce a => .next (s.takeTrap .mce a false)
  | .nack =>
    match s.me.nack with
    | some n => .next ((s.modMe fun t => { t with nack := none }).takeTrap n.cause n.addr (n.cause == .fabric))
    | none => .next s
  | .wait w => .next (s.hold w)
  | .develop r => .next (s.keepSources.requestDevelopment r none none)
  | .devFault => .next (s.takeTrap .devfault 0 false)
  | .fault f => .fault f
  | .paused u => .next u
  | .keep u st => stopped st u

/-- Run a meaning. -/
def run (m : M Unit) (s : State) : Out :=
  match m s with
  | .ok (_, t) => .next t
  | .error st => stopped st s

end Sys2Proof.Machine
end

