-- ==== Sys2Proof/Machine/Draws.lean ====
section
/-!
DEFINITION. Places and draws: core numbers and package coordinates (R22, R308), home slices and folding (R234, R314), the
draw function and the counters of the owner streams (R239, R318), the exceedance recurrence (R324) and the terms of the
result digest (R350).
-/
namespace Sys2Proof.Machine

/-! ### Places -/

/-- Physical cluster of a core: cores are numbered 16 × cluster + index within the cluster (R22, R227). -/
def clusterOf (core : Nat) : Nat := core / 16
/-- Die of a cluster (R227). -/
def dieOf (cluster : Nat) : Nat := cluster / 16
/-- A die that is not in A0 wakes (R398). -/
def State.wakeDie (s : State) (die : Nat) : State :=
  match mapGet? s.dies die with
  | some d => { s with dies := mapSet s.dies die { d with power := 0 } }
  | none => s
/-- Row of a core within its die (R22). -/
def coreRow (core : Nat) : Nat := 4 * (core / 16 % 16 / 4) + core % 16 / 4
/-- Column of a core within its die (R22). -/
def coreCol (core : Nat) : Nat := 4 * (core / 16 % 16 % 4) + core % 4
/-- Package column of a core (R22, R308). -/
def coreX (core : Nat) : Nat := 16 * (dieOf (clusterOf core) % 2) + coreCol core
/-- Package row of a core. -/
def coreY (core : Nat) : Nat := 16 * (dieOf (clusterOf core) / 2) + coreRow core
/-- The core at a row and column of a die (R22). -/
def coreAt (die row col : Nat) : Nat := 16 * (16 * die + 4 * (row / 4) + col / 4) + 4 * (row % 4) + col % 4
/-- The core at package coordinates. -/
def coreAtXY (x y : Nat) : Nat := coreAt (2 * (y / 16) + x / 16) (y % 16) (x % 16)
/-- Router number of a core's router (R239). -/
def routerOf (core : Nat) : Nat := 32 * coreY core + coreX core
/-- The core whose router carries slice column c of a cluster (R308). -/
def sliceCore (cluster col : Nat) : Nat := 16 * cluster + 4 * col + col
/-- Number of a slice of the package. -/
def sliceNo (cluster col : Nat) : Nat := 4 * cluster + col

/-- Fold a slice column by the powered mask (R314): a powered column onto itself, the t-th unpowered column onto the
powered column at position t mod n. -/
def fold (mask : BitVec 4) (col : Nat) : Nat :=
  if mask.getLsbD col then col
  else
    let on := (List.range 4).filter fun c => mask.getLsbD c
    let t := ((List.range col).filter fun c => !mask.getLsbD c).length
    on.getD (t % max on.length 1) 0

/-- Home rank of a physical address among C clusters (R234). -/
def homeRank (pa clusters : Nat) : Nat :=
  let g := pa / 4096 % 2 ^ 25
  ((g % 256) ^^^ (g / 256 % 256) ^^^ (g / 65536 % 256) ^^^ (g / 2 ^ 24 * 128)) % max clusters 1
/-- Slice column of a physical address before folding (R234). -/
def homeColumn (pa : Nat) : Nat := (pa / 64 % 4) ^^^ (pa / 4096 % 4)
/-- The home slice of a line of a partition (R234, R314). -/
def homeSlice (q : Partition) (pa : Nat) : Nat :=
  sliceNo (q.clusters.getD (homeRank pa q.clusters.length) 0) (fold q.mask (homeColumn pa))
/-- Rank of a cluster in its partition (R234). -/
def rankOf (q : Partition) (cluster : Nat) : Nat := (q.clusters.filter (· < cluster)).length

/-! ### The draw function (R318) -/

/-- Word i of a 128-bit seed. -/
def seedWord (k : BitVec 128) (i : Nat) : HWord := k.extractLsb' (32 * i) 32

/-- One round of the draw function. -/
def drawRound (k : BitVec 128) (i : Nat) (p : HWord × HWord) : HWord × HWord :=
  let y := p.2 + seedWord k i
  (p.2, p.1 ^^^ (y.rotateLeft 7 ^^^ p.2))

/-- P_K(X): the 64-bit result of four rounds (R318). -/
def permute (k : BitVec 128) (x : Word) : Word :=
  let p := drawRound k 3 (drawRound k 2 (drawRound k 1 (drawRound k 0 (x.extractLsb' 32 32, x.extractLsb' 0 32))))
  p.1 ++ p.2

/-- D with a key given: structure s of 16 bits, counter n of 48 bits (R318). -/
def drawKey (k : BitVec 128) (s : BitVec 16) (n : BitVec 48) : HWord := (permute k (s ++ n)).extractLsb' 0 32

/-! ### Owner streams (R239) -/

def Owner.reset : Owner := { seed := 0, ctr := [], xobs := [] }
def Partition.owner (q : Partition) (o : Nat) : Owner := mapGet q.owners o Owner.reset
def Partition.setOwner (q : Partition) (o : Nat) (w : Owner) : Partition := { q with owners := mapSet q.owners o w }

/-- Key of the counter of a structure instance. -/
def ctrKey (s inst : Nat) : Nat := s * 2 ^ 32 + inst
/-- Width of a structure's counter (R239). -/
def ctrBits (s : Nat) : Nat := if s = 5 then 36 else if s = 9 then 28 else 48
/-- The counter input n of a draw: the instance number stands above the counter for structures 5 and 9 (R239). -/
def drawInput (s index c : Nat) : BitVec 48 :=
  if s = 5 then BitVec.ofNat 48 (index * 2 ^ 36 + c)
  else if s = 9 then BitVec.ofNat 48 (index * 2 ^ 28 + c)
  else BitVec.ofNat 48 c

/-- draw(o, s) at an instance: the value and the state with the counter advanced (R24, R239). `index` is the instance
number that enters the draw's input for structures 5 and 9. -/
def State.draw (st : State) (p o s inst index : Nat) : HWord × State :=
  let w := (st.part p).owner o
  let c := mapGet w.ctr (ctrKey s inst) 0
  (drawKey w.seed (BitVec.ofNat 16 s) (drawInput s index c),
   st.modPart p fun q => q.setOwner o { w with ctr := mapSet w.ctr (ctrKey s inst) ((c + 1) % 2 ^ ctrBits s) })

/-! ### The exceedance recurrence (R324) -/

/-- One pass over the distribution for a contender count m. -/
def exceedPass (a q : Nat) : Nat → List Nat → List Nat
  | _, [] => []
  | prev, f :: rest =>
    let g := a * f / 2 ^ 48 + q * prev / 2 ^ 48
    g :: exceedPass a q g rest

/-- The result of the recurrence for a list of contender counts at threshold k. -/
def exceedance (ms : List Nat) (k : Nat) : Nat :=
  let f0 := (List.range k).map fun i => if i = 0 then 2 ^ 48 else 0
  let f := ms.foldl (fun f m => let q := 2 ^ 48 * (m - 1) / m; exceedPass (2 ^ 48 - q) q 0 f) f0
  min ((2 ^ 48 - f.foldl (· + ·) 0) / 2 ^ 16) 0xFFFFFFFF

/-! ### The result digest (R350) -/

/-- The term of one chunk: its virtual address, the mask of written bytes and the bytes (unwritten ones zero). -/
def digestTerm (kd : BitVec 128) (va : Nat) (mask : BitVec 8) (bytes : Word) : Word :=
  permute kd ((BitVec.ofNat 64 (va / 8) <<< 7) ^^^ mask.setWidth 64) ^^^ permute (kd ^^^ 1) bytes

/-- The terms of a write: (virtual address, byte) cells with distinct addresses, grouped by chunk. -/
def digestOf (kd : BitVec 128) (cells : List Host.Cell) : Word :=
  let chunks := cells.foldl (fun acc c => setAdd acc (c.1 / 8)) []
  chunks.foldl (fun acc ch =>
    let here := cells.filter fun c => c.1 / 8 = ch
    let mask := here.foldl (fun (m : BitVec 8) c => m ||| BitVec.ofNat 8 (2 ^ (c.1 % 8))) 0
    let bytes := here.foldl (fun (v : Word) c => v ||| BitVec.ofNat 64 (c.2.toNat * 256 ^ (c.1 % 8))) 0
    acc + digestTerm kd (8 * ch) mask bytes) 0

end Sys2Proof.Machine
end

