-- ==== Sys2Proof/Machine/Operands.lean ====
section
/-!
DEFINITION. The operand forms: sizes, immediates, effective pointers with their tag rule (R34, R102), the elements of a
vector register (R129) and the bit fields of words.
-/
namespace Sys2Proof.Machine

/-- Bytes of an access size (R34). -/
def sizeBytes : Size → Nat
  | .b => 1 | .h => 2 | .w => 4 | .d => 8

/-- Space tag of a pointer (R35). -/
def ptrTag (p : Word) : Nat := p.toNat / 2 ^ 60
/-- The 60 bits below the tag. -/
def ptrLow (p : Word) : Nat := p.toNat % 2 ^ 60

/-- A pointer moved by an exact distance: the tag is kept, and any wrap of [59:0] sets it to 0xE (R34, R102). -/
def leaBy (a : Word) (d : Int) : Word :=
  let u : Int := ptrLow a + d
  let t := if u < 0 || 2 ^ 60 ≤ u then 0xE else ptrTag a
  BitVec.ofNat 64 (t * 2 ^ 60 + (u % 2 ^ 60).toNat)

/-- The effective pointer of the M format (R34). -/
def effPtr (a : Word) (scale : Nat) (off : BitVec 12) : Word := leaBy a (scale * off.toInt)

/-- Branch target (R33): PC + 2 × sext(disp20). -/
def branchTarget (pc : Word) (disp : BitVec 20) : Word := pc + disp.signExtend 64 * 2

/-- Lane i of a vector register (R23). -/
def laneOf (v : Vec) (i : Nat) : HWord := v.extractLsb' (32 * i) 32
/-- Bits [lo + w − 1 : lo] of a vector register as a number. -/
def vecField (v : Vec) (lo w : Nat) : Nat := v.toNat / 2 ^ lo % 2 ^ w
/-- A vector register from fields of w bits, given from the lowest up. -/
def packFields (w : Nat) : List Nat → Nat
  | [] => 0
  | x :: rest => x % 2 ^ w + 2 ^ w * packFields w rest
/-- A vector register from its sixteen lanes. -/
def ofLanes (f : Nat → HWord) : Vec := BitVec.ofNat 512 (packFields 32 ((List.range 16).map fun i => (f i).toNat))

/-- Element width of a lane type (R129). -/
def laneWidth : LaneType → Nat
  | .i32 | .f32 => 32 | .bf16x2 | .f16x2 => 16 | .f64 => 64
/-- Number of elements of a lane type (R129). -/
def laneCount (t : LaneType) : Nat := 512 / laneWidth t
/-- Governing mask bit of element e (R129). -/
def governs : LaneType → Nat → Nat
  | .i32, e | .f32, e => e
  | .bf16x2, e | .f16x2, e => e / 2
  | .f64, e => 2 * e

/-- The bits of the elements whose governing mask bit is 1 (R130). -/
def laneEnable (t : LaneType) (mask : BitVec 16) : Vec :=
  BitVec.ofNat 512 (packFields (laneWidth t) ((List.range (laneCount t)).map fun e =>
    if mask.getLsbD (governs t e) then 2 ^ laneWidth t - 1 else 0))

/-- A register with the elements replaced whose governing mask bit is 1 (R130). -/
def maskedWrite (t : LaneType) (mask : BitVec 16) (old : Vec) (f : Nat → Nat) : Vec :=
  BitVec.ofNat 512 (packFields (laneWidth t) ((List.range (laneCount t)).map fun e =>
    if mask.getLsbD (governs t e) then f e else vecField old (laneWidth t * e) (laneWidth t)))

/-- Bytes of a number, lowest first. -/
def bytesOf (v : Nat) : Nat → List Byte
  | 0 => []
  | n + 1 => BitVec.ofNat 8 v :: bytesOf (v / 256) n
/-- The number little-endian bytes make. -/
def numberOf : List Byte → Nat
  | [] => 0
  | b :: rest => b.toNat + 256 * numberOf rest

end Sys2Proof.Machine
end

