-- ==== Sys2Proof/Machine/Flags.lean ====
section
/-!
DEFINITION. The predicate word (R77) and every condition: the scalar predicates, the lane mask, the relations of CMP and
CMPI (R110, R111) and of VCMP (R140), and predicate logic (R112). The part has no other flags but the matrix overflow bit.
-/
namespace Sys2Proof.Machine

/-- Scalar predicate q of P (R77). -/
def predOf (p : HWord) (q : PredNo) : Bool := p.getLsbD (16 + q.toNat)
/-- P with one scalar predicate written; P[31:24] reads zero (R77). -/
def setPred (p : HWord) (q : PredNo) (b : Bool) : HWord :=
  if b then p ||| (1#32 <<< (16 + q.toNat)) else p &&& ~~~(1#32 <<< (16 + q.toNat))
/-- The lane mask M (R77). -/
def laneMask (p : HWord) : BitVec 16 := p.setWidth 16
/-- P with the lane mask replaced. -/
def setLaneMask (p : HWord) (m : BitVec 16) : HWord := (p &&& 0xFFFF0000) ||| m.setWidth 32

def readPred (q : PredNo) : M Bool := look fun s => predOf s.me.p q
def writePred (q : PredNo) (b : Bool) : M Unit := change (·.modMe fun t => { t with p := setPred t.p q b })
def readMask : M (BitVec 16) := look fun s => laneMask s.me.p

/-- The relations of CMP (R110). -/
def scalarCond (c : Cond) (a b : Word) : Bool :=
  match c with
  | .eq => a == b
  | .ne => a != b
  | .lt => a.slt b
  | .le => a.sle b
  | .ltu => a.ult b
  | .leu => a.ule b

/-- The relations of VCMP on i32 lanes (R140). -/
def intCond (c : VCond) (a b : HWord) : Bool :=
  match c with
  | .eq => a == b
  | .ne => a != b
  | .lt => a.slt b
  | .le => a.sle b
  | .ltu => a.ult b
  | .leu => a.ule b
  | .uno => false

end Sys2Proof.Machine
end

