-- ==== Sys2Proof/Machine/Numbers.lean ====
section
/-!
DEFINITION. The number formats of R51: exact values of codes (R54, R60), rounding and conversion (R65, R66, R69, R70), NaN
choice (R56, R57), zero signs (R72), comparisons, minimum and maximum (R71), estimates (R137) and the sums of R74. Every
value is exact: a sign, an integer and a power of two; rounding happens in one place.
-/
namespace Sys2Proof.Machine

/-- A value of an operand: a NaN with its sign and its fraction aligned to 52 bits, an infinity, or
(−1)^neg × m × 2^e. -/
inductive Num where
  | nan (neg : Bool) (frac : Nat)
  | inf (neg : Bool)
  | fin (neg : Bool) (m : Nat) (e : Int)
  deriving DecidableEq, Repr

/-- The canonical NaN (R56). -/
def Num.canonical : Num := .nan false (2 ^ 51)
/-- Zero of a sign. -/
def Num.zero (neg : Bool) : Num := .fin neg 0 0
/-- An integer as a value. -/
def Num.ofInt (i : Int) : Num := .fin (i < 0) i.natAbs 0
/-- The value is a NaN. -/
def Num.isNan : Num → Bool
  | .nan _ _ => true
  | .inf _ | .fin _ _ _ => false

/-- A floating-point format: exponent and fraction bits, bias, and whether it has infinities and NaNs (R51). -/
structure FloatFmt where
  eb : Nat
  fb : Nat
  bias : Nat
  inf : Bool
  nan : Bool
  deriving DecidableEq, Repr

/-- The float formats of R51 (FP4S elements are FP4 E2M1 codes). -/
def fmtFloat : Fmt → Option FloatFmt
  | .fp64 => some ⟨11, 52, 1023, true, true⟩
  | .fp32 => some ⟨8, 23, 127, true, true⟩
  | .bf16 => some ⟨8, 7, 127, true, true⟩
  | .fp16 => some ⟨5, 10, 15, true, true⟩
  | .fp8e4 => some ⟨4, 3, 7, false, true⟩
  | .fp8e5 => some ⟨5, 2, 15, true, true⟩
  | .fp6e3 => some ⟨3, 2, 3, false, false⟩
  | .fp6e2 => some ⟨2, 3, 1, false, false⟩
  | .fp4 | .fp4s => some ⟨2, 1, 1, false, false⟩
  | .i8 | .n8 | .i4 | .n4 => none

/-- Element width in bits (R51). -/
def fmtBits : Fmt → Nat
  | .fp64 => 64 | .fp32 => 32 | .bf16 | .fp16 => 16 | .fp8e4 | .fp8e5 | .i8 | .n8 => 8
  | .fp6e3 | .fp6e2 => 6 | .fp4 | .fp4s | .i4 | .n4 => 4

/-- Range of an integer format (R51). -/
def fmtRange : Fmt → Int × Int
  | .i8 => (-128, 127) | .n8 => (0, 255) | .i4 => (-8, 7) | .n4 => (0, 15) | _ => (0, 0)

/-- The formats served by the die control core (R64). -/
def fmtEmulated : Fmt → Bool
  | .fp6e3 | .fp6e2 => true
  | _ => false

/-- Width of a float format. -/
def FloatFmt.bits (f : FloatFmt) : Nat := 1 + f.eb + f.fb
/-- The code of the largest finite magnitude (R51, R54). -/
def FloatFmt.maxCode (f : FloatFmt) : Nat :=
  if f.inf then (2 ^ f.eb - 1) * 2 ^ f.fb - 1 else if f.nan then 2 ^ (f.eb + f.fb) - 2 else 2 ^ (f.eb + f.fb) - 1
/-- Exponent of the smallest normal value. -/
def FloatFmt.emin (f : FloatFmt) : Int := 1 - (f.bias : Int)
/-- Join sign and magnitude. -/
def FloatFmt.join (f : FloatFmt) (neg : Bool) (mag : Nat) : Nat := (if neg then 2 ^ (f.eb + f.fb) else 0) + mag

/-- The value of a code (R54). -/
def FloatFmt.value (f : FloatFmt) (code : Nat) : Num :=
  let neg := code / 2 ^ (f.eb + f.fb) % 2 == 1
  let ex := code / 2 ^ f.fb % 2 ^ f.eb
  let fr := code % 2 ^ f.fb
  if ex = 0 then .fin neg fr (f.emin - f.fb)
  else if ex + 1 = 2 ^ f.eb && f.inf then
    if fr = 0 then .inf neg else .nan neg (fr * 2 ^ (52 - f.fb))
  else if ex + 1 = 2 ^ f.eb && f.nan && fr + 1 == 2 ^ f.fb then .nan neg (fr * 2 ^ (52 - f.fb))
  else .fin neg (2 ^ f.fb + fr) ((ex : Int) - f.bias - f.fb)

/-- Two's complement or unsigned value of an integer code. -/
def intValue (bits : Nat) (signed : Bool) (code : Nat) : Int :=
  let c := code % 2 ^ bits
  if signed && 2 ^ (bits - 1) ≤ c then (c : Int) - 2 ^ bits else c

/-- The value of an element code in a format (R54). -/
def fmtValue (f : Fmt) (code : Nat) : Num :=
  match fmtFloat f with
  | some ff => ff.value code
  | none => .ofInt (intValue (fmtBits f) (f == .i8 || f == .i4) code)

/-- The value of a block scale code (R60). -/
def blockScale (code : Nat) : Num :=
  let e := code / 32 % 8
  let f := code % 32
  if code % 256 = 255 then .canonical
  else if e = 0 then .fin false f (-7)
  else .fin false (32 + f) ((e : Int) - 8)

/-! ### Rounding -/

/-- Whether rounding moves away from zero: rem / den is the fraction lost, `odd` the last bit kept, dr the draw of SR
(R65, R66). -/
def roundsUp (mode : Rounding) (neg odd : Bool) (rem den dr : Nat) : Bool :=
  match mode with
  | .rne => den < 2 * rem || (2 * rem == den && odd)
  | .rtz => false
  | .rdn => neg && rem != 0
  | .rup => !neg && rem != 0
  | .sr => dr < 2 ^ 32 * rem / den

/-- m × 2^e as an integer number of units 2^q and the fraction lost. -/
def splitAt (m : Nat) (e q : Int) : Nat × Nat × Nat :=
  if q ≤ e then (m * 2 ^ (e - q).toNat, 0, 1)
  else (m / 2 ^ (q - e).toNat, m % 2 ^ (q - e).toNat, 2 ^ (q - e).toNat)

/-- What overflow delivers (R69, R70): the modes that stay toward zero give the largest finite value. -/
def overflowCode (f : FloatFmt) (mode : Rounding) (neg sat : Bool) : Nat :=
  if sat || !f.nan || mode == .rtz || (mode == .rdn && !neg) || (mode == .rup && neg) then f.join neg f.maxCode
  else f.join neg (f.maxCode + 1)

/-- Round (−1)^neg × m × 2^e to a float format (R65, R66, R69). -/
def roundFloat (f : FloatFmt) (mode : Rounding) (sat : Bool) (dr : Nat) (neg : Bool) (m : Nat) (e : Int) : Nat :=
  if m = 0 then f.join neg 0
  else
    let q := max ((Nat.log2 m : Int) + e) f.emin - f.fb
    let (mag, rem, den) := splitAt m e q
    let code := ((q + f.fb - f.emin).toNat) * 2 ^ f.fb + mag
    let code := if roundsUp mode neg (code % 2 == 1) rem den dr then code + 1 else code
    if f.maxCode < code then overflowCode f mode neg sat else f.join neg code

/-- A NaN in a format (R57): sign kept, fraction aligned to the top, quiet. -/
def nanCode (f : FloatFmt) (neg : Bool) (frac : Nat) : Nat :=
  if f.inf then f.join neg ((2 ^ f.eb - 1) * 2 ^ f.fb + (frac / 2 ^ (52 - f.fb) ||| 2 ^ (f.fb - 1)))
  else if f.nan then f.join neg (2 ^ (f.eb + f.fb) - 1)
  else 0

/-- An infinity in a format (R69). -/
def infCode (f : FloatFmt) (neg sat : Bool) : Nat :=
  if sat || !f.nan then f.join neg f.maxCode else f.join neg (f.maxCode + 1)

/-- Convert a value to a float format (R69). -/
def toFloat (f : FloatFmt) (mode : Rounding) (sat : Bool) (dr : Nat) : Num → Nat
  | .nan neg frac => nanCode f neg frac
  | .inf neg => infCode f neg sat
  | .fin neg m e => roundFloat f mode sat dr neg m e

/-- Clamp to a range. -/
def clampInt (r : Int × Int) (i : Int) : Int := if i < r.1 then r.1 else if r.2 < i then r.2 else i

/-- Convert a value to an integer format (R69): rounded to an integer in the mode, then clamped; a NaN gives 0. -/
def toInteger (r : Int × Int) (mode : Rounding) (dr : Nat) : Num → Int
  | .nan _ _ => 0
  | .inf neg => if neg then r.1 else r.2
  | .fin neg m e =>
    let (mag, rem, den) := splitAt m e 0
    let mag := if roundsUp mode neg (mag % 2 == 1) rem den dr then mag + 1 else mag
    clampInt r (if neg then -(mag : Int) else mag)

/-- convert(x, target, rounding, sat) of R69, as a code of the target. -/
def convert (t : Fmt) (mode : Rounding) (sat : Bool) (dr : Nat) (x : Num) : Nat :=
  match fmtFloat t with
  | some f => toFloat f mode sat dr x
  | none => (toInteger (fmtRange t) mode dr x % 2 ^ fmtBits t).toNat

/-! ### Arithmetic on exact values -/

/-- The first NaN among operands (R57). -/
def firstNan (xs : List Num) : Option Num := xs.find? (·.isNan)

/-- Negate. -/
def Num.neg : Num → Num
  | .nan s f => .nan s f
  | .inf s => .inf !s
  | .fin s m e => .fin (!s) m e

/-- Exact product; a product 0 × ∞ is invalid (R56), a NaN operand is delivered. -/
def Num.mul (x y : Num) : Num :=
  match x, y with
  | .nan s f, _ => .nan s f
  | _, .nan s f => .nan s f
  | .inf s, .inf t => .inf (s != t)
  | .inf s, .fin t m _ => if m = 0 then .canonical else .inf (s != t)
  | .fin s m _, .inf t => if m = 0 then .canonical else .inf (s != t)
  | .fin s m e, .fin t n g => .fin (s != t) (m * n) (e + g)

/-- The finite value as a signed integer number of units 2^q, for q no larger than its exponent. -/
def signedUnits (neg : Bool) (m : Nat) (e q : Int) : Int :=
  let u : Int := m * 2 ^ (e - q).toNat
  if neg then -u else u

/-- Exact sum of two finite values; an exact zero is −0 only if both are −0 (R72). -/
def addFinite (s : Bool) (m : Nat) (e : Int) (t : Bool) (n : Nat) (g : Int) : Num :=
  let q := min e g
  let u := signedUnits s m e q + signedUnits t n g q
  if u = 0 then .fin (s && t) 0 q else .fin (u < 0) u.natAbs q

/-- Exact sum; ∞ − ∞ is invalid (R56), the first NaN operand is delivered (R57). -/
def Num.add (x y : Num) : Num :=
  match x, y with
  | .nan s f, _ => .nan s f
  | _, .nan s f => .nan s f
  | .inf s, .inf t => if s == t then .inf s else .canonical
  | .inf s, .fin _ _ _ => .inf s
  | .fin _ _ _, .inf t => .inf t
  | .fin s m e, .fin t n g => addFinite s m e t n g

/-- x × y + z exactly, with the NaN choice x, y, z: a NaN operand comes before an invalid step (R56, R57). -/
def Num.fma (x y z : Num) : Num :=
  match firstNan [x, y, z] with
  | some n => n
  | none => (x.mul y).add z

/-- x < y for numbers that are not NaN, with −0 below +0 (R71). -/
def Num.below (x y : Num) : Bool :=
  match x, y with
  | .nan _ _, _ | _, .nan _ _ => false
  | .inf s, .inf t => s && !t
  | .inf s, .fin _ _ _ => s
  | .fin _ _ _, .inf t => !t
  | .fin s m e, .fin t n g =>
    let q := min e g
    let a := signedUnits s m e q
    let b := signedUnits t n g q
    if a = 0 && b = 0 then s && !t else a < b

/-- Equal as numbers: −0 = +0, a NaN equals nothing (R71, R140). -/
def Num.same (x y : Num) : Bool :=
  match x, y with
  | .nan _ _, _ | _, .nan _ _ => false
  | .inf s, .inf t => s == t
  | .inf _, .fin _ _ _ | .fin _ _ _, .inf _ => false
  | .fin s m e, .fin t n g => signedUnits s m e (min e g) == signedUnits t n g (min e g)

/-- x < y as numbers: false when either is a NaN, −0 and +0 compare equal (R140). -/
def Num.less (x y : Num) : Bool := !x.same y && x.below y

/-! ### Operations on codes of one float format -/

/-- Round to nearest even in a format (R65). -/
def FloatFmt.rne (f : FloatFmt) (x : Num) : Nat := toFloat f .rne false 0 x

def FloatFmt.add (f : FloatFmt) (x y : Nat) : Nat := f.rne ((f.value x).add (f.value y))
/-- x − y; a NaN in y keeps its sign (R57). -/
def FloatFmt.sub (f : FloatFmt) (x y : Nat) : Nat := f.rne ((f.value x).add (f.value y).neg)
def FloatFmt.mul (f : FloatFmt) (x y : Nat) : Nat := f.rne ((f.value x).mul (f.value y))
def FloatFmt.fma (f : FloatFmt) (x y z : Nat) : Nat := f.rne ((f.value x).fma (f.value y) (f.value z))
/-- MIN and MAX (R71): −0 below +0; a NaN operand gives the NaN of R57. -/
def FloatFmt.min (f : FloatFmt) (x y : Nat) : Nat :=
  match firstNan [f.value x, f.value y] with
  | some n => f.rne n
  | none => if (f.value y).below (f.value x) then y else x
def FloatFmt.max (f : FloatFmt) (x y : Nat) : Nat :=
  match firstNan [f.value x, f.value y] with
  | some n => f.rne n
  | none => if (f.value x).below (f.value y) then y else x
/-- Set the quiet bit of a NaN code (R135). -/
def FloatFmt.quiet (f : FloatFmt) (x : Nat) : Nat := if (f.value x).isNan then x ||| 2 ^ (f.fb - 1) else x
/-- ABS (R135). -/
def FloatFmt.abs (f : FloatFmt) (x : Nat) : Nat := f.quiet (x % 2 ^ (f.eb + f.fb))
/-- NEG (R135). -/
def FloatFmt.negate (f : FloatFmt) (x : Nat) : Nat := f.quiet (x ^^^ 2 ^ (f.eb + f.fb))

/-- The largest t ≤ 2^13 − 1 with t² × m ≤ bound, bit by bit. -/
def rootSearch (m bound : Nat) : Nat :=
  [12, 11, 10, 9, 8, 7, 6, 5, 4, 3, 2, 1, 0].foldl
    (fun t i => if (t + 2 ^ i) * (t + 2 ^ i) * m ≤ bound then t + 2 ^ i else t) 0

/-- A truncated estimate in a format (R137): an infinity above the largest finite value, rounded toward zero below the
normal range. -/
def FloatFmt.estimate (f : FloatFmt) (neg : Bool) (t : Nat) (e : Int) : Nat :=
  let code := roundFloat f .rup false 0 false t e
  if f.maxCode < code then infCode f neg false else roundFloat f .rtz false 0 neg t e

/-- FRCP (R137, R138): 1 / x truncated to 12 significant bits. -/
def FloatFmt.frcp (f : FloatFmt) (x : Nat) : Nat :=
  match f.value x with
  | .nan s fr => nanCode f s fr
  | .inf s => f.join s 0
  | .fin s m e =>
    if m = 0 then infCode f s false
    else f.estimate s (2 ^ (Nat.log2 m + 12) / m) (-((Nat.log2 m : Int) + 12) - e)

/-- FRSQ (R137, R138): 1 / sqrt x truncated to 12 significant bits. -/
def FloatFmt.frsq (f : FloatFmt) (x : Nat) : Nat :=
  match f.value x with
  | .nan s fr => nanCode f s fr
  | .inf s => if s then f.rne .canonical else f.join false 0
  | .fin s m e =>
    if m = 0 then infCode f s false
    else if s then f.rne .canonical
    else
      let m' := if e % 2 = 0 then m else 2 * m
      let e' := if e % 2 = 0 then e else e - 1
      let k := 12 + Nat.log2 m' / 2
      f.estimate false (rootSearch m' (2 ^ (2 * k))) (-(k : Int) - e' / 2)

/-! ### The sums of the matrix array (R74) -/

/-- Exact sum of the products of a group, without NaN operands (R72, R74): the sign rule counts the terms present. -/
def groupSum : List (Num × Num) → Num
  | [] => .zero false
  | [p] => p.1.mul p.2
  | p :: rest => (p.1.mul p.2).add (groupSum rest)

/-- The first NaN of a group in the order of R57: for each k the activation, then the weight. -/
def groupNan (ps : List (Num × Num)) : Option Num := firstNan (ps.flatMap fun p => [p.1, p.2])

/-- The new FP32 accumulator of one group (R74): a NaN group sum wins over the accumulator's own NaN. -/
def addGroup (f : FloatFmt) (c : Nat) (ps : List (Num × Num)) : Nat :=
  let s := match groupNan ps with
    | some n => n
    | none => groupSum ps
  f.rne (if s.isNan then s else (f.value c).add s)

/-- Split a list into groups of eight (R74); `n` bounds the number of groups. -/
def groupsOf8 {α : Type} : Nat → List α → List (List α)
  | 0, _ => []
  | n + 1, l => if l.isEmpty then [] else l.take 8 :: groupsOf8 n (l.drop 8)

/-- The FLOAT16 class of R74. -/
def sumFloat16 (f : FloatFmt) (c : Nat) (ps : List (Num × Num)) : Nat :=
  (groupsOf8 (ps.length / 8 + 1) ps).foldl (addGroup f) c

/-- The FP32 and FP64 classes of R74: one fused step for each k, NaN choice activation, weight, accumulator. -/
def sumFused (f : FloatFmt) (c : Nat) (ps : List (Num × Num)) : Nat :=
  ps.foldl (fun c p => f.rne (p.1.fma p.2 (f.value c))) c

/-- The integer value of an exact integer. -/
def Num.toInt : Num → Int
  | .fin s m e => let u : Int := m * 2 ^ e.toNat; if s then -u else u
  | .nan _ _ | .inf _ => 0

/-- An INT32 accumulator step: the wrapped value and whether it overflowed (R74, R220). -/
def addInt32 (c : HWord) (v : Int) : HWord × Bool :=
  let t := c.toInt + v
  (BitVec.ofInt 32 t, t < -(2 ^ 31) || 2 ^ 31 - 1 < t)

/-- The integer class of R74: the accumulator and the sticky overflow. -/
def sumInt (c : HWord) (ovf : Bool) (ps : List (Num × Num)) : HWord × Bool :=
  ps.foldl (fun a p =>
    let r := addInt32 a.1 (p.1.toInt * p.2.toInt)
    (r.1, a.2 || r.2)) (c, ovf)

end Sys2Proof.Machine
end

