-- ==== Sys2Proof/Machine/Lane.lean ====
section
/-!
DEFINITION. The lane family (R129-R146): arithmetic, logic, movement, estimates and reductions on the sixteen lanes under
the lane mask, VCMP, VEXT, VINS, VCVT with its stochastic rounding (R67, R144, R145), and the compact lane forms.
-/
namespace Sys2Proof.Machine

/-- The float format of a lane type (R135). -/
def laneFmt : LaneType → FloatFmt
  | .i32 | .f32 => ⟨8, 23, 127, true, true⟩
  | .bf16x2 => ⟨8, 7, 127, true, true⟩
  | .f16x2 => ⟨5, 10, 15, true, true⟩
  | .f64 => ⟨11, 52, 1023, true, true⟩

/-- Element e of a vector register (R129). -/
def elemOf (t : LaneType) (v : Vec) (e : Nat) : Nat := vecField v (laneWidth t * e) (laneWidth t)

/-! ### Element operations (R134, R135) -/

/-- An operation of i32 lanes on two's complement and unsigned words. -/
def onInt (f : HWord → HWord → HWord) (x y : Nat) : Nat := (f (BitVec.ofNat 32 x) (BitVec.ofNat 32 y)).toNat

/-- Bits [63:32] of the signed product (R134). -/
def mulhi32 (a b : HWord) : HWord := BitVec.ofInt 32 (a.toInt * b.toInt / 2 ^ 32)

/-- The typed operations that exist for i32 and the float types (R41). -/
inductive LaneOp where
  | add | sub | mul | min | max
  deriving DecidableEq, Repr

/-- A typed binary operation on two elements (R134, R135). -/
def laneOp (op : LaneOp) (t : LaneType) (x y : Nat) : Nat :=
  match t with
  | .i32 =>
    match op with
    | .add => onInt (fun a b => a + b) x y
    | .sub => onInt (fun a b => a - b) x y
    | .mul => onInt (fun a b => a * b) x y
    | .min => onInt (fun a b => if a.sle b then a else b) x y
    | .max => onInt (fun a b => if b.sle a then a else b) x y
  | .f32 | .bf16x2 | .f16x2 | .f64 =>
    let f := laneFmt t
    match op with
    | .add => f.add x y
    | .sub => f.sub x y
    | .mul => f.mul x y
    | .min => f.min x y
    | .max => f.max x y

/-- ABS (R134, R135). -/
def laneAbs (t : LaneType) (x : Nat) : Nat :=
  match t with
  | .i32 => onInt (fun a _ => if a.slt 0 then -a else a) x 0
  | .f32 | .bf16x2 | .f16x2 | .f64 => (laneFmt t).abs x
/-- NEG (R134, R135). -/
def laneNeg (t : LaneType) (x : Nat) : Nat :=
  match t with
  | .i32 => onInt (fun a _ => -a) x 0
  | .f32 | .bf16x2 | .f16x2 | .f64 => (laneFmt t).negate x

/-! ### Shapes -/

/-- The latency of a lane operation (R132). -/
def laneLat : LaneType → Nat
  | .i32 => 3
  | .f32 | .bf16x2 | .f16x2 | .f64 => 4
/-- Write the active elements of d and complete (R130). -/
def writeLanes (len : Word) (t : LaneType) (d : Reg) (f : Nat → Nat) : M Unit := do
  let m ← readMask
  change fun s => s.setVAt (laneLat t) d (laneEnable t m) (maskedWrite t m (s.vval d) f)
  finish len
/-- d.e := f(A.e, B.e) for the active elements. -/
def binaryV (len : Word) (t : LaneType) (d a b : Reg) (f : Nat → Nat → Nat) : M Unit := do
  let x ← readV a
  let y ← readV b
  writeLanes len t d fun e => f (elemOf t x e) (elemOf t y e)
/-- d.e := f(A.e). -/
def unaryV (len : Word) (t : LaneType) (d a : Reg) (f : Nat → Nat) : M Unit := do
  let x ← readV a
  writeLanes len t d fun e => f (elemOf t x e)

/-! ### Reductions (R139) -/

/-- The operations of a reduction. -/
inductive RedOp where
  | add | min | max
  deriving DecidableEq, Repr

/-- The lane operation of a reduction. -/
def RedOp.op : RedOp → LaneOp
  | .add => .add | .min => .min | .max => .max

/-- The identity that pads inactive elements (R72). -/
def redIdentity (op : RedOp) (t : LaneType) : Nat :=
  match t with
  | .i32 => match op with | .add => 0 | .min => 0x7FFFFFFF | .max => 0x80000000
  | .f32 | .bf16x2 | .f16x2 | .f64 =>
    let f := laneFmt t
    match op with | .add => f.join true 0 | .min => infCode f false false | .max => infCode f true false
/-- The result with no active element (R72). -/
def redEmpty (op : RedOp) (t : LaneType) : Nat :=
  match op with
  | .add => 0
  | .min | .max => redIdentity op t

/-- Combine neighbours: one level of the pairwise tree. -/
def redLevel (f : Nat → Nat → Nat) : List Nat → List Nat
  | x :: y :: rest => f x y :: redLevel f rest
  | l => l

/-- The reduction of a register under a mask (R139). -/
def reduce (op : RedOp) (t : LaneType) (mask : BitVec 16) (a : Vec) : Nat :=
  let on := fun e => mask.getLsbD (governs t e)
  let vs := (List.range (laneCount t)).map fun e => if on e then elemOf t a e else redIdentity op t
  let f := laneOp op.op t
  if (List.range (laneCount t)).any on then
    (redLevel f (redLevel f (redLevel f (redLevel f vs)))).headD 0
  else redEmpty op t

/-- Write element 0 whatever the mask (R139). -/
def reduceV (op : RedOp) (t : LaneType) (d a : Reg) : M Unit := do
  let m ← readMask
  let x ← readV a
  change fun s => s.setVAt 4 d (laneEnable t 1) (maskedWrite t 1 (s.vval d) fun _ => reduce op t m x)
  finish 4

/-! ### VCMP (R140) -/

/-- The relation of one element. -/
def elemCond (t : LaneType) (c : VCond) (x y : Nat) : Bool :=
  match t with
  | .i32 => intCond c (BitVec.ofNat 32 x) (BitVec.ofNat 32 y)
  | .f32 | .bf16x2 | .f16x2 | .f64 =>
    let a := (laneFmt t).value x
    let b := (laneFmt t).value y
    match c with
    | .eq => a.same b
    | .ne => !a.same b
    | .lt => a.less b
    | .le => a.same b || a.less b
    | .uno => a.isNan || b.isNan
    | .ltu | .leu => false

/-- Element that holds a lane (R140: f64 elements cover two lanes). -/
def elemOfLane : LaneType → Nat → Nat
  | .i32, i | .f32, i | .bf16x2, i | .f16x2, i => i
  | .f64, i => i / 2

/-- The mask VCMP writes. -/
def compareMask (t : LaneType) (c : VCond) (combine : Bool) (m : BitVec 16) (a b : Vec) : BitVec 16 :=
  (List.range 16).foldl (fun acc i =>
    let r := elemCond t c (elemOf t a (elemOfLane t i)) (elemOf t b (elemOfLane t i))
    if r && (!combine || m.getLsbD i) then acc ||| BitVec.ofNat 16 (2 ^ i) else acc) 0

/-! ### VCVT (R142-R145) -/

/-- The digest key of a launch of a partition (R378). -/
def Partition.digestKey (q : Partition) (launch : HWord) : BitVec 128 :=
  match mapGet? q.launches launch.toNat with
  | some l => l.words.getD 8 0 ++ l.words.getD 7 0
  | none => 0

/-- The digest key of the launch that holds a core, if it is deterministic. -/
def State.coreKey (s : State) (c : Nat) : Option (BitVec 128) :=
  match (s.core c).bound with
  | some b => if (s.core c).binds.toList.any fun r => r.v && r.dm then some ((s.part b.part).digestKey b.launch) else none
  | none => none

/-- The key of a development that another partition's or another package's access has started (R145): that of the launch whose access
it was, and none for another package's (log 19); `n` bounds how often one such access stands behind another. -/
def State.farKey (s : State) : Nat → Requester → Option (BitVec 128)
  | 0, _ => none
  | n + 1, root =>
    match root with
    | .remote _ _ _ => none
    | .slot c _ | .engine c _ | .refetch _ c => s.coreKey c
    | .image _ p l =>
      match mapGet? (s.part p).launches l with
      | some x => if (x.words.getD 4 0).getLsbD 8 then some ((s.part p).digestKey (BitVec.ofNat 32 l)) else none
      | none => none
    | .across _ c _ =>
      match s.devOf root with
      | some d => State.farKey s n d.root
      | none => s.coreKey c

/-- The key of stochastic rounding (R145): none for a development of a launch that is not deterministic. -/
def State.srKey (s : State) : Option (BitVec 128) :=
  let t := s.me
  let digestKey := s.myPart.digestKey t.launch
  if !t.sw.dm then some (s.myPart.owner s.myOwner).seed
  else match t.kind with
    | .lane | .record => some digestKey
    | .dev d =>
      match d.root with
      | .slot _ _ | .engine _ _ => if (s.myCore.binds[s.curSlot]).dm then some digestKey else none
      | .remote _ _ _ | .across _ _ _ | .image _ _ _ | .refetch _ _ => s.farKey 5 d.root

/-- Elements VCVT converts (R143). -/
def cvtCount (f b : Fmt) : Nat := if f == .fp64 || b == .fp64 then 8 else 16

/-- The result register of VCVT (R143, R144): active fields converted, other fields kept, the bits above them zero. -/
def cvtResult (f b : Fmt) (r : Rounding) (sat : Bool) (m : BitVec 16) (draw : Nat → Nat) (src dst : Vec) : Vec :=
  let db := fmtBits f
  let sb := fmtBits b
  BitVec.ofNat 512 (packFields db ((List.range (cvtCount f b)).map fun j =>
    if m.getLsbD j then convert f r sat (draw j) (fmtValue b (vecField src (sb * j) sb)) else vecField dst (db * j) db))

/-- The bits VCVT writes: the active fields and the bits above the fields (R143). -/
def cvtEnable (f b : Fmt) (m : BitVec 16) : Vec :=
  ~~~(BitVec.ofNat 512 (packFields (fmtBits f) ((List.range (cvtCount f b)).map fun j =>
    if m.getLsbD j then 0 else 2 ^ fmtBits f - 1)))

/-- The effect of VCVT on the source register x: its result lands `lat` cycles on (R132). -/
def cvtV (lat : Nat) (d : Reg) (x : Vec) (b : Fmt) (r : Rounding) (sat : Bool) (f : Fmt) : M Unit := do
  let key ← look (·.srKey)
  if r == .sr && key.isNone then trap .nondet 0
  let m ← readMask
  let t ← look (·.me)
  let draw := fun (j : Nat) =>
    if r == .sr then
      (drawKey (key.getD 0) (0x4000 ||| (t.lane.setWidth 14).setWidth 16) (BitVec.ofNat 48 (16 * t.sr.toNat + j))).toNat
    else 0
  change fun s => s.setVAt lat d (cvtEnable f b m) (cvtResult f b r sat m draw x (s.vval d))
  if r == .sr then change (·.modMe fun t => { t with sr := t.sr + 1 })
  finish 4

/-! ### Meanings -/

/-- VADD (R134, R135). -/
def execVadd (d a b : Reg) (t : LaneType) (s : State) : Out := run (binaryV 4 t d a b (laneOp .add t)) s

/-- VSUB (R134, R135). -/
def execVsub (d a b : Reg) (t : LaneType) (s : State) : Out := run (binaryV 4 t d a b (laneOp .sub t)) s

/-- VMUL (R134, R135). -/
def execVmul (d a b : Reg) (t : LaneType) (s : State) : Out := run (binaryV 4 t d a b (laneOp .mul t)) s

/-- VMIN (R134, R135). -/
def execVmin (d a b : Reg) (t : LaneType) (s : State) : Out := run (binaryV 4 t d a b (laneOp .min t)) s

/-- VMAX (R134, R135). -/
def execVmax (d a b : Reg) (t : LaneType) (s : State) : Out := run (binaryV 4 t d a b (laneOp .max t)) s

/-- VMULH (R134). -/
def execVmulh (d a b : Reg) (s : State) : Out := run (binaryV 4 .i32 d a b (onInt mulhi32)) s

/-- VMINU (R134). -/
def execVminu (d a b : Reg) (s : State) : Out := run (binaryV 4 .i32 d a b (onInt fun x y => if x.ule y then x else y)) s

/-- VMAXU (R134). -/
def execVmaxu (d a b : Reg) (s : State) : Out := run (binaryV 4 .i32 d a b (onInt fun x y => if y.ule x then x else y)) s

/-- VAND (R134). -/
def execVand (d a b : Reg) (s : State) : Out := run (binaryV 4 .i32 d a b (onInt fun x y => x &&& y)) s

/-- VOR (R134). -/
def execVor (d a b : Reg) (s : State) : Out := run (binaryV 4 .i32 d a b (onInt fun x y => x ||| y)) s

/-- VXOR (R134). -/
def execVxor (d a b : Reg) (s : State) : Out := run (binaryV 4 .i32 d a b (onInt fun x y => x ^^^ y)) s

/-- VANDN (R134). -/
def execVandn (d a b : Reg) (s : State) : Out := run (binaryV 4 .i32 d a b (onInt fun x y => x &&& ~~~y)) s

/-- VSHL (R134). -/
def execVshl (d a b : Reg) (s : State) : Out := run (binaryV 4 .i32 d a b (onInt fun x y => x <<< (y.toNat % 32))) s

/-- VSHR (R134). -/
def execVshr (d a b : Reg) (s : State) : Out := run (binaryV 4 .i32 d a b (onInt fun x y => x >>> (y.toNat % 32))) s

/-- VSAR (R134). -/
def execVsar (d a b : Reg) (s : State) : Out := run (binaryV 4 .i32 d a b (onInt fun x y => x.sshiftRight (y.toNat % 32))) s

/-- VABS (R134, R135). -/
def execVabs (d a : Reg) (t : LaneType) (s : State) : Out := run (unaryV 4 t d a (laneAbs t)) s

/-- VNEG (R134, R135). -/
def execVneg (d a : Reg) (t : LaneType) (s : State) : Out := run (unaryV 4 t d a (laneNeg t)) s

/-- VMOV (R136). -/
def execVmov (d a : Reg) (s : State) : Out := run (unaryV 4 .i32 d a (fun x => x)) s

/-- VSEL (R136): it writes every lane. -/
def execVsel (d a b : Reg) (s : State) : Out := run (do let m ← readMask; let x ← readV a; let y ← readV b; change (·.setVAt 3 d (BitVec.allOnes 512) (ofLanes fun i => if m.getLsbD i then laneOf x i else laneOf y i)); finish 4) s

/-- VPERM (R136). -/
def execVperm (d a b : Reg) (s : State) : Out := run (do let x ← readV a; let y ← readV b; writeLanes 4 .i32 d (fun i => (laneOf x ((laneOf y i).toNat % 16)).toNat)) s

/-- VBC (R136). -/
def execVbc (d a : Reg) (s : State) : Out := run (do let x ← readX a; writeLanes 4 .i32 d (fun _ => (x.setWidth 32).toNat)) s

/-- RED.ADD (R139). -/
def execVredAdd (d a : Reg) (t : LaneType) (s : State) : Out := run (reduceV .add t d a) s

/-- RED.MIN (R139). -/
def execVredMin (d a : Reg) (t : LaneType) (s : State) : Out := run (reduceV .min t d a) s

/-- RED.MAX (R139). -/
def execVredMax (d a : Reg) (t : LaneType) (s : State) : Out := run (reduceV .max t d a) s

/-- VFMA (R135): one rounding; d is also the addend. -/
def execVfma (d a b : Reg) (t : LaneType) (s : State) : Out := run (do let z ← readV d; let x ← readV a; let y ← readV b; writeLanes 4 t d (fun e => (laneFmt t).fma (elemOf t x e) (elemOf t y e) (elemOf t z e))) s

/-- FRCP (R137, R138). -/
def execVfrcp (d a : Reg) (t : LaneType) (s : State) : Out := run (unaryV 4 t d a (laneFmt t).frcp) s

/-- FRSQ (R137, R138). -/
def execVfrsq (d a : Reg) (t : LaneType) (s : State) : Out := run (unaryV 4 t d a (laneFmt t).frsq) s

/-- VCMP (R140). -/
def execVcmp (a b : Reg) (c : VCond) (n : Bool) (t : LaneType) (s : State) : Out := run (do let x ← readV a; let y ← readV b; change (·.modMe fun u => { u with p := setLaneMask u.p (compareMask t c n (laneMask u.p) x y) }); finish 4) s

/-- VEXT (R141). -/
def execVext (d a : Reg) (l : BitVec 4) (s : State) : Out := run (do let x ← readV a; writeXAt 3 d ((laneOf x l.toNat).setWidth 64); finish 4) s

/-- VINS (R141). -/
def execVins (d a : Reg) (l : BitVec 4) (s : State) : Out := run (do let x ← readX a; change (fun s => s.setVAt 3 d (laneEnable .i32 (BitVec.ofNat 16 (2 ^ l.toNat))) (maskedWrite .i32 (BitVec.ofNat 16 (2 ^ l.toNat)) (s.vval d) fun _ => (x.setWidth 32).toNat)); finish 4) s

/-- VCVT (R142-R145). A format the control core emulates holds the slot until the result is written (R64, R132). -/
def execVcvt (d a : Reg) (b : Fmt) (r : Rounding) (sat : Bool) (f : Fmt) (s : State) : Out :=
  run (do
    let x ← readV a
    if fmtEmulated b || fmtEmulated f then do
      let key ← look (·.srKey)
      if r == .sr && key.isNone then trap .nondet 0
      leave (.emulate (.vcvt d a b r sat f) { tcs := s.mySight.tc, a := 0, b := 0, d := 0 } x)
    else cvtV 4 d x b r sat f) s

/-- The compact VMOV (R146). -/
def execCVmov (d r : Reg) (s : State) : Out := run (unaryV 2 .i32 d r (fun x => x)) s

/-- The compact VADD i32 (R146). -/
def execCVaddI32 (d r : Reg) (s : State) : Out := run (binaryV 2 .i32 d d r (laneOp .add .i32)) s

/-- The compact VSUB i32 (R146). -/
def execCVsubI32 (d r : Reg) (s : State) : Out := run (binaryV 2 .i32 d d r (laneOp .sub .i32)) s

/-- The compact VMUL i32 (R146). -/
def execCVmulI32 (d r : Reg) (s : State) : Out := run (binaryV 2 .i32 d d r (laneOp .mul .i32)) s

/-- The compact VMIN i32 (R146). -/
def execCVminI32 (d r : Reg) (s : State) : Out := run (binaryV 2 .i32 d d r (laneOp .min .i32)) s

/-- The compact VMAX i32 (R146). -/
def execCVmaxI32 (d r : Reg) (s : State) : Out := run (binaryV 2 .i32 d d r (laneOp .max .i32)) s

/-- The compact VAND (R146). -/
def execCVand (d r : Reg) (s : State) : Out := run (binaryV 2 .i32 d d r (onInt fun x y => x &&& y)) s

/-- The compact VOR (R146). -/
def execCVor (d r : Reg) (s : State) : Out := run (binaryV 2 .i32 d d r (onInt fun x y => x ||| y)) s

/-- The compact VXOR (R146). -/
def execCVxor (d r : Reg) (s : State) : Out := run (binaryV 2 .i32 d d r (onInt fun x y => x ^^^ y)) s

/-- The compact VSHL (R146). -/
def execCVshl (d r : Reg) (s : State) : Out := run (binaryV 2 .i32 d d r (onInt fun x y => x <<< (y.toNat % 32))) s

/-- The compact VSHR (R146). -/
def execCVshr (d r : Reg) (s : State) : Out := run (binaryV 2 .i32 d d r (onInt fun x y => x >>> (y.toNat % 32))) s

/-- The compact VSAR (R146). -/
def execCVsar (d r : Reg) (s : State) : Out := run (binaryV 2 .i32 d d r (onInt fun x y => x.sshiftRight (y.toNat % 32))) s

/-- The compact VADD f32 (R146). -/
def execCVaddF32 (d r : Reg) (s : State) : Out := run (binaryV 2 .f32 d d r (laneOp .add .f32)) s

/-- The compact VSUB f32 (R146). -/
def execCVsubF32 (d r : Reg) (s : State) : Out := run (binaryV 2 .f32 d d r (laneOp .sub .f32)) s

/-- The compact VMUL f32 (R146). -/
def execCVmulF32 (d r : Reg) (s : State) : Out := run (binaryV 2 .f32 d d r (laneOp .mul .f32)) s

/-- The compact VMAX f32 (R146). -/
def execCVmaxF32 (d r : Reg) (s : State) : Out := run (binaryV 2 .f32 d d r (laneOp .max .f32)) s

end Sys2Proof.Machine
end

