-- ==== Sys2Proof/Machine/Memory.lean ====
section
/-!
DEFINITION. Global memory: recalls and placement at the home slices (R234-R237, R249), the page walk and the cluster TLB
(R223-R228), the first-level data cache (R161-R163), the constant cache (R238), what a recipe record does to a read or a
write (R248, R250-R253), and the reads and writes of one location range on behalf of an agent.
-/
namespace Sys2Proof.Machine

/-- Physical line of an address. -/
def lineOf (pa : Nat) : Nat := pa / 64
/-- Words of a line that n bytes at an address touch. -/
def wordsOf (pa n : Nat) : List Nat := (List.range 16).filter fun w => pa % 64 < 4 * w + 4 && 4 * w < pa % 64 + n
/-- Word w of a line's data. -/
def lineWord (v : Vec) (w : Nat) : HWord := v.extractLsb' (32 * w) 32
/-- Word w of a line replaced. -/
def setLineWord (v : Vec) (w : Nat) (x : HWord) : Vec :=
  (v &&& ~~~(BitVec.ofNat 512 (0xFFFFFFFF * 2 ^ (32 * w)))) ||| BitVec.ofNat 512 (x.toNat * 2 ^ (32 * w))
/-- Bit w of a word mask set or cleared. -/
def maskSet (m : BitVec 16) (w : Nat) (b : Bool) : BitVec 16 :=
  if b then m ||| BitVec.ofNat 16 (2 ^ w) else m &&& ~~~(BitVec.ofNat 16 (2 ^ w))

/-! ### The home slice -/

/-- A word of memory is performed: its value, and whether it is poisoned (R180, R258). -/
def State.performWord (s : State) (line w : Nat) (v : HWord) (bad : Bool) : State :=
  { s with
    mem := Memory.writeN s.mem (64 * line + 4 * w) 4 v.toNat
    memBad := if bad then setAdd s.memBad (16 * line + w) else setDel s.memBad (16 * line + w) }

/-- The first-level line of a core that holds a physical line: what the reverse map names (R229). -/
def Core.l1Find (k : Core) (line : Nat) : Option (Nat × L1Line) := k.l1d.find? fun e => e.2.pa == line

/-- Write one owned word of a core's L1 back and leave it unowned (R162). -/
def State.recallFrom (s : State) (core line w : Nat) : State :=
  match (s.core core).l1Find line with
  | none => s
  | some (va, l) =>
    if l.owned.getLsbD w then
      (s.performWord line w (lineWord l.data w) (l.bad.getLsbD w)).modCore core fun k =>
        { k with l1d := mapSet k.l1d va { l with owned := maskSet l.owned w false } }
    else s

/-- Ways a fill may use (R236, R326): 14 from the start of a change to strong mode to the end of the change back. -/
def Partition.ways (q : Partition) : Nat := if q.strong || q.recode.isSome then 14 else 16

/-- A set of a partition's slices in the order in which its scrubber visits them (R326). -/
def Partition.setIndex (q : Partition) (slice set : Nat) : Nat :=
  (4 * q.clusters.findIdx (· == slice / 4) + slice % 4) * 1024 + set
/-- The code in which a set's writes are encoded (R326): the partition's mode once the scrubber has done the set. -/
def Partition.setMode (q : Partition) (slice set : Nat) : Bool :=
  match q.recode with
  | none => q.strong
  | some n => if q.setIndex slice set < n then q.strong else !q.strong

/-- A line is written: it is dirty with respect to the vault, and encoded in its set's mode (R326). -/
def State.markDirty (s : State) (line : Nat) : State :=
  match mapGet? s.l2 line with
  | some e =>
    let strong := match s.parts.find? fun x => x.2.clusters.contains (e.slice / 4) with
      | some x => x.2.setMode e.slice e.set
      | none => e.strong
    { s with l2 := mapSet s.l2 line { e with dirty := true, strong := strong } }
  | none => s

/-- What may still be read of a line before some registered words of it are performed: the values they replace, for those that the first
of the words' owner has written. DEDUCED, log 111. -/
def State.olderOf (s : State) (line : Nat) (gone : List (Nat × Nat)) (was : Option Older) : Option Older :=
  match gone with
  | [] => was
  | (_, c) :: _ =>
    let ws := gone.filter fun r => r.2 == c && !s.memBad.contains (16 * line + r.1)
    some { writer := c, words := ws.map fun r => (r.1, BitVec.ofNat 32 (Memory.readN s.mem (64 * line + 4 * r.1) 4)), barred := [] }

/-- The slice recalls the registered words among some of a line's words (R237). -/
def State.recall (s : State) (line : Nat) (ws : List Nat) : State :=
  match mapGet? s.l2 line with
  | none => s
  | some e =>
    let gone := e.reg.filter fun r => ws.contains r.1
    let older := s.olderOf line gone e.older
    let s := gone.foldl (fun s r => s.recallFrom r.2 line r.1) s
    let reg := e.reg.filter fun r => !ws.contains r.1
    let s := { s with l2 := mapSet s.l2 line { e with reg := reg, older := older } }
    if reg.length == e.reg.length then s else s.markDirty line

/-- Change what may still be read of a line's older values. -/
def State.modOlder (s : State) (line : Nat) (f : Older → Option Older) : State :=
  match mapGet? s.l2 line with
  | some e => { s with l2 := mapSet s.l2 line { e with older := e.older.bind f } }
  | none => s
/-- A core has read a line's performed words: it reads nothing older from then on (R266). -/
def State.barOlder (s : State) (core line : Nat) : State :=
  s.modOlder line fun o => some { o with barred := setAdd o.barred core }
/-- Nothing that a core has written, or has read, may be read older from here on: it releases, or its context leaves (R261, R272). -/
def State.dropOlder (s : State) (drop : Older → Bool) : State :=
  { s with l2 := s.l2.map fun (l, e) => (l, { e with older := e.older.filter fun o => !drop o }) }

/-- All sixteen words. -/
def allWords : List Nat := List.range 16

/-- The record whose tile holds a physical line (R247). -/
def Partition.recordOf (q : Partition) (line : Nat) : Option Recipe :=
  q.recipes.find? fun r => r.lines.any fun l => l.2 == line
/-- A development that produces the tile is in progress (R251). -/
def Recipe.producing (r : Recipe) : Bool := r.devs.any fun d => d.verify.isNone
/-- Pin count of a line (R248). -/
def Partition.pinCount (q : Partition) (line : Nat) : Nat :=
  ((q.recipes.map fun r => (r.pins.filter (· == line)).length)).foldl (· + ·) 0

/-- A line leaves the L2 (R249): registered words are recalled first; a dirty line of a recorded tile without registered
words becomes latent; any other line is written back or dropped clean, so that the vault holds its performed value. -/
def State.evict (s : State) (p line : Nat) : State :=
  match mapGet? s.l2 line with
  | none => s
  | some e =>
    let s' := s.recall line allWords
    let recorded := (s.part p).recordOf line
    -- a tile that its development is producing is no tile whose lines can be dropped (R251, R253)
    let latent := e.dirty && e.reg.isEmpty && recorded.any fun r => !r.producing
    -- a clean line whose vault copy is lost is an uncorrectable error (R327)
    let lost := s.vaultBad.contains line && !e.dirty && e.reg.isEmpty
    { s' with
      l2 := mapErase s'.l2 line, vaultBad := setDel s'.vaultBad line
      latent := if latent || (lost && recorded.isSome) then setAdd s'.latent line else s'.latent
      memBad := if lost && recorded.isNone then allWords.foldl (fun m w => setAdd m (16 * line + w)) s'.memBad else s'.memBad }

/-- Ways in use in a set of a slice. -/
def usedWays (l2 : SMap L2Line) (slice set : Nat) : List (Nat × Nat) :=
  l2.filterMap fun (line, e) => if e.slice == slice && e.set == set then some (e.way, line) else none

/-- The home slice holds a line of a page of owner o of its partition, filling it when absent (R236): the lowest invalid
way, else the victim drawn on structure 2. The answer says whether the vault was read. -/
def State.l2Touch (s : State) (home o line : Nat) : Bool × State :=
  match mapGet? s.l2 line with
  | some _ => (false, s)
  | none =>
    let q := s.part home
    let slice := homeSlice q (64 * line)
    let set := (drawKey (q.owner o).seed 1 (BitVec.ofNat 48 line)).toNat % 1024
    let used := usedWays s.l2 slice set
    let entry := fun (way : Nat) =>
      ({ slice := slice, set := set, way := way, owner := o, dirty := false, strong := q.setMode slice set, reg := []
         stored := Memory.readN s.mem (64 * line) 64 } : L2Line)
    match (List.range q.ways).find? fun w => !(used.map (·.1)).contains w with
    | some way => (true, { s with l2 := mapSet s.l2 line (entry way) })
    | none =>
      let (d, s) := s.draw home o 2 slice 0
      let way := d.toNat % q.ways
      let s := match used.find? fun u => u.1 == way with
        | some u => s.evict home u.2
        | none => s
      (true, { s with l2 := mapSet s.l2 line (entry way) })

/-- Put a packet into the mesh at its sender's router (R308, R309), once a buffer of its input port is free (R310). -/
def State.send (s : State) (ag : Agent) (dx dy unit : Nat) (load : Load) (ptr : Word) (sync esc : Bool) (body : HomeBody := .none) :
    Nat × State :=
  let pk : Packet :=
    { id := s.stamp, part := ag.part, owner := ag.owner, cls := ag.cls, core := ag.core, slot := ag.slot.getD (8 + ag.queue),
      dx := dx, dy := dy, unit := unit, esc := esc && ag.cls != 0, poisoned := false, load := load, ptr := ptr,
      place := .enter 0 (routerOf ag.core) .core, since := s.stamp, sync := sync, answer := none, nacks := 0,
      via := none, origin := none, vacated := none, retried := false, causedBy := none, body := body, lost := [] }
  (s.stamp, { s.tick with packets := s.packets ++ [pk] })

/-- A RESEED of the agent's owner is being performed, the first of those that wait: the slices hold the owner's new requests, those of
the developments it waits for apart, and those of the RESEED itself, its page walks too (R240, R297). -/
def State.reseeding (s : State) (ag : Agent) : Bool :=
  ag.dev.isNone && match (s.part ag.part).reseeds.find? fun r => r.1 == ag.owner with
    | some r => !(r.2.1 == ag.core && (ag.slot == some r.2.2 || ag.walksFor == some r.2.2))
    | none => false

/-- A request goes to a slice (R308): the packet that the arbitration law acts on, whose identity it answers. -/
def sendSlice (ag : Agent) (slice line : Nat) (vault : Bool) (va : Word) (body : HomeBody) : M Nat := fun s =>
  if s.reseeding ag then .error (.wait .reseed) else
  let c := sliceCore (slice / 4) (slice % 4)
  let (id, s) := s.send ag (coreX c) (coreY c) (1 + slice % 4) (.home line vault) va ag.slot.isSome false body
  .ok (id, { s with sent := s.sent ++ [id] })
/-- The request for a line goes to its home slice (R234). -/
def sendHome (ag : Agent) (home line : Nat) (vault : Bool) (va : Word) (body : HomeBody) : M Nat := fun s =>
  sendSlice ag (homeSlice (s.part home) (64 * line)) line vault va body s

/-- Memory that belongs to a partition: PA[47:37] = 0 and the vault of one of its clusters (R227). -/
def Partition.owns (q : Partition) (pa : Nat) : Bool := pa < 2 ^ 37 && q.clusters.contains (pa / 2 ^ 31)
/-- Partition whose clusters hold a physical address (R227). -/
def State.partOfPa (s : State) (pa : Nat) : Option Nat :=
  (s.parts.find? fun (_, q) => q.owns pa).map (·.1)

/-- Slot number of a packet whose requester has been reset, or that has none (R329). -/
def detachedSlot : Nat := 14

/-- Lines that a change has written back to the vault: those that were dirty or registered and have left the L2, latent ones apart,
or that have become clean there, with the words recalled that were registered. Each with its slice. -/
def vaultWrites (before after : State) : List (Nat × Nat) :=
  before.l2.filterMap fun (line, e) =>
    let written := match mapGet? after.l2 line with
      | none => (e.dirty || !e.reg.isEmpty) && !after.latent.contains line
      | some x => !x.dirty && (e.dirty || x.reg.length < e.reg.length)
    if written then some (line, e.slice) else none

/-- A slice writes a line to its vault (R235): to a bank under its own cluster, or by the mesh to the slice of the same column in
the vault's cluster, in the class and for the owner of the request that caused it. -/
def State.sendWriteBack (s : State) (ag : Agent) (cause : Option Nat) (line slice : Nat) : State :=
  let here := sliceCore (slice / 4) (slice % 4)
  let cl := line / 2 ^ 25
  let mask := ((s.partOfPa (64 * line)).map fun p => (s.part p).mask).getD 0xF
  let col := if cl == slice / 4 then slice % 4 else fold mask (slice % 4)
  let c := sliceCore cl col
  let pk : Packet :=
    { id := s.stamp, part := ag.part, owner := ag.owner, cls := ag.cls, core := here, slot := detachedSlot, dx := coreX c, dy := coreY c
      unit := 1 + col, esc := false, poisoned := false, load := .writeBack line, ptr := 0
      place := if cl == slice / 4 then .bank cl (line / 64 % 64) else .enter 0 (routerOf here) .slice
      since := s.stamp, sync := true, answer := none, nacks := 0, via := if cl == slice / 4 then none else some slice
      origin := none, vacated := none, retried := false, causedBy := cause, body := .none, lost := [] }
  { s.tick with packets := s.packets ++ [pk] }

/-- The vault writes that a change of the L2 has caused go out, for the request that caused them where a packet carries it. -/
def State.sendWrites (s : State) (before : State) (ag : Agent) (cause : Option Nat) : State :=
  (vaultWrites before s).foldl (fun s x => s.sendWriteBack ag cause x.1 x.2) s

/-- Words of first-level caches that a change has performed at their home slices (R162, R237): those that were registered and are so to
another core or to none, by the core that owned them, with the line, its slice and the words. What a containment, a dropped line or a
destroyed partition throws away is not among them. -/
def ownedWritten (before after : State) : List (Nat × Nat × Nat × List Nat) :=
  before.l2.flatMap fun (line, e) =>
    if e.reg.isEmpty || after.latent.contains line || (after.partOfPa (64 * line)).isNone then []
    else
      let now := ((mapGet? after.l2 line).map (·.reg)).getD []
      let gone := e.reg.filter fun r => mapGet? now r.1 != some r.2 && !(after.core r.2).fenced
      (gone.foldl (fun cs r => setAdd cs r.2) []).map fun c => (c, line, e.slice, (gone.filter fun r => r.2 == c).map (·.1))

/-- The line whose home slice a request goes to. -/
def Packet.homeLine (pk : Packet) : Option Nat :=
  match pk.load with
  | .home line _ | .pref line _ _ => some line
  | .fabric r | .reply r _ => some (lineOf r.pa)
  | .writeBack _ | .recall _ _ | .tray _ | .channel _ _ | .notice _ | .away _ _ _ _ | .held _ | .keepAlive _ _ | .transit _ _ => none
/-- The request that a change has brought to a line's home slice: it is new, or it has been served there. -/
def recallCause (before after : State) (line : Nat) : Option Packet :=
  after.packets.find? fun p => p.homeLine == some line &&
    match before.packets.find? fun q => q.id == p.id with
    | none => true
    | some q => q.place != p.place && (match q.place with | .slice _ => true | _ => false)

/-- A home slice recalls words of a line from the core that owns them, on behalf of the request that needs them (R162, R237). -/
def State.sendRecall (s : State) (cause : Packet) (core line slice : Nat) (ws : List Nat) : State :=
  let here := sliceCore (slice / 4) (slice % 4)
  let pk : Packet :=
    { id := s.stamp, part := cause.part, owner := cause.owner, cls := cause.cls, core := here, slot := detachedSlot
      dx := coreX core, dy := coreY core, unit := 0, esc := false, poisoned := false, load := .recall line ws, ptr := 0
      place := .enter 0 (routerOf here) .slice, since := s.stamp, sync := true, answer := none, nacks := 0, via := some slice
      origin := cause.origin, vacated := none, retried := false, causedBy := some cause.id, body := .none, lost := [] }
  { s.tick with packets := s.packets ++ [pk] }

/-- A core writes words of a line back by itself: its slot's release, where one waits for it, or the core for its owner (R162). -/
def State.sendOwned (s : State) (before : State) (slot : Option (Nat × Nat)) (core line slice : Nat) (ws : List Nat) : State :=
  let c := sliceCore (slice / 4) (slice % 4)
  let mine := slot.filter fun x => x.1 == core
  let ag : Agent :=
    { core := core, slot := mine.map (·.2), queue := 6, part := before.partOf core, owner := before.ownerOf core
      cls := before.classOf core, smode := true, dev := none, dig := false, launch := 0, ports := 0 }
  let (id, u) := s.send ag (coreX c) (coreY c) (1 + slice % 4) (.home line false) 0 true false
    (.write (ws.map fun w => 16 * line + w) (4 * ws.length))
  match mine with
  | some (_, k) => u.modSlotAt core (slotNo k) fun t =>
      match t.out with
      | .reply ids => { t with out := .reply (ids ++ [id]) }
      | _ => t
  | none => u

/-- The owned words that a change has performed cross the mesh (R309, R321): recalled by the slice where a request to it has caused that,
else written back by their core, for the slot that has executed, if one has. DEDUCED, log 110. -/
def State.sendOwnedWords (u : State) (before : State) (slot : Option (Nat × Nat)) : State :=
  (ownedWritten before u).foldl (fun s x =>
    match recallCause before u x.2.1 with
    | some cause => s.sendRecall cause x.1 x.2.1 x.2.2.1 x.2.2.2
    | none => s.sendOwned before slot x.1 x.2.1 x.2.2.1 x.2.2.2) u

/-- On whose behalf the SMC and the scrubbers of a cluster write to the vaults: the partition's common owner, in the last class.
DEDUCED, log 96. -/
def smcAgent (p cluster : Nat) : Agent :=
  { core := 16 * cluster, slot := none, queue := 6, part := p, owner := 0, cls := 2, smode := true, dev := none, dig := false, launch := 0
    ports := 0 }

/-- Where an address is: memory of this package with the partition whose slices are its home, or a fabric address. -/
inductive Target where
  | here (pa own home : Nat) (device cached : Bool)
  | away (pkg pa : Nat)
  deriving DecidableEq, Repr

/-- The SMC's copy engine reads or writes a vault line: an access that the line's bank serves, and that ends there (R315).
DEDUCED, log 96. -/
def State.copyAccess (s : State) (p line : Nat) : State :=
  let cl := line / 2 ^ 25
  let here := sliceCore cl 0
  let ag := smcAgent p cl
  let pk : Packet :=
    { id := s.stamp, part := p, owner := ag.owner, cls := ag.cls, core := here, slot := detachedSlot, dx := coreX here, dy := coreY here
      unit := 1, esc := false, poisoned := false, load := .writeBack line, ptr := 0, place := .bank cl (line / 64 % 64), since := s.stamp
      sync := true, answer := none, nacks := 0, via := none, origin := none, vacated := none, retried := false, causedBy := none
      body := .none, lost := [] }
  { s.tick with packets := s.packets ++ [pk] }
/-- The copy engine reads or writes some vault lines in turn. -/
def State.copyAccesses (s : State) (p : Nat) (lines : List Nat) : State := lines.foldl (fun s l => s.copyAccess p l) s

/-- The request reaches its home slice, which then holds the line (R236); a victim is written to its vault on the request's
behalf (R235). -/
def touchHome (ag : Agent) (va : Word) (own home pa : Nat) (body : HomeBody) : M Unit := do
  let before ← look id
  let v ← look fun s => (s.l2Touch home own (lineOf pa)).1
  change fun s => (s.l2Touch home own (lineOf pa)).2
  let id ← sendHome ag home (lineOf pa) v va body
  change fun s => s.sendWrites before ag (some id)

/-- A request of an owner whose new seed is being installed is held (R297). -/
def holdReseed (ag : Agent) : M Unit := fun s => if s.reseeding ag then .error (.wait .reseed) else .ok ((), s)

/-! ### Records and developments met by an access -/

/-- The agent belongs to the chain of some development of the record (R253). -/
def Recipe.inChainOf (r : Recipe) (ag : Agent) : Bool :=
  match ag.dev with
  | some d => r.devs.all fun v => v.inChain d.root
  | none => false

/-- A read at the home slice meets the record of its line: a latent line is developed, a tile another chain is developing
is waited for, a verify run is no obstacle (R251, R253, R294). -/
def readRecord (ag : Agent) (home pa : Nat) : M Unit := fun s =>
  if s.reseeding ag then .error (.wait .reseed) else
  match (s.part home).recordOf (lineOf pa) with
  | none => .ok ((), s)
  | some r =>
    if s.latent.contains (lineOf pa) || (r.producing && !r.inChainOf ag) then .error (.develop r.id) else .ok ((), s)

/-- The innermost development of a record by a task, if the task is that development. -/
def Recipe.ownDev (r : Recipe) (ag : Agent) : Option Dev :=
  match ag.dev with
  | some d => if d.recipe == r.id then r.devs.head? else none
  | none => none

/-- What a write is to its home: an ordinary write, or a store of a development to its own tile, performed or compared. -/
inductive WriteKind where
  | plain | own | compare
  deriving DecidableEq, Repr

/-- Remove a record: its pins are dropped and its lines become ordinary lines (R250). -/
def State.dropRecord (s : State) (p rid : Nat) : State :=
  s.modPart p fun q => { q with recipes := q.recipes.filter (·.id != rid) }

/-- Fill a latent line that its own development begins to store: its other bytes are values the spec leaves open. -/
def State.openLatent (s : State) (line : Nat) : State :=
  if s.latent.contains line then
    { s with
      latent := setDel s.latent line
      mem := Memory.writeBytes s.mem (64 * line)
        ((List.range 64).map fun i => Config.freeLatentByte (s.freeCtr + i))
      memBad := s.memBad.filter fun w => w / 16 != line
      freeCtr := s.freeCtr + 64 }
  else s

/-- A write meets pins and records (R248, R250-R253): a pinned byte traps, a development writes only its own tile, and any
other write of a recorded tile cancels the record, developing it first when it has a latent line. -/
def writeRecord (ag : Agent) (home pa : Nat) (va : Word) : M WriteKind := fun s =>
  if s.reseeding ag then .error (.wait .reseed) else
  let q := s.part home
  let line := lineOf pa
  match ag.dev with
  | some d =>
    match q.recordOf line with
    | some r =>
      if r.id == d.recipe then
        match r.devs.head? with
        | some v =>
          if v.verify.isSome then .ok (.compare, s)
          else
            let s := s.openLatent line
            .ok (.own, s.modPart home fun q =>
              { q with recipes := q.recipes.map fun r' =>
                         if r'.id == r.id then { r' with devs := { v with written := setAdd v.written line } :: r'.devs.tail }
                         else r' })
        | none => .error .devFault
      else .error .devFault
    | none => .error .devFault
  | none =>
    if q.pinCount line != 0 then .error (.trap .pin va)
    else match q.recordOf line with
      | none => .ok (.plain, s)
      | some r =>
        if !r.devs.isEmpty || r.lines.any (fun l => s.latent.contains l.2) then .error (.develop r.id)
        else .ok (.plain, s.dropRecord home r.id)

/-! ### Translation -/

/-- What an access needs of its page (R226); a plain load or store may hit the first-level cache (R228). -/
inductive AccKind where
  | fetch | load | store | atomic | plainLoad | plainStore
  deriving DecidableEq, Repr

/-- log2 of the page size a region names (R223, R224). -/
def pageLog (region : Word) : Nat :=
  match (region.extractLsb' 16 3).toNat with
  | 0 => 12 | 1 => 16 | 2 => 21 | 3 => 25 | 4 => 30 | _ => 36

/-- Levels of the page-table tree (R224). -/
def walkLevels (p : Nat) : Nat := (56 - p + 8) / 9

/-- Bits of a word. -/
def field (w : Word) (lo len : Nat) : Nat := w.toNat / 2 ^ lo % 2 ^ len

/-- A non-leaf entry that is present (R225). DEDUCED, log 55. -/
def tablePresent (e : Word) : Bool := e.getLsbD 0 && field e 48 16 == 0 && field e 4 3 == 0
/-- A leaf entry that is present, in a region with a page size and a FABRIC bit (R225, R410). -/
def leafPresent (e : Word) (p : Nat) (fabric : Bool) : Bool :=
  e.getLsbD 0 && field e 4 3 == 0 && field e 12 (p - 12) == 0 &&
    (if fabric then field e 53 11 == 0 && field e 40 13 ≤ 4607 else field e 48 16 == 0)

/-- The cluster's page walker: on behalf of the partition's common owner (R224), with no slot of its own. -/
def Agent.walker (ag : Agent) : Agent := { ag with owner := 0, slot := none, queue := 7, walksFor := ag.slot }

/-- Places of the present entries of a table, found from the bytes memory lists. -/
def State.tableEntries (s : State) (table : Nat) : List Nat :=
  let ps := (s.mem.filter fun c => table ≤ c.1 && c.1 < table + 4096).foldl (fun l c => setAdd l (c.1 / 8 * 8)) []
  ps.filter fun a => Memory.read s.mem a &&& 1 != 0

/-- The OWNER of the first leaf for a physical address under a table of level `n`, its pages of 2^psz bytes (R225). -/
def State.leafOwner (s : State) (psz pa : Nat) : Nat → Nat → Option Nat
  | 0, _ => none
  | n + 1, table => (s.tableEntries table).findSome? fun a =>
      let e := BitVec.ofNat 64 (Memory.readN s.mem a 8)
      if n = 0 then
        if leafPresent e psz false && field e psz (48 - psz) == pa / 2 ^ psz then some (field e 8 4) else none
      else if tablePresent e then State.leafOwner s psz pa n (field e 12 36 * 4096)
      else none

/-- The OWNER of the page that holds a physical address in its partition's own tables (R236), which a request that names no page of the
partition takes from there: of the first region that maps it, else 0. DEDUCED, log 105. -/
def State.pageOwner (s : State) (home pa : Nat) : Nat :=
  ((s.part home).raf.toList.findSome? fun rg =>
    if rg.getLsbD 0 && !rg.getLsbD 10 then s.leafOwner (pageLog rg) pa (walkLevels (pageLog rg)) (field rg 24 36 * 4096) else none).getD 0

/-- The walker reads one entry of 8 bytes as a physical read of owner 0 at its home slice, recalling owned words
(R224, R237). Its request enters the mesh by the router of the core that misses. DESIGN CHOICE, log 113. -/
def walkRead (ag : Agent) (pa : Nat) (va : Word) : M Word := do
  let ok ← look fun s => (s.part ag.part).owns pa
  if !ok then halt (.fault (.foreignFrame pa))
  readRecord ag ag.part pa
  touchHome ag.walker va 0 ag.part pa (.read 8)
  change fun s => s.recall (lineOf pa) (wordsOf pa 8)
  let bad ← look fun s => (wordsOf pa 8).any fun w => s.memBad.contains (16 * lineOf pa + w)
  if bad then trap .mce va
  look fun s => BitVec.ofNat 64 (Memory.readN s.mem pa 8)

/-- Walk the tree from a table of level `n` down; none where an entry is absent (R224, R225). -/
def walk (ag : Agent) (va : Word) (p : Nat) (fabric : Bool) : Nat → Nat → M (Option Word)
  | 0, _ => pure none
  | n + 1, table => do
    let idx := va.toNat % 2 ^ 56 / 2 ^ (p + 9 * n) % 512
    let e ← walkRead ag (table + 8 * idx) va
    if n = 0 then pure (if leafPresent e p fabric then some e else none)
    else if tablePresent e then walk ag va p fabric n (field e 12 36 * 4096)
    else pure none

/-- The cluster of a core. -/
def State.clusterAt (s : State) (c : Nat) : Cluster := mapGet s.clusters c Cluster.reset

/-- Put a translation into a cluster TLB (R228): 64 entries for the large pages, 512 sets of 8 ways for the others. The set of a
page, and the entry a full place gives up, are free values (log 6). -/
def State.tlbInsert (s : State) (cl base : Nat) (e : TlbEntry) : State :=
  let t := (s.clusterAt cl).tlb
  let big := 30 ≤ e.psize
  let kind := t.filter fun x => (30 ≤ x.2.psize) == big
  let same := if big || kind.length < 8 then kind
    else kind.filter fun x => Config.freeTlbSet x.1 % 512 == Config.freeTlbSet base % 512
  let full := (if big then 64 else 8) ≤ same.length
  let t := if full then
      match same[Config.freeVictim s.freeCtr % same.length]? with
      | some v => mapErase t v.1
      | none => t
    else t
  { s with
    clusters := mapSet s.clusters cl { s.clusterAt cl with tlb := mapSet t base e }
    freeCtr := s.freeCtr + 1 }

/-- Translate a virtual address: the cluster TLB, else the walk; an absent translation faults PAGE and a region that is
not valid PROT (R223, R228). -/
def translate (ag : Agent) (va : Word) : M TlbEntry := do
  let rg ← look fun s => (s.part ag.part).raf[(⟨field va 56 4, Nat.mod_lt _ (by decide)⟩ : Fin 16)]
  check (rg.getLsbD 0) .prot va
  let p := pageLog rg
  let base := va.toNat / 2 ^ p * 2 ^ p
  let hit ← look fun s => mapGet? (s.clusterAt (clusterOf ag.core)).tlb base
  match hit with
  | some e => pure e
  | none => do
    let leaf ← walk ag va p (rg.getLsbD 10) (walkLevels p) (field rg 24 36 * 4096)
    match leaf with
    | none => trap .page va
    | some l => do
      let e : TlbEntry := { region := rg, leaf := l, psize := p }
      change fun s => s.tlbInsert (clusterOf ag.core) base e
      pure e

/-- The translation a cluster TLB holds for an address (R228). -/
def State.tlbEntry (s : State) (part core : Nat) (va : Word) : Option TlbEntry :=
  let rg := (s.part part).raf[(⟨field va 56 4, Nat.mod_lt _ (by decide)⟩ : Fin 16)]
  mapGet? (s.clusterAt (clusterOf core)).tlb (va.toNat / 2 ^ pageLog rg * 2 ^ pageLog rg)

/-- The rights of a region and a leaf for a kind of access (R226). -/
def allows (smode : Bool) (e : TlbEntry) (k : AccKind) : Bool :=
  let b := if smode then 4 else 1
  let rd := e.region.getLsbD b && e.leaf.getLsbD 1
  let wr := e.region.getLsbD (b + 1) && e.leaf.getLsbD 2 && (smode || !e.region.getLsbD 9)
  let ex := e.region.getLsbD (b + 2) && e.leaf.getLsbD 3
  match k with
  | .fetch => ex
  | .load | .plainLoad => rd
  | .store | .plainStore => wr
  | .atomic => rd && wr

/-- The rights check of R226, owner included. -/
def checkRights (ag : Agent) (va : Word) (e : TlbEntry) (k : AccKind) : M Unit :=
  check (allows ag.smode e k && (field e.leaf 8 4 == ag.owner || field e.leaf 8 4 == 0)) .prot va

/-- The domain tag of a partition (R408). -/
def State.dtag (s : State) (p : Nat) : Nat := field (mapGet s.dtags p 0) 0 16
/-- The partition's vaults accept fabric requests (R408). -/
def State.exports (s : State) (p : Nat) : Bool := (mapGet s.dtags p 0).getLsbD 16

/-- The target serves a fabric request of a domain tag at a remote PA (R412): the partition that holds it. -/
def State.fabricHome (s : State) (dtag pa : Nat) : Option Nat :=
  match s.partOfPa pa with
  | some p => if s.exports p && s.dtag p == dtag && dtag != 0 then some p else none
  | none => none

/-- Where the address of a translated access lies (R227, R410): a fabric page that names this package is served here, but a request
that R412 refuses is one for which the answer comes back as another package's would. Fetches and constant reads take no fabric page
(R411). DEDUCED, log 72. -/
def locate (ag : Agent) (va : Word) (e : TlbEntry) : M Target := do
  let off := va.toNat % 2 ^ e.psize
  let own := field e.leaf 8 4
  if e.region.getLsbD 10 then
    let pkg := field e.leaf 40 13
    let pa := field e.leaf e.psize (40 - e.psize) * 2 ^ e.psize + off
    let me ← look (·.pkgid)
    if BitVec.ofNat 64 pkg = me then
      let h ← look fun s => s.fabricHome (s.dtag ag.part) pa
      match h with
      | some p => do
        let own ← look (·.pageOwner p pa)
        pure (.here pa own p false false)
      | none => pure (.away pkg pa)
    else pure (.away pkg pa)
  else
    let pa := field e.leaf e.psize (48 - e.psize) * 2 ^ e.psize + off
    let ok ← look fun s => (s.part ag.part).owns pa
    let dev := e.region.getLsbD 11
    if ok then pure (.here pa own ag.part dev (!dev))
    else if 2 ^ 37 ≤ pa then halt (.fault (.device pa))
    else halt (.fault (.foreignFrame pa))

/-! ### First-level caches -/

/-- The line of memory as performed, with its poisoned words. -/
def State.performedLine (s : State) (line : Nat) : Vec × BitVec 16 :=
  (BitVec.ofNat 512 (Memory.readN s.mem (64 * line) 64),
   allWords.foldl (fun m w => maskSet m w (s.memBad.contains (16 * line + w))) 0)

/-- Write back every owned word of one L1 line of a core; the words stay, unowned (R162). -/
def State.writeBackLine (s : State) (core va : Nat) : State :=
  match mapGet? (s.core core).l1d va with
  | none => s
  | some l =>
    let ws := allWords.filter fun w => l.owned.getLsbD w
    let older := s.olderOf l.pa (ws.map fun w => (w, core)) ((mapGet? s.l2 l.pa).bind (·.older))
    let s := ws.foldl (fun s w => s.performWord l.pa w (lineWord l.data w) (l.bad.getLsbD w)) s
    let s := match mapGet? s.l2 l.pa with
      | some e =>
        if ws.isEmpty then s
        else ({ s with
          l2 := mapSet s.l2 l.pa { e with reg := e.reg.filter fun r => !(r.2 == core && ws.contains r.1), older := older } }).markDirty l.pa
      | none => s
    s.modCore core fun k => { k with l1d := mapSet k.l1d va { l with owned := 0 } }

/-- Write back and invalidate one L1 line (R161, R229). -/
def State.purgeLine (s : State) (core va : Nat) : State :=
  (s.writeBackLine core va).modCore core fun k => { k with l1d := mapErase k.l1d va }

/-- Write back every owned word of a core (R162: a release). -/
def State.writeBackAll (s : State) (core : Nat) : State :=
  ((s.core core).l1d.foldl (fun s e => s.writeBackLine core e.1) s).dropOlder fun o => o.writer == core

/-- Make room in the set of a virtual line (R161): the victim way is not architectural (log 6). -/
def State.l1Room (s : State) (core va : Nat) : State :=
  let ways := (s.core core).l1d.filter fun e => e.1 % 128 == va % 128
  if ways.length < 4 then s
  else match ways[Config.freeVictim s.freeCtr % 4]? with
    | some v => { s.purgeLine core v.1 with freeCtr := s.freeCtr + 1 }
    | none => s

/-- n bytes at an offset of a line, as a number. -/
def lineBytes (v : Vec) (off n : Nat) : Nat := v.toNat / 2 ^ (8 * off) % 2 ^ (8 * n)

/-- The words of a range are valid in the L1 line. -/
def L1Line.holds (l : L1Line) (pa n : Nat) : Bool := (wordsOf pa n).all fun w => l.valid.getLsbD w

/-- Translate for an access: a plain load or store that hits the L1 needs no translation beyond the one its line is held under;
every other access is translated at the cluster TLB (R161, R228, R229). -/
def translateFor (ag : Agent) (va : Word) (n : Nat) (k : AccKind) : M TlbEntry := do
  let l ← look fun s => mapGet? (s.core ag.core).l1d (va.toNat / 64)
  let hit := l.bind fun l =>
    match k with
    | .plainLoad => if l.holds va.toNat n then l.tr else none
    | .plainStore => l.tr
    | .fetch | .load | .store | .atomic => none
  match hit with
  | some e => pure e
  | none => translate ag va

/-- The data of a fill: a line's performed words, or, of those a store has replaced that no release of its core has followed, the older
ones, by a free choice (R266). A core that has taken the performed words takes nothing older later. DEDUCED, log 111. -/
def State.olderFill (s : State) (core line : Nat) (data : Vec) : Vec × State :=
  match (mapGet? s.l2 line).bind (·.older) with
  | none => (data, s)
  | some o =>
    if o.writer == core || o.barred.contains core then (data, s)
    else
      let u := { s with freeCtr := s.freeCtr + 1 }
      if Config.freeStale s.freeCtr then (o.words.foldl (fun d w => setLineWord d w.1 w.2) data, u) else (data, u.barOlder core line)

/-- Fill a line into a core's L1 with its performed words; words that are valid there stay (R270), and a second virtual
address of the line is purged first (R161). -/
def State.l1Fill (s : State) (part core va line : Nat) : State :=
  let s := match (s.core core).l1Find line with
    | some (v, _) => if v == va then s else s.purgeLine core v
    | none => s
  let (fresh, bad) := s.performedLine line
  let (data, s) := s.olderFill core line fresh
  match mapGet? (s.core core).l1d va with
  | some l =>
    let d := allWords.foldl (fun d w => if l.valid.getLsbD w then setLineWord d w (lineWord l.data w) else d) data
    let b := allWords.foldl (fun m w => if l.valid.getLsbD w then maskSet m w (l.bad.getLsbD w) else m) bad
    s.modCore core fun k => { k with l1d := mapSet k.l1d va { l with data := d, bad := b, valid := 0xFFFF } }
  | none =>
    let s := s.l1Room core va
    s.modCore core fun k =>
      { k with l1d := mapSet k.l1d va { pa := line, tr := s.tlbEntry part core (BitVec.ofNat 64 (64 * va)), data := data
                                        valid := 0xFFFF, owned := 0, bad := bad } }

/-- A plain read of n bytes within one line (R161, R162, R257): a hit may be stale; a miss fills from the home slice. -/
def plainRead (ag : Agent) (va : Word) (pa own home n : Nat) : M Nat := do
  let vl := va.toNat / 64
  let hit ← look fun s => (mapGet? (s.core ag.core).l1d vl).filter (·.holds pa n)
  match hit with
  | some _ => pure ()
  | none => do
    readRecord ag home pa
    touchHome ag va own home pa (.fill ag.core vl true)
    change fun s => s.l1Fill ag.part ag.core vl (lineOf pa)
  let l ← look fun s => mapGet? (s.core ag.core).l1d vl
  match l with
  | none => pure 0
  | some l =>
    if (wordsOf pa n).any fun w => l.bad.getLsbD w then trap .mce va
    pure (lineBytes l.data (pa % 64) n)

/-- A home read of n bytes within one line (R237, R257): owned words are recalled first. -/
def homeRead (ag : Agent) (va : Word) (pa own home n : Nat) : M Nat := do
  readRecord ag home pa
  touchHome ag va own home pa (.read n)
  change fun s => (s.recall (lineOf pa) (wordsOf pa n)).barOlder ag.core (lineOf pa)
  let bad ← look fun s => (wordsOf pa n).any fun w => s.memBad.contains (16 * lineOf pa + w)
  if bad then trap .mce va
  look fun s => Memory.readN s.mem pa n

/-- A read of a DEVICE region that names memory: a home read without any cache, which goes by the home slice's router to the vault
(R223, R257, R315). DEDUCED, log 73. -/
def deviceRead (ag : Agent) (va : Word) (pa home n : Nat) : M Nat := do
  readRecord ag home pa
  let _ ← sendHome ag home (lineOf pa) true va (.read n)
  change fun s => (s.recall (lineOf pa) (wordsOf pa n)).barOlder ag.core (lineOf pa)
  let bad ← look fun s => (wordsOf pa n).any fun w => s.memBad.contains (16 * lineOf pa + w)
  if bad then trap .mce va
  look fun s => Memory.readN s.mem pa n

/-- A read through the cluster constant cache (R187, R238). -/
def constRead (ag : Agent) (va : Word) (pa own home n : Nat) : M Nat := do
  let cl := clusterOf ag.core
  let hit ← look fun s => mapGet? (s.clusterAt cl).cc (lineOf pa)
  match hit with
  | some l => pure (lineBytes l.data (pa % 64) n)
  | none => do
    readRecord ag home pa
    touchHome ag va own home pa (.read 64)
    change fun s => s.recall (lineOf pa) allWords
    let bad ← look fun s => (wordsOf pa n).any fun w => s.memBad.contains (16 * lineOf pa + w)
    if bad then trap .mce va
    -- a line with a poisoned word is not kept: what R238 evicts is not architectural
    let keep ← look fun s => (s.performedLine (lineOf pa)).2 == 0
    if keep then change fun s =>
      let c := s.clusterAt cl
      let cc := if c.cc.length < 1024 then c.cc
        else match c.cc[Config.freeVictim s.freeCtr % 1024]? with
          | some v => mapErase c.cc v.1
          | none => c.cc
      { s with
        clusters := mapSet s.clusters cl
          { c with cc := mapSet cc (lineOf pa) { pa := lineOf pa, data := (s.performedLine (lineOf pa)).1, tr := none } }
        freeCtr := s.freeCtr + 1 }
    look fun s => Memory.readN s.mem pa n

/-! ### Writes -/

/-- Bytes to write: offset from the access address, and value. -/
abbrev ByteMap := List (Nat × Byte)

/-- Add the digest terms of covered writes, given as (virtual address, byte) (R350, R351). -/
def State.addDigest (s : State) (ag : Agent) (cells : List Host.Cell) : State :=
  if ag.dig && ag.dev.isNone && !cells.isEmpty then
    s.modPart ag.part fun q =>
      match mapGet? q.launches ag.launch.toNat with
      | some l =>
        let kd : BitVec 128 := l.words.getD 8 0 ++ l.words.getD 7 0
        { q with launches := mapSet q.launches ag.launch.toNat { l with digest := l.digest + digestOf kd cells } }
      | none => q
  else s

/-- Words of a line that a set of written offsets covers whole. -/
def wholeWords (pa : Nat) (bs : ByteMap) : List Nat :=
  allWords.filter fun w => (List.range 4).all fun i => bs.any fun b => pa % 64 + b.1 == 4 * w + i
/-- Words of a line that a set of written offsets touches. -/
def touchedWords (pa : Nat) (bs : ByteMap) : List Nat :=
  allWords.filter fun w => bs.any fun b => (pa % 64 + b.1) / 4 == w

/-- The data of a request that carries some bytes to a line. -/
def writeBody (pa : Nat) (bs : ByteMap) : HomeBody := .write ((touchedWords pa bs).map fun w => 16 * lineOf pa + w) bs.length

/-- Compare the bytes a verify run would store with the tile's (R294). -/
def State.compareBytes (s : State) (home pa : Nat) (bs : ByteMap) : State :=
  let same := bs.all fun b => Memory.read s.mem (pa + b.1) == b.2
  if same then s
  else s.modPart home fun q =>
    { q with recipes := q.recipes.map fun r =>
               if r.lines.any (fun l => l.2 == lineOf pa) then
                 { r with devs := r.devs.map fun d => { d with verify := d.verify.map fun v => { v with differ := true } } }
               else r }

/-- A write performed at the home slice itself (R257): owned words are recalled, whole words become good (R180), and no older value of the
line is read any more. -/
def State.writeHome (s : State) (pa : Nat) (bs : ByteMap) : State :=
  let s := (s.recall (lineOf pa) (touchedWords pa bs)).modOlder (lineOf pa) fun _ => none
  let whole := wholeWords pa bs
  ({ s with
    mem := Memory.writeCells s.mem (bs.map fun (b : Nat × Byte) => (pa + b.1, b.2))
    memBad := s.memBad.filter fun x => !(x / 16 == lineOf pa && whole.contains (x % 16)) }).markDirty (lineOf pa)

/-- A page migration holds writes to its page (R232). -/
def holdMigration (ag : Agent) (va : Word) (psize : Nat) : M Unit := fun s =>
  match (s.part ag.part).migrating with
  | some base => if va.toNat / 2 ^ psize == base.toNat / 2 ^ psize then .error (.wait .migration) else .ok ((), s)
  | none => .ok ((), s)

/-- A core's first-level cache gives up its copies of some words of a line: its later plain loads return at least what the
core's own slots have written at the home slice (R266). DEDUCED, log 41. -/
def State.l1Forget (s : State) (core line : Nat) (ws : List Nat) : State :=
  match (s.core core).l1Find line with
  | none => s
  | some (va, l) =>
    let off := fun (m : BitVec 16) => ws.foldl (fun m w => maskSet m w false) m
    s.modCore core fun k => { k with l1d := mapSet k.l1d va { l with valid := off l.valid, owned := off l.owned, bad := off l.bad } }

/-- After a write at the home slice: a slot's own write leaves no older copy in its core's L1 (R266); any other agent's
updates no L1 (R193, R270). -/
def State.l1After (s : State) (ag : Agent) (line : Nat) (ws : List Nat) : State :=
  if ag.slot.isSome then s.l1Forget ag.core line ws else s

/-- Write bytes within one line at the home slice (STL, engine writes, atomics). -/
def homeWrite (ag : Agent) (va : Word) (pa own home : Nat) (bs : ByteMap) : M Unit := do
  let k ← writeRecord ag home pa va
  touchHome ag va own home pa (writeBody pa bs)
  match k with
  | .compare => change fun s => (s.recall (lineOf pa) allWords).compareBytes home pa bs
  | .plain | .own => change fun s => (s.writeHome pa bs).l1After ag (lineOf pa) (touchedWords pa bs)

/-- Register words of a line to a core (R162, R258): the slice recalls them from any other owner, and the L1 merges the
stored bytes into the performed value of each word. -/
def State.registerWords (s : State) (core va pa : Nat) (bs : ByteMap) : State :=
  let line := lineOf pa
  let ws := touchedWords pa bs
  let others := match mapGet? s.l2 line with
    | some e => ws.filter fun w => mapGet? e.reg w != some core
    | none => ws
  let s := s.recall line others
  match mapGet? (s.core core).l1d va with
  | none => s
  | some l =>
    let whole := wholeWords pa bs
    let fresh := (s.performedLine line)
    let base := others.foldl (fun d w => setLineWord d w (lineWord fresh.1 w)) l.data
    let bad := others.foldl (fun m w => maskSet m w (fresh.2.getLsbD w)) l.bad
    let data := bs.foldl (fun (d : Vec) b =>
      let off := pa % 64 + b.1
      (d &&& ~~~(BitVec.ofNat 512 (0xFF * 256 ^ off))) ||| BitVec.ofNat 512 (b.2.toNat * 256 ^ off)) base
    let bad := whole.foldl (fun m w => maskSet m w false) bad
    let owned := ws.foldl (fun m w => maskSet m w true) l.owned
    let s := s.modCore core fun k =>
      { k with l1d := mapSet k.l1d va { l with data := data, bad := bad, owned := owned, valid := l.valid ||| owned } }
    match mapGet? s.l2 line with
    | some e => { s with l2 := mapSet s.l2 line { e with reg := ws.foldl (fun r w => mapSet r w core) e.reg } }
    | none => s

/-- A global store within one line (R162): fill, write the L1 copy, register at the home slice. -/
def plainWrite (ag : Agent) (va : Word) (pa own home : Nat) (bs : ByteMap) : M Unit := do
  if bs.isEmpty then pure () else do
    let k ← writeRecord ag home pa va
    touchHome ag va own home pa (.fill ag.core (va.toNat / 64) false)
    match k with
    | .compare => change fun s => (s.recall (lineOf pa) allWords).compareBytes home pa bs
    | .plain | .own => change fun s =>
        let vl := va.toNat / 64
        let s := match mapGet? (s.core ag.core).l1d vl with
          | some _ => s
          | none => s.l1Fill ag.part ag.core vl (lineOf pa)
        s.registerWords ag.core vl pa bs

/-- A write to a DEVICE region that names memory (R223, R315). DEDUCED, log 73. -/
def deviceWrite (ag : Agent) (va : Word) (pa home : Nat) (bs : ByteMap) : M Unit := do
  let k ← writeRecord ag home pa va
  let _ ← sendHome ag home (lineOf pa) true va (writeBody pa bs)
  match k with
  | .compare => change fun s => (s.recall (lineOf pa) allWords).compareBytes home pa bs
  | .plain | .own => change fun s => (s.writeHome pa bs).l1After ag (lineOf pa) (touchedWords pa bs)

end Sys2Proof.Machine
end

