-- ==== Sys2Proof/Machine/Access.lean ====
section
/-!
DEFINITION. One access through a pointer: the checks of R24 and R181 in their order, the tray with its frames, full/empty
words and system area (R150, R151, R155-R160), peer trays (R160, R182, R183), fabric pages (R409-R413), and the reads and
writes of the elements an instruction names. Also the release and the acquire (R162, R163, R182, R259) and the fetch of a
half-word (R26, R164).
-/
namespace Sys2Proof.Machine

/-! ### The agent of a slot -/

/-- The launch a core is bound to. -/
def State.launchOf (s : State) (c : Nat) : Option Launch :=
  match (s.core c).bound with
  | some b => mapGet? (s.part b.part).launches b.launch.toNat
  | none => none
/-- The Relran ports its launch names (R378). -/
def State.portsOf (s : State) (c : Nat) : Nat :=
  match s.launchOf c with
  | some l => field (l.words.getD 6 0) 0 36
  | none => 0
/-- The development a slot works for. -/
def TaskKind.devTask : TaskKind → Option DevTask
  | .dev d => some d
  | .lane | .record => none

/-- On whose behalf the slot being executed makes its accesses (R24). -/
def State.agent (s : State) : Agent :=
  { core := s.curCore, slot := some s.curSlot.val, queue := 0, part := s.myPartNo, owner := s.myOwner, cls := s.classOf s.curCore
    smode := s.me.sw.s, dev := s.me.kind.devTask, dig := (s.myCore.binds[s.curSlot]).dig, launch := s.me.launch
    ports := s.portsOf s.curCore }

/-! ### The tray -/

/-- Words of the tray that n bytes at an offset touch. -/
def trayWords (off n : Nat) : List Nat := (List.range ((off % 4 + n + 3) / 4)).map fun i => off / 4 + i

/-- The 1,536 bytes of a parked state (R159). -/
def savedBytes (sv : Saved) : List Byte :=
  let t := sv.state
  let crs := [t.sst, t.epc, t.ecause, t.eaddr, t.uvb, t.uepc, t.ucause, t.uaddr, t.utoken, t.lc, t.lstart, t.lend,
    t.alost.setWidth 64, t.lane.setWidth 64, t.lcount.setWidth 64, t.launch.setWidth 64, t.sw.owner.setWidth 64, t.gm]
  let marks := (List.range 16).foldl (fun a i => if i != 0 && (t.marks[i]?).join.isSome then a + 2 ^ i else a) 0
  bytesOf t.pc.toNat 8 ++ bytesOf t.p.toNat 4 ++ bytesOf t.sw.toWord.toNat 4 ++
    (t.x.toList.tail.flatMap fun x => bytesOf x.toNat 8) ++ (t.v.toList.flatMap fun v => bytesOf v.toNat 64) ++
    (crs.flatMap fun c => bytesOf c.toNat 8) ++ bytesOf t.sr.toNat 8 ++ bytesOf marks 2 ++ bytesOf sv.slot 2 ++
    bytesOf sv.depth 4 ++ List.replicate 216 0

/-- The 656 bytes of a task record on the deque (R81, R340). -/
def recordBytes (r : TaskRec) : List Byte :=
  bytesOf r.pc.toNat 8 ++ bytesOf r.p.toNat 4 ++ bytesOf r.key.toNat 2 ++ bytesOf r.depth 1 ++ bytesOf r.type.toNat 1 ++
    (r.x.toList.flatMap fun x => bytesOf x.toNat 8) ++ (r.v.toList.flatMap fun v => bytesOf v.toNat 64)

/-- What a park entry holds of a request, as numbers. -/
def parkNumbers (pk : Packet) : List Nat :=
  match pk.load with
  | .tray (.fe op off b d) => [pk.core, pk.slot, match op with | .ldfe => 0 | .stfe => 1 | .ldff => 2, off, b.toNat, d.toNat]
  | _ => []

/-- A byte of the system area as an S-mode load sees it (R158): records from the bottom of the deque up, packets from the oldest, the
save area as R159 lays it out, and free bytes of their contents for the staging and park entries, whose layout the spec does not give.
DESIGN CHOICE, log 8. -/
def State.systemByte (s : State) (k : Core) (off : Nat) : Byte :=
  let at' := fun (first pitch : Nat) => ((off - first) / pitch, (off - first) % pitch)
  let free := fun (place : Option (List Nat)) (i : Nat) => Config.freeSystemByte (place.getD []) i
  if off < 0x5E000 then
    let (n, i) := at' 0x58000 768
    match k.deque.reverse[n]? with
    | some r => if i < 656 then (recordBytes r).getD i 0 else free none i
    | none => free none i
  else if off < 0x5F000 then
    let (e, i) := at' 0x5E000 256
    match (k.fifos[(⟨e % 16, Nat.mod_lt _ (by decide)⟩ : Fin 16)])[i / 64]? with
    | some (v, _) => (bytesOf v.toNat 64).getD (i % 64) 0
    | none => free none (i % 64)
  else if off < 0x5F400 then
    let (n, i) := at' 0x5F000 64
    free (k.staging[n]?.map fun g => [g.src.toNat, g.dst.toNat, g.rb, g.rows, (g.sstr % 2 ^ 32).toNat, if g.marked then 1 else 0]) i
  else if off < 0x5F600 then
    let (n, i) := at' 0x5F400 32
    free ((k.park[n]?.bind fun id => s.packets.find? fun p => p.id == id).map parkNumbers) i
  else if off < 0x5FC00 then
    match k.saved with
    | some sv => (savedBytes sv).getD (off - 0x5F600) 0
    | none => 0
  else free none (off - 0x5FC00)

/-- Bytes of a core's tray. -/
def State.trayBytes (s : State) (c : Nat) (offs : List Nat) : List Byte :=
  let k := s.core c
  offs.map fun o => if o < Config.systemArea then Memory.read k.tray o else s.systemByte k o

/-- The older values of tray words that another core's store replaces may still be read (R271). -/
def Core.noteOld (k before : Core) (cells : List Host.Cell) : Core :=
  { k with trayOld := (cells.foldl (fun ws c => setAdd ws (c.1 / 4)) []).foldl (fun m w =>
      if before.trayBad.contains w then m else mapSet m w (BitVec.ofNat 32 (Memory.readN before.tray (4 * w) 4))) k.trayOld }

/-- Bytes of a core's tray that a read takes: a plain read of words that other cores have written since the last acquire may take
the older ones, by a free choice (R265, R271). DEDUCED, log 111. -/
def State.trayTaken (s : State) (c : Nat) (plain : Bool) (offs : List Nat) : List Byte × State :=
  let old := (s.core c).trayOld
  if !plain || !offs.any fun o => (mapGet? old (o / 4)).isSome then (s.trayBytes c offs, s)
  else
    let u := { s with freeCtr := s.freeCtr + 1 }
    if Config.freeStale s.freeCtr then
      (offs.map fun o => match mapGet? old (o / 4) with
        | some v => v.extractLsb' (8 * (o % 4)) 8
        | none => (s.trayBytes c [o]).headD 0, u)
    else (s.trayBytes c offs, u)

/-- The endpoint and place in its FIFO of a byte of the system area (R158). -/
def fifoPlace (off : Nat) : Option (Fin 16 × Nat) :=
  if 0x5E000 ≤ off && off < 0x5F000 then some (⟨(off - 0x5E000) / 256 % 16, Nat.mod_lt _ (by decide)⟩, (off - 0x5E000) % 256 / 64) else none
/-- The byte belongs to a FIFO packet whose data is poisoned (R180, R313). -/
def Core.fifoBad (k : Core) (off : Nat) : Bool := (fifoPlace off).any fun x => ((k.fifos[x.1])[x.2]?).any (·.2)

/-- The place of a byte in a deque record of the system area: the record from the bottom, and the word of it (R158). -/
def recordPlace (off : Nat) : Option (Nat × Nat) :=
  if 0x58000 ≤ off && off < 0x5E000 && (off - 0x58000) % 768 < 656 then some ((off - 0x58000) / 768, (off - 0x58000) % 768 / 4) else none
/-- The word of the save area that a byte lies in (R158). -/
def savePlace (off : Nat) : Option Nat := if 0x5F600 ≤ off && off < 0x5FC00 then some ((off - 0x5F600) / 4) else none
/-- The byte belongs to a poisoned word of a deque record or a parked state (R180). -/
def Core.recordBad (k : Core) (off : Nat) : Bool :=
  ((recordPlace off).any fun x => (k.deque.reverse[x.1]?).any fun r => r.bad.contains x.2) ||
    ((savePlace off).any fun w => k.saved.any fun sv => sv.bad.contains w)

/-- Any of some tray bytes lies in a poisoned word. -/
def Core.trayPoisoned (k : Core) (offs : List Nat) : Bool :=
  offs.any fun o => k.trayBad.contains (o / 4) || k.fifoBad o || k.recordBad o

/-- Frames a staging entry covers (R176). -/
def Staging.covers (g : Staging) (frame : Nat) : Bool :=
  g.dst.toNat % 2 ^ 19 / 1024 ≤ frame && frame < g.dst.toNat % 2 ^ 19 / 1024 + g.rows * g.rb / 1024

/-- Remove the staging entries of frames that are written (R176). -/
def Core.unstage (k : Core) (frames : List Nat) : Core :=
  { k with staging := k.staging.filter fun g => !frames.any g.covers }

/-- Write bytes of a tray: the system area discards them (R158), whole words become good (R180), staging entries of the
frames are removed (R176). -/
def Core.trayWrite (k : Core) (cells : List Host.Cell) : Core :=
  let cells := cells.filter fun c => c.1 < Config.systemArea
  let whole := fun (w : Nat) => (List.range 4).all fun i => cells.any fun c => c.1 == 4 * w + i
  let k := k.unstage (cells.map fun c => c.1 / 1024)
  { k with
    tray := Memory.writeCells k.tray cells, trayBad := k.trayBad.filter fun w => !whole w
    trayOld := k.trayOld.filter fun o => !cells.any fun c => c.1 / 4 == o.1 }

/-! ### Full/empty words (R155, R156) -/

/-- The word is full. -/
def Core.isFull (k : Core) (w : Nat) : Bool := k.fe.contains w
/-- Set its state. -/
def Core.setFull (k : Core) (w : Nat) (b : Bool) : Core :=
  { k with fe := if b then setAdd k.fe w else setDel k.fe w }
/-- The state an operation waits for (R190). -/
def FeOp.wants : FeOp → Bool
  | .ldfe | .ldff => true
  | .stfe => false
/-- The word as a number. -/
def Core.trayWord (k : Core) (w : Nat) : HWord := BitVec.ofNat 32 (Memory.readN k.tray (4 * w) 4)

/-- Perform a full/empty operation whose condition holds: the core after it (R190). -/
def Core.feDo (k : Core) (op : FeOp) (w : Nat) (b : HWord) : Core :=
  match op with
  | .ldfe => k.setFull w false
  | .ldff => k
  | .stfe => (k.trayWrite ((bytesOf b.toNat 4).zipIdx.map fun (x, i) => (4 * w + i, x))).setFull w true

/-! ### The place of a pointer -/

/-- Where an access goes. -/
inductive Spot where
  | mem (va : Word) (psize : Nat) (t : Target)
  | own (off : Nat)
  | peer (pos off : Nat)
  deriving DecidableEq, Repr

/-- The core that holds a position (R338). -/
def State.coreOfPos (s : State) (p pos : Nat) : Option Nat := mapGet? (s.part p).posMap pos
/-- The core a packet is addressed to. -/
def Packet.target (pk : Packet) : Nat := coreAtXY pk.dx pk.dy
/-- The position a request to a core names (R160, R201). -/
def Packet.position (pk : Packet) : Option Nat :=
  match pk.load with
  | .tray _ | .channel _ _ | .notice _ => some (field pk.ptr 40 10)
  | .home _ _ | .pref _ _ _ | .writeBack _ | .recall _ _ | .away _ _ _ _ | .held _ | .keepAlive _ _ | .transit _ _ | .fabric _ | .reply _ _ => none
/-- A retry NACK has answered the request and travels to the port that repeats it (R354). -/
def Packet.nackReturns (pk : Packet) : Bool := pk.answer == some .retry
/-- The packet is a die control core's notice: it has no requester (R231). -/
def Packet.isNotice (pk : Packet) : Bool :=
  match pk.load with
  | .notice _ => true
  | _ => false
/-- The request has not come to its end at its target. -/
def Packet.outward (pk : Packet) : Bool :=
  pk.nackReturns || match pk.place with
  | .back _ _ | .done => false
  | .enter net _ _ => net == 0
  | .router _ _ | .slice _ | .bank _ _ | .port | .fifo | .parked | .nacked => true
/-- The core to which a core's copy of the position map sends a position: the copy changes only when no request of the
core is on its way to a vacated one (R353). -/
def State.coreFor (s : State) (core p pos : Nat) : Option Nat :=
  match s.packets.find? fun pk =>
    pk.core == core && !pk.isNotice && pk.position == some pos && pk.outward && (s.part p).forward.contains (pk.vacated.getD pk.target, pos) with
  | some pk => some (pk.vacated.getD pk.target)
  | none => s.coreOfPos p pos

/-- Tray bytes, in the order of the access, that n bytes reach: 64 bytes with o = 1 reach a frame column (R151). -/
def trayOffs (off n : Nat) (o : Bool) : List Nat :=
  if o && n == 64 then (List.range 64).map fun i => off / 1024 * 1024 + off / 4 % 16 * 4 + i / 4 * 64 + i % 4
  else (List.range n).map fun i => off + i

/-- Alignment of a tray access (R151, R185). -/
def trayAligned (off n : Nat) (o : Bool) : Bool :=
  if n == 64 then (if o then off / 64 % 16 == 0 && off % 4 == 0 else off % 64 == 0) else off % n == 0

/-- The checks of R24 on a tray pointer, in their order. -/
def checkTray (ag : Agent) (p : Word) (n : Nat) (o aligned : Bool) : M Unit := do
  let off := p.toNat % 2 ^ 19
  check (field p 19 (if ptrTag p = 1 then 41 else 21) == 0 && (ptrTag p = 1 || field p 50 10 == 0)) .noncanon p
  check ((trayOffs off n o).all (· < Config.trayBytes)) .bounds p
  check aligned .align p
  check (ag.smode || (trayOffs off n o).all (· < Config.systemArea)) .traysys p

/-- A tray pointer's place: the core's own position is the local tray (R160); a rank the partition does not have faults
PROT at the instruction itself, a store's too. DEDUCED, log 91. -/
def traySpot (ag : Agent) (p : Word) : M Spot := fun s =>
  let off := p.toNat % 2 ^ 19
  let pos := field p 40 10
  if ptrTag p = 1 || (s.core ag.core).position = some pos then .ok (.own off, s)
  else if pos / 16 < (s.part ag.part).clusters.length then .ok (.peer pos off, s)
  else .error (.trap .prot p)

/-- The checks of R24 on n bytes of a global pointer that stay within one page, and where they lie. -/
def checkGlobal (ag : Agent) (p : Word) (n align : Nat) (k : AccKind) : M Spot := do
  check (ptrLow p + n ≤ 2 ^ 60) .bounds p
  check (ptrLow p % align == 0) .align p
  let e ← translateFor ag p n k
  checkRights ag p e k
  let t ← locate ag p e
  pure (.mem p e.psize t)

/-- An access to control space faults PROT in either mode, after the checks that come first (R24, R374).
DEDUCED, log 42. -/
def controlFault (p : Word) (n align : Nat) : M Unit := do
  check (ptrLow p + n ≤ 2 ^ 60) .bounds p
  check (ptrLow p % align == 0) .align p
  trap .prot p

/-- The checks of R24 on one access of n bytes with alignment n, or of 64 bytes (R151, R185, R186). -/
def checkAccess (ag : Agent) (p : Word) (n : Nat) (o : Bool) (k : AccKind) : M Spot := do
  match ptrTag p with
  | 0 => do
    check (!o) .noncanon p
    checkGlobal ag p n n k
  | 1 | 2 => do
    checkTray ag p n o (trayAligned (p.toNat % 2 ^ 19) n o)
    traySpot ag p
  | 15 => do
    check (!o) .noncanon p
    controlFault p n n
    trap .prot p
  | _ => trap .noncanon p

/-- A global pointer is required (R184). -/
def needGlobal (p : Word) : M Unit := check (ptrTag p = 0) .noncanon p
/-- A global pointer into a valid FABRIC region of the slot's partition (R223). -/
def State.fabricRegion (s : State) (p : Word) : Bool :=
  let rg := s.myPart.raf[(⟨field p 56 4, Nat.mod_lt _ (by decide)⟩ : Fin 16)]
  ptrTag p = 0 && rg.getLsbD 0 && rg.getLsbD 10
/-- A tray pointer is required (R184); a global pointer to a fabric page is PROT (R411), and a control pointer goes on to its
own fault (R374). DEDUCED, log 81. -/
def needTray (p : Word) : M Unit := do
  let far ← look (·.fabricRegion p)
  check (!far) .prot p
  check (ptrTag p = 1 || ptrTag p = 2 || ptrTag p = 15) .noncanon p
/-- Fabric pages are refused (R411). -/
def noFabric (va : Word) : Target → M Unit
  -- a fabric leaf that names this package is served without any first-level cache
  | .here _ _ _ device cached => check (device || cached) .prot va
  | .away _ _ => trap .prot va

/-! ### Release and acquire -/

/-- A packet is a store of the slot whose acknowledgement has not arrived (R182, R259). -/
def Packet.unacked (pk : Packet) (core slot : Nat) : Bool := pk.core == core && pk.slot == slot && !pk.sync

/-- The data of an answer. -/
def Answer.bytes : Answer → List Byte
  | .data bs => bs
  | .ok | .trap _ | .nack | .retry | .blame _ _ => []

/-- The cause an answered packet raises: its own, or MCE for poisoned data (R313). -/
def Packet.cause (pk : Packet) : Option Cause :=
  match pk.answer with
  | some (.trap c) | some (.blame c _) => some c
  | some (.data _) => if pk.poisoned then some .mce else none
  | some .ok | some .nack | some .retry | none => none

/-- A request to another package. -/
def Load.isAway : Load → Bool
  | .away _ _ _ _ => true
  | .home _ _ | .pref _ _ _ | .writeBack _ | .recall _ _ | .tray _ | .channel _ _ | .notice _ | .held _ | .keepAlive _ _ | .transit _ _ | .fabric _ | .reply _ _ => false

/-- The packet is a store: one a release waits for. -/
def Packet.isStore (pk : Packet) : Bool :=
  match pk.load with
  | .tray _ | .away _ _ _ _ => !pk.sync
  | .home _ _ | .pref _ _ _ | .writeBack _ | .recall _ _ | .channel _ _ | .notice _ | .held _ | .keepAlive _ _ | .transit _ _ | .fabric _ | .reply _ _ => false

/-- A release of the slot being executed (R162, R182, R259): it waits for every acknowledgement, then a recorded NACK
traps, then every owned word of the core's L1 is performed. -/
def release : M Unit := fun s =>
  if s.packets.any fun pk => pk.isStore && pk.unacked s.curCore s.curSlot.val then .error (.wait .release)
  else if s.me.nack.isSome then .error .nack
  else .ok ((), s.writeBackAll s.curCore)

/-- An acquire of the slot being executed (R163). -/
def acquire : M Unit := change fun s => s.modMyCore (·.acquire)

/-! ### Remote accesses -/

/-- The row or line an access lies in, as the key of R183 and R413. -/
def rowKey (pos off : Nat) : Nat := pos * 2 ^ 20 + off / 64
/-- The key of a line of another package (R413): the line itself, whatever address names it. -/
def lineKey (pkg pa : Nat) : Nat := 2 ^ 60 + pkg * 2 ^ 40 + pa / 64
/-- The key of a packet's store. -/
def Packet.rowKeyOf (pk : Packet) : List Nat :=
  match pk.load with
  | .tray (.write cells) => cells.map fun c => rowKey (field pk.ptr 40 10) c.1
  | .tray (.feset off n _) => (List.range n).map fun i => rowKey (field pk.ptr 40 10) (off + 4 * i)
  | .away pkg _ pa _ => [lineKey pkg pa]
  | _ => []

/-- An access waits until the slot's earlier stores to the same 64-byte row are acknowledged (R183, R413). -/
def holdRow (ag : Agent) (keys : List Nat) : M Unit := fun s =>
  match ag.slot with
  | none => .ok ((), s)
  | some k =>
    match s.packets.find? fun pk => pk.isStore && pk.unacked ag.core k && pk.rowKeyOf.any keys.contains with
    | some _ => .error (.wait (.row (keys.headD 0)))
    | none => .ok ((), s)

/-- Send a tray operation to a position (R160): the packet goes to the router of the core the map names. -/
def sendTray (ag : Agent) (p : Word) (pos : Nat) (op : TrayOp) (sync : Bool) : M Nat := fun s =>
  let c := (s.coreFor ag.core ag.part pos).getD (16 * ((s.part ag.part).clusters.getD (pos / 16) 0) + pos % 16)
  .ok (s.send ag (coreX c) (coreY c) 0 (.tray op) p sync false)

/-- The ports towards a package that the launch may use, in order of preference (R409). -/
def State.routePorts (s : State) (target ports : Nat) : List Nat :=
  let r := mapGet s.routes target 0
  ((List.range 4).filter fun i => r.getLsbD (24 + i)).map (fun i => field r (6 * i) 6)
    |>.filter fun p => p < 36 && ports / 2 ^ p % 2 == 1

/-- The key of a fabric request: target and sequence number. -/
def fabricKey (target seq : Nat) : Nat := target * 2 ^ 32 + seq

/-- How far a sequence number lies above another, modulo 2^32. -/
def seqAbove (a b : Nat) : Nat := (a + 2 ^ 32 - b % 2 ^ 32) % 2 ^ 32

/-- The first sequence number to a target that is not answered yet, the one farthest below the next: what a cumulative acknowledgement
says (R415). -/
def State.ackBelow (s : State) (target : Nat) : Nat :=
  let next := mapGet s.nextSeq target 0
  next + 2 ^ 32 - ((s.outstanding.filter fun o => o.target == target).foldl (fun d o => max d (seqAbove next o.req.seq.toNat)) 0)
    |> (· % 2 ^ 32)

/-- Send a fabric request (R409, R415): a package out of every domain faults PROT; a request to a failed package is answered
FABRIC at once (R418-R420), and one to this package itself that R412 refuses is answered PROT; a route that names none of the launch's ports faults PROT; a source with 4,096 unanswered
requests waits. Which routers of the mesh it crosses on its way to the port, the spec does not say: none here, so that it
draws nothing on structure 5. DEDUCED, log 56. DESIGN CHOICE, log 80. -/
def sendFabric (ag : Agent) (p : Word) (pkg pa : Nat) (op : FabricOp) (sink : Sink) (sync : Bool) : M Nat := fun s =>
  let own := s.pkgid.toNat == pkg
  let dead := own || s.failed.contains pkg
  if s.pkgid.toNat > 4607 || (!dead && (s.routePorts pkg ag.ports).isEmpty) then .error (.trap .prot p)
  else if !dead && 4096 ≤ (s.outstanding.filter fun o => o.target == pkg).length then
    .error (.wait (.row (2 ^ 50 + pkg)))
  else
    let seq := mapGet s.nextSeq pkg 0
    let req : FabricReq :=
      { source := s.pkgid.toNat, seq := BitVec.ofNat 32 seq
        ackBelow := BitVec.ofNat 32 (s.ackBelow pkg)
        dtag := BitVec.ofNat 16 (s.dtag ag.part), part := ag.part, owner := ag.owner, cls := ag.cls, pa := pa, op := op }
    let (id, s) := s.send ag 0 0 5 (.away pkg seq pa sink) p sync false
    let o : Outstanding :=
      { target := pkg, req := req
        who := match ag.slot with | some k => .slot ag.core k | none => .engine ag.core ag.queue
        pkt := id, ports := ag.ports, sentAt := s.cycle, queued := !dead, sent := false }
    .ok (id, { s with
      packets := s.packets.map fun pk =>
        if pk.id != id then pk
        else if dead then { pk with place := .done, answer := some (.trap (if own then .prot else .fabric)) }
        else { pk with place := .port }
      nextSeq := if dead then s.nextSeq else mapSet s.nextSeq pkg ((seq + 1) % 2 ^ 32)
      ackSent := if dead then s.ackSent else mapSet s.ackSent pkg (req.ackBelow.toNat, s.cycle)
      outstanding := if dead then s.outstanding else s.outstanding ++ [o] })

/-! ### Elements -/

/-- The path a read takes (R257). -/
inductive ReadPath where
  | plain | home | const
  deriving DecidableEq, Repr

/-- A read of a target in this package. -/
def readHere (ag : Agent) (path : ReadPath) (va : Word) (pa own home n : Nat) (device cached : Bool) : M Nat :=
  if device then deviceRead ag va pa home n
  else match path with
    | .plain => if cached then plainRead ag va pa own home n else homeRead ag va pa own home n
    | .home => homeRead ag va pa own home n
    | .const => constRead ag va pa own home n

/-- What a read gives at once, or the packet that brings it. -/
inductive Got where
  | now (v : Nat)
  | later (pkt : Nat)
  deriving DecidableEq, Repr

/-- Read n bytes at a place whose checks have passed; the sink says where a later answer goes. -/
def readSpot (ag : Agent) (path : ReadPath) (p : Word) (n : Nat) (o : Bool) (sink : Sink) : Spot → M Got
  | .mem va _ (.here pa own home device cached) => do
    let v ← readHere ag path va pa own home n device cached
    pure (.now v)
  | .mem va _ (.away pkg pa) => do
    holdRow ag [lineKey pkg pa]
    let id ← sendFabric ag va pkg pa (.read n) sink true
    pure (.later id)
  | .own off => do
    let bad ← look fun s => (s.core ag.core).trayPoisoned (trayOffs off n o)
    if bad then trap .mce p
    let bs ← look fun s => (s.trayTaken ag.core (path == .plain) (trayOffs off n o)).1
    change fun s => (s.trayTaken ag.core (path == .plain) (trayOffs off n o)).2
    if Config.systemArea ≤ off then change fun s => { s with freeCtr := s.freeCtr + n }
    pure (.now (numberOf bs))
  | .peer pos off => do
    holdRow ag ((trayOffs off n o).map (rowKey pos))
    let id ← sendTray ag p pos (.read ((trayOffs off n o).map fun x => (x, 1)) sink) true
    pure (.later id)

/-- The elements of a store, each with its offset (R183): the words of a 64-byte access, else the whole access. -/
def storeElements (n : Nat) (bs : ByteMap) : List (Nat × List Byte) :=
  if n == 64 && bs.length != 64 then
    allWords.filterMap fun w =>
      let here := bs.filter fun b => b.1 / 4 == w
      if here.isEmpty then none else some (4 * w, here.map (·.2))
  else [(0, bs.map (·.2))]

/-- Write bytes at a place whose checks have passed: offsets of the access, and values (R162, R181, R182). A store without a
byte writes nothing (R186); on a fabric page each element is one request (R183, R413). -/
def writeSpot (ag : Agent) (p : Word) (n : Nat) (o : Bool) (bs : ByteMap) (sp : Spot) : M Unit :=
  if bs.isEmpty then pure () else
  match sp with
  | .mem va psize (.here pa own home device cached) => do
    holdMigration ag va psize
    if device then deviceWrite ag va pa home bs
    else if cached then plainWrite ag va pa own home bs
    else homeWrite ag va pa own home bs
  | .mem va _ (.away pkg pa) => do
    if ag.dev.isSome then halt .devFault
    holdRow ag [lineKey pkg pa]
    (storeElements n bs).forM fun e => do
      let _ ← sendFabric ag va pkg (pa + e.1) (.write e.2) .none false
  | .own off => change fun s => s.modCore ag.core fun k =>
      k.trayWrite (bs.map fun b => ((trayOffs off n o).getD b.1 Config.trayBytes, b.2))
  | .peer pos off => do
    holdRow ag ((trayOffs off n o).map (rowKey pos))
    let _ ← sendTray ag p pos (.write (bs.map fun b => ((trayOffs off n o).getD b.1 Config.trayBytes, b.2))) false

/-- The digest terms of a slot's store (R350, R351): one term for each chunk an instruction writes. -/
def digestStore (ag : Agent) (cells : List (Spot × ByteMap)) : M Unit :=
  let flat := cells.flatMap fun (sp, bs) =>
    match sp with
    | .mem va _ _ => bs.map fun b => (ptrLow va + b.1, b.2)
    | .own _ | .peer _ _ => []
  -- where two lanes wrote one byte the higher lane's value counts
  let last := flat.foldl (fun acc c => mapSet acc c.1 c.2) ([] : SMap Byte)
  change fun s => s.addDigest ag last

/-! ### Answers and completion -/

/-- Apply the data of an answer to its sink. -/
def State.sinkData (s : State) (sink : Sink) (bytes : List Byte) : State :=
  match sink with
  | .none | .fork _ | .join _ => s
  | .written va bs => s.addDigest s.agent (bs.zipIdx.map fun (b, i) => (va + i, b))
  | .x d => s.setX d (BitVec.ofNat 64 (numberOf bytes))
  | .fetch va => s.modMe fun t =>
      { t with
        fetched := ((List.range (bytes.length / 8)).foldl (fun m i =>
          mapSet m (va + 8 * i) (BitVec.ofNat 64 (numberOf ((bytes.drop (8 * i)).take 8)))) t.fetched) }
  | .acquireX d => (s.setX d (BitVec.ofNat 64 (numberOf bytes))).modMyCore (·.acquire)
  | .row d m => s.setVAt 0 d (laneEnable .i32 m) (ofLanes fun i =>
      if m.getLsbD i then BitVec.ofNat 32 (numberOf ((bytes.drop (4 * i)).take 4)) else laneOf (s.vval d) i)
  | .lane d ls n => s.setVAt 0 d (laneEnable .i32 (ls.foldl (fun m i => m ||| BitVec.ofNat 16 (2 ^ i)) 0)) (ofLanes fun i =>
      if ls.contains i then BitVec.ofNat 32 (numberOf ((bytes.drop (n * ls.findIdx (· == i))).take n))
      else laneOf (s.vval d) i)

/-- Leave the rotation until the replies of the packets sent arrive (R85, R181); the instruction is complete.
DEDUCED, log 66. -/
def awaitReply : M Unit := change fun s => { s with sent := [] }.leave (.reply s.sent)

/-- Finish a read: at once where every element is there, else when the packets are answered (R181). -/
def finishReads (now : List (Sink × Nat × Nat)) (later : List Nat) : M Unit :=
  if later.isEmpty then do
    now.forM fun (sk, v, n) => change fun s => s.sinkData sk (bytesOf v n)
    finish 4
    awaitReply
  else fun s =>
    let (ids, s) := now.foldl (fun (acc : List Nat × State) (e : Sink × Nat × Nat) =>
      let (id, s) := acc.2.send acc.2.agent 0 0 0 (.held e.1) 0 true false
      (acc.1 ++ [id], { s with packets := s.packets.map fun pk =>
        if pk.id == id then { pk with place := .done, answer := some (.data (bytesOf e.2.1 e.2.2)) } else pk })) ([], s)
    .ok ((), { s with sent := [] }.leave (.remote (ids ++ later)))

/-- Read one element and finish. -/
def loadOne (ag : Agent) (path : ReadPath) (p : Word) (n : Nat) (o : Bool) (sink : Sink) (sp : Spot) : M Unit := do
  let g ← readSpot ag path p n o sink sp
  match g with
  | .now v => finishReads [(sink, v, n)] []
  | .later id => finishReads [] [id]

/-! ### Reads of more than a line -/

/-- The checks of R24 on n bytes of global memory, and where each of their double words lies. -/
def globalRange (ag : Agent) (p : Word) (n align : Nat) (k : AccKind) : M (List (Word × Spot)) := do
  check (ptrLow p + n ≤ 2 ^ 60) .bounds p
  check (ptrLow p % align == 0) .align p
  let ps := (List.range ((n + 7) / 8)).map fun i => p + BitVec.ofNat 64 (8 * i)
  let es ← ps.mapM fun q => do
    let e ← translate ag q
    pure (q, e)
  es.forM fun (q, e) => checkRights ag q e k
  es.mapM fun (q, e) => do
    let t ← locate ag q e
    pure (q, .mem q e.psize t)

/-- A home read of n bytes at an 8-byte aligned pointer, as the descriptor, record and block reads make it (R171, R200,
R257): the checks run over the whole range, then each double word is read. -/
def checkRange (ag : Agent) (p : Word) (n align : Nat) (k : AccKind) : M (List (Word × Spot)) := do
  match ptrTag p with
  | 0 => globalRange ag p n align k
  | 1 | 2 => do
    checkTray ag p n false (p.toNat % align == 0)
    let sp ← traySpot ag p
    pure ((List.range ((n + 7) / 8)).map fun i =>
      (p + BitVec.ofNat 64 (8 * i),
        match sp with
        | .own off => .own (off + 8 * i)
        | .peer pos off => .peer pos (off + 8 * i)
        | .mem va ps t => .mem va ps t))
  | 15 => do
    controlFault p n align
    pure []
  | _ => trap .noncanon p

/-- The fabric words of a checked range that have not arrived. -/
def missingWords (t : Slot) (sps : List (Word × Spot)) : List (Word × Nat × Nat) :=
  sps.filterMap fun (_, sp) =>
    match sp with
    | .mem va _ (.away pkg pa) => if (mapGet? t.fetched va.toNat).isSome then none else some (va, pkg, pa)
    | .mem _ _ (.here _ _ _ _ _) | .own _ | .peer _ _ => none

/-- The words of a checked range in another core's tray that have not arrived. -/
def missingTray (t : Slot) (sps : List (Word × Spot)) : List (Word × Nat × Nat) :=
  sps.filterMap fun (q, sp) =>
    match sp with
    | .peer pos off => if (mapGet? t.fetched q.toNat).isSome then none else some (q, pos, off)
    | .mem _ _ _ | .own _ => none

/-- Consecutive words grouped by tray row: no packet carries more than 64 bytes (R309). -/
def trayRows (l : List (Word × Nat × Nat)) : List (List (Word × Nat × Nat)) :=
  (l.foldl (fun rows m => setAdd rows (m.2.2 / 64)) []).map fun r => l.filter fun m => m.2.2 / 64 == r

/-- Ask for the words of a range that lie in another package or tray: the instruction pauses until they arrive (R411). -/
def fetchWords (ag : Agent) (sps : List (Word × Spot)) : M Unit := do
  let miss ← look fun s => missingWords s.me sps
  let far ← look fun s => missingTray s.me sps
  match far with
  | (_, pos, _) :: _ => do
    holdRow ag (far.map fun m => rowKey pos m.2.2)
    let ids ← (trayRows far).mapM fun row => do
      let (q, _, off) := row.headD (0, 0, 0)
      sendTray ag q pos (.read ((List.range (8 * row.length)).map fun i => (off + i, 1)) (.fetch q.toNat)) true
    fun s => .error (.paused ({ s with sent := [] }.keepSources.leave (.remote ids)))
  | [] =>
    if miss.isEmpty then pure () else do
      holdRow ag (miss.map fun m => lineKey m.2.1 m.2.2)
      let ids ← miss.mapM fun (va, pkg, pa) => sendFabric ag va pkg pa (.read 8) (.fetch va.toNat) true
      fun s => .error (.paused ({ s with sent := [] }.keepSources.leave (.remote ids)))

/-- A word of a checked range in this package's memory that has not been read. -/
def Slot.lacks (t : Slot) (x : Word × Spot) : Bool :=
  match x.2 with
  | .mem va _ (.here _ _ _ _ _) => (mapGet? t.fetched va.toNat).isNone
  | .mem _ _ (.away _ _) | .own _ | .peer _ _ => false

/-- Read a word of a range at its home slice, and keep it for the instruction. -/
def keepWord (ag : Agent) (x : Word × Spot) : M Unit :=
  match x.2 with
  | .mem va _ (.here pa own home device _) => do
    let v ← readHere ag .home va pa own home 8 device false
    change fun s => s.modMe fun t => { t with fetched := mapSet t.fetched va.toNat (BitVec.ofNat 64 v) }
  | .mem _ _ (.away _ _) | .own _ | .peer _ _ => pure ()

/-- Read the words of a range that lie in this package: the instruction pauses until the replies are there, so that an MCE of one comes
before any effect of its own (R87, R181). -/
def homeWords (ag : Agent) (sps : List (Word × Spot)) : M Unit := do
  let miss ← look fun s => sps.filter s.me.lacks
  if miss.isEmpty then pure () else do
    miss.forM (keepWord ag)
    fun s => .error (.paused ({ s with sent := [] }.keepSources.leave (.reply s.sent)))

/-- Read the double words of a checked range (R257), the local tray's apart in two parts: the words are asked for, and when they are there
the instruction goes on with them. DEDUCED, log 69. -/
def readRange (ag : Agent) (sps : List (Word × Spot)) : M (List Word) := do
  fetchWords ag sps
  homeWords ag sps
  sps.mapM fun (q, sp) =>
    match sp with
    | .mem va _ _ => look fun s => (mapGet? s.me.fetched va.toNat).getD 0
    | .peer _ _ => look fun s => (mapGet? s.me.fetched q.toNat).getD 0
    | .own off => do
      let g ← readSpot ag .home q 8 false .none (.own off)
      match g with
      | .now v => pure (BitVec.ofNat 64 v)
      | .later _ => pure 0

/-! ### Fetch -/

/-- A line of an execute-only page enters a core's instruction cache (R164), none with a poisoned word; the cache holds 512 lines. -/
def State.l1iFill (s : State) (core vl line : Nat) (e : TlbEntry) : State :=
  let d := s.performedLine line
  if e.leaf.getLsbD 1 || e.leaf.getLsbD 2 || d.2 != 0 then s
  else s.modCore core fun k =>
    let l1i := if k.l1i.length < 512 then k.l1i
      else match k.l1i[Config.freeVictim s.freeCtr % 512]? with
        | some x => mapErase k.l1i x.1
        | none => k.l1i
    { k with l1i := mapSet l1i vl { pa := line, data := d.1, tr := some e } }

/-- Fetch the half-word at an address that the instruction cache does not hold. -/
def fetchMiss (ag : Agent) (va : Word) : M (BitVec 16) := do
  let e ← translate ag va
  checkRights ag va e .fetch
  if e.region.getLsbD 10 then trap .prot va
  let t ← locate ag va e
  match t with
  | .away _ _ => trap .prot va
  | .here pa _ home true _ => do
    let v ← deviceRead ag va pa home 2
    pure (BitVec.ofNat 16 v)
  | .here pa own home false _ => do
    let v ← homeRead ag va pa own home 2
    change fun s => s.l1iFill ag.core (va.toNat / 64) (lineOf pa) e
    pure (BitVec.ofNat 16 v)

/-- Fetch the half-word at an address (R26, R115, R164): a hit in the instruction cache is checked by the translation its line is held
under, only a miss is translated (R228); the failing check names the cause. -/
def fetchHalf (ag : Agent) (va : Word) : M (BitVec 16) := do
  check (ptrTag va = 0 && ptrLow va + 2 ≤ 2 ^ 60) .bounds va
  let hit ← look fun s => (mapGet? (s.core ag.core).l1i (va.toNat / 64)).bind fun l => l.tr.map fun e => (l, e)
  match hit with
  | some (l, e) => do
    checkRights ag va e .fetch
    pure (BitVec.ofNat 16 (lineBytes l.data (va.toNat % 64) 2))
  | none => fetchMiss ag va

end Sys2Proof.Machine
end

