-- ==== Sys2Proof/Machine/FullEmpty.lean ====
section
/-!
DEFINITION. Full/empty words (R155-R157, R190-R192): the service of waiters when a word changes state, and LDFE, STFE,
LDFF and FESET.
-/
namespace Sys2Proof.Machine

/-- Change one packet. -/
def State.modPacket (s : State) (id : Nat) (f : Packet → Packet) : State :=
  { s with packets := s.packets.map fun p => if p.id == id then f p else p }
/-- A packet by its identity. -/
def State.packet? (s : State) (id : Nat) : Option Packet := s.packets.find? (·.id == id)
/-- An answered packet starts its way back at a core's router, on the response network, with ESC = 0 (R309-R311). -/
def Packet.returned (pk : Packet) (core : Nat) (a : Answer) (stamp : Nat) : Packet :=
  { pk with answer := some a, place := .enter 1 (routerOf core) .core, esc := false, since := stamp }
/-- Answer a packet at a core. -/
def State.answerAt (s : State) (core id : Nat) (a : Answer) : State :=
  (s.modPacket id fun p => p.returned core a s.stamp).tick

/-- Stamps of one cycle lie within one multiple of this; arrivals compare by cycle first (R156). -/
def stampCycle (stamp : Nat) : Nat := stamp / 2 ^ 32

/-- A waiter on a word: a slot of the core, or a parked packet. -/
inductive FeWaiter where
  | slot (k : Fin 8) | parked (id : Nat)
  deriving DecidableEq, Repr

/-- The tray word of a pointer. -/
def wordOfPtr (p : Word) : Nat := p.toNat % 2 ^ 19 / 4

/-- A slot waits on a word. -/
def Wait.onWord (w : Nat) : Wait → Bool
  | .fe _ _ p _ => wordOfPtr p == w
  | _ => false

/-- The word a parked packet waits on. -/
def Packet.feWord (pk : Packet) : Option Nat :=
  match pk.load with
  | .tray (.fe _ off _ _) => some (off / 4)
  | _ => none

/-- The waiters of a word in the order in which they are examined: by cycle of arrival, local slots first in ascending
order, then parked entries in park order (R156). -/
def State.feWaiters (s : State) (c w : Nat) : List (Nat × FeWaiter) :=
  let k := s.core c
  let slots := (List.range 8).filterMap fun i =>
    let t := k.slots[slotNo i]
    if t.out.onWord w then some (stampCycle t.since * 64 + i, FeWaiter.slot (slotNo i)) else none
  let parked := k.park.zipIdx.filterMap fun (id, i) =>
    match s.packet? id with
    | some pk => if pk.feWord == some w then some (stampCycle pk.since * 64 + 8 + i, FeWaiter.parked id) else none
    | none => none
  sortKeys (slots ++ parked)

/-- The value a full/empty load reads at a core's word; in the system area the bytes R158 shows. -/
def State.feValue (s : State) (c w : Nat) : HWord :=
  BitVec.ofNat 32 (numberOf (s.trayBytes c ((List.range 4).map fun i => 4 * w + i)))

/-- The operation consumes a poisoned word (R180, R190): STFE overwrites it. -/
def Core.fePoisoned (k : Core) (op : FeOp) (w : Nat) : Bool := op.wants && k.trayPoisoned [4 * w]

/-- Serve one waiter if its condition holds (R156). -/
def State.feServe (s : State) (c w : Nat) (x : FeWaiter) : Option State :=
  match x with
  | .slot k =>
    match (s.slotAt c k).out with
    | .fe op d p b =>
      if (s.core c).isFull w != op.wants then none
      else
        let here := (s.curCore, s.curSlot)
        let u := (s.focus c k).modMe fun t => { t with out := .none }
        let u := if (s.core c).fePoisoned op w then u.takeTrap .mce p true
          else
            let v := s.feValue c w
            let u := u.modMyCore fun q => q.feDo op w b
            (if op.wants then u.setX d (v.setWidth 64) else u).complete 4
        some (u.focus here.1 here.2)
    | _ => none
  | .parked id =>
    match s.packet? id with
    | some pk =>
      match pk.load with
      | .tray (.fe op _ b _) =>
        if (s.core c).isFull w != op.wants then none
        else
          let u := s.modCore c fun q => { q with park := q.park.filter (· != id) }
          some (if (s.core c).fePoisoned op w then u.answerAt c id (.trap .mce)
            else (u.modCore c fun q => q.feDo op w b).answerAt c id
              (if op.wants then .data (bytesOf (s.feValue c w).toNat 4) else .ok))
      | _ => none
    | none => none

/-- Examine a list of waiters in order: the state left by one service decides the next. -/
def State.fePass (c w : Nat) : State → List (Nat × FeWaiter) → State × Bool
  | s, [] => (s, false)
  | s, x :: rest =>
    match s.feServe c w x.2 with
    | some u => ((State.fePass c w u rest).1, true)
    | none => State.fePass c w s rest

/-- A word has changed state: its waiters are examined, again after each pass that served one (R156). -/
def State.feWakeUp (c w : Nat) : Nat → State → State
  | 0, s => s
  | n + 1, s =>
    let r := s.fePass c w (s.feWaiters c w)
    if r.2 then State.feWakeUp c w n r.1 else r.1

/-- Examine the waiters of a word: a core has at most 8 slots and 16 park entries. DEDUCED, log 54. -/
def State.feWake (s : State) (c w : Nat) : State := State.feWakeUp c w 25 s

/-- Set the state of a word and, when it changes, serve its waiters (R156, R192). -/
def State.setFe (s : State) (c w : Nat) (b : Bool) : State :=
  if (s.core c).isFull w == b then s else (s.modCore c fun k => k.setFull w b).feWake c w

/-- Set the state of consecutive words in ascending order. -/
def State.setFeRange (s : State) (c w n : Nat) (b : Bool) : State :=
  (List.range n).foldl (fun s i => s.setFe c (w + i) b) s

/-- FESET on a core's own tray (R192): the states are set, and staging entries of the frames are removed (R176). -/
def State.feSetTray (s : State) (c off n : Nat) (b : Bool) : State :=
  (s.modCore c fun k => k.unstage ((List.range ((off % 1024 + 4 * n + 1023) / 1024)).map fun i => off / 1024 + i)).setFeRange
    c (off / 4) n b

/-- LDFE, STFE and LDFF (R190): a local word is tested and acted on at its bank; on another core's word the operation
travels to it; a local wait is joined in place (R156). -/
def fullEmpty (op : FeOp) (d a : Reg) (r : Bool) (o : BitVec 12) (s : State) : M Unit := do
  let x ← readX a
  let p := effPtr x 4 o
  let b ← if op.wants then pure 0 else readX d
  needTray p
  let sp ← checkAccess s.agent p 4 r .load
  match sp with
  | .own off => do
    let w := off / 4
    let c := s.curCore
    let full ← look fun s => (s.core c).isFull w
    if full != op.wants then leave (.fe op d p (b.setWidth 32))
    else do
      let bad ← look fun s => (s.core c).fePoisoned op w
      if bad then trap .mce p
      let v ← look fun s => s.feValue c w
      if Config.systemArea ≤ off then change fun s => { s with freeCtr := s.freeCtr + 4 }
      change fun s => s.modCore c fun q => q.feDo op w (b.setWidth 32)
      if op.wants then writeX d (v.setWidth 64)
      finish 4
      awaitReply
      if op != .ldff then change (·.feWake c w)
  | .peer pos off => do
    holdRow s.agent [rowKey pos off]
    let id ← sendTray s.agent p pos (.fe op off (b.setWidth 32) d) true
    leave (.remote [id])
  | .mem _ _ _ => trap .noncanon p

/-- LDFE (R190). -/
def execLdfe (d a : Reg) (r : Bool) (o : BitVec 12) (s : State) : Out := run (fullEmpty .ldfe d a r o s) s
/-- STFE (R190). -/
def execStfe (d a : Reg) (r : Bool) (o : BitVec 12) (s : State) : Out := run (fullEmpty .stfe d a r o s) s
/-- LDFF (R190). -/
def execLdff (d a : Reg) (r : Bool) (o : BitVec 12) (s : State) : Out := run (fullEmpty .ldff d a r o s) s

/-- Words of an FESET that its next frame row holds (R192). -/
def rowWords (off n : Nat) : Nat := min n (16 - off / 4 % 16)

/-- One frame row of an FESET on a core's own tray (R192): the state, and whether it was the last. -/
def State.feSetRow (s : State) (c off n : Nat) (b : Bool) : State × Bool :=
  (s.feSetTray c off (rowWords off n) b, n ≤ rowWords off n)

/-- The next row of a slot's local FESET: the instruction completes with the last one. -/
def State.feRow (s : State) (core : Nat) (k : Fin 8) : State :=
  match (s.slotAt core k).out with
  | .feRows off n b =>
    let here := (s.curCore, s.curSlot)
    let u := (s.feSetRow core off n b).1.focus core k
    let w := rowWords off n
    let u := if (s.feSetRow core off n b).2 then (u.modMe fun t => { t with out := .none }).complete 4
      else u.modMe fun t => { t with out := .feRows (off + 4 * w) (n - w) b }
    u.focus here.1 here.2
  | _ => s

/-- FESET (R192): nothing and no check for a count of 0; a peer tray's words are set there before the reply. -/
def execFeset (a b : Reg) (st : Bool) (s : State) : Out :=
  run (do
    let p ← readX a
    let n ← readX b
    if n = 0 then finish 4
    else do
      needTray p
      if ptrTag p = 15 then controlFault p (4 * n.toNat) 4
      let off := p.toNat % 2 ^ 19
      check (field p 19 (if ptrTag p = 1 then 41 else 21) == 0 && (ptrTag p = 1 || field p 50 10 == 0)) .noncanon p
      check (off + 4 * n.toNat ≤ Config.trayBytes) .bounds p
      check (off % 4 == 0) .align p
      check (s.me.sw.s || off + 4 * n.toNat ≤ Config.systemArea) .traysys p
      let sp ← traySpot s.agent p
      match sp with
      | .own off =>
        if n.toNat ≤ rowWords off n.toNat then do
          finish 4
          awaitReply
          change (·.feSetTray s.curCore off n.toNat st)
        else do
          change (·.feSetTray s.curCore off (rowWords off n.toNat) st)
          leave (.feRows (off + 4 * rowWords off n.toNat) (n.toNat - rowWords off n.toNat) st)
      | .peer pos off => do
        holdRow s.agent ((List.range (n.toNat / 16 + 2)).map fun i => rowKey pos (off + 64 * i))
        let id ← sendTray s.agent p pos (.feset off n.toNat st) true
        leave (.remote [id])
      | .mem _ _ _ => trap .noncanon p) s

end Sys2Proof.Machine
end

