-- ==== Sys2Proof/Machine/MemInstr.lean ====
section
/-!
DEFINITION. Loads and stores (R181-R189, R290): LD, ST, LDV, STV, LDB, LDC, LDG, STS, PREF, LDA and STL.
-/
namespace Sys2Proof.Machine

/-- The effective pointer of an M-format access (R34). -/
def memPtr (a : Reg) (scale : Nat) (o : BitVec 12) : M Word := do
  let x ← readX a
  pure (effPtr x scale o)

/-- Bytes of a number as writes at offsets 0, 1, … of an access. -/
def byteMap (v n : Nat) : ByteMap := (bytesOf v n).zipIdx.map fun (b, i) => (i, b)

/-- LD (R185). -/
def execLd (d a : Reg) (z : Size) (r : Bool) (o : BitVec 12) (s : State) : Out :=
  run (do
    let p ← memPtr a (sizeBytes z) o
    let sp ← checkAccess s.agent p (sizeBytes z) r .plainLoad
    loadOne s.agent .plain p (sizeBytes z) r (.x d) sp) s

/-- Store bytes of one access: the place is checked, the bytes are written, the digest counts them (R351), and the reply
is awaited (R181). -/
def storeOne (p : Word) (n : Nat) (r : Bool) (bs : ByteMap) (s : State) : M Unit := do
  let sp ← checkAccess s.agent p n r .plainStore
  writeSpot s.agent p n r bs sp
  digestStore s.agent [(sp, bs)]
  finish 4
  awaitReply

/-- ST (R185). -/
def execSt (d a : Reg) (z : Size) (r : Bool) (o : BitVec 12) (s : State) : Out :=
  run (do
    let p ← memPtr a (sizeBytes z) o
    let v ← readX d
    storeOne p (sizeBytes z) r (byteMap v.toNat (sizeBytes z)) s) s

/-- LDV (R186): all sixteen words are read, the active lanes are written. -/
def execLdv (d a : Reg) (r : Bool) (o : BitVec 12) (s : State) : Out :=
  run (do
    let p ← memPtr a 64 o
    let sp ← checkAccess s.agent p 64 r .plainLoad
    let m ← readMask
    loadOne s.agent .plain p 64 r (.row d m) sp) s

/-- The bytes of the active lanes, at their offsets in a 64-byte access (R186). -/
def laneBytes (v : Vec) (m : BitVec 16) : ByteMap :=
  (List.range 16).flatMap fun i =>
    if m.getLsbD i then (bytesOf (laneOf v i).toNat 4).zipIdx.map fun (b, j) => (4 * i + j, b) else []

/-- STV (R186): the checks cover all 64 bytes; the active lanes are written. -/
def execStv (d a : Reg) (r : Bool) (o : BitVec 12) (s : State) : Out :=
  run (do
    let p ← memPtr a 64 o
    let v ← readV d
    let m ← readMask
    storeOne p 64 r (laneBytes v m) s) s

/-- LDB (R187): a global home read. -/
def execLdb (d a : Reg) (z : Size) (r : Bool) (o : BitVec 12) (s : State) : Out :=
  run (do
    let p ← memPtr a (sizeBytes z) o
    needGlobal p
    let sp ← checkAccess s.agent p (sizeBytes z) r .load
    loadOne s.agent .home p (sizeBytes z) r (.x d) sp) s

/-- Fabric pages are refused at a checked place (R411). -/
def spotNoFabric (p : Word) : Spot → M Unit
  | .mem va _ t => noFabric va t
  | .own _ | .peer _ _ => trap .noncanon p

/-- LDC (R187): a read through the cluster constant cache. -/
def execLdc (d a : Reg) (z : Size) (r : Bool) (o : BitVec 12) (s : State) : Out :=
  run (do
    let p ← memPtr a (sizeBytes z) o
    needGlobal p
    let sp ← checkAccess s.agent p (sizeBytes z) r .load
    spotNoFabric p sp
    loadOne s.agent .const p (sizeBytes z) r (.x d) sp) s

/-- Active lanes, ascending. -/
def activeLanes (m : BitVec 16) : List Nat := (List.range 16).filter fun i => m.getLsbD i

/-- The pointer of lane i of a gather or scatter (R189). -/
def lanePtr (base : Word) (idx : Vec) (n i : Nat) : Word := leaBy base ((laneOf idx i).toNat * n)

/-- The checks of every active lane, ascending: the first that fails traps (R189). -/
def laneSpots (base : Word) (idx : Vec) (n : Nat) (lanes : List Nat) (k : AccKind) (s : State) :
    M (List (Nat × Word × Spot)) :=
  lanes.mapM fun i => do
    let p := lanePtr base idx n i
    let sp ← checkAccess s.agent p n false k
    pure (i, p, sp)

/-- LDG (R189). Where several lanes raise a cause when they are performed, one in this package or in the core's own tray is taken first,
and then the first of another core's or package in lane order. DEDUCED, log 100. -/
def execLdg (d a b : Reg) (z : Size) (s : State) : Out :=
  run (do
    let n := sizeBytes z
    let base ← readX a
    let idx ← readV b
    let m ← readMask
    let sps ← laneSpots base idx n (activeLanes m) .plainLoad s
    let gs ← sps.mapM fun (i, p, sp) => do
      let g ← readSpot s.agent .plain p n false (.lane d [i] n) sp
      pure (i, g)
    finishReads
      (gs.filterMap fun (i, g) => match g with | .now v => some (.lane d [i] n, v, n) | .later _ => none)
      (gs.filterMap fun (_, g) => match g with | .now _ => none | .later id => some id)) s

/-- The cells of scatter lanes that lie in other cores' trays: position and cell. -/
def peerCells (ws : List (Word × Spot × ByteMap)) : List (Nat × Word × Host.Cell) :=
  ws.flatMap fun (p, sp, bs) =>
    match sp with
    | .peer pos off => bs.map fun b => (pos, p, (off + b.1, b.2))
    | .mem _ _ _ | .own _ => []

/-- Positions named by some cells. -/
def positionsOf (cs : List (Nat × Word × Host.Cell)) : List Nat := cs.foldl (fun l c => setAdd l c.1) []

/-- The elements of scatter lanes on fabric pages: package, remote PA, VA and bytes. -/
def awayElements (ws : List (Word × Spot × ByteMap)) : List (Nat × Nat × Word × List Byte) :=
  ws.filterMap fun (_, sp, bs) =>
    match sp with
    | .mem va _ (.away pkg pa) => some (pkg, pa, va, bs.map (·.2))
    | .mem _ _ (.here _ _ _ _ _) | .own _ | .peer _ _ => none

/-- Perform the lanes of a scatter, ascending (R189): what goes to another core travels as one store, what goes to another
package as one request for each element (R183); where two lanes wrote one place the higher lane's value counts. -/
def scatter (ag : Agent) (n : Nat) (ws : List (Word × Spot × ByteMap)) : M Unit := do
  ws.forM fun (p, sp, bs) =>
    match sp with
    | .own _ | .mem _ _ (.here _ _ _ _ _) => writeSpot ag p n false bs sp
    | .peer _ _ | .mem _ _ (.away _ _) => pure ()
  let cells := peerCells ws
  holdRow ag (cells.map fun c => rowKey c.1 c.2.2.1)
  (positionsOf cells).forM fun pos => do
    let here := cells.filter fun c => c.1 == pos
    let last := here.foldl (fun (m : SMap Byte) c => mapSet m c.2.2.1 c.2.2.2) []
    let _ ← sendTray ag ((here.head?.map (·.2.1)).getD 0) pos (.write last) false
  let far := awayElements ws
  if !far.isEmpty && ag.dev.isSome then halt .devFault
  holdRow ag (far.map fun e => lineKey e.1 e.2.1)
  let last := far.foldl (fun (m : SMap (Nat × Nat × Word × List Byte)) e => mapSet m (e.1 * 2 ^ 48 + e.2.1) e) []
  last.forM fun (_, pkg, pa, va, bs) => do
    let _ ← sendFabric ag va pkg pa (.write bs) .none false

/-- STS (R189). -/
def execSts (d a b : Reg) (z : Size) (s : State) : Out :=
  run (do
    let n := sizeBytes z
    let base ← readX a
    let idx ← readV b
    let data ← readV d
    let m ← readMask
    let sps ← laneSpots base idx n (activeLanes m) .plainStore s
    let ws := sps.map fun (i, p, sp) => (p, sp, byteMap (laneOf data i).toNat n)
    scatter s.agent n ws
    digestStore s.agent (ws.map fun (_, sp, bs) => (sp, bs))
    finish 4
    awaitReply) s

/-- Do something that a failed check turns into nothing (R188). -/
def attempt (m : M Unit) : M Unit := fun s =>
  match m s with
  | .ok r => .ok r
  | .error _ => .ok ((), s)

/-- A line of memory has no poisoned word and is not latent. -/
def State.cleanLine (s : State) (line : Nat) : Bool := !s.latent.contains line && s.memBad.all fun w => w / 16 != line

/-- The prefetch itself (R188): a fill into L1, or a request sent to the home slice. A fabric page and a device region take
none (R223, R411). -/
def prefetch (h : BitVec 5) (p : Word) (s : State) : M Unit := do
  -- a prefetch is no request of the slot's: it leaves alost as it is
  let ag : Agent := { s.agent with slot := none, queue := 6 }
  needGlobal p
  let sp ← checkAccess s.agent p 1 false .load
  match sp with
  | .mem va _ (.here pa own home _ true) => do
    let ok ← look fun s => s.cleanLine (lineOf pa)
    if !ok then pure ()
    else if h.toNat ≤ 1 then do
      let hit ← look fun s => (mapGet? s.myCore.l1d (va.toNat / 64)).filter (·.holds 0 64)
      match hit with
      | some _ => pure ()
      | none => do
        readRecord ag home pa
        touchHome ag va own home pa (.fill s.curCore (va.toNat / 64) false)
        change fun s => s.l1Fill s.myPartNo s.curCore (va.toNat / 64) (lineOf pa)
    else fun s =>
      let slice := homeSlice (s.part home) pa
      let c := sliceCore (slice / 4) (slice % 4)
      .ok ((), (s.send ag (coreX c) (coreY c) (1 + slice % 4) (.pref (lineOf pa) own (h.toNat == 3)) va false false).2)
  | .mem _ _ _ | .own _ | .peer _ _ => pure ()

/-- PREF (R43, R188): hints 8-15 are no operation; it never traps on its address and never leaves the rotation. -/
def execPref (h : BitVec 5) (a : Reg) (o : BitVec 12) (s : State) : Out :=
  run (if 8 ≤ h.toNat then finish 4
    else do
      let p ← memPtr a 1 o
      attempt (prefetch h p s)
      change fun s => { s with sent := [] }
      finish 4) s

/-- LDA (R290): a home read, then an acquire. -/
def execLda (d a : Reg) (z : Size) (o : BitVec 12) (s : State) : Out :=
  run (do
    let p ← memPtr a (sizeBytes z) o
    needGlobal p
    let sp ← checkAccess s.agent p (sizeBytes z) false .load
    loadOne s.agent .home p (sizeBytes z) false (.acquireX d) sp) s

/-- A write performed at the home slice, or at another package's, before the instruction completes; the digest counts it once it is
performed (R351). -/
def writeAtHome (ag : Agent) (p : Word) (n : Nat) (bs : ByteMap) : Spot → M Unit
  | .mem va psize (.here pa own home device _) => do
    holdMigration ag va psize
    if device then deviceWrite ag va pa home bs else homeWrite ag va pa own home bs
    change fun s => s.addDigest ag (bs.map fun b => (ptrLow va + b.1, b.2))
    finish 4
    awaitReply
  | .mem va _ (.away pkg pa) => do
    if ag.dev.isSome then halt .devFault
    holdRow ag [lineKey pkg pa]
    let data := (List.range n).map fun i => ((bs.find? (·.1 == i)).map (·.2)).getD 0
    let id ← sendFabric ag va pkg pa (.write data) (.written (ptrLow va) data) true
    leave (.remote [id])
  | .own _ | .peer _ _ => trap .noncanon p

/-- STL (R290): the operand checks (R87), a release, then the write. -/
def execStl (d a : Reg) (z : Size) (o : BitVec 12) (s : State) : Out :=
  run (do
    let n := sizeBytes z
    let p ← memPtr a n o
    let v ← readX d
    needGlobal p
    let sp ← checkAccess s.agent p n false .store
    release
    writeAtHome s.agent p n (byteMap v.toNat n) sp) s

end Sys2Proof.Machine
end

