-- ==== Sys2Proof/Machine/Atomics.lean ====
section
/-!
DEFINITION. Atomics and fences (R287-R291): the read-modify-write operations at a home slice, a tray bank or another
package, and FACQ, FREL, FSEQ and FCON.
-/
namespace Sys2Proof.Machine

/-- The low n bytes of a word as a signed number (R288). -/
def signedOf (n : Nat) (v : Nat) : Int := if 2 ^ (8 * n - 1) ≤ v then (v : Int) - 2 ^ (8 * n) else v

/-- The new value of an AMO or AMOF of n bytes (R288). -/
def amoNew (op : AmoOp) (n old b : Nat) : Nat :=
  let b := b % 2 ^ (8 * n)
  match op with
  | .add => (old + b) % 2 ^ (8 * n)
  | .and => old &&& b
  | .or => old ||| b
  | .xor => old ^^^ b
  | .min => if signedOf n b < signedOf n old then b else old
  | .max => if signedOf n old < signedOf n b then b else old
  | .minu => min old b
  | .maxu => max old b
  | .swap => b
  | .fadd => (laneFmt (if n = 4 then .f32 else .f64)).add old b

/-- A read-modify-write: AMO and AMOF, CAS, or the counter operations of JINIT, FORK and JOIN. -/
inductive Rmw where
  | amo (op : AmoOp) (b : Nat)
  | cas (expected b : Nat)
  /-- A store that reads nothing (JINIT, R198). -/
  | put (b : Nat)
  deriving DecidableEq, Repr

/-- The value it writes, if it writes (R288). -/
def Rmw.new (r : Rmw) (n old : Nat) : Option Nat :=
  match r with
  | .amo op b => some (amoNew op n old b)
  | .cas e b => if old = e % 2 ^ (8 * n) then some (b % 2 ^ (8 * n)) else none
  | .put b => some (b % 2 ^ (8 * n))
/-- The operation consumes the old value, so that a poisoned word is an MCE (R181). -/
def Rmw.reads : Rmw → Bool
  | .amo _ _ | .cas _ _ => true
  | .put _ => false

/-- Bytes of the operands it takes with it. -/
def Rmw.operands (r : Rmw) (n : Nat) : Nat :=
  match r with
  | .amo _ _ | .put _ => n
  | .cas _ _ => 2 * n

/-- The record met by an atomic (R250, R253, R288, R294): a development that reads a latent line of its own tile nests; any
other agent's write rules are those of a store, so that a development's atomic on another tile of its chain, latent or not, ends
the chain (R252). DEDUCED, log 99. -/
def atomicRecord (ag : Agent) (home pa : Nat) (va : Word) : M WriteKind := do
  let q ← look (·.part home)
  let latent ← look fun s => s.latent.contains (lineOf pa)
  match ag.dev, q.recordOf (lineOf pa) with
  | some d, some r => if latent && r.id == d.recipe then halt (.develop r.id) else writeRecord ag home pa va
  | _, _ => writeRecord ag home pa va

/-- A poisoned word that a read-modify-write consumes is an MCE, before PIN (R181); a line that is latent or in another
chain's development is met as a record instead. -/
def atomicPoison (ag : Agent) (home pa n : Nat) (va : Word) (r : Rmw) : M Unit := do
  change fun s => s.recall (lineOf pa) (wordsOf pa n)
  let held ← look fun s => match (s.part home).recordOf (lineOf pa) with
    | some x => s.latent.contains (lineOf pa) || (x.producing && !x.inChainOf ag)
    | none => false
  let bad ← look fun s => (wordsOf pa n).any fun w => s.memBad.contains (16 * lineOf pa + w)
  if r.reads && bad && !held then trap .mce va

/-- The read-modify-write at the home slice: one indivisible event on the recalled word (R237, R288). It answers the old
value. -/
def rmwHome (ag : Agent) (va : Word) (pa own home : Nat) (device : Bool) (n : Nat) (r : Rmw) : M Nat := do
  atomicPoison ag home pa n va r
  let k ← atomicRecord ag home pa va
  let body : HomeBody := .atomic ((wordsOf pa n).map fun w => 16 * lineOf pa + w) n (r.operands n)
  if device then let _ ← sendHome ag home (lineOf pa) true va body
  else touchHome ag va own home pa body
  change fun s => (s.recall (lineOf pa) (match k with | .compare => allWords | .plain | .own => wordsOf pa n)).barOlder ag.core (lineOf pa)
  let old ← look fun s => Memory.readN s.mem pa n
  match r.new n old with
  | none => pure ()
  | some v =>
    match k with
    | .compare => change fun s => s.compareBytes home pa (byteMap v n)
    | .plain | .own => change fun s => (s.writeHome pa (byteMap v n)).l1After ag (lineOf pa) (touchedWords pa (byteMap v n))
  pure old

/-- The read-modify-write at a core's own bank (R288): it ignores full/empty bits. -/
def rmwTray (p : Word) (off n : Nat) (r : Rmw) : M Nat := do
  let c ← look (·.curCore)
  let offs := (List.range n).map fun i => off + i
  let bad ← look fun s => (s.core c).trayPoisoned offs
  if r.reads && bad then trap .mce p
  let old ← look fun s => numberOf (s.trayBytes c offs)
  match r.new n old with
  | none => pure ()
  | some v => change fun s => s.modCore c fun k => k.trayWrite ((byteMap v n).map fun b => (off + b.1, b.2))
  if Config.systemArea ≤ off then change fun s => { s with freeCtr := s.freeCtr + n }
  pure old

/-- The operation as another core's remote port performs it. -/
def Rmw.trayOp (r : Rmw) (n off : Nat) (sink : Sink) : TrayOp :=
  match r with
  | .amo op b => .amo op n off (BitVec.ofNat 64 b) sink
  | .cas e b => .cas n off (BitVec.ofNat 64 e) (BitVec.ofNat 64 b) sink
  | .put b => .write ((byteMap b n).map fun x => (off + x.1, x.2))

/-- The operation as a fabric request. -/
def Rmw.fabricOp (r : Rmw) (n : Nat) : FabricOp :=
  match r with
  | .amo op b => .amo op (n == 8) (BitVec.ofNat 64 b)
  | .cas e b => .cas (n == 8) (BitVec.ofNat 64 e) (BitVec.ofNat 64 b)
  | .put b => .write (bytesOf b n)

/-- Perform an atomic at a checked place: the old value where it is there at once; else the slot waits for the answer,
whose sink goes on with the instruction (R288). -/
def rmwAt (p : Word) (n : Nat) (r : Rmw) (sink : Sink) (s : State) : Spot → M (Option Nat)
  | .mem va psize (.here pa own home device _) => do
    holdMigration s.agent va psize
    let old ← rmwHome s.agent va pa own home device n r
    pure (some old)
  | .mem va _ (.away pkg pa) => do
    if s.agent.dev.isSome then halt .devFault
    holdRow s.agent [lineKey pkg pa]
    let id ← sendFabric s.agent va pkg pa (r.fabricOp n) sink true
    leave (.remote [id])
    pure none
  | .own off => do
    let old ← rmwTray p off n r
    pure (some old)
  | .peer pos off => do
    holdRow s.agent [rowKey pos off]
    let id ← sendTray s.agent p pos (r.trayOp n off sink) true
    leave (.remote [id])
    pure none

/-- Perform an atomic at a checked place and finish with its old value in X(d) (R288). -/
def atomicAt (d : Reg) (p : Word) (n : Nat) (r : Rmw) (s : State) (sp : Spot) : M Unit := do
  let old ← rmwAt p n r (.x d) s sp
  match old with
  | none => pure ()
  | some v => do
    writeX d (BitVec.ofNat 64 v)
    finish 4
    awaitReply

/-- The pointer checks of an atomic (R288). -/
def atomicSpot (p : Word) (n : Nat) (s : State) : M Spot := do
  check (ptrTag p ≤ 2) .noncanon p
  checkAccess s.agent p n false .atomic

/-- Size of an atomic. -/
def atomicSize (s : Bool) : Nat := if s then 8 else 4

/-- AMO (R288). -/
def amo (op : AmoOp) (d a b : Reg) (z : Bool) (s : State) : M Unit := do
  let p ← readX a
  let v ← readX b
  let sp ← atomicSpot p (atomicSize z) s
  atomicAt d p (atomicSize z) (.amo op v.toNat) s sp

/-- AMO_ADD (R288). -/
def execAmoAdd (d a b : Reg) (z : Bool) (s : State) : Out := run (amo .add d a b z s) s
/-- AMO_AND (R288). -/
def execAmoAnd (d a b : Reg) (z : Bool) (s : State) : Out := run (amo .and d a b z s) s
/-- AMO_OR (R288). -/
def execAmoOr (d a b : Reg) (z : Bool) (s : State) : Out := run (amo .or d a b z s) s
/-- AMO_XOR (R288). -/
def execAmoXor (d a b : Reg) (z : Bool) (s : State) : Out := run (amo .xor d a b z s) s
/-- AMO_MIN (R288). -/
def execAmoMin (d a b : Reg) (z : Bool) (s : State) : Out := run (amo .min d a b z s) s
/-- AMO_MAX (R288). -/
def execAmoMax (d a b : Reg) (z : Bool) (s : State) : Out := run (amo .max d a b z s) s
/-- AMO_MINU (R288). -/
def execAmoMinu (d a b : Reg) (z : Bool) (s : State) : Out := run (amo .minu d a b z s) s
/-- AMO_MAXU (R288). -/
def execAmoMaxu (d a b : Reg) (z : Bool) (s : State) : Out := run (amo .maxu d a b z s) s
/-- AMO_SWAP (R288). -/
def execAmoSwap (d a b : Reg) (z : Bool) (s : State) : Out := run (amo .swap d a b z s) s
/-- AMOF (R288, R289): NONDET in a deterministic task before any effect. -/
def execAmof (d a b : Reg) (z : Bool) (s : State) : Out :=
  run (do
    check (!s.me.sw.dm) .nondet 0
    amo .fadd d a b z s) s

/-- CAS (R288): X(d) is the comparand and takes the old value. -/
def execCas (d a b : Reg) (z : Bool) (s : State) : Out :=
  run (do
    let p ← readX a
    let v ← readX b
    let e ← readX d
    let sp ← atomicSpot p (atomicSize z) s
    atomicAt d p (atomicSize z) (.cas e.toNat v.toNat) s sp) s

/-- FACQ (R291): an acquire. -/
def execFacq (s : State) : Out :=
  run (do
    acquire
    finish 4) s

/-- FREL (R291): a release. -/
def execFrel (s : State) : Out :=
  run (do
    release
    finish 4) s

/-- FSEQ (R291): a release, one home event, then an acquire. -/
def execFseq (s : State) : Out :=
  run (do
    release
    acquire
    finish 4) s

/-- FCON (R291): a release, then every line of the cluster's constant cache is invalid. -/
def execFcon (s : State) : Out :=
  run (do
    release
    change fun s =>
      let cl := clusterOf s.curCore
      { s with clusters := mapSet s.clusters cl { s.clusterAt cl with cc := [] } }
    finish 4) s

end Sys2Proof.Machine
end

