-- ==== Sys2Proof/Machine/Control.lean ====
section
/-!
DEFINITION. Control transfer (R115-R121): BR, JAL, JALR, LOOP and YIELD. EXIT stands with the tasks.
-/
namespace Sys2Proof.Machine

/-- BR is taken (R116): q4 = 8 stands for always. -/
def branchTaken (p : HWord) (q : BitVec 4) (n : Bool) : Bool := (q == 8 || predOf p (q.setWidth 3)) != n

/-- BR (R116): it writes no register. -/
def execBr (q : BitVec 4) (n : Bool) (o : BitVec 20) (s : State) : Out :=
  run (if branchTaken s.me.p q n then change (·.jump (branchTarget s.me.pc o)) else finish 4) s

/-- JAL (R117): the link receives PC + 4. -/
def execJal (d : Reg) (i : BitVec 20) (s : State) : Out :=
  run (do
    writeXAt 2 d (s.me.pc + 4)
    change (·.jump (branchTarget s.me.pc i))) s

/-- JALR (R118): A is read before the link is written; an odd target loses bit 0. -/
def execJalr (d a : Reg) (i : BitVec 15) (s : State) : Out :=
  run (do
    let x ← readX a
    writeXAt 2 d (s.me.pc + 4)
    change (·.jump (evenAddr (x + i.signExtend 64)))) s

/-- Length in bytes of the instruction whose first half-word is given (R25). -/
def lengthOf (h : BitVec 16) : Word := if h.getLsbD 0 then 4 else 2

/-- LOOP (R96, R119): a count of 0 continues after the instruction at LEND, whose half-word is fetched for its length. -/
def execLoop (a : Reg) (e : BitVec 15) (s : State) : Out :=
  run (do
    check (!(s.me.sw.hl && s.me.pc == evenAddr s.me.lend)) .loop 0
    let n ← readX a
    let start := s.me.pc + 4
    let last := start + 2 * e.setWidth 64
    if n = 0 then do
      let h ← fetchHalf s.agent last
      change (·.modMe fun t => { t with lstart := start, lend := last, lc := n, sw := { t.sw with hl := false } })
      change (·.jump (last + lengthOf h))
    else do
      change (·.modMe fun t => { t with lstart := start, lend := last, lc := n, sw := { t.sw with hl := true } })
      finish 4) s

/-- YIELD (R121): out of the rotation for 8 cycles. -/
def execYield (s : State) : Out :=
  run (do
    finish 4
    leave (.yield (s.cycle + 8))) s

end Sys2Proof.Machine
end

