-- ==== Sys2Proof/Machine/Group.lean ====
section
/-!
DEFINITION. Group barriers (R241-R243, R300, R301): GARR, GWT, GBAR and GQRY.
-/
namespace Sys2Proof.Machine

/-- The gm slot whose valid bit is set and whose identifier is g (R79, R300). -/
def groupSlot (gm : Word) (g : Nat) : Option Nat :=
  (List.range 4).find? fun j => gm.getLsbD (32 + j) && field gm (8 * j) 8 == g
/-- SENSE j of a lane (R242). -/
def senseOf (gm : Word) (j : Nat) : Bool := gm.getLsbD (40 + j)
/-- gm with SENSE j changed over. -/
def flipSense (gm : Word) (j : Nat) : Word := gm ^^^ (1#64 <<< (40 + j))

def Group.reset : Group := { n := 0, count := 0, phase := false, broken := false, launch := 0 }
/-- An entry of the partition's group table (R241). -/
def Partition.group (q : Partition) (g : Nat) : Group := mapGet q.groups g Group.reset

/-- The gm slot of a group, or the trap GROUP (R300). -/
def findGroup (g : BitVec 8) (s : State) : M Nat :=
  match groupSlot s.me.gm g.toNat with
  | some j => pure j
  | none => trap .group (g.setWidth 64)

/-- A broken group traps CONTAINED (R243). -/
def checkBroken (g : BitVec 8) : M Unit := do
  let e ← look fun s => s.myPart.group g.toNat
  check (!e.broken) .contained (g.setWidth 64)

/-- A slot of the partition waits at the barrier. -/
def Wait.isBarrier (g : Nat) : Wait → Bool
  | .barrier x => x == g
  | _ => false

/-- Let the waiters of a group in a partition execute again. -/
def State.wakeGroup (s : State) (p g : Nat) : State :=
  { s with cores := s.cores.map fun (c, k) =>
             (c, if (k.bound.map (·.part)) == some p then k.wake (·.isBarrier g) else k) }

/-- The home slice of a group's entry (R241, R314). -/
def groupSlice (q : Partition) (g : Nat) : Nat :=
  sliceNo (q.clusters.getD (g / 4 % max q.clusters.length 1) 0) (fold q.mask (g % 4))
/-- The request for a group's entry goes to its home slice. -/
def groupRequest (g : BitVec 8) : M Unit := do
  let ag ← look (·.agent)
  let q ← look (·.myPart)
  let _ ← sendSlice ag (groupSlice q g.toNat) 0 false 0 .none

/-- One arrival (R242): the last of an episode turns the phase over and releases the waiters. -/
def State.arriveGroup (s : State) (p g : Nat) : State :=
  let e := (s.part p).group g
  if e.count + 1 = e.n then
    (s.modPart p fun q => { q with groups := mapSet q.groups g { e with count := 0, phase := !e.phase } }).wakeGroup p g
  else s.modPart p fun q => { q with groups := mapSet q.groups g { e with count := e.count + 1 } }

/-- The phase has reached the lane's sense: its last episode is complete (R242). -/
def episodeDone (g j : Nat) : M Bool := look fun s => (s.myPart.group g).phase == senseOf s.me.gm j

/-- arrive(j) (R242): it waits for the lane's previous episode, releases, then arrives. -/
def arrive (g : BitVec 8) (j : Nat) : M Unit := do
  let ok ← episodeDone g.toNat j
  if !ok then halt (.wait (.barrier g.toNat))
  release
  groupRequest g
  change (·.modMe fun t => { t with gm := flipSense t.gm j })
  change fun s => s.arriveGroup s.myPartNo g.toNat

/-- GARR (R242, R300). -/
def execGarr (g : BitVec 8) (s : State) : Out :=
  run (do
    let j ← findGroup g s
    checkBroken g
    arrive g j
    finish 4
    awaitReply) s

/-- wait(j) and completion (R242): the acquire follows the wait. -/
def waitGroup (g : BitVec 8) (j : Nat) : M Unit := do
  let ok ← episodeDone g.toNat j
  if ok then do
    groupRequest g
    acquire
    finish 4
    awaitReply
  else leave (.barrier g.toNat)

/-- GWT (R242, R300). -/
def execGwt (g : BitVec 8) (s : State) : Out :=
  run (do
    let j ← findGroup g s
    checkBroken g
    waitGroup g j) s

/-- GBAR (R242, R300): the arrival is made once, however often the wait begins again. -/
def execGbar (g : BitVec 8) (s : State) : Out :=
  run (do
    let j ← findGroup g s
    checkBroken g
    if !s.me.arrived then do
      arrive g j
      change (·.modMe fun t => { t with arrived := true })
    waitGroup g j) s

/-- The word GQRY writes (R301). -/
def gqryWord (e : Group) (j : Nat) (sense : Bool) : Word :=
  BitVec.ofNat 64 (j % 4 * 2 ^ 35) ||| (bit sense <<< 34) ||| (bit e.broken <<< 33) ||| (bit e.phase <<< 32) |||
    BitVec.ofNat 64 (e.count % 2 ^ 14 * 2 ^ 16 + e.n % 2 ^ 14)

/-- GQRY (R301): NONDET in a deterministic task; it neither waits nor acquires. -/
def execGqry (d : Reg) (g : BitVec 8) (s : State) : Out :=
  run (do
    check (!s.me.sw.dm) .nondet 0
    let j ← findGroup g s
    let e ← look fun s => s.myPart.group g.toNat
    groupRequest g
    writeX d (gqryWord e j (senseOf s.me.gm j))
    finish 4
    awaitReply) s

end Sys2Proof.Machine
end

