-- ==== Sys2Proof/Machine/Matrix.lean ====
section
/-!
DEFINITION. Tiles and the matrix array (R165-R170, R203-R222): TLD, TST, TZR, MWL, MST, ACZ, ACLD, ACST, ACT, ACADD and
MSTAT, the two lanes of the sequencer, the completion of a matrix operation and the operations the die control core
performs by emulation.
-/
namespace Sys2Proof.Machine

/-! ### Tile control values and tile registers -/

/-- Rows, columns, format code and band scale of a tile control register (R165). -/
def tcRows (tc : Word) : Nat := field tc 0 8
def tcCols (tc : Word) : Nat := field tc 8 8
def tcFmt (tc : Word) : Nat := field tc 16 5
def tcBand (tc : Word) : Nat := field tc 24 16

/-- A tile number as an index. -/
def tileNo (n : Nat) : Fin 8 := ⟨n % 8, Nat.mod_lt _ (by decide)⟩
/-- The latched tc of a tile. -/
def Latch.tc (l : Latch) (t : Nat) : Word := l.tcs[tileNo t]

/-- The shape checks of R165 with R52 and R53. -/
def shapeOk (rows cols : Nat) (f : Fmt) : Bool :=
  (1 ≤ rows && rows ≤ 32) && (1 ≤ cols && cols ≤ 128) && cols * fmtBits f ≤ 1024 &&
    (fmtBits f != 4 || cols % 2 == 0) && (fmtBits f != 6 || cols % 4 == 0)
/-- The format of a tc whose shape passes. -/
def tcShape (tc : Word) : Option Fmt :=
  match Fmt.ofCode (tcFmt tc) with
  | some f => if shapeOk (tcRows tc) (tcCols tc) f then some f else none
  | none => none
/-- Row bytes RB (R206). -/
def rowBytesOf (cols : Nat) (f : Fmt) : Nat := cols * fmtBits f / 8
/-- The companion rules of FP4S (R61). -/
def companionOk (l : Latch) (t : Nat) : Bool :=
  let c := l.tc (t ^^^ 1)
  tcFmt c == Fmt.code .n8 && tcRows c == tcRows (l.tc t) && 8 * tcCols c == tcCols (l.tc t)

/-- First byte of row i of a tile in the tile store. -/
def tileByte (t i : Nat) : Nat := t % 8 * 4096 + 128 * i
/-- Element j of row i of a tile, w bits wide (R52). -/
def Core.tileElem (k : Core) (t i j w : Nat) : Nat :=
  Memory.readN k.tiles (tileByte t i + w * j / 8) ((w * j % 8 + w + 7) / 8) / 2 ^ (w * j % 8) % 2 ^ w
/-- Words of rows 0 to R − 1 of a tile that n bytes of each row touch. -/
def tileWords (t rows n : Nat) : List Nat :=
  (List.range rows).flatMap fun i => (List.range ((n + 3) / 4)).map fun w => tileByte t i / 4 + w
/-- A used word of the tile is poisoned (R180). -/
def Core.tilePoisoned (k : Core) (t rows n : Nat) : Bool := (tileWords t rows n).any k.tileBad.contains
/-- Write the first n bytes of row i of a tile; words written whole become good (R180). -/
def Core.setTileRow (k : Core) (t i n v : Nat) : Core :=
  { k with
    tiles := Memory.writeN k.tiles (tileByte t i) n v
    tileBad := k.tileBad.filter fun w => !(tileByte t i / 4 ≤ w && w < tileByte t i / 4 + n / 4) }

/-! ### The accumulator store (R170) -/

def accKey (row j : Nat) : Nat := 32 * row + j
def Core.accWord (k : Core) (row j : Nat) : HWord := mapGet k.acc (accKey row j) 0
/-- Write an accumulator word: it becomes good. -/
def Core.setAcc (k : Core) (row j : Nat) (v : HWord) : Core :=
  { k with acc := mapPut 0 k.acc (accKey row j) v, accBad := k.accBad.filter (· != accKey row j) }
/-- Element j of a row in a class (R73, R216). -/
def Core.accElem (k : Core) (c : AccClass) (row j : Nat) : Nat :=
  match c with
  | .f32 | .i32 => (k.accWord row j).toNat
  | .f64 => (k.accWord row (2 * j)).toNat + 2 ^ 32 * (k.accWord row (2 * j + 1)).toNat
def Core.setAccElem (k : Core) (c : AccClass) (row j v : Nat) : Core :=
  match c with
  | .f32 | .i32 => k.setAcc row j (BitVec.ofNat 32 v)
  | .f64 => (k.setAcc row (2 * j) (BitVec.ofNat 32 v)).setAcc row (2 * j + 1) (BitVec.ofNat 32 (v / 2 ^ 32))
/-- Elements per row of a class. -/
def classCols : AccClass → Nat
  | .f32 | .i32 => 32
  | .f64 => 16
/-- Words per element. -/
def classWords : AccClass → Nat
  | .f32 | .i32 => 1
  | .f64 => 2
/-- A word among the first n elements of m rows is poisoned. -/
def Core.accPoisoned (k : Core) (c : AccClass) (r m n : Nat) : Bool :=
  k.accBad.any fun x => r ≤ x / 32 && x / 32 < r + m && x % 32 < classWords c * n
/-- The number format of a float class. -/
def classFmt : AccClass → FloatFmt
  | .f32 | .i32 => ⟨8, 23, 127, true, true⟩
  | .f64 => ⟨11, 52, 1023, true, true⟩

/-- Change element (i, j) of a block of rows by a function of its position. -/
def Core.mapAcc (k : Core) (c : AccClass) (r m n : Nat) (f : Core → Nat → Nat → Nat) : Core :=
  (List.range m).foldl (fun k i => (List.range n).foldl (fun k j => k.setAccElem c (r + i) j (f k i j)) k) k

/-! ### The lanes of the sequencer (R168) -/

/-- The tile registers of the stream of an MST (R212). -/
def streamTiles (d c : Nat) (f : Fmt) : List Nat := (List.range c).map fun m => if f == .fp4s then d + 2 * m else d + m

/-- The operation is one of the tile loader's. -/
def isLoader : Instr → Bool
  | .tld _ _ _ _ | .tst _ _ _ _ | .tzr _ => true
  | _ => false
/-- The operation runs in the sequencer. -/
def isMatrix : Instr → Bool
  | .tld _ _ _ _ | .tst _ _ _ _ | .tzr _ | .mwl _ _ | .mst _ _ _ _ | .acz _ _ | .acld _ _ | .acst _ _ _ _ _
  | .act _ _ _ _ _ | .acadd _ _ _ | .mstat _ _ => true
  | _ => false
/-- The tile registers an operation reads or writes. -/
def tilesOf : Instr → List Nat
  | .tld t _ _ _ | .tst t _ _ _ | .tzr t | .acld t _ | .acst t _ _ _ _ | .acadd t _ _ => [t.toNat]
  | .mwl t f => if f == .fp4s then [t.toNat, t.toNat ^^^ 1] else [t.toNat]
  | .mst t _ c f =>
    (streamTiles t.toNat c.toNat f).flatMap fun x => if f == .fp4s then [x, x ^^^ 1] else [x]
  | _ => []

/-- Two operations that the sequencer does not overlap (R168). -/
def conflicts (l1 : Bool) (t1 : List Nat) (l2 : Bool) (t2 : List Nat) : Bool := l1 == l2 || t1.any t2.contains

/-- The lane and tiles of a matrix operation a slot has in the sequencer without its effect being complete. -/
def laneOfWait (w : Wait) : Option (Bool × List Nat) :=
  match w with
  | .stream i _ _ _ _ => some (false, tilesOf i)
  | .lane i _ => some (isLoader i, tilesOf i)
  | .emulate i _ _ => if isMatrix i then some (false, tilesOf i) else none
  | _ => none

/-- An earlier operation of the core holds this one back: those whose wait began before `since`. -/
def Core.laneBlocked (k : Core) (i : Instr) (since : Nat) : Bool :=
  k.slots.toList.any fun t =>
    match laneOfWait t.out with
    | some (l, ts) => t.since < since && conflicts l ts (isLoader i) (tilesOf i)
    | none => false

/-- The cycle in which an operation reaches the head of its lane. -/
def Core.laneStart (k : Core) (i : Instr) (now : Nat) : Nat :=
  k.slots.toList.foldl (fun a t =>
    match t.out with
    | .matrix l ts due => if conflicts l ts (isLoader i) (tilesOf i) then max a due else a
    | _ => a) now

/-! ### The operations -/

def matfmt {α : Type} : M α := trap .matfmt 0
/-- A check that traps MATFMT. -/
def checkShape (ok : Bool) : M Unit := check ok .matfmt 0
/-- An operand that must be there. -/
def need {α : Type} : Option α → M α
  | some x => pure x
  | none => matfmt
/-- A poisoned word traps MCE with eaddr 0 (R209, R216). -/
def checkPoison (bad : Bool) : M Unit := if bad then halt (.softMce 0) else pure ()

/-- First accumulator row and count (R204). -/
def accRows (a : Word) (m : Nat) : M Nat := do
  checkShape (a.toNat ≤ 511)
  checkShape (a.toNat + m ≤ 512)
  pure a.toNat

/-- The operation is complete at a cycle: the PC moves on and its slot stays out until then. -/
def occupy (i : Instr) (start cost : Nat) : M Unit := do
  finish 4
  leave (.matrix (isLoader i) (tilesOf i) (start + cost))

/-- Hold the slot in its lane at the place its issue gave it. -/
def holdLane (w : Wait) : M Unit := change (·.modMe fun t => { t with out := w })

/-- An array operation clears the resume record (R215). -/
def clearResume : M Unit := change (·.modMyCore fun k => { k with resume := none })

/-- Offset of row i of a row-oriented transfer (R207). -/
def rowOff (p sb : Word) (i : Nat) : Int := field p 0 19 + i * sb.toInt
/-- The pointer of row i. -/
def rowPtr (p sb : Word) (i : Nat) : Word := BitVec.ofNat 64 (2 ^ 60 + ((ptrLow p + i * sb.toInt) % 2 ^ 60).toNat)

/-- A row of 64 bytes is one access of a frame row, which lies at a multiple of 64 (R151). DEDUCED, log 103. -/
def rowAligned (q : Int) (rb : Nat) : Bool := rb != 64 || q % 64 == 0

/-- The row checks of R207, with R151's for rows of 64 bytes: the offsets of the rows. TRAYSYS names the first offending row's pointer, as
R151's ALIGN does. DEDUCED, log 92. -/
def checkRows (p sb : Word) (rows rb : Nat) (smode : Bool) : M (List Nat) := do
  match (List.range rows).find? fun i => rowOff p sb i < 0 || (Config.trayBytes : Int) < rowOff p sb i + rb with
  | some i => trap .bounds (rowPtr p sb i)
  | none => pure ()
  check (p.toNat % 4 == 0 && sb.toNat % 4 == 0) .align p
  match (List.range rows).find? fun i => !rowAligned (rowOff p sb i) rb with
  | some i => trap .align (rowPtr p sb i)
  | none => pure ()
  match (List.range rows).find? fun i => !smode && (Config.systemArea : Int) < rowOff p sb i + rb with
  | some i => trap .traysys (rowPtr p sb i)
  | none => pure ()
  pure ((List.range rows).map fun i => (rowOff p sb i).toNat)

/-- Frame columns of a column-oriented transfer (R154). -/
def frameCols (rows w : Nat) : Nat := (rows * w + 31) / 32
/-- Offset of stored row i (R154): the rows lie at stride 64 from the pointer. -/
def storedOff (p : Word) (i : Nat) : Nat := field p 0 19 + 64 * i

/-- The column checks of R208: the word columns used. DEDUCED, log 47. -/
def checkCols (p b : Word) (rows cols w : Nat) (store smode : Bool) : M Nat := do
  let n := frameCols rows w
  checkShape (b = 64 && w != 6 && field p 2 4 + n ≤ 16 && (!store || rows * w % 32 == 0))
  check (ptrTag p = 1 && field p 19 41 == 0) .noncanon p
  check (storedOff p (cols - 1) + 4 * n ≤ Config.trayBytes) .bounds p
  check (field p 6 4 == 0 && field p 0 2 == 0) .align p
  check (smode || storedOff p (cols - 1) + 4 * n ≤ Config.systemArea) .traysys p
  pure n

/-- The pointer of a tray word. -/
def trayPtr (w : Nat) : Word := BitVec.ofNat 64 (2 ^ 60 + 4 * w)
/-- A poisoned tray word among some traps MCE with the pointer of the first of them in the order given (R209). DEDUCED, log 88. -/
def checkTrayWords (ws : List Nat) : M Unit := do
  let k ← look (·.myCore)
  match ws.find? fun w => k.trayPoisoned [4 * w] with
  | some w => halt (.softMce (trayPtr w))
  | none => pure ()

/-- The cost of a transfer with a number of tray accesses, and a cycle for each retry that a bank conflict forces (R152, R205). -/
def transferCost (accesses : Nat) : M Nat := fun s =>
  .ok (6 + accesses + Config.freeRetries s.freeCtr, { s with freeCtr := s.freeCtr + 1 })

/-- n bytes of the own tray as a number, the system area included (R158). -/
def State.trayNumber (s : State) (off n : Nat) : Nat :=
  numberOf (s.trayBytes s.curCore ((List.range n).map fun i => off + i))

/-- Tray rows a row transfer touches (R153, R154): each is one access. DEDUCED, log 102. -/
def rowAccesses (offs : List Nat) (rb : Nat) : Nat := (offs.map fun q => (q % 64 + rb + 63) / 64).foldl (· + ·) 0

/-- TLD (R206-R209): the cost in cycles. DEDUCED, log 88. -/
def tileLoad (t : Nat) (l : Latch) (col smode : Bool) : M Nat := do
  let tc := l.tc t
  let f ← need (tcShape tc)
  let (rows, cols, w) := (tcRows tc, tcCols tc, fmtBits f)
  let rb := rowBytesOf cols f
  if col then do
    let n ← checkCols l.a l.b rows cols w false smode
    checkTrayWords ((List.range n).flatMap fun k =>
      (List.range (16 * ((cols + 15) / 16))).map fun i => storedOff l.a i / 4 + k)
    let st ← look fun s => (List.range cols).map fun i => s.trayNumber (storedOff l.a i) (4 * n)
    change fun s => { s with freeCtr := s.freeCtr + 4 * n }
    change (·.modMyCore fun k => (List.range rows).foldl (fun k j =>
      k.setTileRow t j rb (packFields w (st.map fun v => v / 2 ^ (w * j)))) k)
    transferCost (n * ((cols + 15) / 16))
  else do
    check (ptrTag l.a = 1 && field l.a 19 41 == 0) .noncanon l.a
    let offs ← checkRows l.a l.b rows rb smode
    checkTrayWords (offs.flatMap fun q => trayWords q rb)
    let vs ← look fun s => offs.map fun q => s.trayNumber q rb
    change fun s => { s with freeCtr := s.freeCtr + rb }
    change (·.modMyCore fun k => vs.zipIdx.foldl (fun k (v : Nat × Nat) => k.setTileRow t v.2 rb v.1) k)
    transferCost (rowAccesses offs rb)

/-- TST (R206-R209). DEDUCED, log 46. -/
def tileStore (t : Nat) (l : Latch) (col smode : Bool) : M Nat := do
  let tc := l.tc t
  let f ← need (tcShape tc)
  let (rows, cols, w) := (tcRows tc, tcCols tc, fmtBits f)
  let rb := rowBytesOf cols f
  let put := fun (off n v : Nat) (k : Core) => k.trayWrite ((bytesOf v n).zipIdx.map fun (b : Byte × Nat) => (off + b.2, b.1))
  if col then do
    let n ← checkCols l.a l.b rows cols w true smode
    let bad ← look fun s => s.myCore.tilePoisoned t rows rb
    checkPoison bad
    change (·.modMyCore fun k => (List.range cols).foldl (fun q i =>
      put (storedOff l.a i) (4 * n) (packFields w ((List.range rows).map fun j => k.tileElem t j i w)) q) k)
    transferCost (n * ((cols + 15) / 16))
  else do
    check (ptrTag l.a = 1 && field l.a 19 41 == 0) .noncanon l.a
    let offs ← checkRows l.a l.b rows rb smode
    let bad ← look fun s => s.myCore.tilePoisoned t rows rb
    checkPoison bad
    change (·.modMyCore fun k => offs.zipIdx.foldl (fun q (o : Nat × Nat) =>
      put o.1 rb (Memory.readN k.tiles (tileByte t o.2) rb) q) k)
    transferCost (rowAccesses offs rb)

/-- TZR (R210). -/
def tileZero (t : Nat) (l : Latch) : M Nat := do
  let f ← need (tcShape (l.tc t))
  change (·.modMyCore fun k => (List.range (tcRows (l.tc t))).foldl (fun k i =>
    k.setTileRow t i (rowBytesOf (tcCols (l.tc t)) f) 0) k)
  pure (6 + tcRows (l.tc t))

/-- The tile's row bytes as cells at 128 × row + byte. -/
def Core.tileCells (k : Core) (t rows n pitch : Nat) : List Host.Cell :=
  (List.range rows).foldl (fun m i => Memory.writeN m (pitch * i) n (Memory.readN k.tiles (tileByte t i) n)) []

/-- A trap that leaves an effect of its own (R211, R214): MCE with eaddr 0, containing nothing. -/
def softMceWith (f : State → State) : M Unit := fun s => .error (.paused ((f s).takeTrap .mce 0 false))

/-- MWL (R211). -/
def loadWeights (t : Nat) (f : Fmt) (l : Latch) : M Nat := do
  let tc := l.tc t
  let (rows, cols) := (tcRows tc, tcCols tc)
  checkShape (tcFmt tc == f.code && shapeOk rows cols f && (f != .fp64 || rows ≤ 16))
  checkShape (f != .fp4s || (t % 2 == 0 && companionOk l t))
  let rb := rowBytesOf cols f
  let k ← look (·.myCore)
  let clear := fun (s : State) => s.modMyCore fun k => { k with resume := none }
  if k.tilePoisoned t rows rb || (f == .fp4s && k.tilePoisoned (t ^^^ 1) rows (cols / 8)) then softMceWith clear
  let w : Weights :=
    { wv := true, wbad := false, fmt := some f, rows := rows, cols := cols, w := k.tileCells t rows rb 128
      blk := if f == .fp4s then k.tileCells (t ^^^ 1) rows (cols / 8) 16 else []
      band := if f == .fp4s then BitVec.ofNat 16 (tcBand tc) else 0 }
  change fun s => (clear s).modMyCore fun k => { k with array := w }
  pure 32

/-- Class, pass depth K and most rows of a format pair (R166). -/
def matrixPair (w a : Fmt) : Option (AccClass × Bool × Nat × Nat) :=
  let f16 := fun (f : Fmt) => f == .bf16 || f == .fp16 || f == .fp8e4 || f == .fp8e5 || f == .fp6e3 || f == .fp6e2 ||
    f == .fp4 || f == .fp4s
  let i8 := fun (f : Fmt) => f == .i8 || f == .n8
  let i4 := fun (f : Fmt) => f == .i4 || f == .n4
  -- the flag says whether the class sums one product at a time
  if w == .fp64 && a == .fp64 then some (.f64, true, 16, 16)
  else if w == .fp32 && a == .fp32 then some (.f32, true, 16, 32)
  else if f16 w && f16 a then
    let b := max (fmtBits w) (fmtBits a)
    some (.f32, false, if b = 16 then 32 else if b = 4 then 128 else 64, 32)
  else if i8 w && i8 a then some (.i32, true, 64, 32)
  else if i4 w && i4 a then some (.i32, true, 128, 32)
  else if w == .i4 && a == .i8 then some (.i32, true, 64, 32)
  else none

/-- The value of an FP4S element with its scales, or of an element of another format (R54, R63). An element that its block scale makes
zero gives the canonical NaN under an infinite band scale. DEDUCED, log 77. DEDUCED, log 90. -/
def scaled (f : Fmt) (code blk band : Nat) : Num :=
  match f with
  | .fp4s => ((fmtValue .fp4 code).mul (blockScale blk)).mul (fmtValue .bf16 band)
  | _ => fmtValue f code

/-- av(k) of activation row i (R213). -/
def Core.actValue (k : Core) (l : Latch) (f : Fmt) (t i n : Nat) : List Num :=
  (List.range n).map fun j =>
    scaled f (k.tileElem t i j (fmtBits f)) (k.tileElem (t ^^^ 1) i (j / 8) 8) (tcBand (l.tc t))
/-- wv(k) of weight row j (R213). -/
def Weights.value (w : Weights) (f : Fmt) (j n : Nat) : List Num :=
  (List.range n).map fun k =>
    let b := fmtBits f
    scaled f (Memory.readN w.w (128 * j + b * k / 8) ((b * k % 8 + b + 7) / 8) / 2 ^ (b * k % 8) % 2 ^ b)
      (Memory.readN w.blk (16 * j + k / 8) 1) w.band.toNat

/-- One accumulator element after the products of one activation row and one weight row (R74). -/
def accumulate (c : AccClass) (single : Bool) (acc : Nat) (ovf : Bool) (ps : List (Num × Num)) : Nat × Bool :=
  match c with
  | .f64 => (sumFused (classFmt .f64) acc ps, ovf)
  | .f32 => (if single then sumFused (classFmt .f32) acc ps else sumFloat16 (classFmt .f32) acc ps, ovf)
  | .i32 =>
    let r := sumInt (BitVec.ofNat 32 acc) ovf ps
    (r.1.toNat, r.2)

/-- One activation row against every weight row. -/
def Core.streamRow (k : Core) (c : AccClass) (single : Bool) (row : Nat) (av : List Num) (ws : List (List Num)) : Core :=
  ws.zipIdx.foldl (fun (k : Core) (w : List Num × Nat) =>
    let r := accumulate c single (k.accElem c row w.2) k.ovf (av.zip w.1)
    { (k.setAccElem c row w.2 r.1) with ovf := r.2 }) k

/-- One activation tile of a stream (R213): accumulator rows from `row`. -/
def Core.streamTile (k : Core) (l : Latch) (wf f : Fmt) (c : AccClass) (single : Bool) (t row : Nat) : Core :=
  let n := k.array.cols
  let ws := (List.range k.array.rows).map fun j => k.array.value wf j n
  (List.range (tcRows (l.tc t))).foldl (fun q i => q.streamRow c single (row + i) (k.actValue l f t i n) ws) k

/-- A word of activation tile t, of its companion, or of the accumulator rows it changes is poisoned (R180, R213).
DEDUCED, log 48. -/
def Core.streamPoisoned (k : Core) (l : Latch) (f : Fmt) (c : AccClass) (t row : Nat) : Bool :=
  let tc := l.tc t
  k.tilePoisoned t (tcRows tc) (rowBytesOf (tcCols tc) f) ||
    (f == .fp4s && k.tilePoisoned (t ^^^ 1) (tcRows tc) (tcCols tc / 8)) ||
    k.accPoisoned c row (tcRows tc) k.array.rows

/-- The checks of MST (R212), with MATFMT for an odd d of FP4S (DEDUCED, log 89): the latched weight format, class and summing order. -/
def checkStream (d row c : Nat) (f : Fmt) (l : Latch) : M (Fmt × AccClass × Bool) := do
  let ts := streamTiles d c f
  let w ← look (·.myCore.array)
  checkShape (f != .fp4s || d % 2 == 0)
  checkShape (ts.all (· ≤ 7))
  checkShape w.wv
  let wf ← need w.fmt
  let (cls, single, depth, most) ← need (matrixPair wf f)
  checkShape (w.cols ≤ depth && w.rows ≤ most)
  checkShape (ts.all fun t =>
    tcFmt (l.tc t) == f.code && tcCols (l.tc t) == w.cols && shapeOk (tcRows (l.tc t)) (tcCols (l.tc t)) f &&
      (f != .fp4s || companionOk l t))
  checkShape (row + (ts.map fun t => tcRows (l.tc t)).foldl (· + ·) 0 ≤ 512)
  checkPoison w.wbad
  pure (wf, cls, single)

/-- Cycles a stop waits for IE (R95). -/
def ieLimit : Nat := 4096

/-- A pre-emption of the core is pending and may stop the slot's MST: IE is 1, or 4,096 cycles have passed (R95, R169). -/
def State.streamStop (s : State) : Bool :=
  match s.myCore.preempt with
  | some (_, asked) => s.me.sw.ie || asked + ieLimit ≤ s.cycle
  | none => false

/-- A matching resume record gives the tiles already done (R169, R213). -/
def resumeTiles (r : Option Resume) (slot : Nat) (pc : Word) (i : Instr) : Nat :=
  match r with
  | some r => if r.slot == slot && r.pc == pc && r.fields == i then r.tiles else 0
  | none => 0

/-- The record of a stream stopped before a tile. -/
def State.recordStream (s : State) (i : Instr) (tile : Nat) : State :=
  s.modMyCore fun k => { k with resume := some { slot := s.curSlot.val, pc := s.me.pc, fields := i, tiles := tile } }

/-- Stream tile m of an MST from accumulator row r, the boundary before it being at a cycle; a poisoned tile stops the
stream (R213). -/
def streamOne (i : Instr) (d : Nat) (f : Fmt) (l : Latch) (m r boundary : Nat) (wf : Fmt) (c : AccClass) (single : Bool) :
    M Unit := do
  let t := (if f == .fp4s then d + 2 * m else d + m)
  let k ← look (·.myCore)
  if k.streamPoisoned l f c t r then softMceWith (·.recordStream i m)
  change (·.modMyCore fun k => k.streamTile l wf f c single t r)
  holdLane (.stream i l (m + 1) (r + tcRows (l.tc t)) (boundary + tcRows (l.tc t)))

/-- MST at the head of its lane (R212, R213). -/
def streamStart (i : Instr) (d row c : Nat) (f : Fmt) (l : Latch) (start : Nat) : M Unit := do
  let (wf, cls, single) ← checkStream d row c f l
  let done ← look fun s => resumeTiles s.myCore.resume s.curSlot.val s.me.pc i
  let r := row + ((streamTiles d done f).map fun t => tcRows (l.tc t)).foldl (· + ·) 0
  clearResume
  if ← look (·.streamStop) then change (·.recordStream i done) else streamOne i d f l done r (start + 64) wf cls single

/-- ACZ (R216). DEDUCED, log 49. -/
def accZero (a b : Word) : M Nat := do
  let r ← accRows a b.toNat
  let m := b.toNat
  if m != 0 then
    clearResume
    change (·.modMyCore fun k => k.mapAcc .i32 r m 32 fun _ _ _ => 0)
  pure (8 + m)

/-- ACLD (R217). -/
def accLoad (t : Nat) (l : Latch) : M Nat := do
  let tc := l.tc t
  let f ← need (tcShape tc)
  checkShape (f == .fp32 || f == .fp64)
  let r ← accRows l.a (tcRows tc)
  let n := rowBytesOf (tcCols tc) f / 4
  let bad ← look fun s => s.myCore.tilePoisoned t (tcRows tc) (4 * n)
  checkPoison bad
  clearResume
  change (·.modMyCore fun q => q.mapAcc .i32 r (tcRows tc) n fun k i j => k.tileElem t i j 32)
  pure (8 + tcRows tc)

/-- The exact value of an accumulator element (R218). -/
def accValue (c : AccClass) (v : Nat) : Num :=
  match c with
  | .f32 | .f64 => (classFmt c).value v
  | .i32 => .ofInt (BitVec.ofNat 32 v).toInt

/-- ACST (R218). -/
def accStore (t : Nat) (f : Fmt) (sat : Bool) (c : AccClass) (l : Latch) : M Nat := do
  let tc := l.tc t
  let (rows, cols) := (tcRows tc, tcCols tc)
  checkShape (shapeOk rows cols f && cols ≤ classCols c)
  let r ← accRows l.a rows
  let bad ← look fun s => s.myCore.accPoisoned c r rows cols
  checkPoison bad
  clearResume
  change (·.modMyCore fun k => (List.range rows).foldl (fun k i =>
    k.setTileRow t i (rowBytesOf cols f) (packFields (fmtBits f) ((List.range cols).map fun j =>
      convert f .rne sat 0 (accValue c (k.accElem c (r + i) j))))) k)
  pure (8 + rows)

/-- The function of ACT (R219). -/
def actFn (u : ActFn) (c : AccClass) (x s : Nat) : Nat :=
  match c with
  | .f32 | .f64 =>
    match u with
    | .scale => (classFmt c).mul x s
    | .min => (classFmt c).min x s
    | .max => (classFmt c).max x s
  | .i32 =>
    match u with
    | .min => laneOp .min .i32 x s
    | .max => laneOp .max .i32 x s
    | .scale => x

/-- ACT (R219): SCALE in class i32 is ILL. -/
def accApply (u : ActFn) (c : AccClass) (l : Latch) : M Nat := do
  check (!(u == .scale && c == .i32)) .ill 0
  let m := l.b.toNat
  let r ← accRows l.a m
  let sc := match c with
    | .f32 | .i32 => l.d.toNat % 2 ^ 32
    | .f64 => l.d.toNat
  if m != 0 then
    let bad ← look fun s => s.myCore.accPoisoned c r m (classCols c)
    checkPoison bad
    clearResume
    change (·.modMyCore fun k => k.mapAcc c r m (classCols c) fun k i j => actFn u c (k.accElem c (r + i) j) sc)
  pure (8 + m)

/-- The tile formats ACADD accepts (R220). -/
def acaddFmt (c : AccClass) (f : Fmt) : Bool :=
  match c with
  | .f32 => f == .fp32 || f == .bf16 || f == .fp16 || f == .fp8e4 || f == .fp8e5 || f == .fp6e3 || f == .fp6e2 || f == .fp4
  | .f64 => f == .fp64 || f == .fp32
  | .i32 => f == .i8 || f == .n8 || f == .i4 || f == .n4

/-- One element of ACADD: the result and the sticky overflow (R220). -/
def acaddElem (c : AccClass) (acc : Nat) (ovf : Bool) (v : Num) : Nat × Bool :=
  match c with
  | .f32 | .f64 => ((classFmt c).rne (v.add ((classFmt c).value acc)), ovf)
  | .i32 =>
    let r := addInt32 (BitVec.ofNat 32 acc) v.toInt
    (r.1.toNat, ovf || r.2)

/-- ACADD (R220). -/
def accAdd (t : Nat) (c : AccClass) (l : Latch) : M Nat := do
  let tc := l.tc t
  let f ← need (tcShape tc)
  let (rows, cols) := (tcRows tc, tcCols tc)
  checkShape (acaddFmt c f && cols ≤ classCols c)
  let r ← accRows l.a rows
  let k ← look (·.myCore)
  checkPoison (k.tilePoisoned t rows (rowBytesOf cols f) || k.accPoisoned c r rows cols)
  clearResume
  change (·.modMyCore fun k => (List.range rows).foldl (fun k i => (List.range cols).foldl (fun (k : Core) j =>
    let v := acaddElem c (k.accElem c (r + i) j) k.ovf (fmtValue f (k.tileElem t i j (fmtBits f)))
    { (k.setAccElem c (r + i) j v.1) with ovf := v.2 }) k) k)
  pure (8 + rows)

/-- The value of MSTAT (R221). -/
def mstatWord (k : Core) (dm : Bool) : Word :=
  let (rv, slot, tiles) := match k.resume with
    | some r => if dm then (false, 0, 0) else (true, r.slot, r.tiles)
    | none => (false, 0, 0)
  BitVec.ofNat 64 (k.array.cols * 2 ^ 32 + k.array.rows * 2 ^ 24 + ((k.array.fmt.map Fmt.code).getD 0) * 2 ^ 18) |||
    (bit k.array.wbad <<< 17) ||| (bit k.array.wv <<< 16) ||| BitVec.ofNat 64 (tiles % 16 * 2 ^ 8 + slot % 8 * 4) |||
    (bit rv <<< 1) ||| bit k.ovf

/-- MSTAT (R221). -/
def readStatus (d : Reg) (clear : Bool) : M Nat := do
  let v ← look fun s => mstatWord s.myCore s.me.sw.dm
  writeX d v
  if clear then change (·.modMyCore fun k => { k with ovf := false })
  pure 1

/-- Perform a matrix operation that has reached the head of its lane, from its latched operands (R168, R203). -/
def matrixPerform (i : Instr) (l : Latch) : M Unit := do
  let start ← look fun s => s.myCore.laneStart i s.cycle
  let smode ← look (·.me.sw.s)
  let cost := fun (m : M Nat) => do
    let c ← m
    occupy i start c
  match i with
  | .tld t _ _ o => cost (tileLoad t.toNat l o smode)
  | .tst t _ _ o => cost (tileStore t.toNat l o smode)
  | .tzr t => cost (tileZero t.toNat l)
  | .mwl t f => cost (loadWeights t.toNat f l)
  | .mst t r c f => streamStart i t.toNat r.toNat c.toNat f l start
  | .acz _ _ => cost (accZero l.a l.b)
  | .acld t _ => cost (accLoad t.toNat l)
  | .acst t _ f sat c => cost (accStore t.toNat f sat c l)
  | .act _ _ _ c u => cost (accApply u c l)
  | .acadd t _ c => cost (accAdd t.toNat c l)
  | .mstat d x => cost (readStatus d x)
  | _ => pure ()

/-- The operation names FP6 in its encoding, its latched weights or a tile's tc (R222). -/
def emulated (i : Instr) (l : Latch) (k : Core) : Bool :=
  let six := fun (o : Option Fmt) => (o.map fmtEmulated).getD false
  match i with
  | .mwl _ f => fmtEmulated f
  | .mst _ _ _ f => fmtEmulated f || six k.array.fmt
  | .acst _ _ f _ _ => fmtEmulated f
  | .acadd t _ _ => six (Fmt.ofCode (tcFmt (l.tc t.toNat)))
  | _ => false

/-- An operation enters its lane: it waits behind earlier ones, is handed to the control core, or is performed (R168,
R222). DEDUCED, log 68. -/
def matrixEnter (i : Instr) (l : Latch) : M Unit := do
  let k ← look (·.myCore)
  let since ← look (·.me.since)
  if k.laneBlocked i since then holdLane (.lane i l)
  else if emulated i l k then holdLane (.emulate i l 0)
  else matrixPerform i l

/-- Issue of a matrix operation: its registers and tc0-tc7 are latched (R128, R203). -/
def matrixIssue (i : Instr) (a b d : Option Reg) (s : State) : Out :=
  run (do
    let get := fun (r : Option Reg) => match r with
      | some r => readX r
      | none => pure 0
    let x ← get a
    let y ← get b
    let z ← get d
    let tcs ← look (·.mySight.tc)
    change fun s => (s.modMe fun t => { t with since := s.stamp }).tick
    matrixEnter i { tcs := tcs, a := x, b := y, d := z }) s

/-- TLD (R206-R209). -/
def execTld (t : TileNo) (a b : Reg) (o : Bool) (s : State) : Out := matrixIssue (.tld t a b o) (some a) (some b) none s
/-- TST (R206-R209). -/
def execTst (t : TileNo) (a b : Reg) (o : Bool) (s : State) : Out := matrixIssue (.tst t a b o) (some a) (some b) none s
/-- TZR (R210). -/
def execTzr (t : TileNo) (s : State) : Out := matrixIssue (.tzr t) none none none s
/-- MWL (R211). -/
def execMwl (t : TileNo) (f : Fmt) (s : State) : Out := matrixIssue (.mwl t f) none none none s
/-- MST (R212-R215). -/
def execMst (t : TileNo) (r : BitVec 9) (c : BitVec 5) (f : Fmt) (s : State) : Out :=
  matrixIssue (.mst t r c f) none none none s
/-- ACZ (R216). -/
def execAcz (a b : Reg) (s : State) : Out := matrixIssue (.acz a b) (some a) (some b) none s
/-- ACLD (R217). -/
def execAcld (t : TileNo) (a : Reg) (s : State) : Out := matrixIssue (.acld t a) (some a) none none s
/-- ACST (R218). -/
def execAcst (t : TileNo) (a : Reg) (f : Fmt) (x : Bool) (c : AccClass) (s : State) : Out :=
  matrixIssue (.acst t a f x c) (some a) none none s
/-- ACT (R219). -/
def execAct (d a b : Reg) (c : AccClass) (u : ActFn) (s : State) : Out :=
  matrixIssue (.act d a b c u) (some a) (some b) (some d) s
/-- ACADD (R220). -/
def execAcadd (t : TileNo) (a : Reg) (c : AccClass) (s : State) : Out := matrixIssue (.acadd t a c) (some a) none none s
/-- MSTAT (R221). -/
def execMstat (d : Reg) (x : Bool) (s : State) : Out := matrixIssue (.mstat d x) none none none s

/-! ### Completion and emulation -/

/-- Run part of an instruction for a slot that has left the rotation: the slot is back in it first. -/
def State.runAs (s : State) (c k : Nat) (m : M Unit) : State :=
  let here := (s.curCore, s.curSlot)
  let u := (s.focus c (slotNo k)).modMe fun t => { t with out := .none }
  match run m u with
  | .next v => v.focus here.1 here.2
  | .fault _ | .refused _ => s

/-- The first operation, in issue order, that waits for its lane and is no longer held back. -/
def Core.laneReady (k : Core) : Option (Nat × Instr × Latch) :=
  let ws := (List.range 8).filterMap fun n =>
    let t := k.slots[slotNo n]
    match t.out with
    | .lane i l => if k.laneBlocked i t.since then none else some (t.since, (n, i, l))
    | _ => none
  (sortKeys ws).head?.map (·.2)

/-- Let the operations that wait for their lane enter it, at most one for each slot. -/
def State.admitLane (c : Nat) : Nat → State → State
  | 0, s => s
  | n + 1, s =>
    match (s.core c).laneReady with
    | some (k, i, l) => State.admitLane c n (s.runAs c k (matrixEnter i l))
    | none => s

/-- An MST at a tile boundary (R169, R213): it completes, stops for a pre-emption, or streams its next tile. -/
def boundary (i : Instr) (l : Latch) (tile row due : Nat) : M Unit := do
  match i with
  | .mst t _ c f => do
    let k ← look (·.myCore)
    if c.toNat ≤ tile then do
      clearResume
      finish 4
    else if ← look (·.streamStop) then change (·.recordStream i tile)
    else
      match k.array.fmt.bind fun wf => (matrixPair wf f).map fun p => (wf, p) with
      | some (wf, cls, single, _, _) => streamOne i t.toNat f l tile row due wf cls single
      | none => matfmt
  | _ => pure ()

/-- MATRIX_OP_COMPLETE (R168, R213): a slot returns to the rotation in the cycle its operation completes; a stream comes
to its next tile boundary. -/
def execMatrixOpComplete (core slot : Nat) (s : State) : Out :=
  match (s.slotAt core (slotNo slot)).out with
  | .matrix _ _ due =>
    if s.cycle < due then .next s
    else .next (s.modSlotAt core (slotNo slot) fun t => { t with out := .none })
  | .stream i l tile row due =>
    if s.cycle < due then .next s
    else .next (State.admitLane core 8 (s.runAs core slot (boundary i l tile row due)))
  | _ => .next s

/-- FP6_EMULATION (R64, R222): the die control core performs the operation and the slot returns; the key and the SR counter of a
VCVT are read then. DEDUCED, log 87. -/
def execFp6Emulation (core slot : Nat) (s : State) : Out :=
  let t := s.slotAt core (slotNo slot)
  match t.out with
  | .emulate i l src =>
    match i with
    | .vcvt d _ b r sat f => .next (s.runAs core slot (cvtV 0 d src b r sat f))
    | _ =>
      if (s.core core).laneBlocked i t.since then .next s
      else .next (State.admitLane core 8 (s.runAs core slot (matrixPerform i l)))
  | _ => .next s

end Sys2Proof.Machine
end

