-- ==== Sys2Proof/Machine/Engine.lean ====
section
/-!
DEFINITION. Copy and gather engines and futures (R171-R176, R193-R195): the issue of CPY and GTH, FWAIT, FTEST, FCAN, FMOV,
QFN, and the two steps of an entry, ENGINE_ENTRY_START and ENGINE_ENTRY_COMPLETE.
-/
namespace Sys2Proof.Machine

/-! ### Descriptors -/

/-- A pointer that can be a column side (R172): a tray pointer at row 0 and byte 0 of a frame column. -/
def columnPtr (p : Word) : Bool := (ptrTag p == 1 || ptrTag p == 2) && field p 6 4 == 0 && field p 0 2 == 0
/-- A destination .full accepts (R193). -/
def fullPtr (p : Word) (n : Nat) : Bool := (ptrTag p == 1 || ptrTag p == 2) && field p 0 2 == 0 && n % 4 == 0
/-- The low half of a word as a signed stride (R172). -/
def strideLow (w : Word) : Int := (w.setWidth 32).toInt
/-- The high half of a word as a signed stride. -/
def strideHigh (w : Word) : Int := (w.extractLsb' 32 32).toInt

/-- The copy entry of a descriptor, if its fields are in range (R172, R176, R193). -/
def copyEntry (w : List Word) (ro full scol dcol : Bool) : Option EntryOp :=
  let w0 := w.getD 0 0
  let w1 := w.getD 1 0
  let w2 := w.getD 2 0
  let w3 := w.getD 3 0
  let rb := field w2 0 32
  let rows := field w2 32 32
  if (1 ≤ rb && rb ≤ 1048576) && (1 ≤ rows && rows ≤ 1048576) && (!scol || (columnPtr w0 && rb == 64)) &&
      (!dcol || (columnPtr w1 && rb == 64)) && (!full || fullPtr w1 rb) &&
      (!ro || (ptrTag w1 == 1 && !dcol && field w1 0 10 == 0 && strideHigh w3 == (rb : Int) && rows * rb % 1024 == 0))
  then some (.copy w0 w1 rb rows (strideLow w3) (strideHigh w3) scol dcol ro)
  else none

/-- The gather entry of a descriptor, if its fields are in range (R173, R193). -/
def gatherEntry (w : List Word) (full scol dcol : Bool) : Option EntryOp :=
  let w0 := w.getD 0 0
  let w1 := w.getD 1 0
  let w2 := w.getD 2 0
  let w3 := w.getD 3 0
  let cnt := field w3 0 32
  let eb := field w3 32 16
  if field w3 48 16 == 0 && (1 ≤ cnt && cnt ≤ 1048576) && (1 ≤ eb && eb ≤ 1024) && field w1 0 2 == 0 &&
      (!scol || (columnPtr w0 && eb == 64)) && (!dcol || (columnPtr w2 && eb == 64)) && (!full || fullPtr w2 eb)
  then some (.gather w0 w1 w2 cnt eb scol dcol)
  else none

/-! ### Queues -/

/-- A queue number as an index. -/
def queueNo (n : Nat) : Fin 6 := ⟨n % 6, Nat.mod_lt _ (by decide)⟩
/-- Room for one more entry (R171). -/
def Core.queueRoom (k : Core) (q : Nat) : Bool := (k.queues[queueNo q]).length < Config.engineQueueEntries
/-- Replace a queue. -/
def Core.setQueue (k : Core) (q : Nat) (es : List Entry) : Core := { k with queues := k.queues.set (queueNo q) es }
/-- Put an entry at the tail. -/
def Core.enqueue (k : Core) (q : Nat) (e : Entry) : Core := k.setQueue q (k.queues[queueNo q] ++ [e])

/-- The entry is a fence. -/
def EntryOp.fenceId : EntryOp → Option Nat
  | .fence id => some id
  | .copy .. | .gather .. => none

/-- A fence that stands at the head of every queue that holds it (R174). -/
def Core.fenceDone (k : Core) : Option Nat :=
  let heads := k.queues.toList.filterMap fun es => (es.head?.bind fun e => e.op.fenceId)
  heads.find? fun id => k.queues.toList.all fun es =>
    !(es.any fun e => e.op.fenceId == some id) || (es.head?.bind fun e => e.op.fenceId) == some id

/-- Remove completed fences; at most 16 places a queue can hold them (R174). -/
def Core.drainFences : Nat → Core → Core
  | 0, k => k
  | n + 1, k =>
    match k.fenceDone with
    | some id => Core.drainFences n { k with queues := k.queues.map fun es => es.filter fun e => e.op.fenceId != some id }
    | none => k

/-- Mark a register as holding a pending handle; x0 takes no mark (R194). -/
def Slot.mark (t : Slot) (d : BitVec 4) (id : Nat) : Slot :=
  if d = 0 then t else { t with marks := t.marks.set (⟨d.toNat % 16, Nat.mod_lt _ (by decide)⟩ : Fin 16) (some id) }

/-- Queue an entry for the slot being executed, mark its register and complete the instruction (R193 step 6). -/
def State.acceptEntry (s : State) (q : Nat) (op : EntryOp) (full : Bool) (d : BitVec 4) : State :=
  let e : Entry :=
    { id := s.stamp, op := op, full := full, started := false, done := 0, part := 0, wrote := [], cancel := false, status := none, wait := .none
      agent := { s.agent with slot := none, queue := q } }
  ((s.tick.modMyCore fun k => k.enqueue q e).modMe fun t => { t.mark d s.stamp with out := .none }).complete 4

/-- The queues a QFN names (R194). -/
def maskQueues (m : BitVec 6) : List Nat := (List.range 6).filter fun i => m.getLsbD i

/-- Queue a fence in each named queue and complete the instruction (R195). -/
def State.acceptFence (s : State) (m : BitVec 6) : State :=
  let e : Entry :=
    { id := s.stamp, op := .fence s.stamp, full := false, started := false, done := 0, part := 0, wrote := [], cancel := false
      status := none, wait := .none, agent := { s.agent with slot := none } }
  (s.tick.modMyCore fun k => ((maskQueues m).foldl (fun k q => k.enqueue q e) k).drainFences 16).complete 4

/-- The first slot, by the order in which their waits began, whose waiting entry finds a free place (R193). -/
def Core.admissible (k : Core) : Option Nat :=
  let ws := (List.range 8).filterMap fun i =>
    let t := k.slots[slotNo i]
    match t.out with
    | .engine q _ _ _ => if k.queueRoom q then some (t.since, i) else none
    | _ => none
  (sortKeys ws).head?.map (·.2)

/-- Accept the entries that wait for places, and let waiting QFNs execute again. -/
def State.admitEngines (c : Nat) : Nat → State → State
  | 0, s => s
  | n + 1, s =>
    match (s.core c).admissible with
    | none => s.modCore c fun k => k.wake fun w => w == .queue
    | some i =>
      let here := (s.curCore, s.curSlot)
      let u := s.focus c (slotNo i)
      let u := match u.me.out with
        | .engine q op full d => u.acceptEntry q op full d
        | _ => u
      State.admitEngines c n (u.focus here.1 here.2)

/-- Places of a core's queues have become free: fences and waiting entries move up. -/
def State.queuesMoved (s : State) (c : Nat) : State :=
  State.admitEngines c 9 (s.modCore c fun k => k.drainFences 16)

/-! ### Issue of CPY and GTH (R193) -/

/-- The steps of R193: the checks of the descriptor read, the release, the read, the field checks, then a place. -/
def issueEngine (d : BitVec 4) (a : Reg) (q : Nat) (full : Bool) (parse : List Word → Option EntryOp) (s : State) :
    M Unit := do
  let p ← readX a
  needGlobal p
  let sps ← checkRange s.agent p 32 8 .load
  release
  -- what stops it from here on leaves the release performed
  keeping do
    let ws ← readRange s.agent sps
    match parse ws with
    | none => trap .noncanon p
    | some op =>
      change fun u => { u with sent := [] }
      let room ← look fun u => u.myCore.queueRoom q
      if room then change fun u => u.acceptEntry q op full d
      else leave (.engine q op full d)

/-- CPY (R193). -/
def execCpy (d : BitVec 4) (a : Reg) (r f sc dc : Bool) (q : BitVec 2) (s : State) : Out :=
  run (issueEngine d a q.toNat f (copyEntry · r f sc dc) s) s
/-- GTH (R193). -/
def execGth (d : BitVec 4) (a : Reg) (f sc dc : Bool) (q : BitVec 1) (s : State) : Out :=
  run (issueEngine d a (4 + q.toNat) f (gatherEntry · f sc dc) s) s

/-! ### Futures (R194, R195) -/

/-- FWAIT (R195): it waits while the register is pending, then acquires. -/
def execFwait (a : BitVec 4) (s : State) : Out :=
  run (do
    let _ ← readX (a.setWidth 5)
    acquire
    finish 4) s

/-- FTEST (R195): NONDET in a deterministic task; it never waits. -/
def execFtest (q : PredNo) (a : BitVec 4) (s : State) : Out :=
  run (do
    check (!s.me.sw.dm) .nondet 0
    writePred q (s.markOf (a.setWidth 5)).isNone
    finish 4) s

/-- FMOV (R195): the register with its mark. -/
def execFmov (d a : BitVec 4) (s : State) : Out :=
  run (do
    writeX (d.setWidth 5) (s.xval (a.setWidth 5))
    match s.markOf (a.setWidth 5) with
    | some id => change fun u => u.modMe fun t => t.mark d id
    | none => pure ()
    finish 4) s

/-- QFN (R195): it waits for a free place in each named queue. -/
def execQfn (m : BitVec 6) (s : State) : Out :=
  run (do
    let room ← look fun u => (maskQueues m).all u.myCore.queueRoom
    if room then change fun u => u.acceptFence m else halt (.wait .queue)) s

/-! ### The end of an entry (R175) -/

/-- A completed handle (R175). -/
def handleOf (done queue status : Nat) : Word := BitVec.ofNat 64 (done * 65536 + queue * 256 + status)

/-- A slot's registers that still name the entry take its handle (R175). -/
def Slot.takeHandle (t : Slot) (id : Nat) (h : Word) : Slot :=
  { t with
    x := t.x.mapIdx fun i v => if (t.marks[i]?).join == some id then h else v
    marks := t.marks.map fun m => if m == some id then none else m }

/-- The slot waits for the entry. -/
def Wait.isFuture (id : Nat) : Wait → Bool
  | .future e => e == id
  | _ => false

/-- The queue and entry of an identity. -/
def Core.findEntry (k : Core) (id : Nat) : Option (Nat × Entry) :=
  (List.range 6).findSome? fun q => (k.queues[queueNo q]).findSome? fun e => if e.id == id then some (q, e) else none

/-- Change an entry. -/
def Core.modEntry (k : Core) (id : Nat) (f : Entry → Entry) : Core :=
  { k with queues := k.queues.map fun es => es.map fun e => if e.id == id then f e else e }

/-- The digest counts what an entry has written of its present row (R351). -/
def State.countRow (s : State) (c id : Nat) : State :=
  match (s.core c).findEntry id with
  | some (_, e) => if e.wrote.isEmpty then s else (s.addDigest e.agent e.wrote).modCore c fun k => k.modEntry id fun e => { e with wrote := [] }
  | none => s

/-- Packets of an engine queue that are no reads: the accesses of its head entry that are not acknowledged. -/
def State.engineStores (s : State) (c q : Nat) : List Packet := s.packets.filter fun pk => pk.core == c && pk.slot == 8 + q && !pk.sync

/-- Reads of an entry that has ended are given up: answers that have come are dropped, others find nobody who waits. -/
def State.dropReads (s : State) (c q : Nat) : State :=
  let mine := fun (pk : Packet) => pk.core == c && pk.slot == 8 + q && pk.sync
  { s with packets := (s.packets.filter fun pk => !(mine pk && pk.answer.isSome && pk.place == .done)).map fun pk =>
      if mine pk then { pk with slot := detachedSlot } else pk }

/-- An entry ends: its handle is written, its waiters are woken and it leaves its queue (R175). -/
def State.endEntry (s : State) (c q id done status : Nat) : State :=
  let s := (s.countRow c id).dropReads c q
  let h := handleOf done q status
  let s := s.modCore c fun k =>
    { k with
      slots := k.slots.map fun t => t.takeHandle id h
      undo := k.undo.map fun x => (x.1, x.2.takeHandle id h)
      saved := k.saved.map fun sv => { sv with state := sv.state.takeHandle id h }
      stack := k.stack.map fun sv => { sv with state := sv.state.takeHandle id h } }
  let s := s.modCore c fun k => (k.wake (·.isFuture id)).setQueue q ((k.queues[queueNo q]).filter fun e => e.id != id)
  s.queuesMoved c

/-- Cancellation (R195): an entry that has not started ends at once with status 4; a started one stops after its current
row; one that has ended keeps its status. -/
def State.cancelEntry (s : State) (c id : Nat) : State :=
  match (s.core c).findEntry id with
  | none => s
  | some (q, e) =>
    if e.status.isSome then s
    else if e.started then s.modCore c fun k => k.modEntry id fun e => { e with cancel := true }
    else s.endEntry c q id 0 4

/-- FCAN (R195). -/
def execFcan (a : BitVec 4) (s : State) : Out :=
  run (do
    match s.markOf (a.setWidth 5) with
    | some id => change fun u => u.cancelEntry u.curCore id
    | none => pure ()
    finish 4) s

/-! ### The accesses of an entry -/

/-- The pieces of one row: a tray row or frame column is one access, a global row one access for each line it meets. -/
def rowPieces (p : Word) (n : Nat) : List (Word × Nat) :=
  if ptrTag p = 0 then
    (List.range ((ptrLow p % 64 + n + 63) / 64)).map fun i =>
      let lo := if i = 0 then 0 else 64 * i - ptrLow p % 64
      let hi := min n (64 * (i + 1) - ptrLow p % 64)
      (p + BitVec.ofNat 64 lo, hi - lo)
  else [(p, n)]

/-- The checks of an engine access (R24, R151, R175): a row of 64 bytes of a tray must be a frame row. -/
def engineCheck (ag : Agent) (p : Word) (n : Nat) (col : Bool) (k : AccKind) : M Spot :=
  match ptrTag p with
  | 0 => checkGlobal ag p n 1 k
  | 1 | 2 => do
    checkTray ag p n col (if n = 64 then trayAligned (p.toNat % 2 ^ 19) 64 col else true)
    traySpot ag p
  | 15 => trap .prot p
  | _ => trap .noncanon p

/-- A piece in another core's tray, cut where its packets are: none carries more than a row of 64 bytes of the tray (R309). -/
def peerPieces (col : Bool) (x : Word × Nat × Spot) : List (Word × Nat × Spot) :=
  match x.2.2 with
  | .peer pos off =>
    if col then [x]
    else (List.range ((off % 64 + x.2.1 + 63) / 64)).map fun i =>
      let lo := if i = 0 then 0 else 64 * i - off % 64
      (x.1 + BitVec.ofNat 64 lo, min x.2.1 (64 * (i + 1) - off % 64) - lo, .peer pos (off + lo))
  | .mem _ _ _ | .own _ => [x]

/-- The checks of a whole row (R172): the last byte must not pass the top of VA. The pieces are those of its accesses and packets. -/
def engineSpots (ag : Agent) (p : Word) (n : Nat) (col : Bool) (k : AccKind) : M (List (Word × Nat × Spot)) := do
  check (ptrTag p != 0 || ptrLow p + n ≤ 2 ^ 60) .bounds p
  let ps ← (rowPieces p n).mapM fun (q, m) => do
    let sp ← engineCheck ag q m col k
    pure (q, m, sp)
  pure (ps.flatMap (peerPieces col))

/-- The answered read of an engine at a pointer: of another package or tray (R160, R411). -/
def State.engineAnswer (s : State) (ag : Agent) (p : Word) : Option Packet :=
  s.packets.find? fun pk => pk.core == ag.core && pk.slot == 8 + ag.queue && pk.sync && pk.ptr == p && pk.answer.isSome && pk.place == .done

/-- Take the answer of a read: its data, or the cause it raises. -/
def takeRead (ag : Agent) (p : Word) : M (List Byte) := do
  let pk ← look fun s => s.engineAnswer ag p
  match pk with
  | some pk => do
    match pk.cause with
    | some c => trap c p
    | none => pure ()
    change fun s => { s with packets := s.packets.filter fun x => x.id != pk.id }
    pure ((pk.answer.map (·.bytes)).getD [])
  | none => pure []

/-- Read one piece; the answer of a piece of another package or tray has arrived. -/
def engineRead (ag : Agent) (col : Bool) (p : Word) (n : Nat) : Spot → M (List Byte)
  | .mem va _ (.here pa own home device _) => do
    let v ← readHere ag .home va pa own home n device false
    pure (bytesOf v n)
  | .mem va _ (.away _ _) => takeRead ag va
  | .own off => do
    let offs := trayOffs off n col
    let bad ← look fun s => (s.core ag.core).trayPoisoned offs
    if bad then trap .mce p
    look fun s => s.trayBytes ag.core offs
  | .peer _ _ => takeRead ag p

/-- Write one piece (R193): global writes recall owned words and update no L1; what is written to another package or tray is acknowledged
later. -/
def engineWrite (ag : Agent) (col : Bool) (p : Word) (bs : List Byte) : Spot → M Unit
  | .mem va psize (.here pa own home device _) => do
    holdMigration ag va psize
    let m : ByteMap := bs.zipIdx.map fun (b, i) => (i, b)
    if device then deviceWrite ag va pa home m else homeWrite ag va pa own home m
  | .mem va _ (.away pkg pa) => do
    if ag.dev.isSome then halt .devFault
    let _ ← sendFabric ag va pkg pa (.write bs) (.written (ptrLow va) bs) false
  | .own off => do
    change fun s => s.modCore ag.core fun k => k.trayWrite ((trayOffs off bs.length col).zip bs)
  | .peer pos off => do
    let _ ← sendTray ag p pos (.write ((trayOffs off bs.length col).zip bs)) false

/-- Frame column n0 + k of a column side (R172). -/
def columnAt (p : Word) (k : Nat) : Word :=
  let off := p.toNat % 2 ^ 19
  let n := 16 * (off / 1024) + off / 4 % 16 + k
  p - BitVec.ofNat 64 off + BitVec.ofNat 64 (n / 16 * 1024 + n % 16 * 4)

/-- A read-only staging source (R176): global pages of this package mapped without W. -/
def checkStaging (ag : Agent) (sps : List (Word × Nat × Spot)) : M Unit :=
  sps.forM fun (p, _, sp) =>
    match sp with
    | .mem va _ t => do
      noFabric va t
      let e ← translate ag va
      check (!e.leaf.getLsbD 2) .prot va
    | .own _ | .peer _ _ => trap .prot p

/-- The pieces of a row in other packages and trays that no answer has brought yet. -/
def State.missingPieces (s : State) (ag : Agent) (sps : List (Word × Nat × Spot)) : List (Word × Nat × Spot) :=
  sps.filter fun (p, _, sp) =>
    match sp with
    | .mem va _ (.away _ _) => (s.engineAnswer ag va).isNone
    | .peer _ _ => (s.engineAnswer ag p).isNone
    | .mem _ _ (.here _ _ _ _ _) | .own _ => false

/-- Ask for a piece. -/
def askPiece (ag : Agent) (col : Bool) (p : Word) (n : Nat) : Spot → M (List Nat)
  | .mem va _ (.away pkg pa) => do
    let id ← sendFabric ag va pkg pa (.read n) .none true
    pure [id]
  | .peer pos off => do
    let id ← sendTray ag p pos (.read ((trayOffs off n col).map fun x => (x, 1)) .none) true
    pure [id]
  | .mem _ _ (.here _ _ _ _ _) | .own _ => pure []

/-- Ask for pieces, as many as the window of unanswered requests admits (R411, R415). -/
def askPieces (ag : Agent) (col : Bool) : List (Word × Nat × Spot) → M (List Nat)
  | [] => pure []
  | (p, n, sp) :: rest => fun s =>
    match askPiece ag col p n sp s with
    | .ok (ids, s) => (do let more ← askPieces ag col rest; pure (ids ++ more)) s
    | .error (.wait _) => .ok ([], s)
    | .error st => .error st

/-- Read the pieces of a row: the bytes, or the packets still awaited; every piece that comes by a packet is there before any is read. -/
def engineGet (ag : Agent) (col : Bool) (sps : List (Word × Nat × Spot)) : M (List Byte × List Nat) := do
  let miss ← look fun s => s.missingPieces ag sps
  if miss.isEmpty then do
    let rs ← sps.mapM fun (p, n, sp) => engineRead ag col p n sp
    pure (rs.flatten, [])
  else do
    let ids ← askPieces ag col miss
    if ids.isEmpty then halt (.wait (.row 0)) else pure ([], ids)

/-- The head entry of an engine's queue has written some bytes of its row, which the digest is to count (R351). -/
def State.noteWritten (s : State) (ag : Agent) (cells : List Host.Cell) : State :=
  if !ag.dig || ag.dev.isSome then s
  else s.modCore ag.core fun k => k.setQueue ag.queue (match k.queues[queueNo ag.queue] with
    | e :: rest => { e with wrote := cells.foldl (fun m c => mapSet m c.1 c.2) e.wrote } :: rest
    | [] => [])
/-- The cells of a piece of a row that is written in this package. -/
def pieceCells (sp : Spot) (bs : List Byte) : List Host.Cell :=
  match sp with
  | .mem va _ (.here _ _ _ _ _) => bs.zipIdx.map fun (b, i) => (ptrLow va + i, b)
  | .mem _ _ (.away _ _) | .own _ | .peer _ _ => []

/-- Write the pieces of a row; what is written counts for the digest (R351), on a fabric page once it is acknowledged. -/
def enginePut (ag : Agent) (col : Bool) (sps : List (Word × Nat × Spot)) (bs : List Byte) : M Unit := do
  let parts := (sps.foldl (fun (acc : List (Word × Spot × List Byte) × List Byte) e =>
    (acc.1 ++ [(e.1, e.2.2, acc.2.take e.2.1)], acc.2.drop e.2.1)) ([], bs)).1
  parts.forM fun (p, sp, b) => engineWrite ag col p b sp
  change fun s => s.noteWritten ag (parts.flatMap fun (_, sp, b) => pieceCells sp b)

/-- Source and destination of row k of a copy, or of element k of a gather whose index is given (R172, R173). -/
def EntryOp.rowPtrs (op : EntryOp) (k idx : Nat) : Word × Word :=
  match op with
  | .copy src dst _ _ ss ds scol dcol _ =>
    (if scol then columnAt src k else leaBy src (k * ss), if dcol then columnAt dst k else leaBy dst (k * ds))
  | .gather base _ dst _ eb scol dcol =>
    (if scol then columnAt base idx else leaBy base (idx * eb), if dcol then columnAt dst k else leaBy dst (k * eb))
  | .fence _ => (0, 0)
/-- Bytes per row or element. -/
def EntryOp.rowBytes : EntryOp → Nat
  | .copy _ _ rb _ _ _ _ _ _ => rb
  | .gather _ _ _ _ eb _ _ => eb
  | .fence _ => 0
/-- Rows or elements. -/
def EntryOp.rows : EntryOp → Nat
  | .copy _ _ _ rows _ _ _ _ _ => rows
  | .gather _ _ _ cnt _ _ _ => cnt
  | .fence _ => 0
/-- Column source and column destination. -/
def EntryOp.columns : EntryOp → Bool × Bool
  | .copy _ _ _ _ _ _ sc dc _ => (sc, dc)
  | .gather _ _ _ _ _ sc dc => (sc, dc)
  | .fence _ => (false, false)
/-- Read-only staging. -/
def EntryOp.staged : EntryOp → Bool
  | .copy _ _ _ _ _ _ _ _ ro => ro
  | .gather .. | .fence _ => false

/-- The index of element k of a gather, or the packets that bring it. -/
def gatherIndex (ag : Agent) (op : EntryOp) (k : Nat) : M (Nat × List Nat) :=
  match op with
  | .gather _ ix _ _ _ _ _ => do
    let sps ← engineSpots ag (leaBy ix (4 * k)) 4 false .load
    let (bs, ids) ← engineGet ag false sps
    pure (numberOf bs, ids)
  | .copy .. | .fence _ => pure (0, [])

/-- Bytes of a row that are read before any of them is written: so many that the packets of a row of fabric pages stay within
the window of R415. -/
def rowWindow : Nat := 131072
/-- Bytes of the row being performed that the next step moves; a remainder of at most 64 bytes goes with the piece before it. -/
def Entry.window (e : Entry) : Nat :=
  if e.op.rowBytes ≤ e.part + rowWindow + 64 then e.op.rowBytes - e.part else rowWindow
/-- They are moved. -/
def Entry.advance (e : Entry) : Entry :=
  if e.op.rowBytes ≤ e.part + rowWindow + 64 then { e with done := e.done + 1, part := 0, inRow := false }
  else { e with part := e.part + rowWindow, inRow := true }

/-- Perform n bytes of row k from byte lo on (R172, R173, R175): the reads awaited before they are moved, none once they are. -/
def engineRow (ag : Agent) (op : EntryOp) (k lo n : Nat) : M (List Nat) := do
  let (idx, wait) ← gatherIndex ag op k
  if !wait.isEmpty then pure wait
  else do
    let (sp, dp) := op.rowPtrs k idx
    let (sc, dc) := op.columns
    check (ptrTag sp != 0 || ptrLow sp + op.rowBytes ≤ 2 ^ 60) .bounds sp
    let src ← engineSpots ag (sp + BitVec.ofNat 64 lo) n sc .load
    if op.staged then checkStaging ag src
    let (bs, wait) ← engineGet ag sc src
    if !wait.isEmpty then pure wait
    else do
      check (ptrTag dp != 0 || ptrLow dp + op.rowBytes ≤ 2 ^ 60) .bounds dp
      let dst ← engineSpots ag (dp + BitVec.ofNat 64 lo) n dc .store
      enginePut ag dc dst bs
      pure []

/-! ### The steps of an entry -/

/-- The status a cause gives (R175, R420). -/
def engineStatus : Cause → Nat
  | .page => 1
  | .mce => 3
  | .contained | .fabric => 5
  | _ => 2

/-- Request a development for an engine entry (R251, R253, R177): a full deque sends the record to the core's overflow, or
leaves it to be tried again when the context area has no room. -/
def State.engineDevelop (s : State) (c q rid : Nat) (ag : Agent) (id : Nat) : State :=
  let held := s.modCore c fun k => k.modEntry id fun e => { e with wait := .develop rid none }
  match (s.part ag.part).recipes.find? (·.id == rid) with
  | none =>
    -- a tile of another partition, reached by a fabric page that names this package (R410)
    match s.recordPart rid with
    | none => s
    | some (home, rec) =>
      let depth := (ag.dev.map fun d => d.depth + 1).getD 1
      if !rec.devs.isEmpty then held
      else match ag.dev, decide (5 ≤ depth) with
        | some d, true => State.abandonChain 5 c d.root .devdepth rec.block s
        | _, _ => (held.hostDevelopment home rec depth fun h => .across h c (8 + q)).getD s
  | some rec =>
    let asker := Requester.engine c q
    let (root, depth) := match ag.dev with
      | some d => (d.root, d.depth + 1)
      | none => (asker, 1)
    if rec.devs.any (fun d => !d.inChain root) then held
    else if 5 ≤ depth then
      match ag.dev with
      | some d => State.abandonChain 5 c d.root .devdepth rec.block s
      | none => s
    else
      let d : DevTask := { recipe := rid, depth := depth, root := root }
      let started := held.addDev ag.part rid { root := root, depth := depth, asker := asker, verify := none, written := [] }
      let r := devRecord rec d
      if (s.core c).dequeRoom then started.modCore c fun k => { k with deque := r :: k.deque }
      else if s.stackRoom ag.part then started.modCore c fun k => { k with overflow := k.overflow ++ [r] }
      else s

/-- A development's chain is in progress. -/
def State.chainActive (s : State) (p : Nat) (root : Requester) : Bool :=
  (s.part p).recipes.any fun r => r.devs.any (·.inChain root)

/-- What ends or holds an entry whose row met a stop. -/
def State.engineStop (s : State) (c q : Nat) (e : Entry) (st : Stop) : State :=
  let fail := fun (u : State) (n : Nat) => u.modCore c fun k => k.modEntry e.id fun e => { e with status := some n }
  match st with
  | .trap cause _ => fail s (engineStatus cause)
  | .softMce _ => fail s 3
  | .nack => s
  | .wait _ => s
  | .develop rid =>
    match e.agent.dev with
    | some d => if s.chainActive e.agent.part d.root then s.engineDevelop c q rid e.agent e.id else fail s 2
    | none => s.engineDevelop c q rid e.agent e.id
  | .devFault =>
    match e.agent.dev with
    | some d =>
      if s.chainActive e.agent.part d.root then
        fail (State.abandonChain 5 c d.root .devfault ((s.focus c 0).blockOf d.recipe) s) 2
      else fail s 2
    | none => fail s 2
  | .fault _ => s
  | .paused u | .keep u _ => u

/-- Bytes of a row performed before a fault in it: a row may be partly written (R175, log 12). -/
def partialRow (s : State) (e : Entry) : Nat := Config.freePartial s.freeCtr % (e.window + 1)

/-- Perform part of the row that failed: a prefix whose length the spec leaves open. -/
def State.partRow (s : State) (e : Entry) : State :=
  let n := partialRow s e
  let s := { s with freeCtr := s.freeCtr + 1 }
  if n = 0 || (e.op.columns.1 || e.op.columns.2) then s
  else match (engineRow e.agent e.op e.done e.part n) s with
    | .ok ([], u) => { u with sent := s.sent }
    | _ => s

/-- The stop is the fault of an access: part of the row may be written. -/
def Stop.isTrap : Stop → Bool
  | .trap _ _ => true
  | _ => false

/-- A part of a row is done: at the row's end the digest counts it, with one term for each chunk of the row (R351). -/
def State.rowMoved (s : State) (c id : Nat) : State :=
  match (s.core c).findEntry id with
  | some (_, e) => if e.part = 0 then s.countRow c id else s
  | none => s

/-- One row of the entry, or the next part of it: the state, or a fault of the model. A cancelled entry stops after its row (R195). -/
def State.engineStep (s : State) (c q : Nat) (e : Entry) : Except Fault State :=
  let put := fun (u : State) (f : Entry → Entry) => u.modCore c fun k => k.modEntry e.id f
  if !e.inRow && e.cancel then .ok (put s fun e => { e with status := some 4 })
  else if e.op.rows ≤ e.done then .ok (put s fun e => { e with started := true, status := some 0 })
  else
    match (engineRow e.agent e.op e.done e.part e.window) s with
    | .ok (wait, u) =>
      let u := { u with sent := [] }
      if !wait.isEmpty then .ok (put u fun e => { e with started := true, inRow := true, wait := .remote wait })
      -- the row is done once every access of it is acknowledged
      else if !(u.engineStores c q).isEmpty then .ok (put u fun e => { e with started := true, inRow := true, wait := .row 0 })
      else .ok ((put u fun e => { e.advance with started := true }).rowMoved c e.id)
    | .error (.fault f) => .error f
    | .error st =>
      let s := put s fun e => { e with started := true, inRow := true }
      .ok ((if st.isTrap then s.partRow e else s).engineStop c q e st)

/-- The head entry is held: by a development, by reads, or by the acknowledgements of a row it has written. -/
def State.engineHeld (s : State) (c q : Nat) (e : Entry) : Bool :=
  match e.wait with
  | .none => false
  | .remote ids => s.packets.any fun pk => ids.contains pk.id && !(pk.answer.isSome && pk.place == .done)
  | .row _ => !(s.engineStores c q).isEmpty
  | _ => true

/-- The held head entry goes on: a written row counts as done once it is acknowledged. -/
def Entry.released (e : Entry) : Entry :=
  match e.wait with
  | .row _ => { e.advance with wait := .none }
  | _ => { e with wait := .none }

/-- The head entry goes on, after the row it has written. -/
def State.headGoesOn (s : State) (c : Nat) (e : Entry) : State :=
  let u := s.modCore c fun k => k.modEntry e.id (·.released)
  match e.wait with
  | .row _ => u.rowMoved c e.id
  | _ => u

/-- Perform up to `rows` rows, or windows of long rows, of the head entry of a queue. -/
def State.engineRun (c q : Nat) : Nat → State → Except Fault State
  | 0, s => .ok s
  | n + 1, s =>
    match ((s.core c).queues[queueNo q]).head? with
    | none => .ok s
    | some e =>
      if e.status.isSome || e.op.fenceId.isSome || s.engineHeld c q e then .ok s
      else
        let s := s.headGoesOn c e
        match s.engineStep c q e.released with
        | .ok u => State.engineRun c q n u
        | .error f => .error f

/-- ENGINE_ENTRY_START (R172-R174): the head entry of a queue starts, or goes on, by up to `rows` rows.
DEDUCED, log 67. -/
def execEngineEntryStart (core queue rows : Nat) (s : State) : Out :=
  match State.engineRun core queue rows s with
  | .ok u => .next u
  | .error f => .fault f

/-- Set the destination words of row k full (R175): those of the own tray at once, those of another core's by packets. -/
def fullRow (ag : Agent) (op : EntryOp) (k : Nat) : M Unit := do
  let dp := (op.rowPtrs k 0).2
  let col := op.columns.2
  let sps ← engineSpots ag dp op.rowBytes col .store
  sps.forM fun (p, n, sp) => do
    let words := fun (off : Nat) => ((trayOffs off n col).map (· / 4)).eraseDups
    match sp with
    | .own off => change fun s => (words off).foldl (fun s w => s.setFe ag.core w true) s
    | .peer pos off =>
      if col then (words off).forM fun w => do
        let _ ← sendTray ag p pos (.feset (4 * w) 1 true) false
      else do
        let _ ← sendTray ag p pos (.feset off (words off).length true) false
    | .mem _ _ _ => pure ()

/-- Set the words of an entry's last n rows full, rows ascending, until packets have to be awaited (R175). -/
def State.fillRows (c q : Nat) (e : Entry) : Nat → State → Except Stop State
  | 0, s => .ok s
  | n + 1, s =>
    let k := e.op.rows - (n + 1)
    match fullRow e.agent e.op k s with
    | .error st => .error st
    | .ok (_, u) =>
      let u := { u with sent := [] }.modCore c fun x => x.modEntry e.id fun e => { e with filled := k + 1 }
      if (u.engineStores c q).isEmpty then State.fillRows c q e n u else .ok u

/-- The staging table after an entry of read-only staging has ended well (R176): the oldest of 16 makes room. -/
def Core.stage (k : Core) (op : EntryOp) : Core :=
  match op with
  | .copy src dst rb rows ss _ _ _ true =>
    let g : Staging := { src := src, dst := dst, rb := rb, rows := rows, sstr := ss, marked := false }
    let l := if k.staging.length < Config.stagingEntries then k.staging else k.staging.tail
    { k with staging := l ++ [g] }
  | .copy .. | .gather .. | .fence _ => k

/-- End an entry with status 0: the words set full, the staging entry recorded (R175, R176). It goes on where packets are awaited. -/
def State.endWell (s : State) (c q : Nat) (e : Entry) : Except Fault State :=
  let staged := fun (u : State) => (u.modCore c fun k => k.stage e.op).endEntry c q e.id e.done 0
  if !e.full || e.op.rows ≤ e.filled then .ok (staged s)
  else match State.fillRows c q e (e.op.rows - e.filled) s with
    | .ok u => .ok (if (u.engineStores c q).isEmpty then staged u else u)
    | .error (.trap cause _) => .ok (s.endEntry c q e.id e.done (engineStatus cause))
    | .error (.fault f) => .error f
    | .error _ => .ok s

/-- ENGINE_ENTRY_COMPLETE (R175): the head entry, which has a status, ends once every access of it is acknowledged. -/
def execEngineEntryComplete (core queue : Nat) (s : State) : Out :=
  match ((s.core core).queues[queueNo queue]).head? with
  | none => .next s
  | some e =>
    if !(s.engineStores core queue).isEmpty then .next s
    else match e.status with
    | none => .next s
    | some 0 =>
      match s.endWell core queue e with
      | .ok u => .next u
      | .error f => .fault f
    | some st => .next (s.endEntry core queue e.id e.done st)

end Sys2Proof.Machine
end

