-- ==== Sys2Proof/Machine/Task.lean ====
section
/-!
DEFINITION. Tasks (R120, R177, R196-R200, R340-R345): EXIT, SPAWN, JINIT, FORK, JOIN, ENQ, DEQ and QST, the end of a
development (R251, R294), and the steps TASK_TAKE, STEAL_ROUND and DEVELOPMENT_SLOT_TIMEOUT.
-/
namespace Sys2Proof.Machine

/-! ### The end of a development (R251 step 6) -/

/-- A held RDEV.V completes with a predicate value (R293, R294). -/
def predicateDone (t : Slot) (q : PredNo) (b : Bool) : Slot :=
  settled (loopStep { t with p := setPred t.p q b, out := .none } (t.pc + 4) false)

/-- A waiter on an ended development is released: it executes its instruction again, or completes as RDEV.V (R251, R293). -/
def developed (rid : Nat) (t : Slot) : Slot :=
  match t.out with
  | .develop r q =>
    if r != rid then t
    else match q with
      | some q => predicateDone t q false
      | none => { t with out := .none }
  | _ => t

/-- Change every slot of a core. -/
def Core.mapSlots (k : Core) (f : Slot → Slot) : Core := { k with slots := k.slots.map f }
/-- Change every state a core has parked (R159). -/
def Core.mapParked (k : Core) (f : Slot → Slot) : Core :=
  { k with
    saved := k.saved.map fun (sv : Saved) => { sv with state := f sv.state }
    stack := k.stack.map fun (sv : Saved) => { sv with state := f sv.state } }

/-- Release the waiters on a development in one core. -/
def Core.developed (k : Core) (rid : Nat) : Core :=
  ((k.mapParked (Machine.developed rid)).wakeEngines [rid]).mapSlots (Machine.developed rid)

/-- The RDEV.V that waits for a verify run of a record completes with its predicate; one that was stopped executes again
(R157, R294). -/
def verifyDone (rid : Nat) (t : Slot) (v : Verify) : Slot :=
  match t.out with
  | .develop r (some _) => if r == rid then predicateDone t v.q v.differ else t
  | _ => t
/-- The states of the slot that asked for a verify run, the parked ones too: the one that waits for it goes on (R294). -/
def Core.verified (k : Core) (rid : Nat) (v : Verify) : Core :=
  let done := fun (sv : Saved) => if sv.slot == v.slot then { sv with state := verifyDone rid sv.state v } else sv
  { k.setParked (k.parkedStates.map done) with slots := k.slots.set (slotNo v.slot) (verifyDone rid k.slots[slotNo v.slot] v) }

/-- The slot whose development task has ended takes its parked state back, or becomes idle (R159). -/
def Core.unpark (k : Core) (slot : Fin 8) (now : Nat) : Core :=
  let l := k.parkedStates
  match l.reverse.find? fun sv => sv.slot == slot.val with
  | some sv =>
    { (k.setParked ((l.reverse.eraseP fun x => x.slot == slot.val).reverse)) with slots := k.slots.set slot sv.taken }
  | none => { k with slots := k.slots.set slot { idleSlot k.slots[slot] with stealAt := now } }

/-- A development completes (R251): its tile is recorded resident, the slot is given back, the waiters are released. -/
def State.endDevelopment (s : State) (d : DevTask) : State :=
  let p := s.myPartNo
  let rec? := (s.part p).recipes.find? (·.id == d.recipe)
  let dv := rec?.bind fun r => r.devs.head?
  let lines := (rec?.map fun r => r.lines.map (·.2)).getD []
  let verify := dv.bind (·.verify)
  let s := if verify.isSome then s else lines.foldl (fun s l => s.openLatent l) s
  let s := s.modPart p fun q =>
    { q with recipes := q.recipes.map fun r => if r.id == d.recipe then { r with devs := r.devs.tail } else r }
  let s := match verify with
    | some v => s.modCore v.core fun k => k.verified d.recipe v
    | none => s
  let s := s.modMyCore fun k => k.unpark s.curSlot s.cycle
  { s with cores := s.cores.map fun (c, k) => (c, k.developed d.recipe) }

/-- End the task of the slot being executed, its release performed (R120): a development completes; any other task leaves
the slot idle. -/
def State.endTask (s : State) : State :=
  let s := { s with sent := [] }
  match s.me.kind with
  | .dev d => s.endDevelopment d
  | .lane | .record => s.modMe fun t => { idleSlot t with stealAt := s.cycle }

/-- EXIT (R120): a release, then the task ends; no loop step follows. -/
def execExit (s : State) : Out :=
  run (do
    release
    change (·.endTask)) s

/-! ### Pushing records (R177, R196) -/

/-- The record SPAWN and FORK build from the slot (R196). -/
def State.buildRecord (s : State) (pc : Word) (type : BitVec 8) (x1 : Option Word) : TaskRec :=
  let t := s.me
  let x := t.x.set 0 0
  { pc := pc, p := t.p.setWidth 24, key := 0, depth := 0, type := type
    x := match x1 with | some v => x.set 1 v | none => x
    v := Vector.ofFn fun i : Fin 8 => t.v[i.val], dev := none }

/-- Cores of the plot of a core: those that run the same launch (R147). -/
def State.plotCores (s : State) (c : Nat) : List Nat :=
  s.cores.filterMap fun (n, k) =>
    if k.bound.isSome && (k.bound.map fun b => (b.part, b.launch)) == ((s.core c).bound.map fun b => (b.part, b.launch))
    then some n else none

/-- A stealable record was pushed: idle slots of the plot look at once (R177). -/
def State.stealNow (s : State) (c : Nat) : State :=
  (s.plotCores c).foldl (fun s n => s.modCore n fun k =>
    { k with slots := k.slots.map fun t => if t.life == .idle then { t with stealAt := s.cycle } else t }) s

/-- Push a record at the top of the slot's deque (R177); the place reserved for it is used. -/
def State.pushRecord (s : State) (r : TaskRec) : State :=
  ((s.modMe fun t => { t with reserved := false }).modMyCore fun k => { k with deque := r :: k.deque }).stealNow s.curCore

/-- Reserve a deque place, or trap DQFULL (R196): a reservation made before a wait still stands. -/
def reservePlace : M Unit := do
  let ok ← look fun s => s.me.reserved || s.myCore.dequeRoom
  check ok .dqfull 0
  change fun s => s.modMe fun t => { t with reserved := true }

/-- Every register a record copies is read as a source (R194); SPAWN's x1, which it does not copy, is read with them.
DESIGN CHOICE, log 82. -/
def readAllX : M Unit := ((List.range 15).map fun i => BitVec.ofNat 5 (i + 1)).forM fun r => do
  let _ ← readX r

/-- SPAWN (R196, R197). -/
def execSpawn (a b : Reg) (s : State) : Out :=
  run (do
    let pc ← readX a
    let x1 ← readX b
    readAllX
    reservePlace
    keeping release
    change fun s => s.pushRecord (s.buildRecord (evenAddr pc) 1 (some x1))
    finish 4) s

/-- The pointer checks of a join counter (R184, R198, R199, R411). -/
def counterSpot (p : Word) (s : State) : M Spot := do
  check (ptrTag p != 1) .noncanon p
  let sp ← checkAccess s.agent p 8 false .atomic
  match sp with
  | .mem va _ t => noFabric va t
  | .own _ | .peer _ _ => pure ()
  pure sp

/-- JINIT (R198): an atomic store at the counter's home; no release. -/
def execJinit (a b : Reg) (s : State) : Out :=
  run (do
    let p ← readX a
    let v ← readX b
    let sp ← counterSpot p s
    atomicAt 0 p 8 (.put v.toNat) s sp) s

/-- FORK goes on once the counter is incremented (R199). -/
def State.forked (s : State) (target : Word) : State :=
  (s.pushRecord (s.buildRecord target 2 none)).complete 4

/-- JOIN goes on with the counter's old value (R199): at zero the task continues, else it ends. -/
def State.joined (s : State) (old : Nat) (target : Word) : State :=
  if old = 1 then (s.modMyCore (·.acquire)).jump target else s.endTask

/-- FORK (R199): the counter checks, a reserved place, the release, the increment, then the push. -/
def execFork (j : Reg) (o : BitVec 20) (s : State) : Out :=
  run (do
    let p ← readX j
    readAllX
    let target := branchTarget s.me.pc o
    let sp ← counterSpot p s
    reservePlace
    -- a wait or a development keeps the reserved place
    keeping do
      release
      let old ← rmwAt p 8 (.amo .add 1) (.fork target) s sp
      match old with
      | none => pure ()
      | some _ => do
        change (·.forked target)
        awaitReply) s

/-- JOIN (R199): the counter checks, the release, the decrement. -/
def execJoin (j : Reg) (o : BitVec 20) (s : State) : Out :=
  run (do
    let p ← readX j
    let target := branchTarget s.me.pc o
    let sp ← counterSpot p s
    release
    let old ← rmwAt p 8 (.amo .add (2 ^ 64 - 1)) (.join target) s sp
    match old with
    | none => pure ()
    | some v =>
      if v = 1 then do
        change (·.joined v target)
        awaitReply
      else change (·.joined v target)) s

/-! ### Task queues (R341-R345) -/

/-- Powered slice columns of a partition (R314). -/
def Partition.powered (q : Partition) : Nat := ((List.range 4).filter fun c => q.mask.getLsbD c).length
/-- Segments of each queue: N = C × n (R341). -/
def Partition.segments (q : Partition) : Nat := q.clusters.length * q.powered
/-- The records of a segment. -/
def Partition.segment (q : Partition) (queue seg : Nat) : List TaskRec :=
  mapGet (mapGet q.queues queue { segs := [] }).segs seg []
/-- Replace the records of a segment. -/
def Partition.setSegment (q : Partition) (queue seg : Nat) (l : List TaskRec) : Partition :=
  let k := mapGet q.queues queue { segs := [] }
  { q with queues := mapSet q.queues queue { k with segs := mapPut [] k.segs seg l } }
/-- The segment a key hashes to (R342). -/
def segmentOf (key : BitVec 16) (n : Nat) : Nat := key.toNat * 40503 % 2 ^ 16 * n / 2 ^ 16

/-- The queue exists in the partition (R200). -/
def checkQueue (q : BitVec 6) : M Unit := do
  let ok ← look fun s => decide (q.toNat < s.myPart.queueCount)
  check ok .prot (q.setWidth 64)

/-- The slots of a partition whose wait a test accepts, in the order in which their waits began. -/
def State.waitersOf (s : State) (p : Nat) (test : Wait → Bool) : List (Nat × Nat) :=
  let ws := s.cores.flatMap fun (c, k) =>
    if (k.bound.map (·.part)) == some p then
      (List.range 8).filterMap fun i =>
        let t := k.slots[slotNo i]
        if test t.out then some (t.since, (c, i)) else none
    else []
  (sortKeys ws).map (·.2)

/-- The wait is a DEQ on a queue. -/
def Wait.isDeq (q : Nat) : Wait → Bool
  | .deq x => x == q
  | _ => false
/-- The wait is an ENQ on a segment. -/
def Wait.isEnq (q seg : Nat) : Wait → Bool
  | .enq x y _ => x == q && y == seg
  | _ => false

/-- Start a record in a slot of a core, with the acquire of task start (R81, R200). -/
def State.startIn (s : State) (c i : Nat) (r : TaskRec) : State :=
  ((s.wakeDie (dieOf (clusterOf c))).modSlotAt c (slotNo i) fun t => startTask t r).modCore c (·.acquire)

/-- Append a record to a segment; the longest-waiting DEQ on the queue takes it directly (R343). -/
def State.appendRecord (s : State) (p q seg : Nat) (r : TaskRec) : State :=
  match (s.waitersOf p (·.isDeq q)).head? with
  | some (c, i) => s.startIn c i r
  | none => s.modPart p fun z => z.setSegment q seg (z.segment q seg ++ [r])

/-- The task record of 82 words, as ENQ appends it (R81, R200, R340). -/
def enqRecord (w : List Word) : TaskRec :=
  { pc := w.getD 0 0, p := (w.getD 1 0).setWidth 24, key := (w.getD 1 0).extractLsb' 32 16, depth := 0, type := 3
    x := (Vector.ofFn fun i : Fin 16 => w.getD (2 + i.val) 0).set 0 0
    v := Vector.ofFn fun i : Fin 8 =>
      BitVec.ofNat 512 (packFields 64 ((List.range 8).map fun j => (w.getD (18 + 8 * i.val + j) 0).toNat))
    dev := none }

/-- The slot's ENQ has issued (R335). -/
def Slot.enqueues (t : Slot) : Slot := { t with enqueuing := true }

/-- ENQ (R200, R342): the checks of the read, the release, the home read of the record, and its place; it is in flight from its issue
until it completes (R335). DEDUCED, log 43. DEDUCED, log 70. -/
def execEnq (a : Reg) (q : BitVec 6) (s : State) : Out :=
  run (do
    let p ← readX a
    let sps ← checkRange s.agent p 656 8 .load
    checkQueue q
    release
    let ws ← readRange s.agent sps
    change fun s => { s with sent := [] }
    let r := enqRecord ws
    let seg ← look fun s => segmentOf r.key s.myPart.segments
    let waiting ← look fun s => (s.waitersOf s.myPartNo (·.isDeq q.toNat)).isEmpty
    let full ← look fun s => decide (s.myPart.segCap ≤ (s.myPart.segment q.toNat seg).length)
    if full && waiting then leave (.enq q.toNat seg r)
    else do
      change fun s => s.appendRecord s.myPartNo q.toNat seg r
      finish 4) (s.modMe (·.enqueues))

/-- A place of a segment has become free: the longest-waiting ENQ appends and completes (R342). -/
def State.admitEnq (s : State) (p q seg : Nat) : State :=
  match (s.waitersOf p (·.isEnq q seg)).head? with
  | none => s
  | some (c, i) =>
    match (s.slotAt c (slotNo i)).out with
    | .enq _ _ r =>
      let here := (s.curCore, s.curSlot)
      let u := s.modPart p fun z => z.setSegment q seg (z.segment q seg ++ [r])
      (((u.focus c (slotNo i)).modMe fun t => { t with out := .none }).complete 4).focus here.1 here.2
    | _ => s

/-- Take the head of a segment. -/
def State.takeSegment (s : State) (p q seg : Nat) : State :=
  (s.modPart p fun z => z.setSegment q seg (z.segment q seg).tail).admitEnq p q seg

/-- The first segment of a cluster rank that holds a record, ascending column (R343). -/
def Partition.firstFull (z : Partition) (q rank : Nat) : Option Nat :=
  ((List.range z.powered).map fun j => rank * z.powered + j).find? fun seg => !(z.segment q seg).isEmpty

/-- A search through a list in the order of one draw (R177, R343): the place of each next one is what the draw leaves on division by the
number still left. -/
def drawnSearch (found : Nat → Option Nat) (draw : Nat) (l : List Nat) : Option Nat :=
  (l.length.fold (fun _ _ (acc : Nat × List Nat × Option Nat) =>
    let (d, rest, r) := acc
    let i := d % rest.length
    (d / rest.length, rest.eraseIdx i, r.or (found (rest.getD i 0)))) (draw, l, none)).2.2

/-- The segment a DEQ takes from (R343): the slot's own cluster, then the others in the order of one draw. -/
def findSegment (q : Nat) : M (Option Nat) := do
  let z ← look (·.myPart)
  let cl ← look fun s => clusterOf s.curCore
  let own := rankOf z cl
  match z.firstFull q own with
  | some seg => pure (some seg)
  | none =>
    let others := (List.range z.clusters.length).filter (· != own)
    if others.isEmpty then pure none
    else do
      let d ← look fun s => (s.draw s.myPartNo s.myOwner 3 cl 0).1
      change fun s => (s.draw s.myPartNo s.myOwner 3 cl 0).2
      pure (drawnSearch (z.firstFull q) d.toNat others)

/-- DEQ (R200, R343): NONDET in a deterministic task; the current task ends as EXIT ends it, then a record is taken, or
the slot waits for one. -/
def execDeq (q : BitVec 6) (s : State) : Out :=
  run (do
    check (!s.me.sw.dm) .nondet 0
    checkQueue q
    release
    let seg ← findSegment q.toNat
    match seg with
    | none => do
      leave (.deq q.toNat)
      change fun s => s.modMe fun t => { t with dequeuing := true }
    | some seg => do
      let r ← look fun s => (s.myPart.segment q.toNat seg).head?
      change fun s => s.takeSegment s.myPartNo q.toNat seg
      match r with
      | some r => change fun s => s.startIn s.curCore s.curSlot.val r
      | none => pure ()) s

/-- The slice in which a segment lives (R341). -/
def Partition.segmentSlice (q : Partition) (seg : Nat) : Nat :=
  let cols := (List.range 4).filter fun c => q.mask.getLsbD c
  let n := max q.powered 1
  sliceNo (q.clusters.getD (seg / n) 0) (cols.getD (seg % n) 0)
/-- The home reads of a queue's segments (R345). -/
def segmentRequests (z : Partition) : M Unit := do
  let ag ← look (·.agent)
  (List.range z.segments).forM fun j => do
    let _ ← sendSlice ag (z.segmentSlice j) 0 false 0 .none

/-- QST (R345). -/
def execQst (d : Reg) (q : BitVec 6) (s : State) : Out :=
  run (do
    check (!s.me.sw.dm) .nondet 0
    checkQueue q
    let z ← look (·.myPart)
    let recs := ((mapGet z.queues q.toNat { segs := [] }).segs.map fun e => e.2.length).foldl (· + ·) 0
    segmentRequests z
    writeX d (BitVec.ofNat 64 (z.segCap % 2 ^ 16 * 2 ^ 48 + z.segments % 2 ^ 16 * 2 ^ 32 + recs % 2 ^ 32))
    finish 4
    awaitReply) s

/-! ### Taking tasks (R177, R251) -/

/-- A slot that can take a task: bound, idle, not halted, and enabled or a guest elsewhere, which counts as its own slot here
(R359). -/
def Slot.free (t : Slot) : Bool := t.life == .idle && (!t.disabled || t.guestAt.isSome) && !t.halted && t.out == .none

/-- The lowest-numbered free slot of a core. -/
def Core.freeSlot (k : Core) : Option Nat := (List.range 8).find? fun i => k.slots[slotNo i].free

/-- TASK_TAKE (R177): a free slot takes a record of the development overflow, else the top record of the deque. -/
def execTaskTake (core : Nat) (s : State) : Out :=
  let k := s.core core
  match k.freeSlot with
  | none => .next s
  | some i =>
    if k.preempt.isSome || s.resting k then .next s
    else match k.overflow with
      | r :: rest => .next ((s.setCore core { k with overflow := rest }).startIn core i r)
      | [] =>
        match k.deque with
        | r :: rest => .next ((s.setCore core { k with deque := rest }).startIn core i r)
        | [] => .next s

/-- The bottom record that can be stolen: developments never are (R177). -/
def Core.stealable (k : Core) : Option TaskRec := k.deque.reverse.find? fun r => r.dev.isNone
/-- The core without it. -/
def Core.stolen (k : Core) : Core := { k with deque := (k.deque.reverse.eraseP fun r => r.dev.isNone).reverse }

/-- Mesh distance between two cores. -/
def meshDistance (a b : Nat) : Nat :=
  (max (coreX a) (coreX b) - min (coreX a) (coreX b)) + (max (coreY a) (coreY b) - min (coreY a) (coreY b))

/-- The mesh neighbours of a core inside its plot, in the order north, east, south, west (R177). -/
def State.plotNeighbours (s : State) (c : Nat) : List Nat :=
  let plot := s.plotCores c
  let at' := fun (dx dy : Int) => plot.find? fun n =>
    (coreX n : Int) == coreX c + dx && (coreY n : Int) == coreY c + dy
  [at' 0 (-1), at' 1 0, at' 0 1, at' (-1) 0].filterMap id

/-- The other cores of the plot by mesh distance, and at equal distance in row-major order (R177). -/
def State.farCores (s : State) (c : Nat) : List Nat :=
  let near := s.plotNeighbours c
  let far := (s.plotCores c).filter fun n => n != c && !near.contains n
  (sortKeys (far.map fun n => ((meshDistance c n * 2 ^ 10 + coreY n) * 2 ^ 10 + coreX n, n))).map (·.2)

/-- The record a thief can take from a core (R177): none of a context that a resize holds (R356). -/
def State.stealableAt (s : State) (c : Nat) : Option TaskRec := if s.resting (s.core c) then none else (s.core c).stealable

/-- STEAL_ROUND (R177): an idle slot with an empty deque looks for a record, and after a vain round waits 256 cycles. -/
def execStealRound (core slot : Nat) (s : State) : Out :=
  let k := s.core core
  let t := k.slots[slotNo slot]
  if !t.free || !k.deque.isEmpty || !k.overflow.isEmpty || k.preempt.isSome || s.resting k || s.cycle < t.stealAt then .next s
  else
    let list := s.plotNeighbours core
    let (d, s) := s.draw (s.partOf core) (s.ownerOf core) 7 core 0
    let victim := match drawnSearch (fun c => if (s.stealableAt c).isSome then some c else none) d.toNat list with
      | some c => some c
      | none => (s.farCores core).find? fun c => (s.stealableAt c).isSome
    match victim with
    | none => .next (s.modSlotAt core (slotNo slot) fun t => { t with stealAt := s.cycle + 256 })
    | some c =>
      match s.stealableAt c with
      | some r => .next ((s.modCore c (·.stolen)).startIn core (slotNo slot).val r)
      | none => .next s

/-- The development record of a recipe on a deque. -/
def TaskRec.isDevOf (r : TaskRec) (rid : Nat) : Bool :=
  match r.dev with
  | some d => d.recipe == rid
  | none => false

/-- The record, not yet taken, of the development of a recipe that a slot has asked for itself (R251). -/
def State.askedRecord (s : State) (core slot rid : Nat) : Option TaskRec :=
  let k := s.core core
  let devs := ((s.part (s.partOf core)).recipes.find? (·.id == rid)).map (·.devs)
  match (devs.getD []).find? fun d => d.asker == .slot core slot with
  | some d => (k.deque ++ k.overflow).find? fun r => r.dev == some { recipe := rid, depth := d.depth, root := d.root }
  | none => none

/-- DEVELOPMENT_SLOT_TIMEOUT (R251): when no slot of the core has become free within 64 cycles of the request, the development runs
in its requester's own slot, whose state is parked, when there is room for it (R159). -/
def execDevelopmentSlotTimeout (core slot : Nat) (s : State) : Out :=
  let k := s.core core
  let t := k.slots[slotNo slot]
  match t.out with
  | .develop rid _ =>
    match s.askedRecord core slot rid with
    | some r =>
      if s.cycle < stampCycle t.since + 64 || k.freeSlot.isSome || s.resting k || !(k.saved.isNone || s.stackRoom (s.partOf core)) then .next s
      else
        let k := { k with deque := k.deque.erase r, overflow := k.overflow.erase r }
        .next ((s.setCore core k).displace core (slotNo slot) r r.depth)
    | none => .next s
  | _ => .next s

end Sys2Proof.Machine
end

