-- ==== Sys2Proof/Machine/Recipe.lean ====
section
/-!
DEFINITION. Recipe instructions (R244-R254, R292-R295): RREC, RFIX, RDROP, RQRY, RDEV, RDEV.V and RLAT.
-/
namespace Sys2Proof.Machine

/-! ### Blocks (R244, R245) -/

/-- Rows, row bytes and row stride of a block's word 2. -/
def blockRows (w : Word) : Nat := field w 48 16
def blockRowBytes (w : Word) : Nat := field w 32 16
def blockStride (w : Word) : Nat := field w 8 24

/-- A source descriptor's lines stay below the top of VA (R245). -/
def sourceOk (w : Word) : Bool := w == 0 || field w 0 54 + field w 54 10 + 1 ≤ 2 ^ 54
/-- The virtual lines of a source, as addresses (R245). -/
def sourceLines (w : Word) : List Word :=
  if w = 0 then [] else (List.range (field w 54 10 + 1)).map fun i => BitVec.ofNat 64 (64 * (field w 0 54 + i))

/-- The fields of a block are in range (R244, R245) and its tile base is X(a). -/
def blockOk (b : Vector Word 8) (a : Word) : Bool :=
  let w := b[2]
  ptrTag b[0] == 0 && b[1] == a && ptrTag b[1] == 0 && b[1].toNat % 64 == 0 && 1 ≤ blockRows w &&
    blockRowBytes w % 64 == 0 && 64 ≤ blockRowBytes w && blockStride w % 64 == 0 && blockRowBytes w ≤ blockStride w &&
    field w 5 3 == 0 && field w 0 5 ≤ 13 &&
    ptrLow b[1] + (blockRows w - 1) * blockStride w + blockRowBytes w ≤ 2 ^ 60 &&
    sourceOk b[3] && sourceOk b[4] && sourceOk b[5] && sourceOk b[6]

/-- The virtual lines of a tile, ascending (R244). -/
def tileLines (b : Vector Word 8) : List Word :=
  (List.range (blockRows b[2])).flatMap fun i =>
    (List.range (blockRowBytes b[2] / 64)).map fun j => b[1] + BitVec.ofNat 64 (i * blockStride b[2] + 64 * j)

/-- Every source line of a block. -/
def allSources (b : Vector Word 8) : List Word := sourceLines b[3] ++ sourceLines b[4] ++ sourceLines b[5] ++ sourceLines b[6]

/-- A page that can only be executed (R164). -/
def execOnly (e : TlbEntry) : Bool := e.leaf.getLsbD 3 && !e.leaf.getLsbD 1 && !e.leaf.getLsbD 2

/-- The physical line behind a checked translation; fabric pages are refused (R411). -/
def lineHere (ag : Agent) (va : Word) (e : TlbEntry) : M Nat := do
  let t ← locate ag va e
  noFabric va t
  match t with
  | .here pa _ _ _ _ => pure (lineOf pa)
  | .away _ _ => trap .prot va

/-- The rights of a tile line (R292): a page that the requester may not store to counts as one without W. DEDUCED, log 101. -/
def checkTileLine (ag : Agent) (va : Word) (e : TlbEntry) : M Unit := do
  checkRights ag va e .store
  check (e.region.getLsbD 8) .prot va

/-- Pins that adding some lines would leave a line with stay below 256 (R246). -/
def Partition.pinsFit (q : Partition) (ls : List Nat) : Bool := ls.all fun l => q.pinCount l + (ls.filter (· == l)).length ≤ 255

/-- What RREC records of a checked block. -/
structure RecipeParts where
  words : Vector Word 8
  lines : List (Nat × Nat)
  owners : List Nat
  pins : List Nat
  deriving DecidableEq, Repr

/-- The checks of RREC before its release, in their order (R292): where the block lies, and its line. -/
def recipeBlock (ag : Agent) (pa pb : Word) : M (List (Word × Spot) × Nat) := do
  needGlobal pa
  needGlobal pb
  check (pb.toNat % 64 == 0) .align pb
  let sps ← checkRange ag pb 64 64 .load
  let e ← translate ag pb
  let line ← lineHere ag pb e
  pure (sps, line)

/-- The block's home read and the checks of RREC up to the record table, in their order (R292). DEDUCED, log 50. -/
def recipeParts (ag : Agent) (pa pb : Word) (sps : List (Word × Spot)) (blockLine : Nat) : M RecipeParts := do
  let ws ← readRange ag sps
  let blk : Vector Word 8 := Vector.ofFn fun i => ws.getD i.val 0
  check (blockOk blk pa) .noncanon pb
  let ent ← translate ag blk[0]
  check (execOnly ent) .prot blk[0]
  let tile ← (tileLines blk).mapM fun va => do pure (va, ← translate ag va)
  let src ← (allSources blk).mapM fun va => do pure (va, ← translate ag va)
  tile.forM fun (va, e) => checkTileLine ag va e
  let lines ← tile.mapM fun (va, e) => do pure (va.toNat / 64, ← lineHere ag va e)
  src.forM fun (va, e) => checkRights ag va e .load
  let pins ← src.mapM fun (va, e) => lineHere ag va e
  let owners := (tile.foldl (fun l (x : Word × TlbEntry) => setAdd l (field x.2.leaf 8 4)) [])
  pure { words := blk, lines := lines, owners := owners, pins := blockLine :: pins }

/-- A record enters the partition's table, its lines and pins recalled from the first-level caches (R246). -/
def State.addRecipe (s : State) (pb : Word) (r : RecipeParts) : State :=
  let s := (r.lines.map (·.2) ++ r.pins).foldl (fun s l => s.recall l allWords) s
  (s.modMyPart fun q =>
    { q with recipes := q.recipes ++ [{ id := s.stamp, block := pb, words := r.words, lines := r.lines, owners := r.owners,
                                        pins := r.pins, devs := [] }] }).tick

/-- RREC (R246, R292). -/
def execRrec (a b : Reg) (s : State) : Out :=
  run (do
    let pa ← readX a
    let pb ← readX b
    let (sps, line) ← recipeBlock s.agent pa pb
    release
    -- a failure from here on leaves the release performed (R246)
    keeping do
      let r ← recipeParts s.agent pa pb sps line
      let q ← look (·.myPart)
      match r.lines.find? fun l => (q.recordOf l.2).isSome with
      | some l => trap .prot (BitVec.ofNat 64 (64 * l.1))
      | none => pure ()
      check (decide (q.recipes.length < q.recipeCap) && q.pinsFit r.pins) .rtfull r.words[1]
      change (·.addRecipe pb r)
      finish 4
      awaitReply) s

/-! ### The record of an address (R293) -/

/-- The record whose tile holds the line of X(a), with its home partition (R293): the checks are those of a read of one
byte. -/
def recordAt (a : Reg) (s : State) : M (Option (Nat × Recipe)) := do
  let p ← readX a
  needGlobal p
  let sp ← checkAccess s.agent p 1 false .load
  match sp with
  | .mem _ _ (.here pa _ home _ _) => do
    holdReseed s.agent
    let r ← look fun s => (s.part home).recordOf (lineOf pa)
    pure (r.map fun r => (home, r))
  | .mem _ _ (.away _ _) | .own _ | .peer _ _ => pure none

/-- Wait for the end of a development in progress (R293). -/
def waitDeveloped (r : Recipe) : M Unit := if r.devs.isEmpty then pure () else halt (.wait (.develop r.id none))

/-- A line of the tile is latent (R247). -/
def State.tileLatent (s : State) (r : Recipe) : Bool := r.lines.any fun l => s.latent.contains l.2

/-- Write a line back to the vault (R293): its registered words are recalled and it is clean. -/
def State.fixLine (s : State) (line : Nat) : State :=
  let s := s.recall line allWords
  match mapGet? s.l2 line with
  | some e => { s with l2 := mapSet s.l2 line { e with dirty := false, stored := Memory.readN s.mem (64 * line) 64 }, vaultBad := if e.dirty then setDel s.vaultBad line else s.vaultBad }
  | none => s

/-- RFIX (R250, R293). -/
def execRfix (a : Reg) (s : State) : Out :=
  run (do
    match ← recordAt a s with
    | none => pure ()
    | some (home, r) => do
      waitDeveloped r
      if ← look (·.tileLatent r) then halt (.develop r.id)
      change fun s => ((r.lines.foldl (fun s l => s.fixLine l.2) s).sendWrites s s.agent none).dropRecord home r.id
    finish 4
    awaitReply) s

/-- A latent line becomes a line of zeros (R250). -/
def State.zeroLatent (s : State) (line : Nat) : State :=
  if s.latent.contains line then
    { s with
      latent := setDel s.latent line
      mem := Memory.writeN s.mem (64 * line) 64 0
      memBad := s.memBad.filter fun w => w / 16 != line }
  else s

/-- RDROP (R250, R293). -/
def execRdrop (a : Reg) (s : State) : Out :=
  run (do
    match ← recordAt a s with
    | none => pure ()
    | some (home, r) => do
      waitDeveloped r
      change fun s => (r.lines.foldl (fun s l => s.zeroLatent l.2) s).dropRecord home r.id
    finish 4
    awaitReply) s

/-- The state code of a record (R247). -/
def State.recordState (s : State) (r : Option Recipe) : Nat :=
  match r with
  | none => 0
  | some r => if !r.devs.isEmpty then 3 else if s.tileLatent r then 2 else 1

/-- The word RQRY writes (R295). -/
def rqryWord (pins st : Nat) (dm : Bool) : Word := BitVec.ofNat 64 (pins % 256 * 256 + (if dm && 2 ≤ st then 1 else st))

/-- RQRY (R295). -/
def execRqry (d a : Reg) (s : State) : Out :=
  run (do
    let p ← readX a
    needGlobal p
    let sp ← checkAccess s.agent p 1 false .load
    match sp with
    | .mem _ _ (.here pa _ home _ _) => do
      let v ← look fun u =>
        rqryWord ((u.part home).pinCount (lineOf pa)) (u.recordState ((u.part home).recordOf (lineOf pa))) u.me.sw.dm
      writeX d v
    | .mem _ _ (.away _ _) | .own _ | .peer _ _ => writeX d 0
    finish 4
    awaitReply) s

/-- RDEV (R293). -/
def execRdev (a : Reg) (s : State) : Out :=
  run (do
    match ← recordAt a s with
    | none => pure ()
    | some (_, r) => do
      waitDeveloped r
      if ← look (·.tileLatent r) then halt (.develop r.id)
    finish 4
    awaitReply) s

/-- Start the development an RDEV.V waits for; it completes with its predicate (R293, R294). -/
def awaitVerify (r : Recipe) (v : Option Verify) (q : PredNo) : M Unit := fun s =>
  .error (.paused (s.requestDevelopment r.id v (some q)))

/-- RDEV.V (R293, R294): a resident tile is verified, a latent one is developed and the predicate is 0. -/
def execRdevV (a : Reg) (q : PredNo) (s : State) : Out :=
  run (do
    match ← recordAt a s with
    | none => pure ()
    | some (_, r) => do
      waitDeveloped r
      if ← look (·.tileLatent r) then awaitVerify r none q
      else awaitVerify r (some { core := s.curCore, slot := s.curSlot.val, q := q, differ := false }) q
    writePred q false
    finish 4
    awaitReply) s

/-- A line leaves the L2 and is marked latent (R249). -/
def State.makeLatent (s : State) (line : Nat) : State :=
  let s := s.recall line allWords
  { s with l2 := mapErase s.l2 line, latent := setAdd s.latent line }

/-- RLAT (R249, R293). -/
def execRlat (a : Reg) (s : State) : Out :=
  run (do
    match ← recordAt a s with
    | none => pure ()
    | some (_, r) => do
      waitDeveloped r
      change fun s => r.lines.foldl (fun s l => s.makeLatent l.2) s
    finish 4
    awaitReply) s

end Sys2Proof.Machine
end

