-- ==== Sys2Proof/Machine/Remote.lean ====
section
/-!
DEFINITION. What travels between cores (R156, R160, R178, R181-R183, R201, R202, R353, R354): SEND, RECV and RECVT, the
arrival of channel packets and of remote tray accesses, forwarding and retry NACKs, and the replies: MEMORY_REPLY,
REMOTE_STORE_ACK and FE_NACK_RETRY.
-/
namespace Sys2Proof.Machine

/-! ### Completed requests (R79, R299, R321) -/

/-- The structures whose rounds are counted (R299). -/
def lawStructures : List Nat := [4, 5, 6, 8, 9]
/-- Rounds a packet has lost on its path (R321). -/
def Packet.rounds (pk : Packet) : Nat := (pk.lost.map (·.2)).foldl (· + ·) 0
/-- Key of an XOBS count: structure and exponent. -/
def xobsKey (st j : Nat) : Nat := 8 * st + j

/-- XOBS counts after a request with the given rounds (R299). -/
def countRounds (x : SMap Word) (lost : SMap Nat) : SMap Word :=
  lawStructures.foldl (fun x st =>
    (List.range 8).foldl (fun x j =>
      if 2 ^ j ≤ mapGet lost st 0 then mapSet x (xobsKey st j) (mapGet x (xobsKey st j) 0 + 1) else x) x) x

/-- The packet is a prefetch. -/
def Load.isPref : Load → Bool
  | .pref _ _ _ => true
  | _ => false

/-- A request of a slot or an engine completes: XOBS counts it, and a slot's alost takes its rounds (R79, R299): instruction fetches
that miss and channel packets count as requests; a prefetch has no effect on alost, and XOBS counts it (R188). DESIGN CHOICE, log 36. -/
def State.requestDone (s : State) (pk : Packet) : State :=
  let s := s.modPart pk.part fun q =>
    q.setOwner pk.owner { q.owner pk.owner with xobs := countRounds (q.owner pk.owner).xobs pk.lost }
  if pk.slot < 8 && !pk.load.isPref then
    s.modSlotAt pk.core (slotNo pk.slot) fun t => { t with alost := BitVec.ofNat 16 (min pk.rounds 65535) }
  else s

/-- A packet is gone. -/
def State.dropPacket (s : State) (id : Nat) : State := { s with packets := s.packets.filter fun p => p.id != id }

/-- Rounds of two parts of a path together. -/
def addRounds (a b : SMap Nat) : SMap Nat := b.foldl (fun m e => mapSet m e.1 (mapGet m e.1 0 + e.2)) a

/-- A vault write has come to its end (R235): its rounds count with those of the request that caused it, or, where that has ended,
by themselves; those of another package's request that has left are not kept. DEDUCED, log 96. -/
def State.writeBackDone (s : State) (pk : Packet) : State :=
  match pk.causedBy.bind fun id => s.packets.find? fun p => p.id == id with
  | some c => (s.modPacket c.id fun p => { p with lost := addRounds p.lost pk.lost }).dropPacket pk.id
  | none => (if pk.origin.isSome then s else s.requestDone pk).dropPacket pk.id

/-! ### Arrivals at a core -/

/-- What a request meets at the core it reaches (R160, R330, R353, R354). -/
inductive Arrival where
  | serve (core : Nat) | refuse (c : Cause) | forward (pos : Nat)
  deriving DecidableEq, Repr

/-- A fenced core answers CONTAINED before every other check; the core that holds the position serves; one that it has
left forwards; any other answers PROT. -/
def State.arrival (s : State) (pk : Packet) : Arrival :=
  let c := pk.target
  let k := s.core c
  let pos := pk.position.getD 0
  if k.fenced then .refuse .contained
  else if !k.disabled && (k.bound.map (·.part)) == some pk.part && k.position == some pos then .serve c
  else if (s.part pk.part).forward.contains (c, pos) then .forward pos
  else .refuse .prot

/-- Forwarding entries whose every map copy has been updated are retired (R353). -/
def State.retireForwards (s : State) (p : Nat) : State :=
  let live := fun (f : Nat × Nat) => s.coreOfPos p f.2 == some f.1 ||
    s.packets.any fun (pk : Packet) => pk.position == some f.2 && pk.part == p && pk.outward && (pk.target == f.1 || pk.vacated == some f.1)
  s.modPart p fun q => { q with forward := q.forward.filter live }

/-- A packet that the mesh keeps in order: of class B, or injected with ESC = 1 (R311, R312). -/
def Packet.ordered (pk : Packet) : Bool :=
  pk.cls == 0 || match pk.load with
    | .channel _ _ | .notice _ => true
    | _ => false
/-- The packet is under way to its target. -/
def Packet.underWay (pk : Packet) : Bool :=
  match pk.place with
  | .enter net _ _ => net == 0
  | .router _ _ | .port => true
  | .slice _ | .bank _ _ | .fifo | .parked | .nacked | .back _ _ | .done => false
/-- A retry NACK has sent a request back to its sender's port, and it has not come to its target again (R354). -/
def Packet.retrying (pk : Packet) : Bool := pk.place == .nacked || (pk.retried && pk.underWay)
/-- A retry NACK sends a request back, or has sent it back. -/
def Packet.repeats (pk : Packet) : Bool := pk.nackReturns || pk.retrying
/-- Two packets come from the same core's port, or from the same die's control core. -/
def Packet.sameSource (a b : Packet) : Bool := a.core == b.core && a.origin == b.origin && a.isNotice == b.isNotice
/-- The core that a request has reached has fetched its staged frames again (R355), and no earlier request of the sender's core to the
same position stands before this one: none that is kept in order with it (R178, R312), and none that a retry NACK has sent back
(R354). -/
def State.firstInLine (s : State) (pk : Packet) : Bool :=
  !(s.core pk.target).refetching && !s.packets.any fun q => q.sameSource pk && q.position == pk.position && q.id < pk.id &&
    ((q.ordered && pk.ordered && q.underWay) || q.repeats)
/-- The escape bit with which a packet starts on the request network (R311): set for a channel packet or notice that is not of class B. -/
def Packet.startEsc (pk : Packet) : Bool :=
  pk.cls != 0 && match pk.load with
    | .channel _ _ | .notice _ => true
    | _ => false

/-! ### Channels (R178, R201, R202) -/

/-- An endpoint number as an index. -/
def endpointNo (e : Nat) : Fin 16 := ⟨e % 16, Nat.mod_lt _ (by decide)⟩
/-- The packets waiting in a FIFO. -/
def Core.fifo (k : Core) (e : Nat) : List (Vec × Bool) := k.fifos[endpointNo e]
/-- Replace a FIFO. -/
def Core.setFifo (k : Core) (e : Nat) (l : List (Vec × Bool)) : Core := { k with fifos := k.fifos.set (endpointNo e) l }

/-- The endpoint and data of a packet for a FIFO. -/
def Packet.channelOf (pk : Packet) : Option (Nat × Vec) :=
  match pk.load with
  | .channel e d => some (e, d)
  | .notice d => some (15, d)
  | _ => none

/-- The slot of a core that has waited longest in RECV on an endpoint, with its register (R178). -/
def Core.receiver (k : Core) (e : Nat) : Option (Nat × Reg) :=
  let ws := (List.range 8).filterMap fun i =>
    let t := k.slots[slotNo i]
    match t.out with
    | .recv x d => if x == e then some (t.since, (i, d)) else none
    | _ => none
  (sortKeys ws).head?.map (·.2)

/-- A packet is given to the slot that waits in RECV (R202): all sixteen lanes, then the acquire. -/
def State.receive (s : State) (c i : Nat) (d : Reg) (data : Vec) (bad : Bool) : State :=
  let here := (s.curCore, s.curSlot)
  let u := (s.focus c (slotNo i)).modMe fun t => { t with out := .none }
  let u := if bad then u.takeTrap .mce 0 true
    else ((u.setV d data).modMyCore (·.acquire)).complete 4
  u.focus here.1 here.2

/-- Place one packet at an endpoint of a core: with the longest-waiting RECV, else in the FIFO; none when it is full. -/
def State.placePacket (s : State) (c e : Nat) (data : Vec) (bad : Bool) : Option State :=
  let k := s.core c
  match k.receiver e with
  | some (i, d) => if (k.fifo e).isEmpty then some (s.receive c i d data bad) else none
  | none =>
    if (k.fifo e).length < Config.fifoPackets then some (s.modCore c fun k => k.setFifo e (k.fifo e ++ [(data, bad)])) else none

/-- The packets that wait at a full endpoint, oldest first. -/
def State.fifoWaiters (s : State) (c e : Nat) : List Packet :=
  (sortKeys (s.packets.filterMap fun pk =>
    if pk.place == .fifo && pk.target == c && (pk.channelOf.map (·.1)) == some e then some (pk.since, pk) else none)).map (·.2)

/-- A packet has been placed: the sender of a SEND gets its acknowledgement, a notice has no sender. -/
def State.placedPacket (s : State) (c : Nat) (pk : Packet) : State :=
  match pk.load with
  | .notice _ => s.dropPacket pk.id
  | _ => s.answerAt c pk.id .ok

/-- A place has become free at an endpoint: the oldest waiting packet is placed (R201). -/
def State.admitPacket (s : State) (c e : Nat) : State :=
  match (s.fifoWaiters c e).head? with
  | none => s
  | some pk =>
    match pk.channelOf with
    | none => s
    | some (_, data) =>
      match s.placePacket c e data pk.poisoned with
      | some u => u.placedPacket c pk
      | none => s

/-- The SEND destination word has a nonzero reserved bit (R201). -/
def destReserved (x : Word) : Bool := field x 50 14 != 0 || field x 4 36 != 0

/-- The target checks of SEND (R160, R201): rank, binding and disabling; a context that has moved or rests is reached later, and a
fenced core answers when the packet reaches its router (R330). -/
def sendTarget (x : Word) : M Unit := do
  let pos := field x 40 10
  let p ← look (·.myPartNo)
  let c ← look fun s => s.coreFor s.curCore p pos
  match c with
  | none => trap .prot x
  | some c => do
    let k ← look fun s => s.core c
    let moved ← look fun s => (s.part p).forward.contains (c, pos)
    check (k.fenced || moved || (!k.disabled && (k.bound.map (·.part)) == some p && k.position == some pos)) .prot x

/-- SEND (R201): NONCANON, PRIV for endpoint 15 in U mode, the target, then the release; the slot waits until the packet is
placed. -/
def execSend (a b : Reg) (s : State) : Out :=
  run (do
    let x ← readX a
    let v ← readV b
    check (!destReserved x) .noncanon x
    check (s.me.sw.s || field x 0 4 != 15) .priv 0
    sendTarget x
    release
    let id ← fun s =>
      let c := (s.coreFor s.curCore s.myPartNo (field x 40 10)).getD 0
      .ok (s.send s.agent (coreX c) (coreY c) 0 (.channel (field x 0 4) v) x true true)
    leave (.remote [id])) s

/-- Take the head packet of an endpoint, all lanes, with the acquire (R202). The MCE of a poisoned one has no pointer: its eaddr is 0.
DESIGN CHOICE, log 112. -/
def takePacket (d : Reg) (e : BitVec 4) (v : Vec) (bad : Bool) : M Unit := do
  if bad then trap .mce 0
  writeV d v
  change fun s => (s.modMyCore fun k => k.setFifo e.toNat (k.fifo e.toNat).tail).admitPacket s.curCore e.toNat
  acquire

/-- RECV (R202): it waits for a packet. -/
def execRecv (d : Reg) (e : BitVec 4) (s : State) : Out :=
  run (match s.myCore.fifo e.toNat with
    | (v, bad) :: _ => do
      takePacket d e v bad
      finish 4
    | [] => leave (.recv e.toNat d)) s

/-- RECVT (R202): NONDET in a deterministic task. -/
def execRecvt (d : Reg) (e : BitVec 4) (q : PredNo) (s : State) : Out :=
  run (do
    check (!s.me.sw.dm) .nondet 0
    match s.myCore.fifo e.toNat with
    | (v, bad) :: _ => do
      takePacket d e v bad
      writePred q true
    | [] => writePred q false
    finish 4) s

/-- CHANNEL_PACKET_ARRIVAL (R178, R201, R231): the packet is placed, waits for a place, or is refused; a notice waits at any
core that cannot take it. -/
def execChannelPacketArrival (packet : Nat) (s : State) : Out :=
  match s.packet? packet with
  | none => .next s
  | some pk =>
    match pk.channelOf with
    | none => .next s
    | some (e, data) =>
      if pk.place != .port || !s.firstInLine pk then .next s
      else match s.arrival pk with
        | .forward _ => .next s
        | .refuse c =>
          match pk.load with
          | .notice _ => .next (if c == .contained then s.dropPacket pk.id else s)
          | _ => .next (s.answerAt pk.target pk.id (.trap c))
        | .serve c =>
          if !(s.fifoWaiters c e).isEmpty then
            .next (s.modPacket pk.id fun p => { p with place := .fifo, since := s.stamp }).tick
          else match s.placePacket c e data pk.poisoned with
            | some u => .next (u.placedPacket c pk)
            | none => .next (s.modPacket pk.id fun p => { p with place := .fifo, since := s.stamp }).tick

/-! ### Remote tray accesses (R160, R181) -/

/-- Words a write touches without covering them whole stay or become poisoned when the packet is (R313). -/
def poisonWords (k : Core) (cells : List Host.Cell) (bad : Bool) : Core :=
  if bad then { k with trayBad := (cells.map fun c => c.1 / 4).foldl setAdd k.trayBad } else k

/-- Serve a tray operation, full/empty operations apart, at the core that owns the tray (R160, R288): the state and the
answer. A request whose flit failed its parity check is poisoned data to its bank (R313): a store leaves poisoned words, an
operation that computes with it is an MCE without effect. DEDUCED, log 85. -/
def State.serveTray (s : State) (c : Nat) (pk : Packet) (op : TrayOp) : State × Answer :=
  match op with
  | .read offs _ =>
    let os := offs.flatMap fun o => (List.range o.2).map fun i => o.1 + i
    if (s.core c).trayPoisoned os then (s, .trap .mce)
    else ({ s with freeCtr := s.freeCtr + os.length }, .data (s.trayBytes c os))
  | .write cells => (s.modCore c fun k => poisonWords ((k.trayWrite cells).noteOld k cells) cells pk.poisoned, .ok)
  | .amo op n off b _ =>
    let os := (List.range n).map fun i => off + i
    if pk.poisoned || (s.core c).trayPoisoned os then (s, .trap .mce)
    else
      let old := numberOf (s.trayBytes c os)
      let v := amoNew op n old b.toNat
      (({ s with freeCtr := s.freeCtr + n }).modCore c fun k => k.trayWrite ((byteMap v n).map fun (x : Nat × Byte) => (off + x.1, x.2)),
        .data (bytesOf old n))
  | .cas n off e b _ =>
    let os := (List.range n).map fun i => off + i
    if pk.poisoned || (s.core c).trayPoisoned os then (s, .trap .mce)
    else
      let old := numberOf (s.trayBytes c os)
      let u := { s with freeCtr := s.freeCtr + n }
      (if old = e.toNat % 2 ^ (8 * n) then
        u.modCore c fun k => k.trayWrite ((byteMap b.toNat n).map fun (x : Nat × Byte) => (off + x.1, x.2)) else u, .data (bytesOf old n))
  | .feset off n b => if pk.poisoned then (s, .trap .mce) else (s.feSetTray c off n b, .ok)
  | .fe _ _ _ _ => (s, .ok)

/-- The operation is a full/empty operation. -/
def TrayOp.isFe : TrayOp → Bool
  | .fe .. => true
  | _ => false

/-- One frame row of a peer FESET that has more of them (R192): the packet stays at the core for the rest. -/
def State.restOfRows (s : State) (c : Nat) (pk : Packet) (op : TrayOp) : Option State :=
  match op with
  | .feset off n b =>
    let w := rowWords off n
    if n ≤ w || pk.poisoned then none
    else some ((s.feSetTray c off w b).modPacket pk.id fun p => { p with load := .tray (.feset (off + 4 * w) (n - w) b) })
  | .read .. | .write _ | .amo .. | .cas .. | .fe .. => none

/-- A load, store or atomic of another core at the core it has reached; with `whole` every row of a FESET is set at once. -/
def State.portAccess (s : State) (whole : Bool) (packet : Nat) : State :=
  match s.packet? packet with
  | none => s
  | some pk =>
    match pk.load with
    | .tray op =>
      if pk.place != .port || op.isFe || !s.firstInLine pk then s
      else match s.arrival pk with
        | .forward _ => s
        | .refuse c => s.answerAt pk.target pk.id (.trap c)
        | .serve c =>
          match (s.restOfRows c pk op).filter fun _ => !whole with
          | some u => u
          | none =>
            let r := s.serveTray c pk op
            r.1.answerAt c pk.id r.2
    | _ => s

/-- REMOTE_PORT_ACCESS (R160): a load, store or atomic of another core is served at its bank and answered. -/
def execRemotePortAccess (packet : Nat) (s : State) : Out := .next (s.portAccess false packet)

/-- REMOTE_FE_REQUEST (R156): served when its condition holds, parked in a free entry, else NACKed with no effect. -/
def execRemoteFeRequest (packet : Nat) (s : State) : Out :=
  match s.packet? packet with
  | none => .next s
  | some pk =>
    match pk.load with
    | .tray (.fe op off b _) =>
      if pk.place != .port || !s.firstInLine pk then .next s
      else match s.arrival pk with
        | .forward _ => .next s
        | .refuse c => .next (s.answerAt pk.target pk.id (.trap c))
        | .serve c =>
          let w := off / 4
          let k := s.core c
          if k.isFull w == op.wants then
            if k.fePoisoned op w || (pk.poisoned && !op.wants) then .next (s.answerAt c pk.id (.trap .mce))
            else
              let a : Answer := if op.wants then .data (bytesOf (s.feValue c w).toNat 4) else .ok
              let u := (s.modCore c fun q => q.feDo op w b).answerAt c pk.id a
              .next (if op == .ldff then u else u.feWake c w)
          else if k.park.length < Config.parkEntries then
            let u := s.modPacket pk.id fun p => { p with place := .parked, since := s.stamp }
            .next (u.modCore c fun q => { q with park := q.park ++ [pk.id] }).tick
          else .next (s.answerAt c pk.id .nack)
    | _ => .next s

/-- FORWARDED_REQUEST (R353): the oldest request that has reached a vacated core is passed on to the context's new core. -/
def execForwardedRequest (packet : Nat) (s : State) : Out :=
  match s.packet? packet with
  | none => .next s
  | some pk =>
    match s.arrival pk with
    | .forward pos =>
      let older := s.packets.any fun p =>
        p.place == .port && p.target == pk.target && p.position == pk.position && p.since < pk.since && s.firstInLine p
      if pk.place != .port || pk.unit != 0 || older || !s.firstInLine pk || (mapGet? (s.part pk.part).contexts pos).isSome then .next s
      else match s.coreOfPos pk.part pos with
        | some c =>
          .next ((s.modPacket pk.id fun p =>
            { p with dx := coreX c, dy := coreY c, place := .enter 0 (routerOf pk.target) .core, since := s.stamp, esc := p.startEsc
                     vacated := some (p.vacated.getD p.target) }).tick.retireForwards
              pk.part)
        | none => .next s
    | .refuse _ | .serve _ => .next s

/-- A request whose sender has been contained: nobody repeats it (R329). -/
def Packet.orphan (pk : Packet) : Bool := pk.slot == detachedSlot && !pk.isNotice

/-- CONTEXT_RETRY_NACK (R354): a request for a context at rest in the vault is answered with a retry NACK, and its port repeats it 32
cycles after that has come back. -/
def execContextRetryNack (packet : Nat) (s : State) : Out :=
  match s.packet? packet with
  | none => .next s
  | some pk =>
    match pk.place with
    | .nacked =>
      if s.cycle < stampCycle pk.since + 32 then .next s
      else
        -- the map copy may name another core by now
        let c := match pk.load with
          | .tray _ | .channel _ _ | .notice _ => (s.coreOfPos pk.part (field pk.ptr 40 10)).getD pk.target
          | _ => pk.target
        .next (s.modPacket pk.id fun p =>
          { p with place := .enter 0 (routerOf pk.core) .core, dx := coreX c, dy := coreY c, since := s.stamp, esc := p.startEsc
                   retried := true }).tick
    | .port =>
      match s.arrival pk with
      | .forward pos =>
        if pk.unit == 0 && (mapGet? (s.part pk.part).contexts pos).isSome then
          .next (s.answerAt pk.target pk.id .retry)
        else .next s
      | .refuse _ | .serve _ => .next s
    | _ => .next s

/-! ### Replies (R181) -/

/-- The answer another package gives, as a packet's answer; `n` is the number of bytes a read asked for. -/
def answerOf (a : RemoteAnswer) (n : Nat) : Answer :=
  match a with
  | .data v => if n = 0 then .ok else .data (bytesOf v.toNat n)
  | .poisoned => .trap .mce
  | .prot => .trap .prot
  | .contained => .trap .contained
  | .fabric => .trap .fabric
  | .devfault b => .blame .devfault b
  | .devdepth b => .blame .devdepth b

/-- Bytes of data in the answer to a fabric operation (R411). -/
def fabricBytes : FabricOp → Nat
  | .read n => n
  | .write _ => 0
  | .amo _ d _ | .cas d _ _ => if d then 8 else 4

/-- The source takes the first answer of a fabric request that it has sent, and keeps no other, a copy that waits at the ports or not
(R416); `lost` are the rounds lost at the target (R321). -/
def State.takeAnswer (s : State) (pk : Packet) (a : RemoteAnswer) (lost : SMap Nat) : State :=
  match s.outstanding.find? fun o => o.pkt == pk.id with
  | none => s
  | some o =>
    if o.queued && !o.sent then s
    else
      let u := { s with outstanding := s.outstanding.filter fun x => x.pkt != pk.id }
      -- whoever waits for the window of that package tries again (R415)
      let u := u.wakeAll fun w => w == .row (2 ^ 50 + o.target)
      let done := { pk with answer := some (answerOf a (fabricBytes o.req.op)), place := .done, lost := addRounds pk.lost lost }
      if pk.slot == detachedSlot then u.dropPacket pk.id else (u.modPacket pk.id fun _ => done).requestDone done

/-- The request a reply answers, if it is one that waits; replies of a failed package are dropped (R418). -/
def State.repliedPacket (s : State) (r : RemoteReply) : Option Packet :=
  if s.failed.contains r.package || 4607 < s.pkgid.toNat then none
  else (s.outstanding.find? fun o => o.target == r.package && o.req.seq == r.seq).bind fun o => s.packet? o.pkt

/-- Take a reply for a packet that a test accepts. -/
def State.takeReply (s : State) (r : RemoteReply) (test : Packet → Bool) : State :=
  match s.repliedPacket r with
  | some pk => if test pk && pk.answer.isNone then s.takeAnswer pk r.answer (r.lost.foldl (fun m e => mapSet m e.1 e.2) []) else s
  | none => s

/-- Where the data of an answered packet goes. -/
def Packet.sinkOf (pk : Packet) : Sink :=
  match pk.load with
  | .tray (.read _ k) => k
  | .tray (.amo _ _ _ _ k) => k
  | .tray (.cas _ _ _ _ k) => k
  | .tray (.fe op _ _ d) => if op.wants then .x d else .none
  | .away _ _ _ k => k
  | .held k => k
  | _ => .none

/-- The address a cause is raised with: the pointer, or the block of a development that has failed (R252). -/
def Packet.causeAt (pk : Packet) : Word :=
  match pk.answer with
  | some (.blame _ b) => b
  | _ => pk.ptr

/-- Finish the instruction of the slot being executed with the answers of its packets, in their order (R181). -/
def State.finishRemote (s : State) (pks : List Packet) : State :=
  let s := { s with packets := s.packets.filter fun p => !pks.any fun x => x.id == p.id }
  let s := s.modMe fun t => { t with out := .none }
  match pks.findSome? fun p => p.cause.map fun c => (c, p.causeAt) with
  | some (c, ptr) => s.takeTrap c ptr (c == .mce || c == .fabric)
  | none =>
    let step := fun (s : State) (p : Packet) => s.sinkData p.sinkOf ((p.answer.map (·.bytes)).getD [])
    let old := (pks.head?.map fun p => numberOf ((p.answer.map (·.bytes)).getD [])).getD 0
    match (pks.head?.map fun (p : Packet) => p.sinkOf : Option Sink) with
    | some (.fork target) => s.forked target
    | some (.join target) => s.joined old target
    | some (.fetch _) => pks.foldl step s
    | _ => (pks.foldl step s).complete 4

/-- The packets of a wait, all of them answered and back. -/
def State.answered (s : State) (ids : List Nat) : Option (List Packet) :=
  let pks := ids.filterMap s.packet?
  if pks.all fun p => p.answer.isSome && p.place == .done then some pks else none

/-- A NACKed full/empty operation waits 32 cycles (R156). -/
def State.feNack (s : State) (pk : Packet) : State :=
  (s.modPacket pk.id fun p => { p with nacks := p.nacks + 1 }).modMe fun t =>
    { t with out := .feNacked pk.id (s.cycle + 32) }

/-- The replies that the slot being executed has awaited are there: its instruction stands, and its shared writes land (R85, R86). -/
def State.replyDone (s : State) : State :=
  (s.modMe fun t => { t with out := .none }).modMyCore fun k =>
    { k with
      undo := mapErase k.undo s.curSlot.val
      late := k.late.map fun l => if l.slot == s.curSlot.val then { l with held := false } else l }

/-- The slot being executed takes its reply, if everything it waits for is there (R85, R181). -/
def State.reply (s : State) : State :=
  match s.me.out with
  | .reply ids => if (ids.filterMap s.packet?).isEmpty then s.replyDone else s
  | .remote ids =>
    match s.answered ids with
    | none => s
    | some pks =>
      match pks.find? fun p => p.answer == some .nack with
      | some pk => s.feNack pk
      | none => s.finishRemote pks
  | _ => s

/-- MEMORY_REPLY (R181, R416): a reply of another package is taken for the request it answers, then the slot goes on if its reply is
complete. A number of 8 or more names an engine queue. DESIGN CHOICE, log 35. -/
def execMemoryReply (core slot : Nat) (reply : Option RemoteReply) (s : State) : Out :=
  let s := match reply with
    | none => s
    | some r => s.takeReply r fun pk => pk.core == core && pk.slot == slot && pk.sync
  if 8 ≤ slot then .next s
  else
    let here := (s.curCore, s.curSlot)
    .next (((s.focus core (slotNo slot)).reply).focus here.1 here.2)

/-- FE_NACK_RETRY (R156, R353): after 32 cycles the operation is sent again, to the core that the map names; on the 1,024th NACK it traps FERETRY. -/
def execFeNackRetry (core slot : Nat) (s : State) : Out :=
  let t := s.slotAt core (slotNo slot)
  match t.out with
  | .feNacked id due =>
    match s.packet? id with
    | none => .next s
    | some pk =>
      if Config.feNackLimit ≤ pk.nacks then
        let here := (s.curCore, s.curSlot)
        let u := (((s.requestDone pk).dropPacket id).focus core (slotNo slot)).modMe fun t => { t with out := .none }
        .next ((u.takeTrap .feretry pk.ptr false).focus here.1 here.2)
      else if s.cycle < due then .next s
      else
        -- the map copy may name another core by now
        let pos := field pk.ptr 40 10
        let c := (s.coreFor core pk.part pos).getD pk.target
        let u := s.modPacket id fun p =>
          { p with place := .enter 0 (routerOf core) .core, dx := coreX c, dy := coreY c, since := s.stamp, answer := none, esc := false
                   vacated := none }
        .next (u.tick.modSlotAt core (slotNo slot) fun t => { t with out := .remote [id] })
  | _ => .next s

/-- The slot waits for acknowledgements. -/
def Wait.isAck : Wait → Bool
  | .release | .row _ => true
  | _ => false

/-- A store's answer: a refusal is recorded in its slot, the first since the last report (R182), or ends the engine entry
that made it (R175, R420). -/
def State.storeAnswered (s : State) (pk : Packet) : State :=
  let s := s.dropPacket pk.id
  if pk.slot < 8 then
    s.modSlotAt pk.core (slotNo pk.slot) fun t =>
      { t with
        nack := match pk.cause with
          | some c => some (t.nack.getD { cause := c, addr := pk.causeAt })
          | none => t.nack
        out := if t.out.isAck then .none else t.out }
  else match pk.cause, pk.load with
    | some c, _ => s.failQueue pk.core (pk.slot - 8) (engineStatus c)
    -- what an engine has written to another package counts for the digest (R351)
    | none, .away _ _ _ (.written va bs) =>
      match ((s.core pk.core).headOf (pk.slot - 8)) with
      | some e => s.noteWritten e.agent (bs.zipIdx.map fun (b, i) => (va + i, b))
      | none => s
    | none, _ => s

/-- REMOTE_STORE_ACK (R181, R182): the acknowledgement of a peer-tray store has come back, or another package answers a
fabric store. -/
def execRemoteStoreAck (store : Nat) (reply : Option RemoteReply) (s : State) : Out :=
  match s.packet? store with
  | none => .next s
  | some pk =>
    if !pk.isStore then .next s
    else
      let s := match reply with
        | some r => s.takeReply r fun x => x.id == store
        | none => s
      match s.packet? store with
      | some pk => if pk.place == .done && pk.answer.isSome then .next (s.storeAnswered pk) else .next s
      | none => .next s

end Sys2Proof.Machine
end

