-- ==== Sys2Proof/Machine/Scalar.lean ====
section
/-!
DEFINITION. The scalar family (R99-R114): integer arithmetic and logic, address arithmetic, immediates, bit fields,
comparisons, predicate logic, SEL, RDP and WRP, and the compact scalar forms of R38. Each reads every source before it
writes, and completes with the loop step of R97.
-/
namespace Sys2Proof.Machine

/-! ### Results (R100-R109) -/

/-- Rotate left by B[5:0] (R100). -/
def rol (a b : Word) : Word := a.rotateLeft (b.toNat % 64)
/-- Number of zero bits above the highest one bit; 64 for 0 (R100). -/
def clzOf (a : Word) : Word := if a = 0 then 64 else BitVec.ofNat 64 (63 - Nat.log2 a.toNat)
/-- Number of one bits (R100). -/
def popcOf (a : Word) : Word := BitVec.ofNat 64 ((List.range 64).filter fun i => a.getLsbD i).length
/-- Bits [127:64] of the signed product (R100). -/
def mulhOf (a b : Word) : Word := BitVec.ofInt 64 (a.toInt * b.toInt / 2 ^ 64)
/-- Bits [127:64] of the unsigned product (R100). -/
def mulhuOf (a b : Word) : Word := BitVec.ofNat 64 (a.toNat * b.toNat / 2 ^ 64)
/-- Signed quotient and remainder (R101). -/
def divSigned (a b : Word) : Word × Word :=
  if b = 0 then (BitVec.allOnes 64, a)
  else if a = BitVec.intMin 64 && b = BitVec.allOnes 64 then (a, 0)
  else (BitVec.ofInt 64 (a.toInt.tdiv b.toInt), BitVec.ofInt 64 (a.toInt - a.toInt.tdiv b.toInt * b.toInt))
/-- Unsigned quotient and remainder (R101). -/
def divUnsigned (a b : Word) : Word × Word := if b = 0 then (BitVec.allOnes 64, a) else (a / b, a % b)
/-- PTAG (R104). -/
def ptagOf (a b : Word) : Word := BitVec.ofNat 64 (b.toNat % 16 * 2 ^ 60 + ptrLow a)
/-- The mask of a bit field (R109). -/
def fieldMask (p l : BitVec 6) : Word := BitVec.ofNat 64 ((2 ^ (l.toNat + 1) - 1) * 2 ^ p.toNat)
/-- BFX (R109). -/
def bfxOf (a : Word) (p l : BitVec 6) : Word := (a &&& fieldMask p l) >>> p.toNat
/-- BFI (R109). -/
def bfiOf (d a : Word) (p l : BitVec 6) : Word := (d &&& ~~~(fieldMask p l)) ||| ((a <<< p.toNat) &&& fieldMask p l)

/-! ### Shapes -/

/-- d := f(A, B), an instruction of `len` bytes and latency `lat`. -/
def binaryXAt (lat : Nat) (len : Word) (d a b : Reg) (f : Word → Word → Word) : M Unit := do
  let x ← readX a
  let y ← readX b
  writeXAt lat d (f x y)
  finish len
/-- The latency of scalar results (R82). -/
def scalarLat : Nat := 2
/-- The latency of multiplies (R82). -/
def multiplyLat : Nat := 3
/-- d := f(A, B). -/
def binaryX (len : Word) (d a b : Reg) (f : Word → Word → Word) : M Unit := binaryXAt scalarLat len d a b f
/-- d := f(A). -/
def unaryX (len : Word) (d a : Reg) (f : Word → Word) : M Unit := do
  let x ← readX a
  writeXAt scalarLat d (f x)
  finish len
/-- A divide: the slot leaves the rotation until the result is written at issue + 34 (R82, R101). -/
def divideX (d a b : Reg) (f : Word → Word → Word) : M Unit := do
  let x ← readX a
  let y ← readX b
  let now ← look (·.cycle)
  finish 4
  leave (.divide d (f x y) (now + 34))
/-- A predicate result. -/
def predicateX (q : PredNo) (b : Bool) : M Unit := do
  writePred q b
  finish 4
/-- A predicate from two (R112). -/
def predicate2 (d a b : PredNo) (f : Bool → Bool → Bool) : M Unit := do
  let x ← readPred a
  let y ← readPred b
  predicateX d (f x y)

/-! ### Meanings -/

/-- ADD (R100). -/
def execAdd (d a b : Reg) (s : State) : Out := run (binaryX 4 d a b (fun x y => x + y)) s

/-- SUB (R100). -/
def execSub (d a b : Reg) (s : State) : Out := run (binaryX 4 d a b (fun x y => x - y)) s

/-- MUL (R100). -/
def execMul (d a b : Reg) (s : State) : Out := run (binaryXAt multiplyLat 4 d a b (fun x y => x * y)) s

/-- MULH (R100). -/
def execMulh (d a b : Reg) (s : State) : Out := run (binaryXAt multiplyLat 4 d a b mulhOf) s

/-- MULHU (R100). -/
def execMulhu (d a b : Reg) (s : State) : Out := run (binaryXAt multiplyLat 4 d a b mulhuOf) s

/-- DIV (R101). -/
def execDiv (d a b : Reg) (s : State) : Out := run (divideX d a b (fun x y => (divSigned x y).1)) s

/-- DIVU (R101). -/
def execDivu (d a b : Reg) (s : State) : Out := run (divideX d a b (fun x y => (divUnsigned x y).1)) s

/-- REM (R101). -/
def execRem (d a b : Reg) (s : State) : Out := run (divideX d a b (fun x y => (divSigned x y).2)) s

/-- REMU (R101). -/
def execRemu (d a b : Reg) (s : State) : Out := run (divideX d a b (fun x y => (divUnsigned x y).2)) s

/-- AND (R100). -/
def execAnd (d a b : Reg) (s : State) : Out := run (binaryX 4 d a b (fun x y => x &&& y)) s

/-- OR (R100). -/
def execOr (d a b : Reg) (s : State) : Out := run (binaryX 4 d a b (fun x y => x ||| y)) s

/-- XOR (R100). -/
def execXor (d a b : Reg) (s : State) : Out := run (binaryX 4 d a b (fun x y => x ^^^ y)) s

/-- ANDN (R100). -/
def execAndn (d a b : Reg) (s : State) : Out := run (binaryX 4 d a b (fun x y => x &&& ~~~y)) s

/-- SHL (R100). -/
def execShl (d a b : Reg) (s : State) : Out := run (binaryX 4 d a b (fun x y => x <<< (y.toNat % 64))) s

/-- SHR (R100). -/
def execShr (d a b : Reg) (s : State) : Out := run (binaryX 4 d a b (fun x y => x >>> (y.toNat % 64))) s

/-- SAR (R100). -/
def execSar (d a b : Reg) (s : State) : Out := run (binaryX 4 d a b (fun x y => x.sshiftRight (y.toNat % 64))) s

/-- ROL (R100). -/
def execRol (d a b : Reg) (s : State) : Out := run (binaryX 4 d a b rol) s

/-- MIN (R100). -/
def execMin (d a b : Reg) (s : State) : Out := run (binaryX 4 d a b (fun x y => if x.sle y then x else y)) s

/-- MINU (R100). -/
def execMinu (d a b : Reg) (s : State) : Out := run (binaryX 4 d a b (fun x y => if x.ule y then x else y)) s

/-- MAX (R100). -/
def execMax (d a b : Reg) (s : State) : Out := run (binaryX 4 d a b (fun x y => if y.sle x then x else y)) s

/-- MAXU (R100). -/
def execMaxu (d a b : Reg) (s : State) : Out := run (binaryX 4 d a b (fun x y => if y.ule x then x else y)) s

/-- CLZ (R100). -/
def execClz (d a : Reg) (s : State) : Out := run (unaryX 4 d a clzOf) s

/-- POPC (R100). -/
def execPopc (d a : Reg) (s : State) : Out := run (unaryX 4 d a popcOf) s

/-- SEXT.b (R100). -/
def execSextB (d a : Reg) (s : State) : Out := run (unaryX 4 d a (fun x => (x.setWidth 8).signExtend 64)) s

/-- SEXT.h (R100). -/
def execSextH (d a : Reg) (s : State) : Out := run (unaryX 4 d a (fun x => (x.setWidth 16).signExtend 64)) s

/-- SEXT.w (R100). -/
def execSextW (d a : Reg) (s : State) : Out := run (unaryX 4 d a (fun x => (x.setWidth 32).signExtend 64)) s

/-- LEA with scale 1 (R102). -/
def execLea1 (d a b : Reg) (s : State) : Out := run (binaryX 4 d a b (fun x y => leaBy x (1 * y.toInt))) s

/-- LEA with scale 2 (R102). -/
def execLea2 (d a b : Reg) (s : State) : Out := run (binaryX 4 d a b (fun x y => leaBy x (2 * y.toInt))) s

/-- LEA with scale 4 (R102). -/
def execLea4 (d a b : Reg) (s : State) : Out := run (binaryX 4 d a b (fun x y => leaBy x (4 * y.toInt))) s

/-- LEA with scale 8 (R102). -/
def execLea8 (d a b : Reg) (s : State) : Out := run (binaryX 4 d a b (fun x y => leaBy x (8 * y.toInt))) s

/-- MOV (R100). -/
def execMov (d a : Reg) (s : State) : Out := run (unaryX 4 d a (fun x => x)) s

/-- PTAG (R104). -/
def execPtag (d a b : Reg) (s : State) : Out := run (binaryX 4 d a b ptagOf) s

/-- The compact MOV (R38). -/
def execCMov (d r : Reg) (s : State) : Out := run (unaryX 2 d r (fun x => x)) s

/-- The compact ADD (R38). -/
def execCAdd (d r : Reg) (s : State) : Out := run (binaryX 2 d d r (fun x y => x + y)) s

/-- The compact SUB (R38). -/
def execCSub (d r : Reg) (s : State) : Out := run (binaryX 2 d d r (fun x y => x - y)) s

/-- The compact MUL (R38). -/
def execCMul (d r : Reg) (s : State) : Out := run (binaryXAt multiplyLat 2 d d r (fun x y => x * y)) s

/-- The compact AND (R38). -/
def execCAnd (d r : Reg) (s : State) : Out := run (binaryX 2 d d r (fun x y => x &&& y)) s

/-- The compact OR (R38). -/
def execCOr (d r : Reg) (s : State) : Out := run (binaryX 2 d d r (fun x y => x ||| y)) s

/-- The compact XOR (R38). -/
def execCXor (d r : Reg) (s : State) : Out := run (binaryX 2 d d r (fun x y => x ^^^ y)) s

/-- The compact SHL (R38). -/
def execCShl (d r : Reg) (s : State) : Out := run (binaryX 2 d d r (fun x y => x <<< (y.toNat % 64))) s

/-- The compact SHR (R38). -/
def execCShr (d r : Reg) (s : State) : Out := run (binaryX 2 d d r (fun x y => x >>> (y.toNat % 64))) s

/-- The compact SAR (R38). -/
def execCSar (d r : Reg) (s : State) : Out := run (binaryX 2 d d r (fun x y => x.sshiftRight (y.toNat % 64))) s

/-- The compact MIN (R38). -/
def execCMin (d r : Reg) (s : State) : Out := run (binaryX 2 d d r (fun x y => if x.sle y then x else y)) s

/-- The compact MAX (R38). -/
def execCMax (d r : Reg) (s : State) : Out := run (binaryX 2 d d r (fun x y => if y.sle x then x else y)) s

/-- ADDI (R105). -/
def execAddi (d a : Reg) (i : BitVec 15) (s : State) : Out := run (unaryX 4 d a (fun x => x + i.signExtend 64)) s

/-- ANDI (R105). -/
def execAndi (d a : Reg) (i : BitVec 15) (s : State) : Out := run (unaryX 4 d a (fun x => x &&& i.setWidth 64)) s

/-- ORI (R105). -/
def execOri (d a : Reg) (i : BitVec 15) (s : State) : Out := run (unaryX 4 d a (fun x => x ||| i.setWidth 64)) s

/-- XORI (R105). -/
def execXori (d a : Reg) (i : BitVec 15) (s : State) : Out := run (unaryX 4 d a (fun x => x ^^^ i.setWidth 64)) s

/-- SHLI (R106). -/
def execShli (d a : Reg) (n : BitVec 6) (s : State) : Out := run (unaryX 4 d a (fun x => x <<< n.toNat)) s

/-- SHRI (R106). -/
def execShri (d a : Reg) (n : BitVec 6) (s : State) : Out := run (unaryX 4 d a (fun x => x >>> n.toNat)) s

/-- SARI (R106). -/
def execSari (d a : Reg) (n : BitVec 6) (s : State) : Out := run (unaryX 4 d a (fun x => x.sshiftRight n.toNat)) s

/-- LI (R107). -/
def execLi (d : Reg) (i : BitVec 15) (s : State) : Out := run (do writeXAt scalarLat d (i.signExtend 64); finish 4) s

/-- LIU (R108): it reads its own destination. -/
def execLiu (d : Reg) (i : BitVec 20) (s : State) : Out := run (unaryX 4 d d (fun x => (x <<< 20) ||| i.setWidth 64)) s

/-- BFX (R109). -/
def execBfx (d a : Reg) (p l : BitVec 6) (s : State) : Out := run (unaryX 4 d a (fun x => bfxOf x p l)) s

/-- BFI (R109): it reads its own destination. -/
def execBfi (d a : Reg) (p l : BitVec 6) (s : State) : Out := run (binaryX 4 d d a (fun x y => bfiOf x y p l)) s

/-- CMP (R110). -/
def execCmp (q : PredNo) (a b : Reg) (c : Cond) (s : State) : Out := run (do let x ← readX a; let y ← readX b; predicateX q (scalarCond c x y)) s

/-- CMPI (R111). -/
def execCmpi (q : PredNo) (a : Reg) (c : Cond) (i : BitVec 12) (s : State) : Out := run (do let x ← readX a; predicateX q (scalarCond c x (i.signExtend 64))) s

/-- PLOG.AND (R112). -/
def execPlogAnd (d a b : PredNo) (s : State) : Out := run (predicate2 d a b (fun x y => x && y)) s

/-- PLOG.OR (R112). -/
def execPlogOr (d a b : PredNo) (s : State) : Out := run (predicate2 d a b (fun x y => x || y)) s

/-- PLOG.XOR (R112). -/
def execPlogXor (d a b : PredNo) (s : State) : Out := run (predicate2 d a b (fun x y => x != y)) s

/-- PLOG.ANDN (R112). -/
def execPlogAndn (d a b : PredNo) (s : State) : Out := run (predicate2 d a b (fun x y => x && !y)) s

/-- PLOG.NOT (R112). -/
def execPlogNot (d a : PredNo) (s : State) : Out := run (predicate2 d a a (fun x _ => !x)) s

/-- PLOG.SET (R112). -/
def execPlogSet (d : PredNo) (s : State) : Out := run (predicateX d true) s

/-- PLOG.CLR (R112). -/
def execPlogClr (d : PredNo) (s : State) : Out := run (predicateX d false) s

/-- SEL (R113). -/
def execSel (d a b : Reg) (p : PredNo) (n : Bool) (s : State) : Out := run (do let x ← readX a; let y ← readX b; let c ← readPred p; writeXAt scalarLat d (if c != n then x else y); finish 4) s

/-- RDP (R114): P[31:24] reads zero. -/
def execRdp (d : Reg) (s : State) : Out := run (do let p ← look (·.me.p); writeXAt scalarLat d ((p.setWidth 24).setWidth 64); finish 4) s

/-- WRP (R114): P[23:0] := A[23:0]. -/
def execWrp (a : Reg) (s : State) : Out := run (do let x ← readX a; change (·.modMe fun t => { t with p := (x.setWidth 24).setWidth 32 }); finish 4) s

end Sys2Proof.Machine
end

