-- ==== Sys2Proof/Machine/Mesh.lean ====
section
/-!
DEFINITION. The mesh and the vaults (R308-R315, R319-R322, R325-R327): arbitration by draws, routes, the forwarding of a
packet by a router, the accesses and refreshes of vault banks, bridge replays and scrub visits.
-/
namespace Sys2Proof.Machine

/-! ### Arbitration (R319) -/

/-- Who owns a request (R309, R407): the package it came from, the partition and the owner. -/
def Packet.identity (pk : Packet) : Option Nat × Nat × Nat := (pk.origin, pk.part, pk.owner)

/-- The seed of another package's owner (R412): the copy that came last, else the one it was brought up with (log 14). -/
def State.remoteSeed (s : State) (key : Nat) : BitVec 128 := mapGet s.remoteSeeds key (Config.remoteSeed key)
/-- The key of another package's owner: package, partition and owner. -/
def remoteKey (pkg part owner : Nat) : Nat := (pkg * 64 + part) * 16 + owner

/-- draw(o, s) for the owner of a request: an owner of another package draws on its seed and on counters of its own
(R412). -/
def State.drawFor (s : State) (who : Option Nat × Nat × Nat) (st inst index : Nat) : HWord × State :=
  match who.1 with
  | none => s.draw who.2.1 who.2.2 st inst index
  | some pkg =>
    let key := remoteKey pkg who.2.1 who.2.2
    let m := mapGet s.remoteCtr key []
    let c := mapGet m (ctrKey st inst) 0
    (drawKey (s.remoteSeed key) (BitVec.ofNat 16 st) (drawInput st index c),
     { s with remoteCtr := mapSet s.remoteCtr key (mapSet m (ctrKey st inst) ((c + 1) % 2 ^ ctrBits st)) })

/-- A ticket for each owner of a list, in order. -/
def drawTickets (st inst index : Nat) : List (Option Nat × Nat × Nat) → State →
    List (HWord × Option Nat × Nat × Nat) × State
  | [], s => ([], s)
  | o :: rest, s =>
    let (d, s) := s.drawFor o st inst index
    let (l, s) := drawTickets st inst index rest s
    ((d, o) :: l, s)

/-- The holders of the highest ticket. -/
def highest (ts : List (HWord × Option Nat × Nat × Nat)) : List (Option Nat × Nat × Nat) :=
  let top := ts.foldl (fun m t => max m t.1.toNat) 0
  (ts.filter fun t => t.1.toNat == top).map (·.2)

/-- The owner that wins a decision: tied owners redraw (R319); `n` bounds the redraws. -/
def winnerOf (st inst index : Nat) : Nat → List (Option Nat × Nat × Nat) → State → Option (Option Nat × Nat × Nat) × State
  | 0, _, s => (none, s)
  | n + 1, os, s =>
    match os with
    | [] => (none, s)
    | [o] => (some o, s)
    | _ =>
      let (ts, s) := drawTickets st inst index os s
      winnerOf st inst index n (highest ts) s

/-- The requests of the highest class present (R322). -/
def topClass (ps : List Packet) : List Packet :=
  let c := ps.foldl (fun m p => min m p.cls.toNat) 3
  ps.filter fun p => p.cls.toNat == c

/-- The owners among some requests. -/
def ownersAmong (ps : List Packet) : List (Option Nat × Nat × Nat) :=
  ps.foldl (fun l p => if l.contains p.identity then l else l ++ [p.identity]) []

/-- A request has lost a round at a structure (R321). -/
def Packet.lose (pk : Packet) (st : Nat) : Packet := { pk with lost := mapSet pk.lost st (mapGet pk.lost st 0 + 1) }

/-- Redraws that could tell apart owners whose streams differ at all: every counter value, for every owner (R239). Owners
whose streams are equal for ever tie for ever. DEDUCED, log 15. -/
def redrawBound (st : Nat) (os : List (Option Nat × Nat × Nat)) : Nat := os.length * 2 ^ ctrBits st + 1

/-- One decision among requests given in their order of age: the request served, and the oldest request of the class of each other
owner, which loses a round (R319, R321). -/
def State.decide (s : State) (st inst index : Nat) (ps : List Packet) : Option (Packet × List Nat) × State :=
  let ps := topClass ps
  let os := ownersAmong ps
  let (w, s) := winnerOf st inst index (redrawBound st os) os s
  (w.bind fun w => (ps.find? fun p => p.identity == w).map fun pk =>
    (pk, (os.filter (· != w)).filterMap fun o => (ps.find? fun p => p.identity == o).map (·.id)), s)

/-- A decision among packets: the losers count their round. -/
def State.arbitrate (s : State) (st inst index : Nat) (ps : List Packet) : Option Packet × State :=
  match s.decide st inst index ps with
  | (none, s) => (none, s)
  | (some (pk, losers), s) => (some pk, { s with packets := s.packets.map fun p => if losers.contains p.id then p.lose st else p })

/-- Requests in their order of arrival; those of one cycle by their input port (R320). -/
def byArrival (port : Packet → Nat) (ps : List Packet) : List Packet :=
  let bySince := (sortKeys (ps.map fun p => (p.since, p))).map (·.2)
  (sortKeys (bySince.map fun p => (stampCycle p.since * 2 ^ 17 + port p, p))).map (·.2)

/-- Place of a port among a router's inputs and outputs (R320). -/
def portOrder : MeshPort → Nat
  | .north => 0 | .east => 1 | .south => 2 | .west => 3 | .core => 4 | .slice => 5 | .bridge => 6

/-- Key of a structure instance. -/
def decisionKey (st inst : Nat) : Nat := st * 2 ^ 32 + inst
/-- An instance may decide in this cycle at a place of the order within it: no decision at this place or a later one has been made
(R320). -/
def State.mayDecide (s : State) (st inst order : Nat) : Bool :=
  match mapGet? s.decided (decisionKey st inst) with
  | none => true
  | some (c, o) => c < s.cycle || (c == s.cycle && o < order)
/-- The decision is noted. -/
def State.noteDecision (s : State) (st inst order : Nat) : State :=
  { s with decided := mapSet s.decided (decisionKey st inst) (s.cycle, order) }

/-! ### Routes (R308, R311, R313) -/

/-- A hop: output port, next router and the port it is entered by. -/
structure Hop where
  out : MeshPort
  next : Nat
  entry : MeshPort
  deriving DecidableEq, Repr

/-- Router number of a bridge (R239). -/
def bridgeNo (edge bridge : Nat) : Nat := 1024 + 16 * edge + bridge

/-- The hop of a core's router along its row. -/
def hopX (x y dx : Nat) : Option Hop :=
  if x < dx then
    some (if x = 15 then ⟨.bridge, bridgeNo (if y < 16 then 0 else 3) (y % 16), .west⟩ else ⟨.east, 32 * y + x + 1, .west⟩)
  else if dx < x then
    some (if x = 16 then ⟨.bridge, bridgeNo (if y < 16 then 0 else 3) (y % 16), .east⟩ else ⟨.west, 32 * y + x - 1, .east⟩)
  else none
/-- The hop of a core's router along its column. -/
def hopY (x y dy : Nat) : Option Hop :=
  if y < dy then
    some (if y = 15 then ⟨.bridge, bridgeNo (if x < 16 then 1 else 2) (x % 16), .north⟩
      else ⟨.south, 32 * (y + 1) + x, .north⟩)
  else if dy < y then
    some (if y = 16 then ⟨.bridge, bridgeNo (if x < 16 then 1 else 2) (x % 16), .south⟩
      else ⟨.north, 32 * (y - 1) + x, .south⟩)
  else none
/-- The hop across a bridge, from the port it was entered by. -/
def hopBridge (n : Nat) (entry : MeshPort) : Option Hop :=
  let e := (n - 1024) / 16
  let b := (n - 1024) % 16
  match entry with
  | .west => some ⟨.east, 32 * (b + if e = 3 then 16 else 0) + 16, .bridge⟩
  | .east => some ⟨.west, 32 * (b + if e = 3 then 16 else 0) + 15, .bridge⟩
  | .north => some ⟨.south, 32 * 16 + b + (if e = 2 then 16 else 0), .bridge⟩
  | .south => some ⟨.north, 32 * 15 + b + (if e = 2 then 16 else 0), .bridge⟩
  | .core | .slice | .bridge => none

/-- Column, row and unit of a slice (R308, R309). -/
def slicePoint (slice : Nat) : Nat × Nat × Nat :=
  let c := sliceCore (slice / 4) (slice % 4)
  (coreX c, coreY c, 1 + slice % 4)

/-- Destination of a packet on a network: column, row and unit. -/
def Packet.goal (pk : Packet) (net : Nat) : Nat × Nat × Nat :=
  if net = 0 then (pk.dx, pk.dy, pk.unit)
  else match pk.via with
    | some h => slicePoint h
    | none => (coreX pk.core, coreY pk.core, if pk.isNotice then 5 else 0)
/-- Source of a packet on a network: column, row and unit. -/
def Packet.source (pk : Packet) (net : Nat) : Nat × Nat × Nat :=
  if net = 0 then
    match pk.via with
    | some h => slicePoint h
    | none => (coreX pk.core, coreY pk.core, if pk.isNotice then 5 else 0)
  else (pk.dx, pk.dy, pk.unit)

/-- Router and input port of a packet on a network. -/
def Packet.at? (pk : Packet) (net : Nat) : Option (Nat × MeshPort) :=
  match pk.place with
  | .router n p => if net = 0 then some (n, p) else none
  | .back n p => if net = 1 then some (n, p) else none
  | .enter _ _ _ | .slice _ | .bank _ _ | .port | .fifo | .parked | .nacked | .done => none

/-- Free buffers for a class at a router's input (R310): two for class B, one adaptive and one escape for the others.
DEDUCED, log 65. -/
def State.bufferFree (s : State) (net : Nat) (cls : BitVec 2) (esc : Bool) (h : Hop) : Bool :=
  let here := s.packets.filter fun p =>
    p.at? net == some (h.next, h.entry) && p.cls == cls && (cls == 0 || p.esc == esc)
  here.length < if cls == 0 then 2 else 1

/-- Where a packet goes next: the hop and its escape bit, or the unit at its destination (R311). -/
inductive Move where
  | hop (h : Hop) (esc : Bool)
  | arrive (unit : Nat)
  | stay
  deriving DecidableEq, Repr

/-- The move of a packet that stands at a router. -/
def State.moveOf (s : State) (net : Nat) (pk : Packet) (n : Nat) (entry : MeshPort) : Move :=
  let (dx, dy, unit) := pk.goal net
  let (ho, ve) := if n < 1024 then (hopX (n % 32) (n / 32) dx, hopY (n % 32) (n / 32) dy) else (hopBridge n entry, none)
  match ho.or ve with
  | none => .arrive unit
  | some first =>
    if pk.cls == 0 then (if s.bufferFree net pk.cls false first then .hop first false else .stay)
    else if pk.esc then (if s.bufferFree net pk.cls true first then .hop first true else .stay)
    else match [ho, ve].filterMap (fun h => h.filter (s.bufferFree net pk.cls false)) with
      | h :: _ => .hop h false
      | [] => if s.bufferFree net pk.cls true first then .hop first true else .stay

/-- The output port of a move. -/
def Move.out : Move → Option MeshPort
  | .hop h _ => some h.out
  | .arrive u => some (if u = 0 || 5 ≤ u then .core else .slice)
  | .stay => none

/-- A request that a retry NACK has sent back holds its core's later requests to the same position behind it, until it has come to
its target (R354). -/
def State.heldBack (s : State) (pk : Packet) : Bool :=
  pk.place == .enter 0 (routerOf pk.core) .core &&
    s.packets.any fun q => q.retrying && q.sameSource pk && q.position == pk.position && q.id < pk.id

/-- A slot as it was before an instruction, with what has happened to it since from outside. -/
def Slot.undone (old now : Slot) : Slot :=
  { old with
    out := .none, alost := now.alost, nack := now.nack, readyAt := now.readyAt, stopAt := now.stopAt, halted := now.halted
    disabled := now.disabled, guestAt := now.guestAt }
/-- The instruction of a slot that awaits replies has had no effect on it, nor on the shared bank (R87). -/
def State.undoReply (s : State) (c : Nat) (j : Fin 8) : State :=
  match mapGet? (s.core c).undo j.val with
  | none => s.modSlotAt c j fun t => { t with out := .none }
  | some old => (s.modSlotAt c j fun t => old.undone t).modCore c fun k =>
      { k with undo := mapErase k.undo j.val, late := k.late.filter fun l => !(l.slot == j.val && l.held) }

/-- The requester of a home request consumes poisoned data (R180, R313): a slot that awaits the reply takes an exact MCE, an engine's head
entry ends with status 3. What a fetch or the page walker reads is read again. DEDUCED, log 85. -/
def State.consumePoison (s : State) (pk : Packet) : State :=
  if pk.slot < 8 then
    match (s.slotAt pk.core (slotNo pk.slot)).out with
    | .reply ids =>
      if ids.contains pk.id then
        let here := (s.curCore, s.curSlot)
        (((s.undoReply pk.core (slotNo pk.slot)).focus pk.core (slotNo pk.slot)).takeTrap .mce pk.ptr true).focus here.1 here.2
      else s
    | _ => s
  else if pk.slot < 14 then s.failQueue pk.core (pk.slot - 8) (engineStatus .mce)
  else s

/-- The words of a first-level line that its core does not own are poisoned. -/
def State.poisonFill (s : State) (core va line : Nat) : State :=
  match mapGet? (s.core core).l1d va with
  | some l => if l.pa == line then s.modCore core fun k => { k with l1d := mapSet k.l1d va { l with bad := l.bad ||| (l.valid &&& ~~~l.owned) } } else s
  | none => s

/-- A poisoned reply of a home slice reaches its requester (R313). -/
def State.poisonedReply (s : State) (pk : Packet) (line : Nat) : State :=
  match pk.body with
  | .none | .write _ _ => s
  | .read _ | .atomic _ _ _ => s.consumePoison pk
  | .fill core va reads =>
    let s := s.poisonFill core va line
    if reads then s.consumePoison pk else s

/-- Words of memory are poisoned. -/
def State.poisonWords (s : State) (ws : List Nat) : State := { s with memBad := ws.foldl setAdd s.memBad }

/-- A response has reached the requester's core (R181, R329): a fence discards it; a request that is only arbitrated for, or
that an engine row has performed, is done with. A full/empty operation that is NACKed is not complete: it counts when it has been
answered (R156, R299). A retry NACK has come to the port that repeats the request (R354); nobody repeats a contained sender's. -/
def State.responseHome (s : State) (pk : Packet) : State :=
  if (s.core pk.core).fenced && pk.origin.isNone && !pk.isNotice then s.dropPacket pk.id
  else if pk.nackReturns then
    if pk.orphan then s.dropPacket pk.id
    else (s.modPacket pk.id fun p => { p with place := .nacked, answer := none, since := s.stamp }).tick
  else
    let s := if pk.answer == some .nack then s else s.requestDone pk
    match pk.load with
    | .home line _ => (if pk.poisoned then s.poisonedReply pk line else s).dropPacket pk.id
    | .pref _ _ _ | .writeBack _ | .recall _ _ | .keepAlive _ _ | .transit _ _ | .fabric _ | .reply _ _ => s.dropPacket pk.id
    | .tray _ | .channel _ _ | .notice _ | .away _ _ _ _ | .held _ =>
      if pk.slot == detachedSlot then s.dropPacket pk.id else s.modPacket pk.id fun p => { p with place := .done }

/-- The line whose vault a packet that passes between slices goes to (R235). -/
def Packet.vaultLine (pk : Packet) : Option Nat :=
  match pk.load with
  | .home line _ | .writeBack line => some line
  | .reply req _ => some (lineOf req.pa)
  | .pref _ _ _ | .recall _ _ | .tray _ | .channel _ _ | .notice _ | .away _ _ _ _ | .held _ | .keepAlive _ _ | .transit _ _ | .fabric _ => none

/-- Poison every word of a line. -/
def State.poisonLine (s : State) (line : Nat) : State :=
  { s with memBad := allWords.foldl (fun m w => setAdd m (16 * line + w)) s.memBad }

/-- The answer that a poisoned line gives (R412). -/
def poisonedAnswer : RemoteAnswer → RemoteAnswer
  | .data _ => .poisoned
  | .poisoned => .poisoned
  | .prot => .prot
  | .contained => .contained
  | .fabric => .fabric
  | .devfault b => .devfault b
  | .devdepth b => .devdepth b

/-- The request that caused a packet reads, or computes with, the words it asks for. -/
def HomeBody.consumes : HomeBody → Bool
  | .read _ | .atomic _ _ _ => true
  | .fill _ _ reads => reads
  | .none | .write _ _ => false
/-- Recalled words have reached their home slice (R162, R237): words that came poisoned stay so, and a request that reads them is answered
with poisoned data (R313). -/
def State.recallDone (s : State) (pk : Packet) (line : Nat) (ws : List Nat) : State :=
  if !pk.poisoned then s.writeBackDone pk
  else
    let u := s.poisonWords (ws.map fun w => 16 * line + w)
    match pk.causedBy with
    | some id => (u.modPacket id fun p => { p with poisoned := p.poisoned || p.body.consumes }).writeBackDone pk
    | none => u.writeBackDone pk

/-- The vault's answer has reached the home slice h at router n (R235): a write is done; a read goes on to the requester, from the
home slice, and to another package by a port. A line that came poisoned stays so (R313). -/
def State.vaultAnswered (s : State) (pk : Packet) (h n : Nat) : State :=
  let (x, y, u) := slicePoint h
  let back := fun (s : State) (place : Place) =>
    (s.modPacket pk.id fun p => { p with via := none, dx := x, dy := y, unit := u, esc := false, place := place, since := s.stamp }).tick
  match pk.load with
  | .writeBack _ => s.writeBackDone pk
  | .recall line ws => s.recallDone pk line ws
  | .reply r a =>
    if pk.poisoned then
      back ((s.poisonLine (lineOf r.pa)).modPacket pk.id fun p => { p with load := .reply r (poisonedAnswer a) }) .port
    else back s .port
  | .home line _ => back (if pk.poisoned then s.poisonLine line else s) (.enter 1 n .slice)
  | .pref _ _ _ | .tray _ | .channel _ _ | .notice _ | .away _ _ _ _ | .held _ | .keepAlive _ _ | .transit _ _ | .fabric _ => back s (.enter 1 n .slice)

/-- A packet takes its move. -/
def State.take (s : State) (net : Nat) (pk : Packet) (n : Nat) (m : Move) : State :=
  match m with
  | .stay => s
  | .hop h esc =>
    (s.modPacket pk.id fun p =>
      { p with place := if net = 0 then .router h.next h.entry else .back h.next h.entry, esc := esc, since := s.stamp }).tick
  | .arrive u =>
    if net = 0 then
      let c := coreAtXY (n % 32) (n / 32)
      let place : Place := if u = 0 || 5 ≤ u then .port
        else match pk.via, pk.vaultLine with
          | some _, some line => .bank (line / 2 ^ 25) (line / 64 % 64)
          | _, _ => .slice (sliceNo (clusterOf c) (u - 1))
      (s.modPacket pk.id fun p => { p with place := place, since := s.stamp }).tick
    else match pk.via with
      | some h => s.vaultAnswered pk h n
      | none => s.responseHome pk

/-- The packet may enter its router now: a buffer of the input port is free, no older packet of its channel stands before it (R310),
and no NACKed request holds it back (R354). -/
def State.mayInject (s : State) (pk : Packet) : Bool :=
  match pk.place with
  | .enter net n port =>
    !s.heldBack pk && s.bufferFree net pk.cls pk.esc ⟨port, n, port⟩ &&
      !s.packets.any fun q => q.place == pk.place && q.cls == pk.cls && (q.cls == 0 || q.esc == pk.esc) && q.since < pk.since && !s.heldBack q
  | _ => false

/-- The order of the input port a packet stands at. -/
def Packet.inputOrder (net : Nat) (pk : Packet) : Nat := ((pk.at? net).map fun x => portOrder x.2).getD 0

/-- A packet enters its router. -/
def State.inject (s : State) (id : Nat) : State :=
  match s.packet? id with
  | none => s
  | some pk =>
    match pk.place with
    | .enter net n port =>
      if s.mayInject pk then
        (s.modPacket id fun p => { p with place := if net = 0 then .router n port else .back n port, since := s.stamp }).tick
      else s
    | _ => s

/-! ### Headers (R309) -/

/-- The packet travels on the response network. -/
def Packet.isResponse (pk : Packet) : Bool :=
  match pk.place with
  | .enter net _ _ => net == 1
  | .back _ _ | .done => true
  | .router _ _ | .slice _ | .bank _ _ | .port | .fifo | .parked | .nacked => false

/-- Bytes of data that a request to a home slice carries, and its reply. -/
def HomeBody.bytes : HomeBody → Nat × Nat
  | .none => (0, 0)
  | .read n => (0, n)
  | .fill _ _ _ => (0, 64)
  | .write _ n => (n, 0)
  | .atomic _ n operands => (operands, n)

/-- Bytes of data a packet carries: at most 64. A vault read between two slices brings a line (R235). -/
def Packet.dataBytes (pk : Packet) : Nat :=
  if pk.isResponse then
    match pk.answer, pk.load with
    | some (.data bs), _ => bs.length
    | _, .home _ _ => if pk.via.isSome then 64 else min 64 pk.body.bytes.2
    | _, .reply _ _ => if pk.via.isSome then 64 else 0
    | _, .recall _ ws => min 64 (4 * ws.length)
    | _, _ => 0
  else match pk.load with
    | .tray (.write cells) => cells.length
    | .tray (.amo _ n _ _ _) => n
    | .tray (.cas n _ _ _ _) => 2 * n
    | .tray (.fe op _ _ _) => if op.wants then 0 else 4
    | .channel _ _ | .notice _ | .writeBack _ => 64
    | .recall _ _ => 0
    | .home _ _ => if pk.via.isSome then 0 else min 64 pk.body.bytes.1
    | .tray (.read _ _) | .tray (.feset _ _ _) | .pref _ _ _ | .away _ _ _ _ | .held _ | .keepAlive _ _ | .transit _ _ | .fabric _ | .reply _ _ => 0
/-- Flits of a packet: the header, and one for each 32 bytes of data. -/
def Packet.flits (pk : Packet) : Nat := 1 + (pk.dataBytes + 31) / 32

/-- Kind of a packet's operation, whose TYPE code is not architectural. -/
def Packet.kind (pk : Packet) : Nat :=
  match pk.load with
  | .home _ _ => 0 | .writeBack _ => 1 | .pref _ _ _ => 2 | .tray (.read _ _) => 3 | .tray (.write _) => 4 | .tray (.amo _ _ _ _ _) => 5
  | .tray (.cas _ _ _ _ _) => 6 | .tray (.fe _ _ _ _) => 7 | .tray (.feset _ _ _) => 8 | .channel _ _ => 9 | .notice _ => 10
  | .away _ _ _ _ => 11 | .held _ => 12 | .fabric _ => 13 | .reply _ _ => 14 | .keepAlive _ _ => 15 | .transit _ _ => 17
  | .recall _ _ => 16

/-- Bits [63:0] of the header flit (R309). DESIGN CHOICE, log 84. -/
def Packet.header (pk : Packet) : Word :=
  let net := if pk.isResponse then 1 else 0
  let (dx, dy, unit) := pk.goal net
  let (sx, sy, _) := pk.source net
  BitVec.ofNat 8 pk.id ++ BitVec.ofNat 5 sy ++ BitVec.ofNat 5 sx ++ BitVec.ofNat 5 dy ++ BitVec.ofNat 5 dx ++ BitVec.ofNat 3 unit ++ 0#1 ++
    BitVec.ofNat 4 pk.owner ++ BitVec.ofNat 6 pk.part ++ BitVec.ofNat 2 (pk.flits - 1) ++ BitVec.ofBool pk.esc ++
    BitVec.ofBool pk.isResponse ++ pk.cls ++ 0#8 ++ Config.freeType (2 * pk.kind + if pk.isResponse then 1 else 0)

/-- A packet of class B waits behind an older one of its input that goes from the same source to the same destination (R312). -/
def State.behindOlder (s : State) (net : Nat) (pk : Packet) : Bool :=
  pk.cls == 0 && s.packets.any fun q =>
    q.cls == 0 && q.at? net == pk.at? net && q.goal net == pk.goal net && q.source net == pk.source net && q.since < pk.since

/-- ROUTER_PACKET_FORWARD (R309-R313, R319-R321): one decision of an output of a router on one network. -/
def execRouterPacketForward (router net : Nat) (out : MeshPort) (s : State) : Out :=
  let here := s.packets.filterMap fun p =>
    match p.at? net with
    | some (n, e) =>
      if n == router && (s.moveOf net p n e).out == some out && !s.behindOlder net p then some p else none
    | none => none
  if !s.mayDecide 5 (2 * router + net) (portOrder out) then .next s
  else match s.arbitrate 5 (2 * router + net) (2 * router + net) (byArrival (Packet.inputOrder net) here) with
  | (some pk, u) =>
    let u := u.noteDecision 5 (2 * router + net) (portOrder out)
    match u.packet? pk.id, pk.at? net with
    | some q, some (n, e) => .next (u.take net q n (s.moveOf net pk n e))
    | _, _ => .next u
  | (none, u) => .next u

/-! ### Bridges, vaults and scrubbers -/

/-- BRIDGE_FLIT_REPLAY (R313): a failed flit is sent again from the bridge's buffer; programs see only time. -/
def execBridgeFlitReplay (edge bridge : Nat) (s : State) : Out :=
  .next { s with replays := mapSet s.replays (bridgeNo edge bridge) (mapGet s.replays (bridgeNo edge bridge) 0 + 1) }

def Bank.reset : Bank := { ready := 0, refreshed := none }
/-- A bank of a vault. -/
def State.bank (s : State) (vault bank : Nat) : Bank := mapGet s.banks (64 * vault + bank) Bank.reset
/-- Replace it. -/
def State.setBank (s : State) (vault bank : Nat) (b : Bank) : State :=
  { s with banks := mapSet s.banks (64 * vault + bank) b }
/-- The bank is neither busy nor being refreshed. -/
def Bank.free (b : Bank) (now : Nat) : Bool :=
  b.ready ≤ now && (match b.refreshed with | some (t, n) => t + n ≤ now | none => true)

/-- The slice whose vault an access has reached: the home slice, or the slice that passed it on (R235). -/
def Packet.sliceOf (pk : Packet) : Nat :=
  sliceNo (clusterOf (coreAtXY pk.dx pk.dy)) (pk.unit - 1)

/-- The packet carries a write-back. -/
def Load.isWriteBack : Load → Bool
  | .writeBack _ => true
  | _ => false

/-- The vault writes that a change of the state has sent out: of other packets that reads for the SMC's own purposes have sent, nothing
waits. -/
def State.newWrites (before after : State) : List Packet :=
  after.packets.filter fun p => p.load.isWriteBack && !before.packets.any fun q => q.id == p.id
/-- Of the packets sent since an earlier state only the vault writes stay. -/
def State.onlyWrites (s before : State) : State := { s with packets := before.packets ++ before.newWrites s, sent := before.sent }

/-- An uncorrectable error of a line (R237, R249): a line of a recorded tile becomes latent, unless words of it are
registered; any other line is poisoned. -/
def State.lineError (s : State) (line : Nat) (vaultSide : Bool) : State :=
  let recorded := match s.partOfPa (64 * line) with
    | some p => ((s.part p).recordOf line).isSome
    | none => false
  let registered := match mapGet? s.l2 line with
    | some e => !e.reg.isEmpty && !vaultSide
    | none => false
  if recorded && !registered then { s with l2 := mapErase s.l2 line, latent := setAdd s.latent line } else s.poisonLine line

/-- The vault's copy of a line is lost (R313, R327): while the L2 holds the line only the vault's copy is, else the line is an
uncorrectable error. -/
def State.vaultLost (s : State) (line : Nat) : State :=
  if (mapGet? s.l2 line).isSome then { s with vaultBad := setAdd s.vaultBad line } else s.lineError line true

/-- VAULT_BANK_ACCESS (R315, R319): a ready bank serves one queued request and is busy for 4 cycles. -/
def execVaultBankAccess (vault bank : Nat) (s : State) : Out :=
  if !(s.bank vault bank).free s.cycle || !s.mayDecide 6 vault bank then .next s
  else match s.arbitrate 6 vault 0 (byArrival (fun p => p.sliceOf % 4) (s.packets.filter fun p => p.place == .bank vault bank)) with
    | (some pk, u) =>
      let c := sliceCore (pk.sliceOf / 4) (pk.sliceOf % 4)
      let u := (u.setBank vault bank { u.bank vault bank with ready := s.cycle + 4 }).noteDecision 6 vault bank
      -- a write-back that came by no mesh is done; the reply to another package goes to a port once the vault has been read
      let u := match pk.load with
        | .writeBack line => if pk.poisoned then u.vaultLost line else u
        | _ => u
      if pk.via.isNone && pk.load.isWriteBack then .next (u.writeBackDone ((u.packet? pk.id).getD pk))
      else if pk.via.isNone && pk.origin.isSome then .next (u.modPacket pk.id fun p => { p with place := .port, since := u.stamp }).tick
      else .next (u.modPacket pk.id fun p => { p with place := .enter 1 (routerOf c) .slice, esc := false, since := u.stamp }).tick
    | (none, u) => .next u

/-- Cycles of a refresh window: 3.9 µs (R315, R7). -/
def refreshWindow : Nat := 3666

/-- VAULT_REFRESH (R315): at most 113 cycles, once in each window. -/
def execVaultRefresh (vault bank cycles : Nat) (s : State) : Out :=
  let b := s.bank vault bank
  let due := match b.refreshed with
    | some (t, _) => t / refreshWindow < s.cycle / refreshWindow
    | none => true
  if 113 < cycles || !due || !b.free s.cycle then .next s
  else .next (s.setBank vault bank { b with refreshed := some (s.cycle, cycles) })

/-- Count a corrected error (R327). -/
def State.countCorrected (s : State) (line : Nat) (structureNo : Nat) : State :=
  match s.partOfPa (64 * line) with
  | some p => s.modPart p fun q => { q with corrected := mapSet q.corrected structureNo (mapGet q.corrected structureNo 0 + 1) }
  | none => s

/-- What is found in a line of an L2 or a vault (R237, R249, R327): a corrected error is counted; an uncorrectable one poisons the
line or makes it latent. Where the L2 holds the line, the loss of its vault copy shows when the line leaves the L2 clean.
DEDUCED, log 51. -/
def State.lineFound (s : State) (vaultSide : Bool) (line : Nat) (found : EccFinding) : State :=
  let held := (mapGet? s.l2 line).isSome
  if !vaultSide && !held then s
  else match found with
    | .clean => s
    | .corrected => s.countCorrected line (if vaultSide then 1 else 0)
    | .uncorrectable => if vaultSide then s.vaultLost line else s.lineError line false

/-- The L2 slice or the vault bank of a line has nothing else to do: scrubbers use cycles that the structure has free (R327). -/
def State.scrubFree (s : State) (vaultSide : Bool) (line : Nat) : Bool :=
  if vaultSide then
    let v := line / 2 ^ 25
    let b := line / 64 % 64
    (s.bank v b).free s.cycle && !s.packets.any fun p => p.place == .bank v b
  else match mapGet? s.l2 line with
    | some e => !s.packets.any fun p => p.place == .slice e.slice
    | none => true

/-- A scrubber's visit of a vault line is an access of its bank (R315). -/
def State.scrubBank (s : State) (vaultSide : Bool) (line : Nat) : State :=
  let v := line / 2 ^ 25
  let b := line / 64 % 64
  if vaultSide then s.setBank v b { s.bank v b with ready := s.cycle + 4 } else s

/-- SCRUB_VISIT (R327): a line of an L2 or a vault is read and checked. DESIGN CHOICE, log 33. -/
def execScrubVisit (vaultSide : Bool) (line : Nat) (found : EccFinding) (s : State) : Out :=
  if !s.scrubFree vaultSide line then .next s
  else .next (({ s with scrubbed := s.scrubbed + 1 }.scrubBank vaultSide line).lineFound vaultSide line found)

end Sys2Proof.Machine
end

