-- ==== Sys2Proof/Machine/Sched.lean ====
section
/-!
DEFINITION. The die's scheduling (R80, R148, R241-R243, R329-R339, R376-R384, R422): launch records and their checks,
placement, binding and lane start, completion, the watchdog and containment, and the entries of completion rings.
-/
namespace Sys2Proof.Machine

/-! ### Launch records (R378) -/

/-- Word i of a launch record. -/
def Launch.word (l : Launch) (i : Nat) : Word := l.words.getD i 0
def recRows (w : List Word) : Nat := field (w.getD 3 0) 0 5
def recCols (w : List Word) : Nat := field (w.getD 3 0) 8 5
def recSlots (w : List Word) : Nat := field (w.getD 3 0) 16 4
def recLanes (w : List Word) : Nat := field (w.getD 3 0) 32 13 + 1
def recMinLanes (w : List Word) : Nat := field (w.getD 3 0) 48 13 + 1
def recClass (w : List Word) : Nat := field (w.getD 4 0) 0 2
def recDet (w : List Word) : Bool := (w.getD 4 0).getLsbD 8
def recQfed (w : List Word) : Bool := (w.getD 4 0).getLsbD 9
def recKsplit (w : List Word) : Bool := (w.getD 4 0).getLsbD 10
def recDigest (w : List Word) : Bool := (w.getD 4 0).getLsbD 11
def recKsfmt (w : List Word) : Nat := field (w.getD 4 0) 16 5
def recWdog (w : List Word) : Nat := field (w.getD 5 0) 32 32
def recTol (w : List Word) : Nat := field (w.getD 5 0) 0 32
def recPorts (w : List Word) : Nat := field (w.getD 6 0) 0 36

/-- Completion statuses (R382). -/
def statusOk : BitVec 16 := 0x0000
def statusShape : BitVec 16 := 0x0010
def statusClassFull : BitVec 16 := 0x0011
def statusGroupBusy : BitVec 16 := 0x0012
def statusGroupImg : BitVec 16 := 0x0013
def statusDetQfed : BitVec 16 := 0x0014
def statusDetKsplit : BitVec 16 := 0x0015
def statusBadRec : BitVec 16 := 0x0016
/-- The status of a containment (R382). -/
def containStatus : ContainCause → BitVec 16
  | .watchdog => 0x0001 | .mce => 0x0002 | .vecFault => 0x0003 | .killed => 0x0004 | .fabric => 0x0005

/-- A reserved field of a launch record is nonzero, or a field is out of range (R378). -/
def badRecord (w : List Word) : Bool :=
  (List.range 22).any (fun i => w.getD (10 + i) 0 != 0) || field (w.getD 6 0) 36 28 != 0 || field (w.getD 4 0) 21 43 != 0 ||
    field (w.getD 4 0) 12 4 != 0 || field (w.getD 4 0) 2 6 != 0 || field (w.getD 3 0) 61 3 != 0 || field (w.getD 3 0) 45 3 != 0 ||
    field (w.getD 3 0) 20 12 != 0 || field (w.getD 3 0) 13 3 != 0 || field (w.getD 3 0) 5 3 != 0 || recClass w == 3 ||
    13 < recKsfmt w

/-- The cores of a rectangle, row-major (R337). -/
def rectangle (die row col rows cols : Nat) : List Nat :=
  (List.range (rows * cols)).map fun i => coreAt die (row + i / cols) (col + i % cols)

/-- Every core of a rectangle lies on its die, in a cluster of the partition, and is not disabled. -/
def State.fits (s : State) (q : Partition) (die row col rows cols : Nat) : Bool :=
  row + rows ≤ 16 && col + cols ≤ 16 &&
    (rectangle die row col rows cols).all fun c => q.clusters.contains (clusterOf c) && !(s.core c).disabled

/-- The limits of R336, and a place where the shape fits. -/
def State.shapeFits (s : State) (q : Partition) (die : Nat) (w : List Word) : Bool :=
  (1 ≤ recRows w && recRows w ≤ 16) && (1 ≤ recCols w && recCols w ≤ 16) && (1 ≤ recSlots w && recSlots w ≤ 8) &&
    recLanes w ≤ recRows w * recCols w * recSlots w &&
    (List.range 16).any fun r => (List.range 16).any fun c => s.fits q die r c (recRows w) (recCols w)

/-- The first refusal of the SMC's checks (R422), or none. -/
def State.firstStage (s : State) (q : Partition) (die : Nat) (w : List Word) : Option (BitVec 16) :=
  if badRecord w then some statusBadRec
  else if recDet w && recQfed w then some statusDetQfed
  else if recDet w && recKsplit w && recKsfmt w ≤ 9 then some statusDetKsplit
  else if !s.shapeFits q die w then some statusShape
  else none

/-! ### Completion rings (R380, R381) -/

/-- A queue of the part. -/
def State.queue? (s : State) (q : Nat) : Option HwQueue := mapGet? s.queues q
/-- Change a queue. -/
def State.modQueue (s : State) (q : Nat) (f : HwQueue → HwQueue) : State :=
  match mapGet? s.queues q with
  | some h => { s with queues := mapSet s.queues q (f h) }
  | none => s
/-- An entry waits to be written in a queue's completion ring from now on (R320). -/
def State.postEntry (s : State) (q : Nat) (e : RingEntry) : State :=
  s.modQueue q fun h => { h with pending := h.pending ++ [{ e with since := s.stamp }] }

/-- An event of a partition's stream (R377): to the queue that carries EVENTS, or kept, at most 256 of them; its LAUNCH is 0.
DESIGN CHOICE, log 115. -/
def State.postEvent (s : State) (p : Nat) (code : BitVec 16) (va : Word) (owner : Nat) : State :=
  let e : RingEntry :=
    { tag := 0, launch := 0, status := code, type := 3, data := BitVec.ofNat 64 owner, detail := va, lane := 0, elapsed := 0
      sender := none, since := s.stamp, awaits := [] }
  match s.queues.find? fun (_, h) => h.vf == p + 1 && h.events with
  | some (n, _) => s.postEntry n e
  | none => s.modPart p fun z =>
    if z.held.length < 256 then { z with held := z.held ++ [e] }
    else { z with held := z.held.tail ++ [e], lostEvents := z.lostEvents + 1 }

/-- The completion entry of a launch (R380); it follows the stores in a list (R381). -/
def completionEntry (l : Launch) (n : HWord) (status : BitVec 16) (digest detail : Word) (bound : Bool) (now : Nat)
    (stores : List Nat) : RingEntry :=
  { tag := l.word 9, launch := n, status := status, type := 1, data := digest, detail := detail
    lane := if bound then BitVec.ofNat 13 (l.lanes - 1) else 0
    elapsed := if bound then BitVec.ofNat 64 ((now - l.start) / Config.cyclesPerMicrosecond) else 0, sender := none, since := 0
    awaits := stores }

/-- A launch ends without having bound a slot (R422). -/
def State.refuseLaunch (s : State) (p : Nat) (n : HWord) (l : Launch) (status : BitVec 16) : State :=
  (s.modPart p fun q => { q with launches := mapSet q.launches n.toNat { l with stage := .complete } }).postEntry l.queue
    (completionEntry l n status 0 0 false s.cycle [])

/-- A record has been read: the doorbells whose records are all read are forgotten. -/
def HwQueue.fetched (h : HwQueue) : HwQueue :=
  let head := (h.subHead + 1) % max h.subSize 1
  { h with subHead := head, bells := h.bells.dropWhile fun b => b.1 == head }

/-- LAUNCH_RECORD_FETCH (R376, R422): the next record of a queue's submission ring is read, numbered and checked. -/
def execLaunchRecordFetch (queue : Nat) (s : State) : Out :=
  match s.queue? queue with
  | none => .next s
  | some h =>
    if h.subHead == h.subTail || h.vf == 0 then .next s
    else
      let p := h.vf - 1
      let a := h.subBase + 256 * h.subHead
      let w := (List.range 32).map fun i => BitVec.ofNat 64 (Memory.readN s.hostMem (a + 8 * i) 8)
      let n := (s.part p).nextLaunch
      let l : Launch :=
        { words := w, queue := queue, owner := h.owner, die := h.die, stage := .waiting, row := 0, col := 0, lanes := 0
          digest := 0, start := 0, wdog := 0, wdogFrom := 0, hold := false }
      let s := s.modQueue queue (·.fetched)
      let s := s.modPart p fun q => { q with nextLaunch := nextToken n }
      match s.firstStage (s.part p) h.die w with
      | some st => .next (s.refuseLaunch p n l st)
      | none => .next (s.modPart p fun q => { q with launches := mapSet q.launches n.toNat l })

/-! ### Contenders of class B (R298, R322) -/

/-- The routers from one place to another, X then Y; `n` bounds the hops. -/
def routeFrom (dx dy : Nat) : Nat → Nat → MeshPort → List Nat
  | 0, _, _ => []
  | n + 1, r, entry =>
    let h := if r < 1024 then (hopX (r % 32) (r / 32) dx).or (hopY (r % 32) (r / 32) dy) else hopBridge r entry
    match h with
    | some h => r :: routeFrom dx dy n h.next h.entry
    | none => [r]

/-- The routers that the traffic of a plot of a partition reaches. -/
def reachedRouters (q : Partition) (plot : List Nat) : List Nat :=
  let slices := q.clusters.flatMap fun cl => (List.range 4).map fun col => sliceCore cl col
  plot.foldl (fun acc c => (slices ++ plot).foldl (fun acc t =>
    ((routeFrom (coreX t) (coreY t) 66 (routerOf c) .core) ++ (routeFrom (coreX c) (coreY c) 66 (routerOf t) .slice)).foldl
      setAdd acc) acc) []

/-- The plot of a launch (R336). -/
def Launch.plot (l : Launch) : List Nat := rectangle l.die l.row l.col (recRows l.words) (recCols l.words)

/-- The class-B launches that are placed: partition, owner, launch. -/
def State.classB (s : State) : List (Nat × Nat × Launch) :=
  s.parts.flatMap fun (p, q) => q.launches.filterMap fun (_, l) =>
    if l.stage == .running && recClass l.words == 0 then some (p, l.owner, l) else none

/-- Distinct owners of some launches. -/
def distinctOwners (ls : List (Nat × Nat × Launch)) : List (Nat × Nat) :=
  ls.foldl (fun acc l => if acc.contains (l.1, l.2.1) then acc else acc ++ [(l.1, l.2.1)]) []

/-- Class-B owners at the busiest instance of a structure among some launches, seen from a partition: its slices and
vaults, the routers and the ports that its own launches reach, the host interface (R298, R322). -/
def State.busiest (s : State) (ls : List (Nat × Nat × Launch)) (p st : Nat) : Nat :=
  let mine := ls.filter fun l => l.1 == p
  let at' := fun (has : Nat × Nat × Launch → Bool) => (distinctOwners (ls.filter has)).length
  match st with
  | 4 | 6 => (distinctOwners mine).length
  | 5 =>
    let reach := fun (l : Nat × Nat × Launch) => reachedRouters (s.part l.1) l.2.2.plot
    let rs := (mine.flatMap reach).foldl setAdd []
    (rs.map fun r => at' fun l => (reach l).contains r).foldl max 0
  | 8 => (distinctOwners ls).length
  | 9 =>
    ((List.range 36).map fun i =>
      if mine.any fun l => recPorts l.2.2.words / 2 ^ i % 2 == 1 then at' fun l => recPorts l.2.2.words / 2 ^ i % 2 == 1
      else 0).foldl max 0
  | _ => 0

/-- Class-B admission (R322): every instance the plot's traffic reaches would serve at most 8 owners. -/
def State.classFits (s : State) (p : Nat) (l : Launch) : Bool :=
  recClass l.words != 0 ||
    [4, 5, 6, 8, 9].all fun st => s.busiest ((p, l.owner, l) :: s.classB) p st ≤ 8

/-! ### Group images (R379) -/

/-- On whose behalf the die control core reads for a launch: its queue's owner, through a core of the plot. -/
def Launch.agent (l : Launch) (p core : Nat) : Agent :=
  { core := core, slot := none, queue := 0, part := p, owner := l.owner, cls := BitVec.ofNat 2 (recClass l.words), smode := false
    dev := none, dig := false, launch := 0, ports := 0 }

/-- Read double words of a global block of this package; anything else is a fault. -/
def readBlock (ag : Agent) (p : Word) (n : Nat) : M (List Word) := do
  needGlobal p
  let sps ← checkRange ag p (8 * n) 8 .load
  sps.mapM fun (q, sp) =>
    match sp with
    | .mem va _ (.here pa own home device _) => do
      let v ← readHere ag .home va pa own home 8 device false
      pure (BitVec.ofNat 64 v)
    | .mem _ _ (.away _ _) | .own _ | .peer _ _ => trap .prot q

/-- One descriptor of a group image. -/
structure GroupDesc where
  group : Nat
  first : Nat
  last : Nat
  deriving DecidableEq, Repr

/-- A descriptor word, if it is well formed for a lane count. -/
def groupDesc (w : Word) (lanes : Nat) : Option GroupDesc :=
  let d : GroupDesc := ⟨field w 0 8, field w 8 13, field w 21 13⟩
  if field w 34 30 == 0 && d.first ≤ d.last && d.last < lanes then some d else none

/-- The groups of a lane, ascending and distinct. -/
def laneGroups (ds : List GroupDesc) (lane : Nat) : List Nat :=
  (ds.filter fun d => d.first ≤ lane && lane ≤ d.last).foldl (fun l d => setAdd l d.group) []

/-- The descriptors of an image, or none for GROUPIMG. -/
def groupImage (ws : List Word) (lanes : Nat) : Option (List GroupDesc) :=
  let ds := ws.map fun w => groupDesc w lanes
  if ds.all (·.isSome) then
    let ds := ds.filterMap id
    if (List.range lanes).all fun i => (laneGroups ds i).length ≤ 4 then some ds else none
  else none

/-- Read a launch's group image (R379). -/
def readGroups (l : Launch) (p core lanes : Nat) : M (Option (List GroupDesc)) := do
  let g := l.word 2
  if g = 0 then pure (some [])
  else do
    let h ← readBlock (l.agent p core) g 1
    let w := h.headD 0
    if field w 16 48 != 0 || 4096 < field w 0 16 then pure none
    else do
      let ws ← readBlock (l.agent p core) (g + 8) (field w 0 16)
      pure (groupImage ws lanes)

/-! ### Binding (R49, R148, R338, R339) -/

/-- Positions held by live contexts of a partition. -/
def State.heldPositions (s : State) (p : Nat) : List Nat :=
  (s.cores.filterMap fun (_, k) => if (k.bound.map (·.part)) == some p then k.position else none) ++
    (s.part p).contexts.map (·.1)

/-- The position a core receives at binding (R338). -/
def State.newPosition (s : State) (p core : Nat) : Nat :=
  let own := 16 * rankOf (s.part p) (clusterOf core) + core % 16
  let held := s.heldPositions p
  if held.contains own then
    ((List.range (16 * (s.part p).clusters.length)).find? fun i => !held.contains i).getD own
  else own

/-- The core's shared state after the binding step (R148). -/
def Core.rebind (k : Core) (b : Binding) (tvb : Word) (tray : List Host.Cell) : Core :=
  let same := k.last == some (b.part, b.owner)
  let k := { k with l1i := [], deque := [], overflow := [], fifos := Vector.replicate 16 [], park := [], staging := []
                    undo := [], trayOld := [], late := k.late.filter (!·.held), tvb := tvb, bound := some b, last := some (b.part, b.owner), fenced := false }
  let k := if same then k
    else { k with
      l1d := [], y := Vector.replicate 16 0, w := Vector.replicate 16 0, tc := Vector.replicate 8 0, late := [], tiles := []
      tileBad := [], array := Weights.reset, acc := [], accBad := [], ovf := false, resume := none, tray := []
      trayBad := [], fe := [] }
  k.trayWrite tray

/-- The plot neighbour of plot core (r, c), wrapping at the plot's edges. -/
def wrapped (v n : Nat) (d : Int) : Nat := (((v : Int) + d) % (max n 1 : Nat)).toNat

/-- The plot descriptor's half-words (R339), from the position of each plot core. -/
def plotDescriptor (pos : Nat → Nat → Nat) (r c rows cols slots : Nat) : List Nat :=
  [pos r c, pos (wrapped r rows (-1)) c, pos r (wrapped c cols 1), pos (wrapped r rows 1) c, pos r (wrapped c cols (-1)),
   r, c, rows, cols, slots]

/-- Positions for the cores of a plot, in its order (R338). -/
def State.plotPositions (s : State) (p : Nat) (plot : List Nat) : State :=
  plot.foldl (fun s c =>
    if (s.core c).position.isSome then s
    else
      let pos := s.newPosition p c
      (s.modCore c fun k => { k with position := some pos }).modPart p fun q =>
        { q with posMap := mapSet q.posMap pos c }) s

/-- The plot descriptor's bytes for core (r, c) of a launch's plot, whose cores know their positions (R339). -/
def State.descriptorBytes (s : State) (l : Launch) (r c : Nat) : List Byte :=
  let pos := fun (i j : Nat) => ((s.core (coreAt l.die (l.row + i) (l.col + j))).position).getD 0
  ((plotDescriptor pos r c (recRows l.words) (recCols l.words) (recSlots l.words)).flatMap fun h => bytesOf h 2) ++ List.replicate 44 0

/-- The constant caches of some clusters are emptied, so that an LDC reads nothing older than the start of its launch (R269).
DEDUCED, log 78. -/
def State.dropConst (s : State) (cls : List Nat) : State :=
  { s with clusters := s.clusters.map fun ((n, k) : Nat × Cluster) => (n, if cls.contains n then { k with cc := [] } else k) }

/-- The binding step on every core of a plot, before any slot starts (R49, R148, R334, R338, R339). DEDUCED, log 79. -/
def State.bindPlot (s : State) (p : Nat) (n : HWord) (l : Launch) : State :=
  let b : Binding := { part := p, owner := l.owner, launch := n, cls := BitVec.ofNat 2 (recClass l.words) }
  let img := (Config.trayImage p (l.word 0)).filter fun x => x.1 < Config.systemArea
  let s := s.dropConst (l.plot.map clusterOf)
  let s := l.plot.foldl (fun s c => (s.writeBackAll c).modCore c fun k => k.rebind b (s.part p).tvb img) s
  -- every core of the plot knows its position before any descriptor is written
  let s := s.plotPositions p l.plot
  l.plot.foldl (fun s c =>
    let bytes := s.descriptorBytes l (coreRow c - l.row) (coreCol c - l.col)
    s.modCore c fun k => k.trayWrite (bytes.zipIdx.map fun (x : Byte × Nat) => (0x57FC0 + x.2, x.1))) s

/-! ### Placement (R333-R337, R422) -/

/-- The number of distinct lanes of a group. -/
def groupSize (ds : List GroupDesc) (g lanes : Nat) : Nat :=
  ((List.range lanes).filter fun i => (laneGroups ds i).contains g).length

/-- The bind record of a lane (R333). -/
def bindRecord (p : Nat) (n : HWord) (l : Launch) (lanes lane : Nat) (gs : List Nat) : BindRec :=
  { v := true, part := p, owner := l.owner, cls := BitVec.ofNat 2 (recClass l.words), dig := recDigest l.words
    qf := recQfed l.words, dm := recDet l.words
    gv := BitVec.ofNat 4 (2 ^ gs.length - 1)
    gid := BitVec.ofNat 32 (packFields 8 gs)
    launch := n, lcm := BitVec.ofNat 13 (lanes - 1), lane := BitVec.ofNat 13 lane, args := l.word 1, entry := l.word 0 }

/-- Set the bind record of a slot. -/
def State.setBind (s : State) (c : Nat) (k : Fin 8) (b : BindRec) : State :=
  s.modCore c fun q => { q with binds := q.binds.set k b }

/-- A core no launch holds (R336): no slot of it is bound. -/
def Core.unbound (k : Core) : Bool :=
  k.bound.isNone && (k.binds.toList.all fun b => !b.v) && (k.slots.toList.all fun t => t.life == .unbound) && !k.disabled

/-- Place a launch that has passed its checks: its plot is bound, the group table and the bind records are written, the watchdog
starts; its die is awake (R398). -/
def State.place (s : State) (p : Nat) (n : HWord) (l : Launch) (row col lanes : Nat) (ds : List GroupDesc) : State :=
  let l := { l with stage := .running, row := row, col := col, lanes := lanes, start := s.cycle, wdogFrom := s.cycle }
  let gs := (ds.map (·.group)).foldl setAdd []
  let s := s.modPart p fun q =>
    { q with
      launches := mapSet q.launches n.toNat l
      groups := gs.foldl (fun m g =>
        mapSet m g { n := groupSize ds g lanes, count := 0, phase := false, broken := false, launch := n }) q.groups }
  (List.range lanes).foldl (fun s lane =>
    let c := l.plot.getD (lane / max (recSlots l.words) 1) 0
    s.setBind c (slotNo (lane % max (recSlots l.words) 1)) (bindRecord p n l lanes lane (laneGroups ds lane))) ((s.wakeDie l.die).bindPlot p n l)

/-- The lane counts firmware may bind (R347). -/
def lanesAllowed (w : List Word) (lanes : Nat) : Bool :=
  if recKsplit w then recMinLanes w ≤ lanes && lanes ≤ recLanes w && 1 ≤ lanes else lanes == recLanes w

/-- A core has been promised to the context of another one than c (R352). -/
def State.promised (s : State) (d c : Nat) : Bool := s.cores.any fun e => e.1 != c && e.2.preempt.any fun x => x.1 == some d

/-- A position where the launch fits and whose cores are all unbound, and promised to no context (R336, R352). -/
def State.freePlace (s : State) (p : Nat) (l : Launch) (row col : Nat) : Bool :=
  s.fits (s.part p) l.die row col (recRows l.words) (recCols l.words) &&
    (rectangle l.die row col (recRows l.words) (recCols l.words)).all fun c => (s.core c).unbound && !s.promised c c

/-- How long ago a launch number was given, in launches (R376: a counter that wraps and skips 0). -/
def Partition.age (q : Partition) (n : Nat) : Nat := (q.nextLaunch.toNat + 2 ^ 32 - n % 2 ^ 32) % 2 ^ 32
/-- Waiting launch m is tried before waiting launch n (R336): in queue order within a queue, else in class order, then in order of
arrival. -/
def Partition.triedFirst (q : Partition) (m : Nat) (x : Launch) (n : Nat) (l : Launch) : Bool :=
  if x.queue == l.queue then q.age n < q.age m
  else recClass x.words < recClass l.words || (recClass x.words == recClass l.words && q.age n < q.age m)

/-- The free positions of a launch. -/
def State.freePlaces (s : State) (p : Nat) (l : Launch) : List (Nat × Nat) :=
  ((List.range 16).flatMap fun r => (List.range 16).map fun c => (r, c)).filter fun x => s.freePlace p l x.1 x.2

/-- A waiting launch is not yet to be placed (R336): an earlier one of its queue waits, or one that is tried before it, and that no
earlier one of its own queue holds back, has a free position. -/
def State.behind (s : State) (p n : Nat) (l : Launch) : Bool :=
  let q := s.part p
  let waiting := q.launches.filter fun e => e.2.stage == .waiting
  let queued := fun (m : Nat) (x : Launch) => waiting.any fun e => e.1 != m && e.2.queue == x.queue && q.age m < q.age e.1
  queued n l || waiting.any fun e => e.1 != n && q.triedFirst e.1 e.2 n l && !queued e.1 e.2 && !(s.freePlaces p e.2).isEmpty

/-- The second-stage checks at a fitting position, in their order (R422): a status, or the groups to bind. Every class-B plot reaches the
host interface, so a launch that R322 keeps from one position is kept from all of them. Of the packets of the reads only the vault writes
they have caused stay (R235). An image in a latent tile is developed before this check (R16, R251), by the model's choice on a core of the
partition; a development that fails is a fault while reading. DESIGN CHOICE, log 108. -/
def State.secondStage (s : State) (p : Nat) (l : Launch) (row col lanes : Nat) :
    Except (BitVec 16) (List GroupDesc × State) :=
  if l.imageFailed then .error statusGroupImg
  else match (readGroups l p (coreAt l.die row col) lanes) s with
  | .error _ => .error statusGroupImg
  | .ok (none, _) => .error statusGroupImg
  | .ok (some ds, u) =>
    let u := u.onlyWrites s
    if ds.any fun d => (mapGet? (u.part p).groups d.group).isSome then .error statusGroupBusy
    else if !u.classFits p { l with row := row, col := col } then .error statusClassFull
    else .ok (ds, u)

/-- What keeps the control core from reading a launch's group image now (R251, R297, R379): a RESEED of the owner, or a latent tile. -/
def State.imageHeld (s : State) (p : Nat) (l : Launch) (row col lanes : Nat) : Option (Option Nat) :=
  if l.imageFailed then none
  else match (readGroups l p (coreAt l.die row col) lanes) s with
    | .error (.develop rid) => some (some rid)
    | .error (.wait _) => some none
    | _ => none

/-- PLACEMENT_ATTEMPT (R322, R334-R337, R379, R422): firmware tries a waiting launch at a position. A group image that cannot be read
yet leaves the launch waiting. -/
def execPlacementAttempt (part : Nat) (launch : BitVec 32) (row col lanes : Nat) (s : State) : Out :=
  let q := s.part part
  match mapGet? q.launches launch.toNat with
  | none => .next s
  | some l =>
    if l.stage != .waiting || !s.freePlace part l row col || !lanesAllowed l.words lanes || s.behind part launch.toNat l then .next s
    else match s.imageHeld part l row col lanes with
      | some (some rid) => .next (s.developTile rid fun h => .image h part launch.toNat)
      | some none => .next s
      | none => match s.secondStage part l row col lanes with
        | .error st => .next (s.refuseLaunch part launch l st)
        | .ok (ds, u) => .next (u.place part launch l row col lanes ds)

/-! ### Lane start (R80, R334) -/

/-- The start state of a lane (R80). -/
def startLane (t : Slot) (b : BindRec) : Slot :=
  { Slot.reset with
    life := .running, pc := evenAddr b.entry
    x := (((Vector.replicate 16 0#64).set 1 b.args).set 2 (b.lane.setWidth 64)).set 3 (b.lcm.setWidth 64 + 1)
    sw := { Status.reset with owner := BitVec.ofNat 8 b.owner, dm := b.dm }
    lane := b.lane.setWidth 32, lcount := b.lcm.setWidth 32 + 1, launch := b.launch
    gm := (b.gv.setWidth 64 <<< 32) ||| b.gid.setWidth 64, kind := .lane, lastIssue := none, disabled := t.disabled
    since := t.since }

/-- LANE_START (R80, R334): dispatch starts the idle slot of a valid record on a core that has its binding. -/
def execLaneStart (core slot : Nat) (s : State) : Out :=
  let k := s.core core
  let b := k.binds[slotNo slot]
  let bound := k.bound == some { part := b.part, owner := b.owner, launch := b.launch, cls := b.cls }
  if !b.v || k.slots[slotNo slot].life != .unbound || !bound || s.resting k then .next s
  else .next ((s.modSlotAt core (slotNo slot) fun t => startLane t b).modCore core (·.acquire))

/-! ### The end of a launch (R335, R380) -/

/-- The cores of a running launch, those whose context rests in the vault apart. -/
def State.launchCores (s : State) (p : Nat) (n : HWord) : List Nat :=
  s.cores.filterMap fun (c, k) =>
    if k.bound.any (fun b => b.part == p && b.launch == n) || k.binds.toList.any fun b => b.v && b.part == p && b.launch == n
    then some c else none

/-- The core records of a launch, wherever they are. -/
def State.launchStates (s : State) (p : Nat) (n : HWord) : List Core :=
  ((s.launchCores p n).map s.core) ++
    ((s.part p).contexts.filterMap fun (_, k) => if k.bound.any (fun b => b.launch == n) then some k else none)

/-- The name of a context at rest in the vault, by position: no core has it. -/
def restName (pos : Nat) : Nat := 2 ^ 20 + pos

/-- Names of a launch's contexts: its cores, and those at rest. -/
def State.launchNames (s : State) (p : Nat) (n : HWord) : List Nat :=
  s.launchCores p n ++
    ((s.part p).contexts.filterMap fun (pos, k) => if k.bound.any (fun b => b.launch == n) then some (restName pos) else none)

/-- A development of the plot's requesters is in progress. -/
def State.plotDeveloping (s : State) (p : Nat) (cs : List Nat) : Bool :=
  (s.part p).recipes.any fun r => r.devs.any fun d =>
    cs.contains d.root.core

/-- Every slot with a valid record is idle, or, in a queue-fed launch, waits in DEQ. -/
def Core.launchIdle (k : Core) (qfed : Bool) : Bool :=
  (List.range 8).all fun i =>
    let t := k.slots[slotNo i]
    let b := k.binds[slotNo i]
    !b.v || t.life == .idle ||
      (qfed && t.life == .running && (match t.out with | .deq _ => true | _ => false))

/-- The queue a slot waits on in DEQ. -/
def Wait.deqQueue : Wait → Option Nat
  | .deq q => some q
  | _ => Option.none

/-- An ENQ of a core is in flight: issued and not complete, its slot's state parked or not (R335). -/
def Core.enqueues (k : Core) : Bool := (k.slots.toList ++ k.parkedStates.map (·.state)).any (·.enqueuing)
/-- No record is available to the DEQs of some cores, and no ENQ of the partition is in flight (R335). -/
def State.queuesQuiet (s : State) (p : Nat) (ks : List Core) : Bool :=
  let waited := ks.flatMap fun k => k.slots.toList.filterMap fun t => t.out.deqQueue
  (s.part p).queues.all (fun q => !waited.contains q.1 || q.2.segs.all fun e => e.2.isEmpty) &&
    (s.cores.all fun (_, k) => (k.bound.map (·.part)) != some p || !k.enqueues) && (s.part p).contexts.all fun e => !e.2.enqueues

/-- The completion conditions of R335. -/
def State.launchDone (s : State) (p : Nat) (n : HWord) (l : Launch) : Bool :=
  let ks := s.launchStates p n
  let quiet := ks.all fun k => k.deque.isEmpty && k.overflow.isEmpty && k.queues.toList.all (·.isEmpty)
  let idle := ks.all fun k => k.launchIdle false
  let fed := recQfed l.words && (ks.all fun k => k.launchIdle true) && s.queuesQuiet p ks
  l.stage == .running && quiet && !s.plotDeveloping p (s.launchNames p n) && (idle || fed)

/-- A core whose launch is complete: its records are cleared and its slots unbound; what R148 compares stays. -/
def Core.unbind (k : Core) : Core :=
  { k with
    binds := Vector.replicate 8 BindRec.reset, bound := none, position := none, preempt := none
    slots := k.slots.map fun t => { t with life := .unbound, out := .none, stopAt := none, halted := false, guestAt := none } }

/-- Forwarding entries of positions that no context holds any more are gone (R338). -/
def State.dropForwards (s : State) (p : Nat) : State :=
  s.modPart p fun q => { q with forward := q.forward.filter fun f => (s.heldPositions p).contains f.2 }

/-- The launch's records, group entries and contexts are given up. -/
def State.releaseLaunch (s : State) (p : Nat) (n : HWord) : State :=
  (s.modPart p fun q =>
    { q with
      groups := q.groups.filter fun g => g.2.launch != n
      contexts := q.contexts.filter fun c => !(c.2.bound.any fun b => b.launch == n) }).dropForwards p

/-- The launch is over: its completion entry is posted. -/
def State.endLaunch (s : State) (p : Nat) (n : HWord) (l : Launch) (status : BitVec 16) (digest detail : Word) (stores : List Nat) : State :=
  (s.modPart p fun q => { q with launches := mapSet q.launches n.toNat { l with stage := .complete } }).postEntry l.queue
    (completionEntry l n status digest detail true s.cycle stores)

/-- A launch completes OK (R335). -/
def State.completeLaunch (s : State) (p : Nat) (n : HWord) (l : Launch) : State :=
  let cs := s.launchCores p n
  let s := cs.foldl (fun s c => (s.writeBackAll c).modCore c (·.unbind)) s
  (s.releaseLaunch p n).endLaunch p n l statusOk (if recDigest l.words then l.digest else 0) 0 []

/-- LAUNCH_COMPLETE (R335). -/
def execLaunchComplete (part : Nat) (launch : BitVec 32) (s : State) : Out :=
  match mapGet? (s.part part).launches launch.toNat with
  | none => .next s
  | some l => if s.launchDone part launch l then .next (s.completeLaunch part launch l) else .next s

/-! ### Containment (R243, R329-R331) -/

/-- A launch that waits has a free position and is next to be tried (R336). -/
def State.placeable (s : State) (p n : Nat) (l : Launch) : Bool :=
  l.stage == .waiting && !s.behind p n l && !(s.freePlaces p l).isEmpty

/-- Requests that stand in an input buffer of the router of the core they go to have reached it (R330). -/
def State.arriveAll (s : State) (cs : List Nat) : State :=
  { s with packets := s.packets.map fun (p : Packet) => match p.place with
      | .router n _ => if p.position.isSome && cs.contains p.target && n == routerOf p.target then { p with place := .port } else p
      | _ => p }

/-- Requests that reached the routers of some cores before their fence are served as they would have been, a FESET with all its rows (R330). -/
def State.serveArrived (s : State) (cs : List Nat) : State :=
  let s := s.arriveAll cs
  let ids := (sortKeys (s.packets.filterMap fun p =>
    if p.place == .port && p.position.isSome && cs.contains p.target then some (p.since, p.id) else none)).map (·.2)
  let take := fun (s : State) (o : Out) => match o with
    | .next u => u
    | .fault _ | .refused _ => s
  ids.foldl (fun s id =>
    let s := s.portAccess true id
    let s := take s (execRemoteFeRequest id s)
    take s (execChannelPacketArrival id s)) s

/-- A packet of a plot's own that no router has taken yet, or that has nothing more to do outside the plot. -/
def Packet.fenced (pk : Packet) (cs : List Nat) : Bool :=
  cs.contains pk.core && pk.origin.isNone && !pk.isNotice &&
    (pk.place == .done || pk.place == .nacked || pk.place == .enter 0 (routerOf pk.core) .core)

/-- The packets after the fence: injection ports are closed, and requests that the plot's cores have injected travel on and take effect
without a requester (R329 steps 1 and 3); what is parked with the plot's contexts, or waits at a full endpoint of it, is answered
CONTAINED. -/
def State.fencePackets (s : State) (cs park : List Nat) : State :=
  let s := { s with
    packets := (s.packets.filter fun (p : Packet) => !p.fenced cs).map fun (p : Packet) =>
      if cs.contains p.core && p.origin.isNone && !p.isNotice then { p with slot := detachedSlot } else p }
  (s.packets.filter fun (p : Packet) => park.contains p.id || (cs.contains p.target && p.place == Place.fifo)).foldl (fun (s : State) (p : Packet) =>
    match p.load with
    | .notice _ => s.dropPacket p.id
    | _ => s.answerAt p.target p.id (.trap .contained)) s

/-- Requests of some cores that have been injected and not performed: what a containment's record comes after (R329, R381). -/
def State.unperformedOf (s : State) (cs : List Nat) : List Nat :=
  (s.packets.filter fun (p : Packet) => cs.contains p.core && p.origin.isNone && p.outward && match p.load with
    | .tray _ | .channel _ _ | .away _ _ _ _ => true
    | .home _ _ | .writeBack _ | .recall _ _ | .pref _ _ _ | .notice _ | .held _ | .keepAlive _ _ | .transit _ _ | .fabric _ | .reply _ _ => false).map (·.id)

/-- Home slices drop every registration of some cores (R329 step 4). -/
def State.dropRegistrations (s : State) (cs : List Nat) : State :=
  { s with l2 := s.l2.map fun (a, e) => (a, { e with reg := e.reg.filter fun r => !cs.contains r.2 }) }

/-- Roots of the developments of some cores in a partition. -/
def Partition.rootsOn (q : Partition) (cs : List Nat) : List Requester :=
  (q.recipes.flatMap fun r => r.devs.map (·.root)).filter fun r => cs.contains r.core

/-- Break the groups of a launch: their waiters try again and trap CONTAINED (R243). -/
def State.breakGroups (s : State) (p : Nat) (n : HWord) : State :=
  let gs := (s.part p).groups.filter fun g => g.2.launch == n
  let s := s.modPart p fun q => { q with groups := q.groups.map fun (g, e) => (g, if e.launch == n then { e with broken := true } else e) }
  gs.foldl (fun s g => { s with cores := s.cores.map fun (c, k) => (c, k.wake fun w => match w with
    | .barrier x => x == g.1
    | _ => false) }) s

/-- A core reset by containment: fenced, and disabled if it was. -/
def Core.contained (k : Core) : Core := { Core.reset with fenced := true, disabled := k.disabled }

/-- Message entries of some cores' slots that are not written yet are never written: their HMSG is not performed (R385). -/
def State.dropMessages (s : State) (cs : List Nat) : State :=
  { s with queues := s.queues.map fun ((n, h) : Nat × HwQueue) =>
      (n, { h with pending := h.pending.filter fun e => !(e.sender.any fun x => cs.contains x.1) }) }
/-- RESEEDs of some cores' slots are given up. -/
def State.dropReseeds (s : State) (p : Nat) (cs : List Nat) : State :=
  (s.modPart p fun q => { q with reseeds := q.reseeds.filter fun r => !cs.contains r.2.1 }).wakeAll (· == .reseed)

/-- Contain a launch's plot (R329): fence, stop, discard, reset, and its completion record, which follows what the plot's cores have
injected (R381). -/
def State.contain (s : State) (p : Nat) (n : HWord) (l : Launch) (status : BitVec 16) (detail : Word) : State :=
  let cs := s.launchCores p n
  let s := s.serveArrived cs
  let s := cs.foldl (fun s c => s.modCore c fun k => { k with fenced := true }) s
  let s := (s.dropMessages cs).dropReseeds p cs
  let s := (s.part p).rootsOn (s.launchNames p n) |>.foldl (fun s r => s.endChain p r.core r) s
  let s := ((s.fencePackets cs ((s.launchStates p n).flatMap (·.park))).dropRegistrations cs).breakGroups p n
  let s := cs.foldl (fun s c => s.modCore c (·.contained)) s
  (s.releaseLaunch p n).endLaunch p n l status 0 detail (s.unperformedOf cs)

/-- A slot of a launch waits for its containment with a cause and detail. -/
def State.containAsked (s : State) (p : Nat) (n : HWord) (why : ContainCause) (detail : Word) : Bool :=
  (s.launchStates p n).any fun k => k.slots.toList.any fun t => t.out == .contained why detail

/-- Cycles a launch's watchdog has counted (R384). -/
def Launch.counted (l : Launch) (now : Nat) : Nat := l.wdog + (if l.hold then 0 else now - l.wdogFrom)
/-- The watchdog has expired. -/
def Launch.expired (l : Launch) (now : Nat) : Bool :=
  recWdog l.words != 0 && recWdog l.words * Config.cyclesPerMicrosecond ≤ l.counted now

/-- CONTAINMENT (R329): for a trap of one of its slots, or at the host's request. DEDUCED, log 53. -/
def execContainment (part : Nat) (launch : BitVec 32) (why : ContainCause) (detail : Word) (s : State) : Out :=
  match mapGet? (s.part part).launches launch.toNat with
  | none => .next s
  | some l =>
    let due := match why with
      | .killed => true
      -- where the launch can complete when its watchdog expires, it completes (R384)
      | .watchdog => l.expired s.cycle && !s.launchDone part launch l
      | .mce | .vecFault | .fabric => s.containAsked part launch why detail
    if l.stage == .running && due then
      .next (s.contain part launch l (containStatus why) (if why == .killed || why == .watchdog then 0 else detail))
    else .next s

/-- WATCHDOG_EXPIRY (R384): the launch completes if it can, and is contained otherwise. -/
def execWatchdogExpiry (part : Nat) (launch : BitVec 32) (s : State) : Out :=
  match mapGet? (s.part part).launches launch.toNat with
  | none => .next s
  | some l =>
    if l.stage != .running || !l.expired s.cycle then .next s
    else if s.launchDone part launch l then .next (s.completeLaunch part launch l)
    else .next (s.contain part launch l (containStatus .watchdog) 0)

/-- Contain every running launch of a partition, and end its waiting ones, with a status. DEDUCED, log 58. -/
def State.killAll (s : State) (p : Nat) (status : BitVec 16) : State :=
  (s.part p).launches.foldl (fun s (x : Nat × Launch) =>
    match x.2.stage with
    | .running => s.contain p (BitVec.ofNat 32 x.1) x.2 status 0
    | .waiting => s.refuseLaunch p (BitVec.ofNat 32 x.1) x.2 status
    | .complete => s) s

/-! ### Writing ring entries (R380) -/

/-- The bytes of an entry with its phase bit (R380). -/
def entryBytes (e : RingEntry) (ph : Bool) : List Byte :=
  let w1 := (if ph then 2 ^ 63 else 0) + e.type.toNat * 2 ^ 48 + e.status.toNat * 2 ^ 32 + e.launch.toNat
  ([e.tag.toNat, w1, e.data.toNat, e.detail.toNat, e.lane.toNat, e.elapsed.toNat, 0, 0]).flatMap fun w => bytesOf w 8

/-- The HMSG that waits for an entry completes (R385). -/
def State.messageWritten (s : State) (e : RingEntry) : State :=
  match e.sender with
  | none => s
  | some (c, k) =>
    let here := (s.curCore, s.curSlot)
    (((s.focus c (slotNo k)).modMe fun t => { t with out := .none }).complete 4).focus here.1 here.2

/-- A completion ring has no free place (R380): the entry before the head is never written. DEDUCED, log 52. -/
def HwQueue.full (h : HwQueue) : Bool := (h.cplTail + 1) % max h.cplSize 1 == h.cplHead

/-- Stores that come before an entry have not been performed (R381). -/
def State.entryHeld (s : State) (e : RingEntry) : Bool := s.packets.any fun p => p.outward && e.awaits.contains p.id

/-- COMPLETION_ENTRY_WRITE (R380, R381): the oldest entry of a queue is written whole, and MSI-X raised, when the ring has
room. -/
def execCompletionEntryWrite (queue : Nat) (s : State) : Out :=
  match s.queue? queue with
  | none => .next s
  | some h =>
    match h.pending with
    | [] => .next s
    | e :: rest =>
      if h.full || s.entryHeld e then .next s
      else
        let tail := (h.cplTail + 1) % max h.cplSize 1
        let s := { s with hostMem := Memory.writeBytes s.hostMem (h.cplBase + 64 * h.cplTail) (entryBytes e h.phase) }
        let s := s.modQueue queue fun h =>
          { h with pending := rest, cplTail := tail, phase := if tail = 0 then !h.phase else h.phase, msix := h.msix + 1 }
        .next (s.messageWritten e)

/-- HMSG (R385): a message entry, its STATUS 0; PRIV in a development task. DESIGN CHOICE, log 115. -/
def execHmsg (a b : Reg) (s : State) : Out :=
  run (do
    check (!s.me.kind.isDev) .priv 0
    let x ← readX a
    let y ← readX b
    match s.launchOf s.curCore with
    | some l =>
      let e : RingEntry :=
        { tag := l.word 9, launch := s.me.launch, status := 0, type := 2, data := x, detail := y
          lane := s.me.lane.setWidth 13, elapsed := 0, sender := some (s.curCore, s.curSlot.val), since := 0, awaits := [] }
      change fun s => s.postEntry l.queue e
      leave (.ring l.queue)
    | none => leave (.ring 0)) s

end Sys2Proof.Machine
end

