-- ==== Sys2Proof/Machine/Stream.lean ====
section
/-!
DEFINITION. Owner streams and translation control (R223, R229, R239, R240, R296-R299, R302-R303, R324): SEEDRD, RESEED,
XQRY, XOBS, TLBI and RAFW.
-/
namespace Sys2Proof.Machine

/-! ### Seeds (R239, R240, R296, R297) -/

/-- SEEDRD (R296). -/
def execSeedrd (d a : Reg) (s : State) : Out :=
  run (do
    check (!s.me.sw.dm) .nondet 0
    let h ← readX a
    let k ← look fun s => (s.myPart.owner s.myOwner).seed
    writeX d (if h.getLsbD 0 then k.extractLsb' 64 64 else k.extractLsb' 0 64)
    finish 4
    awaitReply) s

/-- The lines of an owner's pages in the slices of a partition. -/
def State.ownerLines (s : State) (p o : Nat) : List Nat :=
  s.l2.filterMap fun (l, e) => if e.owner == o && (s.part p).clusters.contains (e.slice / 4) then some l else none

/-- A new seed with every effect of RESEED but the wait for developments (R240): the owner's lines leave every slice, its
counters and counts are 0. -/
def State.reseed (s : State) (p o : Nat) (seed : BitVec 128) : State :=
  ((s.ownerLines p o).foldl (fun s l => s.evict p l) s).modPart p fun q =>
    q.setOwner o { seed := seed, ctr := [], xobs := [] }

/-- A development of a tile in the owner's pages is in progress (R240). -/
def Partition.ownerDeveloping (q : Partition) (o : Nat) : Option Recipe :=
  q.recipes.find? fun r => r.owners.contains o && !r.devs.isEmpty

/-- The SMC has received a slot's RESEED (R297). -/
def State.askReseed (s : State) : State :=
  let me := (s.myOwner, s.curCore, s.curSlot.val)
  s.modMyPart fun q => if q.reseeds.contains me then q else { q with reseeds := q.reseeds ++ [me] }
/-- A slot's RESEED is the next one of its owner. -/
def State.reseedNext (s : State) : Bool :=
  (s.myPart.reseeds.find? fun r => r.1 == s.myOwner) == some (s.myOwner, s.curCore, s.curSlot.val)
/-- A slot's RESEED is over: the requests that the slices have held go on under the new seed. -/
def State.reseedDone (s : State) : State :=
  (s.modMyPart fun q => { q with reseeds := q.reseeds.filter (· != (s.myOwner, s.curCore, s.curSlot.val)) }).wakeAll (· == .reseed)

/-- RESEED (R240, R297): in the order of their receipt, the RESEEDs of an owner hold its new requests, wait for its developments, write
its lines back, install the seed and let the requests go on. -/
def execReseed (a b : Reg) (s : State) : Out :=
  run (do
    let lo ← readX a
    let hi ← readX b
    change (·.askReseed)
    let next ← look (·.reseedNext)
    keeping do
      if !next then halt (.wait .reseed)
      match s.myPart.ownerDeveloping s.myOwner with
      | some r => halt (.wait (.develop r.id none))
      | none => pure ()
      change fun s => (s.reseed s.myPartNo s.myOwner (hi ++ lo)).sendWrites s s.agent none
      change (·.reseedDone)
      finish 4
      awaitReply) s

/-! ### The stated law (R298, R299, R324) -/

/-- Pair j of XQRY: structure, contender count and repeat count (R298). -/
structure LawPair where
  st : Nat
  m : Nat
  times : Nat
  deriving DecidableEq, Repr

def lawPair (a b : Word) (j : Nat) : LawPair :=
  ⟨field a (16 * j + 12) 4, field a (16 * j) 12, if field b (8 * j + 16) 8 = 0 then 1 else field b (8 * j + 16) 8⟩

/-- The pairs before the first whose structure has no stated law, and whether there is such a one (R298). -/
def lawPairs (a b : Word) : List LawPair × Bool :=
  let ps := ((List.range 4).map (lawPair a b)).filter fun p => p.st != 0
  (ps.takeWhile fun p => lawStructures.contains p.st, ps.any fun p => !lawStructures.contains p.st)

/-- Some pair of a structure with a law gives no count, so the query uses a live count (R298, R348). DEDUCED: the form is
judged on the pairs alone, before the launch's class is looked at (log 40). -/
def liveForm (a : Word) : Bool :=
  (List.range 4).any fun j => lawStructures.contains (field a (16 * j + 12) 4) && field a (16 * j) 12 = 0

/-- The list of contender counts (R298). -/
def lawList (ps : List LawPair) (live : Nat → Nat) : List Nat :=
  ps.flatMap fun p =>
    let m := if p.m = 0 then live p.st else p.m
    if 2 ≤ m then List.replicate p.times m else []

/-- The live count of a structure (R298). -/
def State.liveCount (s : State) (p st : Nat) : Nat := min 8 (s.busiest s.classB p st)

/-- The slot leaves the rotation for a number of cycles, its instruction complete. -/
def spend (cycles : Nat) : M Unit := do
  finish 4
  let now ← look (·.cycle)
  leave (.cycles (now + cycles))

/-- XQRY (R298): certainty for a launch that is not of class B, and for a structure without a law; NONDET first, for the
form with a live count in a deterministic task. -/
def execXqry (d a b : Reg) (s : State) : Out :=
  run (do
    let x ← readX a
    let y ← readX b
    let (ps, lawless) := lawPairs x y
    check (!(s.me.sw.dm && liveForm x)) .nondet 0
    if s.classOf s.curCore != 0 || lawless then do
      writeX d 0xFFFFFFFF
      spend 16
    else do
      let l := lawList ps (s.liveCount s.myPartNo)
      let k := min (field y 0 16) 4095
      writeX d (if k = 0 then 0xFFFFFFFF else BitVec.ofNat 64 (exceedance l k))
      spend (16 + k * l.length)) s

/-- XOBS (R299). -/
def execXobs (d a : Reg) (s : State) : Out :=
  run (do
    check (!s.me.sw.dm) .nondet 0
    let x ← readX a
    let w ← look fun s => s.myPart.owner s.myOwner
    let st := field x 0 4
    writeX d (if lawStructures.contains st then mapGet w.xobs (xobsKey st (field x 4 3)) 0 else 0)
    finish 4
    awaitReply) s

/-! ### Translation control (R229, R302, R303) -/

/-- Virtual addresses from lo up to hi. -/
structure VaRange where
  lo : Nat
  hi : Nat
  deriving DecidableEq, Repr

def VaRange.has (r : VaRange) (a : Nat) : Bool := r.lo ≤ a && a < r.hi

/-- Remove the translations of a range from every cluster TLB of a partition and purge the first-level lines held under
them (R229, R302). -/
def State.purgeRange (s : State) (p : Nat) (r : VaRange) : State :=
  let cls := (s.part p).clusters
  let s := { s with
    clusters := s.clusters.map fun ((c, k) : Nat × Cluster) =>
      (c, if cls.contains c then { k with tlb := k.tlb.filter fun e => !r.has e.1 } else k) }
  let held := s.cores.flatMap fun (c, k) =>
    if cls.contains (clusterOf c) then (k.l1d.filter fun e => r.has (64 * e.1)).map fun e => (c, e.1) else []
  let s := held.foldl (fun s (x : Nat × Nat) => s.purgeLine x.1 x.2) s
  { s with
    cores := s.cores.map fun ((c, k) : Nat × Core) =>
      (c, if cls.contains (clusterOf c) then { k with l1i := k.l1i.filter fun e => !r.has (64 * e.1) } else k) }

/-- The page that holds an address. -/
def Partition.pageRange (q : Partition) (va : Word) : VaRange :=
  let n := 2 ^ pageLog q.raf[(⟨field va 56 4, Nat.mod_lt _ (by decide)⟩ : Fin 16)]
  ⟨ptrLow va / n * n, ptrLow va / n * n + n⟩
/-- A whole region. -/
def regionRange (i : Nat) : VaRange := ⟨i * 2 ^ 56, (i + 1) * 2 ^ 56⟩

/-- An access whose translation its slot has done and that is performed elsewhere later: at another package, or, a prefetch, at its home
slice (R188, R302). -/
def Load.translated : Load → Bool
  | .away _ _ _ _ | .pref _ _ _ => true
  | .home _ _ | .writeBack _ | .recall _ _ | .tray _ | .channel _ _ | .notice _ | .held _ | .keepAlive _ _ | .transit _ _ | .fabric _ | .reply _ _ => false

/-- Accesses of a partition that translated in a range and have not been performed (R302). -/
def State.underway (s : State) (p : Nat) (r : VaRange) : List Nat :=
  (s.packets.filter fun pk => pk.part == p && pk.load.translated && r.has (ptrLow pk.ptr)).map (·.id)

/-- Remove the translations of a range, then leave the rotation until the accesses that translated under one have completed
(R302). Any other access inside this package completes in the step that performs it. -/
def awaitRange (r : VaRange) : M Unit := do
  finish 4
  change fun s => { s with sent := [] }.leave (.reply (s.sent ++ s.underway s.myPartNo r))

/-- TLBI (R302): S mode only. -/
def execTlbi (a b : Reg) (s : State) : Out :=
  run (do
    check s.me.sw.s .priv 0
    let x ← readX a
    let y ← readX b
    let q ← look (·.myPart)
    let r : VaRange := match field y 0 2 with
      | 0 => q.pageRange x
      | 1 => regionRange (field x 56 4)
      | _ => ⟨0, 2 ^ 60⟩
    change fun s => s.purgeRange s.myPartNo r
    awaitRange r) s

/-- A region attribute value that is never installed (R223, R303). -/
def regionRefused (v : Word) : Bool :=
  field v 60 4 != 0 || field v 19 5 != 0 || field v 12 4 != 0 || v.getLsbD 7 || 6 ≤ field v 16 3 ||
    (v.getLsbD 8 && (v.getLsbD 11 || v.getLsbD 10))

/-- The write would change V, REGEN, ROOT or PSZ. -/
def regionMoves (old new : Word) : Bool :=
  old.getLsbD 0 != new.getLsbD 0 || old.getLsbD 8 != new.getLsbD 8 || field old 24 36 != field new 24 36 ||
    field old 16 3 != field new 16 3

/-- Virtual lines of recorded tiles and pinned lines, as addresses (R303). -/
def Partition.keptLines (q : Partition) : List Nat :=
  q.recipes.flatMap fun r =>
    (r.lines.map fun l => 64 * l.1) ++ ((r.block :: allSources r.words).map ptrLow)

/-- A line of a recorded tile, or a pinned line, lies in a range. -/
def Partition.keeps (q : Partition) (r : VaRange) : Bool := q.keptLines.any r.has

/-- Install a region attribute entry in every cluster, purging the region (R223, R303). -/
def State.setRegion (s : State) (p : Nat) (i : Fin 16) (v : Word) : State :=
  (s.modPart p fun q => { q with raf := q.raf.set i v }).purgeRange p (regionRange i.val)

/-- RAFW (R303): S mode only. -/
def execRafw (a b : Reg) (s : State) : Out :=
  run (do
    check s.me.sw.s .priv 0
    let x ← readX a
    let v ← readX b
    let i : Fin 16 := ⟨field x 0 4, Nat.mod_lt _ (by decide)⟩
    check (!regionRefused v) .noncanon (BitVec.ofNat 64 i.val)
    let q ← look (·.myPart)
    check (!(regionMoves q.raf[i] v && q.keeps (regionRange i.val))) .prot (BitVec.ofNat 64 i.val)
    change fun s => s.setRegion s.myPartNo i v
    awaitRange (regionRange i.val)) s

end Sys2Proof.Machine
end

