-- ==== Sys2Proof/Machine/System.lean ====
section
/-!
DEFINITION. System instructions (R122-R128): TRAP, TRET, URET, BRK, and the control registers read and written by RDC and
WRC; and the two ways a fetch ends in a trap (R26, R43, R94).
-/
namespace Sys2Proof.Machine

/-- TRAP (R122): SWTRAP with its code; epc is the next PC after the loop step. -/
def execTrap (c : BitVec 6) (s : State) : Out := .next (s.takeSoftTrap .swtrap c.toNat)

/-- sst holds a status TRET refuses (R123): a nonzero reserved bit. -/
def sstReserved (sst : Word) : Bool := field sst 32 31 != 0 || field sst 16 16 != 0 || field sst 5 3 != 0

/-- TRET (R91, R123). -/
def execTret (s : State) : Out :=
  run (do
    check s.me.sw.s .priv 0
    check (s.me.sst.getLsbD 63) .notrap s.me.pc
    check (!sstReserved s.me.sst) .badsst s.me.pc
    change (·.modMe returnFromTrap)) s

/-- URET (R92, R124): legal in both modes. -/
def execUret (s : State) : Out :=
  run (do
    check (!s.me.sw.ue) .notrap s.me.pc
    change (·.modMe returnFromUpcall)) s

/-- BRK (R93, R125): a debug halt with PC at the BRK when a debugger is attached, else the trap BRK. -/
def execBrk (s : State) : Out :=
  if s.debugger then .next (s.modMe fun t => { t with halted := true }) else .next (s.takeSoftTrap .brk 0)

/-- Control register numbers that are PRIV in U mode (R42). -/
def ctlPriv (r : Nat) : Bool := (1 ≤ r && r ≤ 4) || r == 32
/-- Control register numbers that may only be read (R42). -/
def ctlReadOnly (r : Nat) : Bool := (13 ≤ r && r ≤ 18) || r == 33

/-- A control register as read, zero-extended from its width (R42, R77-R79, R126). -/
def State.ctlRead (s : State) (r : Nat) : Word :=
  let t := s.me
  match r with
  | 0 => t.sw.toWord
  | 1 => t.sst
  | 2 => t.epc
  | 3 => t.ecause
  | 4 => t.eaddr
  | 5 => t.uvb
  | 6 => t.uepc
  | 7 => t.ucause
  | 8 => t.uaddr
  | 9 => t.utoken
  | 10 => t.lc
  | 11 => t.lstart
  | 12 => t.lend
  | 13 => t.alost.setWidth 64
  | 14 => t.lane.setWidth 64
  | 15 => t.lcount.setWidth 64
  | 16 => t.launch.setWidth 64
  | 17 => t.sw.owner.setWidth 64
  | 18 => t.gm
  | 32 => s.mySight.tvb
  | 33 => Config.capw
  | _ => s.mySight.tc[(⟨r % 8, Nat.mod_lt _ (by decide)⟩ : Fin 8)]

/-- RDC (R126): PRIV before NONDET (R87), and reading alost in a deterministic task is NONDET. -/
def execRdc (d : Reg) (r : BitVec 6) (s : State) : Out :=
  run (do
    check (!(ctlPriv r.toNat && !s.me.sw.s)) .priv 0
    check (!(r.toNat == 13 && s.me.sw.dm)) .nondet 0
    let v ← look (·.ctlRead r.toNat)
    writeXAt 2 d v
    finish 4) s

/-- The writable bits of tc0-tc7 (R127, R165): BAND, FMT, COLS and ROWS. -/
def tcMask : Word := 0x000000FFFF1FFFFF

/-- A control register written, sw apart (R127). -/
def State.ctlWrite (s : State) (r : Nat) (v : Word) : State :=
  match r with
  | 1 => s.modMe fun t => { t with sst := v }
  | 2 => s.modMe fun t => { t with epc := v }
  | 3 => s.modMe fun t => { t with ecause := v }
  | 4 => s.modMe fun t => { t with eaddr := v }
  | 5 => s.modMe fun t => { t with uvb := v }
  | 6 => s.modMe fun t => { t with uepc := v }
  | 7 => s.modMe fun t => { t with ucause := v }
  | 8 => s.modMe fun t => { t with uaddr := v }
  | 9 => s.modMe fun t => { t with utoken := v }
  | 10 => s.modMe fun t => { t with lc := v }
  | 11 => s.modMe fun t => { t with lstart := v }
  | 12 => s.modMe fun t => { t with lend := v }
  | 32 => s.writeShared 2 (.ctl 32 (v &&& ~~~(0x7FF#64)))
  | _ => s.writeShared 2 (.ctl r (v &&& tcMask))

/-- The fields of sw a WRC installs (R78): UE and HL, and IE in S mode. -/
def swWrite (w : Status) (v : Word) : Status :=
  { w with ue := v.getLsbD 2, hl := v.getLsbD 4, ie := if w.s then v.getLsbD 1 else w.ie }

/-- WRC (R127): a read-only register is ILL, which comes before PRIV (R44); sw is installed after the loop step, any other
register before it. -/
def execWrc (a : Reg) (r : BitVec 6) (s : State) : Out :=
  run (do
    check (!ctlReadOnly r.toNat) .ill 0
    check (!(ctlPriv r.toNat && !s.me.sw.s)) .priv 0
    let v ← readX a
    if r.toNat = 0 then do
      finish 4
      change (·.modMe fun t => { t with sw := swWrite t.sw v })
    else do
      change (·.ctlWrite r.toNat v)
      finish 4) s

/-- ILLEGAL_ENCODING (R43): ILL with no effect, whatever the encoding. -/
def execIllegalEncoding (_w : BitVec 32) (s : State) : Out := run (trap .ill 0) s

/-- The trap cause of a fetch fault. -/
def fetchCause : FetchCause → Cause
  | .bounds => .bounds
  | .page => .page
  | .prot => .prot
  | .mce => .mce

/-- FETCH_FAULT (R26): the trap has EPC = PC. At a trap or upcall vector the slot stops instead, and its plot is contained
with VECFAULT (R94). -/
def execFetchFault (cause : FetchCause) (addr : Word) (s : State) : Out :=
  if s.me.atVector then .next (s.leave (.contained .vecFault addr))
  else run (trap (fetchCause cause) addr) s

end Sys2Proof.Machine
end

