-- ==== Sys2Proof/Machine/Fabric.lean ====
section
/-!
DEFINITION. Home slices as structures of the arbitration law (R234, R235, R319, R320), and the fabric (R405-R420): the
service of another package's requests, the Relran ports and their links, retransmission, and the failure of a package.
-/
namespace Sys2Proof.Machine

/-! ### Requests of other packages (R411, R412, R415, R416) -/

/-- On whose behalf a request of another package reads and writes the memory of partition `home`: no slot, no development and none
of the partition's own owners, whose RESEED holds it therefore not (R297). DESIGN CHOICE, log 105. -/
def fabricAgent (home : Nat) : Agent :=
  { core := 0, slot := none, queue := 0, part := home, owner := 16, cls := 2, smode := true, dev := none, dig := false, launch := 0
    ports := 0 }

/-- Bytes a request touches. -/
def reqBytes (r : FabricReq) : Nat :=
  match r.op with
  | .read n => n
  | .write bs => bs.length
  | .amo _ _ _ | .cas _ _ _ => fabricBytes r.op
/-- The request changes memory (R416). -/
def reqAtomic (r : FabricReq) : Bool :=
  match r.op with
  | .amo _ _ _ | .cas _ _ _ => true
  | .read _ | .write _ => false

/-- Perform a request at its home slice: the number it answers with. The packet names no owner of the page (R407); the line is placed for
the owner that the partition's own tables give the page (R236). -/
def fabricAccess (home : Nat) (r : FabricReq) : M Nat := do
  let own ← look (·.pageOwner home r.pa)
  let ag := fabricAgent home
  match r.op with
  | .read n => homeRead ag 0 r.pa own home n
  | .write bs => do
    homeWrite ag 0 r.pa own home (bs.zipIdx.map fun (x : Byte × Nat) => (x.2, x.1))
    pure 0
  | .amo op _ b => rmwHome ag 0 r.pa own home false (fabricBytes r.op) (.amo op b.toNat)
  | .cas _ e b => rmwHome ag 0 r.pa own home false (fabricBytes r.op) (.cas e.toNat b.toNat)

/-- The vault writes that a request of another package has caused travel in its class, for its owner and with its packet (R235). -/
def Packet.causedByFabric (pk : Packet) (r : FabricReq) (id : Nat) : Packet :=
  { pk with part := r.part, owner := r.owner, cls := r.cls, origin := some r.source, causedBy := some id }

/-- The target's answer to a request whose home is here and which a packet carries, whether the vault was read, and the state after
it; none while a development of the tile is under way or needed (log 19). A write to a pinned line of the target is answered PROT.
DESIGN CHOICE, log 119. -/
def State.serveFabric (s : State) (id : Nat) (r : FabricReq) : Option (RemoteAnswer × Bool × State) :=
  match s.fabricHome r.dtag.toNat r.pa with
  | none => some (.prot, false, s)
  | some home =>
    match (fabricAccess home r) s with
    | .ok (v, u) => some (.data (BitVec.ofNat 512 v), (mapGet? s.l2 (lineOf r.pa)).isNone,
        { u with packets := s.packets ++ (s.newWrites u).map (·.causedByFabric r id), sent := s.sent })
    | .error (.trap .mce _) => some (.poisoned, false, s)
    | .error (.trap _ _) => some (.prot, false, s)
    | .error _ => none

/-- The record of a latent tile, with no development in progress, that a request of another package meets; and its partition. -/
def State.fabricLatent (s : State) (r : FabricReq) : Option (Nat × Recipe) :=
  (s.fabricHome r.dtag.toNat r.pa).bind fun home =>
    match (fabricAccess home r) s with
    | .error (.develop rid) => ((s.part home).recipes.find? fun x => x.id == rid && x.devs.isEmpty).map fun x => (home, x)
    | _ => none

/-- A request of another package starts the development of the latent tile it meets (R16, R251). -/
def State.developFor (s : State) (r : FabricReq) : Option State :=
  (s.fabricLatent r).bind fun x => s.hostDevelopment x.1 x.2 1 fun c => .remote c r.source r.seq.toNat

def Window.reset : Window := { base := 0, done := [] }
/-- The window kept for a source (R415). -/
def State.window (s : State) (source : Nat) : Window := mapGet s.windows source Window.reset
/-- The source's cumulative acknowledgement moves the window up; entries below it are forgotten. -/
def Window.advance (w : Window) (below : Nat) : Window :=
  if seqAbove below w.base < 2 ^ 31 then
    { base := below % 2 ^ 32, done := w.done.filter fun e => seqAbove e.1 (below % 2 ^ 32) < 2 ^ 31 }
  else w

/-- A packet of another package's request in this one. -/
def fabricPacket (id since : Nat) (r : FabricReq) (load : Load) (place : Place) (slice : Nat) : Packet :=
  let c := sliceCore (slice / 4) (slice % 4)
  { id := id, part := r.part, owner := r.owner, cls := r.cls, core := c, slot := detachedSlot, dx := coreX c, dy := coreY c
    unit := 1 + slice % 4, esc := false, poisoned := false, load := load, ptr := 0, place := place, since := since, sync := true
    answer := none, nacks := 0, via := none, origin := some r.source, vacated := none, retried := false, causedBy := none, body := .none, lost := [] }

/-- Reply to a source at once: the reply waits for a port (R407). -/
def State.replyTo (s : State) (r : FabricReq) (a : RemoteAnswer) : State :=
  { s.tick with packets := s.packets ++ [fabricPacket s.stamp s.stamp r (.reply r a) .port 0] }

/-- Mark a request performed, with the old value of an atomic (R415). -/
def State.markPerformed (s : State) (r : FabricReq) (v : Option Word) : State :=
  let w := s.window r.source
  { s with windows := mapSet s.windows r.source { w with done := mapSet w.done r.seq.toNat v } }

/-- The old value of an atomic, kept in the window. -/
def cachedValue (r : FabricReq) (a : RemoteAnswer) : Option Word :=
  match a with
  | .data v => if reqAtomic r then some (v.setWidth 64) else none
  | .poisoned | .prot | .contained | .fabric | .devfault _ | .devdepth _ => none

/-- A served request: marked if it was performed, and turned into its reply. -/
def State.fabricServed (s : State) (r : FabricReq) (a : RemoteAnswer) (pkt : Nat) : State :=
  (match a with
    | .data _ => s.markPerformed r (cachedValue r a)
    | .poisoned | .prot | .contained | .fabric | .devfault _ | .devdepth _ => s).modPacket pkt fun p => { p with load := .reply r a }

/-- A request reaches its home slice in this package, without a router of the mesh (log 80). -/
def State.admitFabric (s : State) (r : FabricReq) (home : Nat) : State :=
  let slice := homeSlice (s.part home) r.pa
  { s.tick with packets := s.packets ++ [fabricPacket s.stamp s.stamp r (.fabric r) (.slice slice) slice] }

/-- A copy of the request is already waiting here. -/
def State.fabricPending (s : State) (r : FabricReq) : Bool :=
  s.packets.any fun p => match p.load with
    | .fabric q => q.source == r.source && q.seq == r.seq
    | _ => false

/-- FABRIC_REQUEST_ARRIVAL (R408, R412, R415, R416, R418): discarded, answered from the window, or taken to its home slice.
A request that does not lie within one line, or above the window, is none that R411 and R415 let a source send.
DEDUCED, log 37. -/
def execFabricRequestArrival (req : FabricReq) (s : State) : Out :=
  if 4607 < s.pkgid.toNat || s.failed.contains req.source then .next s
  else
    let w := (s.window req.source).advance req.ackBelow.toNat
    let s := { s with windows := mapSet s.windows req.source w }
    let above := seqAbove req.seq.toNat w.base
    if 4096 ≤ above || reqBytes req = 0 || 64 < req.pa % 64 + reqBytes req || s.fabricPending req then .next s
    else match mapGet? w.done req.seq.toNat, req.op with
      | some _, .write _ => .next (s.replyTo req (.data 0))
      | some v, .amo _ _ _ | some v, .cas _ _ _ => .next (s.replyTo req (.data ((v.getD 0).setWidth 512)))
      | _, _ =>
        match s.fabricHome req.dtag.toNat req.pa with
        | none => .next (s.replyTo req .prot)
        | some home => .next ((s.admitFabric req home).wakeDie (dieOf (homeSlice (s.part home) req.pa / 4)))

/-! ### The home slice (R234, R235, R319, R320) -/

/-- A served request leaves its slice: back to the requester, for another package to a port, to the vault of its cluster, or by mesh to
the slice of the vault's cluster (R235). -/
def State.leaveSlice (s : State) (pk : Packet) (slice line : Nat) (vault : Bool) : State :=
  let here := routerOf (sliceCore (slice / 4) (slice % 4))
  let go := fun (f : Packet → Packet) => (s.modPacket pk.id fun p =>
    f { p with load := if p.origin.isSome then p.load else .home line vault, since := s.stamp, esc := false }).tick
  if !vault then go fun p => { p with place := if p.origin.isSome then .port else .enter 1 here .slice }
  else
    let cl := line / 2 ^ 25
    if cl == slice / 4 then go fun p => { p with place := .bank cl (line / 64 % 64) }
    else
      let mask := ((s.partOfPa (64 * line)).map fun p => (s.part p).mask).getD 0xF
      let col := fold mask (slice % 4)
      let c := sliceCore cl col
      go fun p => { p with via := some slice, dx := coreX c, dy := coreY c, unit := 1 + col, place := .enter 0 here .slice }

/-- On whose behalf a packet travels. -/
def Packet.agent (pk : Packet) : Agent :=
  { core := pk.core, slot := none, queue := 0, part := pk.part, owner := pk.owner, cls := pk.cls, smode := false, dev := none, dig := false
    launch := 0, ports := 0 }

/-- The request can be taken now: one of another package waits for the development of its tile (R251), a prefetch of an owner for the
owner's new seed (R297). -/
def State.sliceReady (s : State) (p : Packet) : Bool :=
  match p.load with
  | .fabric r => (s.serveFabric p.id r).isSome
  | .pref _ _ _ => !s.reseeding p.agent
  | _ => true

/-- A prefetch at its home slice (R188): the line is placed unless it is latent, and recalled where it says so. -/
def State.servePref (s : State) (pk : Packet) (line own : Nat) (recalls : Bool) : Bool × State :=
  match s.partOfPa (64 * line) with
  | none => (false, s)
  | some home =>
    if s.latent.contains line then (false, s)
    else
      let (v, u) := s.l2Touch home own line
      let u := u.sendWrites s pk.agent (some pk.id)
      (v, if recalls then u.recall line allWords else u)

/-- A request whose data came poisoned reaches its home slice (R313): the words it has written are poisoned. A store's acknowledgement
carries no data; what a read-modify-write answers is poisoned too. DEDUCED, log 85. -/
def State.poisonedRequest (s : State) (pk : Packet) : State :=
  match pk.poisoned, pk.body with
  | true, .write ws _ => (s.poisonWords ws).modPacket pk.id fun p => { p with poisoned := false }
  | true, .atomic ws _ _ => s.poisonWords ws
  | _, _ => s

/-- The order of a packet's input port at its slice (R320): its router's, then the cluster's page walker. -/
def Packet.sliceInput (slice : Nat) (pk : Packet) : Nat := if pk.slot == 15 && clusterOf pk.core == slice / 4 then 1 else 0

/-- L2_SLICE_REQUEST (R234, R237, R320): a home slice takes one request by draw on structure 4 and serves it. -/
def execL2SliceRequest (slice : Nat) (s : State) : Out :=
  let ready := s.packets.filter fun (p : Packet) => p.place == Place.slice slice && s.sliceReady p
  if !s.mayDecide 4 slice 0 then .next s
  else match s.arbitrate 4 slice 0 (byArrival (Packet.sliceInput slice) ready) with
  | (none, u) => .next u
  | (some pk, u) =>
    let u := u.noteDecision 4 slice 0
    match pk.load with
    | .home line vault => .next ((u.poisonedRequest pk).leaveSlice pk slice line vault)
    | .pref line own recalls =>
      let (v, t) := u.servePref pk line own recalls
      .next (t.leaveSlice pk slice line v)
    | .fabric req =>
      match u.serveFabric pk.id req with
      | some (a, v, t) => .next ((t.fabricServed req a pk.id).leaveSlice pk slice (lineOf req.pa) v)
      | none => .next u
    | .writeBack _ | .recall _ _ | .tray _ | .channel _ _ | .notice _ | .away _ _ _ _ | .held _ | .keepAlive _ _ | .transit _ _ | .reply _ _ => .next u

/-! ### Requests to other packages (R407, R409, R415, R416) -/

/-- The entry of an unanswered request. -/
def State.awaited (s : State) (id : Nat) : Option Outstanding := s.outstanding.find? fun o => o.pkt == id

/-- A Relran port of the package. -/
def State.relran (s : State) (port : Nat) : Port := mapGet s.ports port Port.reset
def State.setRelran (s : State) (port : Nat) (p : Port) : State := { s with ports := mapSet s.ports port p }

/-- Flits the port has sent and not seen acknowledged (R406). -/
def Port.unacked (p : Port) : Nat := (p.txSeq - p.acked).toNat
/-- Flits of the next packet (R407, log 18). -/
def State.flits (s : State) : Nat := 1 + Config.freeFlits s.freeCtr % 3
/-- A port has buffers for the next packet: it is up and keeps fewer than its 512 flits (R406, R409). DESIGN CHOICE, log 34. -/
def State.portRoom (s : State) (port : Nat) : Bool := (s.relran port).up && (s.relran port).unacked + s.flits ≤ 512
/-- The package sends and accepts fabric packets (R408). -/
def State.inDomain (s : State) : Bool := s.pkgid.toNat ≤ 4607

/-- The target of a packet at the ports, with the ports its route may use: a launch's own for a request, all of them for a reply or a
packet in transit. -/
def State.portTarget (s : State) (pk : Packet) : Option (Nat × List Nat) :=
  match pk.load with
  | .reply r _ => some (r.source, s.routePorts r.source (2 ^ 36 - 1))
  | .keepAlive target _ | .transit target _ => some (target, s.routePorts target (2 ^ 36 - 1))
  | .away _ _ _ _ => match s.awaited pk.id with
    | some o => if o.queued then some (o.target, s.routePorts o.target o.ports) else none
    | none => none
  | _ => none

/-- A packet may leave by a port (R408, R409, R418): class B by its first choice only, others by the first choice that has room. -/
def State.mayLeave (s : State) (port : Nat) (pk : Packet) : Bool :=
  pk.place == .port && s.inDomain &&
    match s.portTarget pk with
    | some (target, choices) =>
      !s.failed.contains target && (if pk.cls == 0 then choices.head? else choices.find? s.portRoom) == some port
    | none => false

/-- A port puts n flits of a packet on its line, and keeps them until they are acknowledged (R406). -/
def Port.sendFlits (p : Port) (n : Nat) (pkt : Option Nat) (now : Nat) : Port :=
  let fs := (List.range n).map fun i => ({ seq := p.txSeq + BitVec.ofNat 16 i, ack := p.rxSeq, pkt := pkt } : Flit)
  { p with txSeq := p.txSeq + BitVec.ofNat 16 n, lastSent := now, kept := p.kept ++ fs, line := p.line ++ fs }
/-- A port resends what it keeps, from the first flit that is not acknowledged (R406). -/
def Port.resend (p : Port) (now : Nat) : Port :=
  if !p.up || p.kept.isEmpty then p
  else { p with lastSent := now, line := p.line ++ p.kept.map fun f => { f with ack := p.rxSeq } }

/-- The order of a packet's input at a port (R320): those of the package itself, then those in transit by the port they have come by. -/
def Packet.portInput (pk : Packet) : Nat :=
  match pk.load with
  | .transit _ i => 1 + i
  | _ => 0

/-- A packet of another package arrives on its way to a third one (R407, R418): it goes on by a route of this package's, unless a failed
package is its source or its target. -/
def State.transitArrived (s : State) (source part owner : Nat) (cls : BitVec 2) (target inPort : Nat) : State :=
  if !s.inDomain || s.failed.contains source || s.failed.contains target || s.pkgid.toNat == target then s
  else
    let pk : Packet :=
      { id := s.stamp, part := part, owner := owner, cls := cls, core := 0, slot := detachedSlot, dx := 0, dy := 0, unit := 0, esc := false
        poisoned := false, load := .transit target inPort, ptr := 0, place := .port, since := s.stamp, sync := true, answer := none, nacks := 0
        via := none, origin := some source, vacated := none, retried := false, causedBy := none, body := .none, lost := [] }
    { s.tick with packets := s.packets ++ [pk] }

/-- A packet has left by a port: a request waits for its answer, a reply or a keep-alive is sent (R407, R415, R416). -/
def State.portSent (s : State) (pk : Packet) : State :=
  match pk.load with
  | .reply r a =>
    let lost := ((s.packet? pk.id).map (·.lost)).getD pk.lost
    { s.dropPacket pk.id with replied := s.replied ++ [{ target := r.source, seq := r.seq, answer := a, lost := lost }] }
  | .transit _ _ => s.dropPacket pk.id
  | .keepAlive target below => { s.dropPacket pk.id with keepalives := s.keepalives ++ [(target, below)] }
  | _ => { s with
      outstanding := s.outstanding.map fun o => if o.pkt == pk.id then { o with queued := false, sent := true, sentAt := s.cycle } else o }

/-- RELRAN_PORT_ARBITRATION (R320, R407, R409): one decision of a port that is up and has room for the packet's flits.
DESIGN CHOICE, log 34. -/
def execRelranPortArbitration (port : Nat) (s : State) : Out :=
  if 36 ≤ port || !s.portRoom port then .next s
  else
    let inst := 64 * s.pkgid.toNat + port
    match s.arbitrate 9 port inst (byArrival Packet.portInput (s.packets.filter (s.mayLeave port))) with
    | (none, u) => .next u
    | (some pk, u) =>
      let u := u.setRelran port ((u.relran port).sendFlits s.flits (some pk.id) s.cycle)
      .next ({ u with freeCtr := u.freeCtr + 1 }.portSent pk)

/-- 20 µs (R415, R416). -/
def fabricPeriod : Nat := 20 * Config.cyclesPerMicrosecond

/-- REQUEST_RETRANSMIT (R416): a request unanswered for 20 µs is queued at the ports again, with its sequence number. -/
def execRequestRetransmit (target : Nat) (seq : BitVec 32) (s : State) : Out :=
  .next { s with outstanding := s.outstanding.map fun o =>
    if s.inDomain && o.target == target && o.req.seq == seq && !o.queued && o.sentAt + fabricPeriod ≤ s.cycle && !s.failed.contains target then
      { o with queued := true }
    else o }

/-- A keep-alive packet to a target, at the ports (R415): the package's own, of the last class. DESIGN CHOICE, log 35. -/
def State.keepAlivePacket (s : State) (target : Nat) : Packet :=
  { id := s.stamp, part := 0, owner := 0, cls := 2, core := 0, slot := detachedSlot, dx := 0, dy := 0, unit := 5, esc := false, poisoned := false
    load := .keepAlive target (s.ackBelow target), ptr := 0, place := .port, since := s.stamp, sync := true, answer := none, nacks := 0
    via := none, origin := none, vacated := none, retried := false, causedBy := none, body := .none, lost := [] }

/-- SEQUENCE_ACK_KEEPALIVE (R415): 20 µs after the last packet that carried them, a keep-alive packet carries the
acknowledgements. -/
def execSequenceAckKeepalive (target : Nat) (s : State) : Out :=
  match mapGet? s.ackSent target with
  | none => .next s
  | some (_, at') =>
    if s.cycle < at' + fabricPeriod || s.failed.contains target || !s.inDomain then .next s
    else .next { s.tick with
      packets := s.packets ++ [s.keepAlivePacket target], ackSent := mapSet s.ackSent target (s.ackBelow target, s.cycle) }

/-- A keep-alive of another package arrives (R415): its acknowledgements move the window; one of a failed package is dropped (R418). -/
def State.keepaliveArrived (s : State) (source : Nat) (below : BitVec 32) : State :=
  if 4607 < s.pkgid.toNat || s.failed.contains source then s
  else { s with windows := mapSet s.windows source ((s.window source).advance below.toNat) }

/-- The seed of another package's owner is copied to this package (R412): its counters here start again. -/
def State.copySeed (s : State) (pkg part owner : Nat) (seed : BitVec 128) : State :=
  let key := remoteKey pkg part owner
  { s with remoteSeeds := mapSet s.remoteSeeds key seed, remoteCtr := mapErase s.remoteCtr key }

/-! ### Failure of a package (R418-R420) -/

/-- The packet is a reply or a keep-alive for a package, or in transit from it or to it: the ports drop it while that package is fenced
(R418). -/
def Packet.bringsTo (pk : Packet) (package : Nat) : Bool :=
  match pk.load with
  | .reply r _ => r.source == package
  | .keepAlive target _ => target == package
  | .transit target _ => target == package || pk.origin == some package
  | _ => false

/-- PACKAGE_FAILURE_DECLARED (R418): this package contains every launch of its own; any other is fenced, the ports drop what waits there
for it, and it leaves the routes. -/
def execPackageFailureDeclared (package : Nat) (s : State) : Out :=
  if BitVec.ofNat 64 package = s.pkgid then
    .next (s.parts.foldl (fun s (x : Nat × Partition) => s.killAll x.1 (containStatus .fabric)) s)
  else .next { s with
    failed := setAdd s.failed package, routes := mapErase s.routes package
    packets := s.packets.filter fun p => !(p.place == .port && p.bringsTo package) }

/-- FABRIC_FAILURE_ANSWER (R419): every outstanding request to a failed package is answered FABRIC. -/
def execFabricFailureAnswer (package : Nat) (s : State) : Out :=
  if !s.failed.contains package then .next s
  else
    let ids := (s.outstanding.filter fun o => o.target == package).map (·.pkt)
    let s := { s with outstanding := s.outstanding.map fun (o : Outstanding) => if o.target == package then { o with queued := false, sent := true } else o }
    .next (ids.foldl (fun s id => match s.packet? id with
      | some pk => s.takeAnswer pk .fabric []
      | none => s) s)

/-! ### Links (R405, R406, R418) -/

/-- LINK_FLIT_RECEIVE (R406): the flit expected next is taken; a failed one is sent again by the other side, counted
against it; every good flit carries the acknowledgement of what this side has sent. -/
def execLinkFlitReceive (port : Nat) (seq : BitVec 16) (crcOk : Bool) (ack : BitVec 16) (s : State) : Out :=
  let p := s.relran port
  if 36 ≤ port || !p.up then .next s
  else if !crcOk then .next (s.setRelran port { p with fails := p.fails + 1 })
  else
    let acked := if (ack - p.acked).toNat ≤ p.unacked then ack else p.acked
    let p := { p with acked := acked, lastValid := s.cycle, kept := p.kept.filter fun f => (f.seq - acked).toNat < 512 }
    .next (s.setRelran port (if seq = p.rxSeq then { p with rxSeq := p.rxSeq + 1, fails := 0 } else p))

/-- KEEPALIVE_SEND (R406): an idle link sends a flit every 10 µs. -/
def execKeepaliveSend (port : Nat) (s : State) : Out :=
  let p := s.relran port
  if 36 ≤ port || !p.up || s.cycle < p.lastSent + 10 * Config.cyclesPerMicrosecond || 512 ≤ p.unacked then .next s
  else .next (s.setRelran port (p.sendFlits 1 none s.cycle))

/-- A route entry without the choices that name a port (R418). -/
def routeWithout (r : Word) (port : Nat) : Word :=
  (List.range 4).foldl (fun r i => if field r (6 * i) 6 = port then r &&& ~~~(1#64 <<< (24 + i)) else r) r

/-- A route entry has a choice: its valid bit is set and it names a port (R408). -/
def hasRoute (r : Word) : Bool := (List.range 4).any fun i => r.getLsbD (24 + i) && decide (field r (6 * i) 6 < 36)

/-- Packages to which the routes have come to an end, or have one again, are noted (R418). -/
def State.noteRoutes (s : State) (before : State) : State :=
  let dead := fun (r : Word) => !hasRoute r
  let lost := s.routes.filter fun (t, r) => dead r && !dead (mapGet before.routes t 0)
  { s with
    unrouted := lost.foldl (fun m e => mapSet m e.1 s.cycle) (s.unrouted.filter fun e => dead (mapGet s.routes e.1 0)) }

/-- A port's link is down: its route choices go, and the SMC announces the change (R418). -/
def State.linkLost (s : State) (port : Nat) : State :=
  { s.setRelran port { s.relran port with up := false } with
    routes := s.routes.map fun (t, r) => (t, routeWithout r port), announced := s.announced ++ [port] }.noteRoutes s

/-- 200 ms (R418). -/
def routePeriod : Nat := 200000 * Config.cyclesPerMicrosecond
/-- Packages to which no route has existed for 200 ms (R418). -/
def State.lostPackages (s : State) : List Nat :=
  (s.unrouted.filter fun e => e.2 + routePeriod ≤ s.cycle && !s.failed.contains e.1).map (·.1)

/-- LINK_DOWN (R406, R418): one flit failed 8 times in a row, or no valid flit for 100 µs. -/
def execLinkDown (port : Nat) (s : State) : Out :=
  let p := s.relran port
  if p.up && (8 ≤ p.fails || p.lastValid + 100 * Config.cyclesPerMicrosecond ≤ s.cycle) then .next (s.linkLost port)
  else .next s

/-- PORT_RATE_WRITE (R405): a change retrains the port, whose link is down meanwhile. -/
def execPortRateWrite (port : Nat) (rate : Bool) (s : State) : Out :=
  let p := s.relran port
  if 36 ≤ port || p.rate == rate then .next s
  else
    let s := s.linkLost port
    .next (s.setRelran port { s.relran port with rate := rate, lanes := 0 })

/-- Lanes a port uses after training (R405). -/
def trainedLanes (working : Nat) : Nat := if 4 ≤ working then 4 else if 2 ≤ working then 2 else 0

/-- LINK_TRAINING_COMPLETE (R405): on 4 lanes, on 2 at half rate, or down. -/
def execLinkTrainingComplete (port lanes : Nat) (s : State) : Out :=
  let p := s.relran port
  if 36 ≤ port || p.up then .next s
  else
    let n := trainedLanes lanes
    .next (s.setRelran port
      { lanes := n, rate := p.rate, up := n != 0, txSeq := 0, rxSeq := 0, acked := 0, fails := 0, lastValid := s.cycle
        lastSent := s.cycle, kept := [], line := p.line })

/-! ### Registers (R374, R375, R405, R408) -/

/-- A port entry as read (R405). -/
def Port.word (p : Port) : Word := BitVec.ofNat 64 (16 * p.lanes) ||| bit p.rate

/-- A partition exists. -/
def State.hasPart (s : State) (vf : Nat) : Bool := vf != 0 && (mapGet? s.parts (vf - 1)).isSome

/-- REGISTER_WRITE (R375, R408): the PF's fabric registers keep their writable bits; a port entry is written by PORT_RATE_WRITE; any
other register of a function that exists is kept as written. -/
def execRegisterWrite (fn bar offset : Nat) (value : Word) (s : State) : Out :=
  if fn = 0 && bar = 2 then
    if offset = 0 then .next { s with pkgid := value &&& 0x1FFF }
    else if 8 ≤ offset && offset < 8 + 8 * 64 && offset % 8 = 0 then
      .next { s with dtags := mapPut 0 s.dtags ((offset - 8) / 8) (value &&& 0x1FFFF) }
    else if 0x1000 ≤ offset && offset < 0x1000 + 8 * 4608 && offset % 8 = 0 then
      let t := (offset - 0x1000) / 8
      -- a valid route to a failed package is how the fabric manager admits it again (R418, log 20)
      .next { s with
        routes := mapPut 0 s.routes t (value &&& 0xFFFFFFF)
        unrouted := if hasRoute value then mapErase s.unrouted t
          else if hasRoute (mapGet s.routes t 0) then mapSet s.unrouted t s.cycle else s.unrouted
        failed := if hasRoute value then setDel s.failed t else s.failed }
    else .next s
  else if fn != 0 && !s.hasPart fn then .next s
  else .next { s with bars := mapPut 0 s.bars ((fn * 8 + bar) * 2 ^ 32 + offset) value }

end Sys2Proof.Machine
end

