-- ==== Sys2Proof/Machine/Map.lean ====
section
/-!
DEFINITION. Pages as firmware handles them (R224-R227, R230-R233, R392, R393, R424): the pool, the page-table entries, mapping
and unmapping, page-fault requests and their notices, page migration, and the copies between host memory and device pages.
-/
namespace Sys2Proof.Machine

/-! ### Command statuses (R388) -/

/-- Statuses of Tabhus commands. -/
inductive CmdStatus where
  | ok | badCmd | badParam | noPerm | busy | noRes | noRoom | capMismatch | authFail | noKey
  deriving DecidableEq, Repr

/-- Their codes (R388). -/
def CmdStatus.code : CmdStatus → BitVec 16
  | .ok => 0 | .badCmd => 1 | .badParam => 2 | .noPerm => 3 | .busy => 4 | .noRes => 5 | .noRoom => 6 | .capMismatch => 7
  | .authFail => 8 | .noKey => 9

/-! ### The pool (R424) -/

/-- Every byte of a range lies in the partition's own vaults. -/
def Partition.ownsRange (q : Partition) (a n : Nat) : Bool :=
  a + n ≤ 2 ^ 37 && (List.range ((a % 2 ^ 31 + n + 2 ^ 31 - 1) / 2 ^ 31)).all fun i => q.clusters.contains (a / 2 ^ 31 + i)
/-- Two ranges meet. -/
def meets (a n b m : Nat) : Bool := decide (a < b + m) && decide (b < a + n)
/-- The root tables its regions name (R223). -/
def Partition.roots (q : Partition) : List Nat :=
  q.raf.toList.filterMap fun w => if w.getLsbD 0 then some (field w 24 36 * 4096) else none
/-- A frame of a size is free: inside the partition's vaults and used by no mapping, table or root, and no part of the areas that the
pool excludes (R424). -/
def Partition.frameFree (q : Partition) (a n : Nat) : Bool :=
  a % max n 1 == 0 && q.ownsRange a n && (q.areas.all fun u => !meets a n u.1 u.2) && (q.used.all fun u => !meets a n u.1 u.2) && q.roots.all fun r => !meets a n r 4096
/-- The frame firmware takes for a table (log 21): the first free one after the start of a vault or the end of a used frame. -/
def Partition.freeFrame (q : Partition) (n : Nat) : Option Nat :=
  let starts := (q.clusters.map fun c => c * 2 ^ 31) ++ ((q.areas ++ q.used).map fun u => (u.1 + u.2 + n - 1) / max n 1 * n) ++
    q.roots.map fun r => (r + 4096 + n - 1) / max n 1 * n
  starts.find? fun a => q.frameFree a n

/-! ### Page-table entries (R224, R225) -/

/-- The region attribute entry of an address. -/
def Partition.region (q : Partition) (va : Nat) : Word := q.raf[(⟨va / 2 ^ 56 % 16, Nat.mod_lt _ (by decide)⟩ : Fin 16)]

/-- Firmware reads an entry of 8 bytes at its home: words owned by a core are recalled. -/
def State.readEntry (s : State) (pa : Nat) : Word × State :=
  let u := s.recall (lineOf pa) (wordsOf pa 8)
  (BitVec.ofNat 64 (Memory.readN u.mem pa 8), u)
/-- Firmware writes an entry at its home. -/
def State.writeEntry (s : State) (pa : Nat) (w : Word) : State :=
  s.writeHome pa ((bytesOf w.toNat 8).zipIdx.map fun (x : Byte × Nat) => (x.2, x.1))

/-- A frame cleared for a table. -/
def State.clearFrame (s : State) (a n : Nat) : State :=
  { s with
    mem := Memory.clear s.mem a n
    memBad := s.memBad.filter fun w => !meets a n (4 * w) 4 }

/-- The place of the leaf entry of an address from a table of level n down; missing tables are made where `make` says so. -/
def State.leafPlace (p : Nat) (va psz : Nat) (make : Bool) : Nat → Nat → State → Option (Nat × State)
  | 0, _, _ => none
  | n + 1, table, s =>
    let a := table + 8 * (va % 2 ^ 56 / 2 ^ (psz + 9 * n) % 512)
    if !(s.part p).owns a then none
    else if n = 0 then some (a, s)
    else
      let (e, s) := s.readEntry a
      if tablePresent e then State.leafPlace p va psz make n (field e 12 36 * 4096) s
      else if !make then none
      else match (s.part p).freeFrame 4096 with
        | none => none
        | some f =>
          let s := (s.modPart p fun q => { q with used := (f, 4096) :: q.used }).clearFrame f 4096
          State.leafPlace p va psz make n f (s.writeEntry a (BitVec.ofNat 64 (f + 1)))

/-- The leaf place of an address of a partition. -/
def State.leafOf (s : State) (p va : Nat) (make : Bool) : Option (Nat × State) :=
  let rg := (s.part p).region va
  if !rg.getLsbD 0 then none
  else State.leafPlace p va (pageLog rg) make (walkLevels (pageLog rg)) (field rg 24 36 * 4096) s

/-- A mapped address: leaf place, leaf and log2 of the page size. -/
structure Mapped where
  place : Nat
  leaf : Word
  psz : Nat
  deriving DecidableEq, Repr

/-- The mapping of an address, if it has one. -/
def State.mapped (s : State) (p va : Nat) : Option (Mapped × State) :=
  let rg := (s.part p).region va
  match s.leafOf p va false with
  | none => none
  | some (a, s) =>
    let (e, s) := s.readEntry a
    if leafPresent e (pageLog rg) (rg.getLsbD 10) then some (⟨a, e, pageLog rg⟩, s) else none

/-- Frame of a local leaf. -/
def Mapped.frame (m : Mapped) : Nat := field m.leaf m.psz (48 - m.psz) * 2 ^ m.psz

/-! ### Mapping and unmapping (R424) -/

/-- A VA range meets the source rows of a staging entry. -/
def Staging.names (g : Staging) (r : VaRange) : Bool :=
  (List.range g.rows).any fun i =>
    let a := ((ptrLow g.src : Int) + i * g.sstr).toNat
    meets a g.rb r.lo (r.hi - r.lo)

/-- Staging entries that name a page: removed at a bound core, marked in a saved context, and where the frames are yet to be fetched again
(R176, R424). -/
def State.unstagePage (s : State) (p : Nat) (r : VaRange) : State :=
  let bound := fun (e : Nat × Core) =>
    if (e.2.bound.map (·.part)) == some p then
      let kept := e.2.staging.filter fun g => g.stale || !g.names r
      (e.1, { e.2 with staging := kept.map fun g => if g.names r then { g with marked := true } else g })
    else e
  let rest := fun (e : Nat × Core) =>
    (e.1, { e.2 with staging := e.2.staging.map fun g => if g.names r then { g with marked := true } else g })
  ({ s with cores := s.cores.map bound }).modPart p fun q => { q with contexts := q.contexts.map rest }

/-- A mapping is taken away: its frame goes back to the pool and the page is purged (R229, R302, R424). -/
def State.unmapLeaf (s : State) (p va : Nat) (m : Mapped) : State :=
  let r := (s.part p).pageRange (BitVec.ofNat 64 va)
  let far := ((s.part p).region va).getLsbD 10
  let s := (s.writeEntry m.place 0).modPart p fun q =>
    { q with used := if far then q.used else q.used.eraseP fun u => u.1 == m.frame && u.2 == 2 ^ m.psz }
  (s.unstagePage p r).purgeRange p r

/-- Unmap a page (R424): one with a recorded or pinned line stays; a page that is not mapped is left as it is.
DEDUCED, log 61. -/
def State.unmapPage (s : State) (p va : Nat) : Except CmdStatus State :=
  if 2 ^ 60 ≤ va then .error .badParam
  else if (s.part p).keeps ((s.part p).pageRange (BitVec.ofNat 64 va)) then .error .noPerm
  else match s.mapped p va with
    | none => .ok s
    | some (m, s) => .ok (s.unmapLeaf p va m)

/-- A local leaf (R225): frame, owner and rights RD, W, X. -/
def localLeaf (frame owner : Nat) (rights : BitVec 3) : Word :=
  BitVec.ofNat 64 (frame + owner % 16 * 256 + rights.toNat * 2 + 1)

/-- The checks of a mapping's leaf (R224, R227, R410, R424): a fabric region takes a remote PA with its package. -/
def State.leafRefused (s : State) (p va : Nat) (owner frame : Nat) (fromPool : Bool) : Option CmdStatus :=
  let q := s.part p
  let rg := q.region va
  let n := 2 ^ pageLog rg
  if 2 ^ 60 ≤ va || 16 ≤ owner || !rg.getLsbD 0 || frame % n != 0 then some .badParam
  else if rg.getLsbD 10 then
    if fromPool || 2 ^ 53 ≤ frame || 4607 < frame / 2 ^ 40 then some .badParam else none
  else if !q.ownsRange frame n then some .noPerm
  else if fromPool && !q.frameFree frame n then some .noRes
  else none

/-- Map a page (R424). A fabric leaf carries PKG in its bits [52:40] (R225, R410). -/
def State.mapPage (s : State) (p va owner : Nat) (rights : BitVec 3) (frame : Nat) (fromPool : Bool) : Except CmdStatus State :=
  match s.leafRefused p va owner frame fromPool with
  | some e => .error e
  | none =>
    match s.unmapPage p va with
    | .error e => .error e
    | .ok s =>
      let n := 2 ^ pageLog ((s.part p).region va)
      -- a frame of this package is taken before any table is
      let s := s.modPart p fun q => { q with used := if (q.region va).getLsbD 10 then q.used else (frame, n) :: q.used }
      match s.leafOf p va true with
      | none => .error .noRes
      | some (a, s) =>
        .ok ((s.writeEntry a (localLeaf frame owner rights)).purgeRange p ((s.part p).pageRange (BitVec.ofNat 64 va)))

/-! ### Page-fault requests (R230, R231) -/

/-- The lanes of a notice (R231). -/
def noticeOf (r : PageReq) (refused : Bool) : Vec :=
  BitVec.ofNat 512 (packFields 32 [r.token.toNat, if refused then 1 else 0, field r.va 0 32, field r.va 32 32, r.lane.toNat])

/-- The core of a die whose router takes what the die control core sends. DESIGN CHOICE, log 109. -/
def controlCore (die : Nat) : Nat := coreAt die ((Config.controlPlace die).val / 16) ((Config.controlPlace die).val % 16)

/-- The notice goes from the die control core to the core that holds the faulted slot, or to the one its resting context has left
(R231, R311). DESIGN CHOICE, log 75. -/
def State.sendNotice (s : State) (p : Nat) (r : PageReq) (refused : Bool) : State :=
  let (c, pos) := if r.core < restName 0 then (r.core, ((s.core r.core).position).getD 0)
    else ((s.coreOfPos p (r.core - restName 0)).getD 0, r.core - restName 0)
  let pk : Packet :=
    { id := s.stamp, part := p, owner := r.owner, cls := s.classOf c, core := controlCore (dieOf (clusterOf c)), slot := detachedSlot
      dx := coreX c, dy := coreY c, unit := 0, esc := s.classOf c != 0, poisoned := false, load := .notice (noticeOf r refused)
      ptr := BitVec.ofNat 64 (pos * 2 ^ 40), place := .enter 0 (routerOf (controlCore (dieOf (clusterOf c)))) .core, since := s.stamp, sync := true, answer := none, nacks := 0
      via := none, origin := none, vacated := none, retried := false, causedBy := none, body := .none, lost := [] }
  { s.tick with packets := s.packets ++ [pk] }

/-- Rights firmware gives a page it maps for a fault: RD and W (log 23). -/
def faultRights : BitVec 3 := 3

/-- PAGE_FAULT_REQUEST (R231): the page is mapped with a frame of the pool, unless it is mapped already, or the request is
refused; then its notice is sent. -/
def execPageFaultRequest (part : Nat) (token : BitVec 32) (frame : Option Nat) (s : State) : Out :=
  match (s.part part).faults.find? fun r => r.token == token with
  | none => .next s
  | some r =>
    let s := s.modPart part fun q => { q with faults := q.faults.filter fun x => x.token != token }
    match frame with
    | none => .next (s.sendNotice part r true)
    | some f =>
      let va := ptrLow r.va / 4096 * 4096
      match s.mapped part va with
      | some (_, u) => .next (u.sendNotice part r false)
      | none =>
        match s.mapPage part va r.owner faultRights f true with
        | .ok u => .next (u.sendNotice part r false)
        | .error _ => .next (s.sendNotice part r true)

/-! ### Page migration (R232, R233) -/

/-- An action of firmware has begun: it goes on by the same event. -/
def State.begin (s : State) (i : Work) : State := if s.begun.contains i then s else { s with begun := s.begun ++ [i] }
/-- It has ended. -/
def State.ended (s : State) (i : Work) : State := { s with begun := s.begun.filter (· != i) }

/-- Move a number that lies in [a, a + n) to the same place of [b, b + n). -/
def shift (a b n x : Nat) : Nat := if a ≤ x && x < a + n then b + (x - a) else x

/-- No constant cache holds a line of a frame (R272). -/
def State.dropConstFrame (s : State) (a n : Nat) : State :=
  { s with clusters := s.clusters.map fun ((c, k) : Nat × Cluster) => (c, { k with cc := k.cc.filter fun e => !meets a n (64 * e.1) 64 }) }

/-- What memory holds of a frame is copied to another frame (R232): bytes and poison; the latent lines and the lines of records and
pins, which are kept by VA, go with it. The vault takes what the L2 holds of the frame, and every line is read and written there (R315). -/
def State.moveFrame (s : State) (p a b n : Nat) : State :=
  let s := (s.dropConstFrame a n).dropConstFrame b n
  let lines := (s.l2.filter fun e => meets a n (64 * e.1) 64).map (·.1)
  let s := lines.foldl (fun s l => s.recall l allWords) s
  let cells := (s.mem.filter fun c => a ≤ c.1 && c.1 < a + n).map fun (c : Host.Cell) => (shift a b n c.1, c.2)
  let ln := shift (a / 64) (b / 64) (n / 64)
  let bad := (s.memBad.filter fun w => meets a n (4 * w) 4).map (shift (a / 4) (b / 4) (n / 4))
  let lat := (s.latent.filter fun l => meets a n (64 * l) 64).map ln
  let u := { s with
    mem := Memory.writeCells (Memory.clear s.mem b n) cells
    memBad := bad.foldl setAdd (s.memBad.filter fun w => !meets b n (4 * w) 4)
    latent := lat.foldl setAdd (s.latent.filter fun l => !meets a n (64 * l) 64)
    l2 := s.l2.filter fun e => !lines.contains e.1 }
  let u := u.sendWrites s (smcAgent p (a / 2 ^ 31)) none
  let u := (List.range (n / 64)).foldl (fun u i => (u.copyAccess p (a / 64 + i)).copyAccess p (b / 64 + i)) u
  u.modPart p fun q =>
    { q with
      recipes := q.recipes.map fun r =>
        { r with
          lines := r.lines.map fun l => (l.1, ln l.2)
          pins := r.pins.map ln
          devs := r.devs.map fun d => { d with written := d.written.map ln } }
      sealedPages := q.sealedPages.map fun x => shift a b n x }

/-- A frame is poisoned and discarded (R233): no slice holds a line of it. -/
def State.poisonFrame (s : State) (a n : Nat) : State :=
  { s with
    memBad := (List.range (n / 4)).foldl (fun m i => setAdd m (a / 4 + i)) s.memBad
    l2 := s.l2.filter fun e => !meets a n (64 * e.1) 64 }

/-- The held writes of a page are released. -/
def State.releaseHeld (s : State) (p : Nat) : State :=
  (s.modPart p fun q => { q with migrating := none }).wakeAll (· == .migration)

/-- The event of a migration that read an uncorrectable error (R382). -/
def eventMigration : BitVec 16 := 0x0100

/-- The end of a migration whose writes are held: the copy, the switch of the leaf, the purge and the release (R232), or the
page marked (R233). DESIGN CHOICE, log 64. -/
def State.migrate (s : State) (p : Nat) (va : Word) (frame : Nat) : State :=
  match s.mapped p (ptrLow va) with
  | none => s.releaseHeld p
  | some (m, s) =>
    let n := 2 ^ m.psz
    let rg := (s.part p).region (ptrLow va)
    if rg.getLsbD 10 || !(s.part p).frameFree frame n then s.releaseHeld p
    else
      let r := (s.part p).pageRange va
      let s := s.purgeRange p r
      if s.memBad.any fun w => meets m.frame n (4 * w) 4 then
        let s := (s.poisonFrame frame n).writeEntry m.place (m.leaf ||| 0x80)
        ((s.purgeRange p r).postEvent p eventMigration (BitVec.ofNat 64 r.lo) (field m.leaf 8 4)).releaseHeld p
      else
        let s := s.moveFrame p m.frame frame n
        let s := s.modPart p fun q => { q with used := (frame, n) :: q.used.eraseP fun u => u.1 == m.frame && u.2 == n }
        let leaf := BitVec.ofNat 64 (m.leaf.toNat % 4096 + frame)
        ((s.writeEntry m.place leaf).purgeRange p r).releaseHeld p

/-- PAGE_MIGRATION (R232, R233): first the writes of the page are held; the next such event for it moves the page. -/
def execPageMigration (part : Nat) (va : Word) (frame : Nat) (s : State) : Out :=
  let me := Work.migration part va frame
  match (s.part part).migrating with
  | some base => if base = va && s.begun.contains me then .next ((s.migrate part va frame).ended me) else .next s
  | none =>
    match s.mapped part (ptrLow va) with
    | none => .next s
    | some (_, u) => .next ((u.modPart part fun q => { q with migrating := some va }).begin me)

/-! ### Host copies (R392, R393) -/

/-- One stretch of a device range that lies in one line: VA, physical address, owner of its page, frame, bytes. -/
structure Stretch where
  va : Nat
  pa : Nat
  owner : Nat
  frame : Nat
  len : Nat
  deriving DecidableEq, Repr

/-- The stretches of [va, va + len), line by line; none where a page is not mapped here. -/
def State.stretches (s : State) (p va len : Nat) : Option (List Stretch) :=
  (List.range ((va % 64 + len + 63) / 64)).mapM fun i =>
    let lo := if i = 0 then va else va / 64 * 64 + 64 * i
    let hi := min (va + len) (va / 64 * 64 + 64 * (i + 1))
    match s.mapped p lo with
    | none => none
    | some (m, _) =>
      if ((s.part p).region lo).getLsbD 10 then none
      else some ⟨lo, m.frame + lo % 2 ^ m.psz, field m.leaf 8 4, m.frame, hi - lo⟩

/-- A line that a host write may not touch (R393): pinned, latent, or of a tile in development. -/
def State.hostRefuses (s : State) (p line : Nat) : Bool :=
  let q := s.part p
  q.pinCount line != 0 ||
    (match q.recordOf line with
    | some r => !r.devs.isEmpty || r.lines.any fun l => s.latent.contains l.2
    | none => false)

/-- Write one stretch through its home slice as the page's owner would (R393): a resident record is cancelled. -/
def State.hostWrite (s : State) (p : Nat) (x : Stretch) (bs : List Byte) : State :=
  let s := match (s.part p).recordOf (lineOf x.pa) with
    | some r => s.dropRecord p r.id
    | none => s
  let (absent, u) := s.l2Touch p x.owner (lineOf x.pa)
  let u := u.sendWrites s (smcAgent p (((s.part p).clusters).headD 0)) none
  (if absent then u.copyAccess p (lineOf x.pa) else u).writeHome x.pa (bs.zipIdx.map fun (b : Byte × Nat) => (b.2, b.1))

/-- Write bytes over some stretches in order. -/
def State.hostWriteAll (s : State) (p : Nat) : List Stretch → List Byte → State
  | [], _ => s
  | x :: rest, bs => (s.hostWrite p x (bs.take x.len)).hostWriteAll p rest (bs.drop x.len)

/-- The stretches a host write may use, or its status; a range with a page that is not mapped, or a fabric page, is a bad parameter.
DESIGN CHOICE, log 117. -/
def State.hostTarget (s : State) (p va len : Nat) : Except CmdStatus (List Stretch) :=
  if 2 ^ 60 < va + len || len = 0 then .error .badParam
  else match s.stretches p va len with
    | none => .error .badParam
    | some xs => if xs.any fun x => s.hostRefuses p (lineOf x.pa) then .error .noPerm else .ok xs

/-- The additional data of import and export: VA, owner and length (R392), 8 bytes each, the owner that of the range's first page.
DESIGN CHOICE, log 118. -/
def sealData (va owner len : Nat) : List Byte := bytesOf va 8 ++ bytesOf owner 8 ++ bytesOf len 8

/-- Pages marked sealed. DEDUCED, log 22. -/
def Partition.markSealed (q : Partition) (xs : List Stretch) : Partition :=
  { q with sealedPages := (xs.map (·.frame)).foldl setAdd q.sealedPages }

/-- A page whose export is ciphertext (R392). -/
def Partition.sealedPage (q : Partition) (x : Stretch) : Bool := q.sealedOnly || q.sealedPages.contains x.frame

/-- The pages of a range are zeroed, the lines apart that a host write may not touch (R388, R393). DEDUCED, log 22. -/
def State.zeroPages (s : State) (p va len : Nat) : State :=
  let n := 2 ^ pageLog ((s.part p).region va)
  let lo := va / n * n
  match s.stretches p lo ((va + len + n - 1) / n * n - lo) with
  | none => s
  | some xs => (xs.filter fun x => !s.hostRefuses p (lineOf x.pa)).foldl (fun s x => s.hostWrite p x (List.replicate x.len 0)) s

/-- Import (R392): the destination pages are zeroed where the tag fails; the additional data names the first page's owner.
DESIGN CHOICE, log 118. -/
def State.importPages (s : State) (p hostAddr handle : Nat) (iv : BitVec 96) (tag : BitVec 128) (va len : Nat) :
    CmdStatus × State :=
  match mapGet? (s.part p).keys handle with
  | none => (.noKey, s)
  | some key =>
    match s.hostTarget p va len with
    | .error e => (e, s)
    | .ok xs =>
      let owner := (xs.head?.map (·.owner)).getD 0
      match Config.sm4GcmOpen key iv (sealData va owner len) (Memory.readBytes s.hostMem hostAddr len) tag with
      | none => (.authFail, s.zeroPages p va len)
      | some bs => (.ok, (s.hostWriteAll p xs ((List.range len).map fun i => bs.getD i 0)).modPart p fun q => q.markSealed xs)

/-- Bytes of some stretches as performed at their home slices; a line that is in no L2 comes from its vault (R315). -/
def State.hostRead (s : State) (p : Nat) (xs : List Stretch) : State × List Byte :=
  let s := xs.foldl (fun s x => s.recall (lineOf x.pa) allWords) s
  let s := s.copyAccesses p ((xs.map fun x => lineOf x.pa).filter fun l => (mapGet? s.l2 l).isNone)
  (s, xs.flatMap fun x => Memory.readBytes s.mem x.pa x.len)

/-- The bytes of some stretches with those of the sealed ones replaced, in their order, by a ciphertext. -/
def weave (isSealed : Stretch → Bool) : List Stretch → List Byte → List Byte → List Byte
  | [], _, cipher => cipher
  | x :: rest, bs, cipher =>
    if isSealed x then cipher.take x.len ++ weave isSealed rest (bs.drop x.len) (cipher.drop x.len)
    else bs.take x.len ++ weave isSealed rest (bs.drop x.len) cipher
/-- The bytes of the sealed stretches among some. -/
def sealedBytes (isSealed : Stretch → Bool) : List Stretch → List Byte → List Byte
  | [], _ => []
  | x :: rest, bs => (if isSealed x then bs.take x.len else []) ++ sealedBytes isSealed rest (bs.drop x.len)

/-- Export (R392): ciphertext for the sealed pages of the range, or for every page of a sealed partition, and plaintext for the
others. A range with a latent or poisoned line is refused. DEDUCED, log 24. A page that is not mapped, or a fabric page, is a bad
parameter, and the additional data names the first page's owner. DESIGN CHOICE, logs 117 and 118. -/
def State.exportPages (s : State) (p va hostAddr len handle : Nat) (iv : BitVec 96) : CmdStatus × State :=
  if 2 ^ 60 < va + len || len = 0 then (.badParam, s)
  else match s.stretches p va len with
    | none => (.badParam, s)
    | some xs =>
      let q := s.part p
      let (s, bs) := s.hostRead p xs
      if xs.any fun x => s.latent.contains (lineOf x.pa) || (s.memBad.any fun w => w / 16 == lineOf x.pa) then (.noPerm, s)
      else if xs.any fun x => q.sealedPage x then
        match mapGet? q.keys handle with
        | none => (.noKey, s)
        | some key =>
          let owner := (xs.head?.map (·.owner)).getD 0
          let cipher := Config.sm4GcmSeal key iv (sealData va owner len) (sealedBytes q.sealedPage xs bs)
          (.ok, { s with hostMem := Memory.writeBytes s.hostMem hostAddr (weave q.sealedPage xs bs cipher) })
      else (.ok, { s with hostMem := Memory.writeBytes s.hostMem hostAddr bs })

/-- Load (R393): refused in a sealed partition. -/
def State.loadPages (s : State) (p hostAddr va len : Nat) : CmdStatus × State :=
  if (s.part p).sealedOnly then (.noPerm, s)
  else match s.hostTarget p va len with
    | .error e => (e, s)
    | .ok xs => (.ok, s.hostWriteAll p xs (Memory.readBytes s.hostMem hostAddr len))

end Sys2Proof.Machine
end

