-- ==== Sys2Proof/Machine/Stops.lean ====
section
/-!
DEFINITION. What firmware does to slots and cores (R82, R95, R121, R157, R179, R352-R360): the ends of timed waits, stops at
instruction boundaries, thermal displacement, pre-emption, forwarding entries and restore.
-/
namespace Sys2Proof.Machine

/-! ### Timed waits (R82, R121, R298) -/

/-- DIVIDE_RESULT_WRITE (R82): the result is written at issue + 34. -/
def execDivideResultWrite (core slot : Nat) (s : State) : Out :=
  match (s.slotAt core (slotNo slot)).out with
  | .divide d q due =>
    if s.cycle < due then .next s
    else
      let here := (s.curCore, s.curSlot)
      let u := (s.focus core (slotNo slot)).setX d q
      .next ((u.modMe fun t => { t with out := .none }).focus here.1 here.2)
  | _ => .next s

/-- YIELD_EXPIRY (R121): the slot returns after its 8 cycles. -/
def execYieldExpiry (core slot : Nat) (s : State) : Out :=
  match (s.slotAt core (slotNo slot)).out with
  | .yield due => if s.cycle < due then .next s else .next (s.modSlotAt core (slotNo slot) fun t => { t with out := .none })
  | _ => .next s

/-- Waits of a stated number of cycles end with the cycle (R298). -/
def State.expireCycles (s : State) : State :=
  s.wakeAll fun w => match w with
    | .cycles due => due ≤ s.cycle
    | _ => false

/-! ### Stops at instruction boundaries (R95, R157) -/

/-- A request of a slot that has performed nothing: a packet not yet placed, a parked or NACKed operation. -/
def Packet.unperformed (pk : Packet) : Bool :=
  pk.place == .parked || pk.place == .nacked || pk.nackReturns ||
    (match pk.load with
    | .channel _ _ => pk.answer.isNone
    | _ => false)

/-- The slot is at an instruction boundary: what it waits for has performed nothing, or its instruction is complete. -/
def State.atBoundary (s : State) (t : Slot) : Bool :=
  match t.out with
  | .none | .yield _ | .lane _ _ | .recv _ _ | .future _ | .fe _ _ _ _ | .feNacked _ _ | .queue | .engine _ _ _ _ | .enq _ _ _ | .deq _
  | .release | .barrier _ | .develop _ _ | .row _ | .ring _ | .migration | .reseed => true
  | .remote ids => (ids.filterMap s.packet?).all (·.unperformed)
  | .reply _ | .divide _ _ _ | .emulate _ _ _ | .matrix _ _ _ | .stream _ _ _ _ _ | .feRows _ _ _ | .cycles _ | .contained _ _ => false

/-- The packets of a wait that is abandoned. -/
def Wait.packets : Wait → List Nat
  | .remote ids => ids
  | .feNacked id _ => [id]
  | .none | .reply _ | .divide _ _ _ | .yield _ | .emulate _ _ _ | .matrix _ _ _ | .stream _ _ _ _ _ | .lane _ _ | .recv _ _
  | .future _ | .fe _ _ _ _ | .queue | .engine _ _ _ _ | .enq _ _ _ | .deq _ | .release | .barrier _ | .develop _ _ | .row _
  | .feRows _ _ _ | .ring _ | .cycles _ | .migration | .reseed | .contained _ _ => []

/-- Abandon a slot's wait: the PC stays at the waiting instruction (R157). What a RESEED has held goes on (R297). -/
def State.abandonWait (s : State) (c : Nat) (k : Fin 8) : State :=
  let t := s.slotAt c k
  let ids := t.out.packets
  let asked := (s.part (s.partOf c)).reseeds.any fun r => r.2 == (c, k.val)
  let s := { s with
    packets := s.packets.filter fun p => !ids.contains p.id
    parts := s.parts.map fun ((n, q) : Nat × Partition) =>
      (n, { q with
        reseeds := q.reseeds.filter fun r => !(r.2 == (c, k.val) && n == s.partOf c)
        contexts := q.contexts.map fun (e : Nat × Core) => (e.1, { e.2 with park := e.2.park.filter fun i => !ids.contains i }) })
    cores := s.cores.map fun ((n, q) : Nat × Core) => (n, { q with park := q.park.filter fun i => !ids.contains i }) }
  let s := match t.out with
    | .ring q => s.modQueue q fun h =>
        { h with pending := h.pending.filter fun e => e.sender != some (c, k.val) }
    | _ => s
  let s := if asked then s.wakeAll (· == .reseed) else s
  s.modSlotAt c k fun t => { t with out := .none, dequeuing := false, enqueuing := false, sources := none, fetched := [] }

/-- The slot can stop now, for a stop asked at a cycle: IE is 1, or 4,096 cycles have passed. -/
def State.mayStop (s : State) (t : Slot) (asked : Nat) : Bool := s.atBoundary t && (t.sw.ie || asked + ieLimit ≤ s.cycle)

/-- A stop of the slot's own can be applied now: a development goes on where its lane is to be halted (R360). -/
def State.mayApply (s : State) (t : Slot) (kind : StopKind) (asked : Nat) : Bool := s.mayStop t asked && !(kind == .halt && t.kind.isDev)

/-- Temperature of a core in its die's ranking. -/
def State.temperature (s : State) (c : Nat) : Option Nat :=
  ((mapGet s.dies (dieOf (clusterOf c)) Die.reset).ranking.find? fun e => e.1 == c).map (·.2)

/-- A slot of a core that holds a guest. -/
def State.hosts (s : State) (c k : Nat) : Bool := s.cores.any fun e => e.2.slots.toList.any fun t => t.guestAt == some (c, k)

/-- Where a displaced slot runs (R358): the coolest core of the plot that has an unbound slot, and that slot. -/
def State.guestPlace (s : State) (c : Nat) : Option (Nat × Nat) :=
  let free := fun (n : Nat) => (List.range 8).find? fun i => ((s.core n).slots[slotNo i]).life == .unbound && !((s.core n).binds[slotNo i]).v && !s.hosts n i
  let cs := ((s.plotCores c).filter fun n => n != c && (free n).isSome).map fun n => ((s.temperature n).getD 0, n)
  match (sortKeys cs).head? with
  | some (_, n) => (free n).map fun i => (n, i)
  | none => none

/-- Apply a stop to a slot (R95, R358, R360). DEDUCED, log 57. -/
def State.applyStop (s : State) (c : Nat) (k : Fin 8) (kind : StopKind) : State :=
  let s := s.abandonWait c k
  match kind with
  | .halt => s.modSlotAt c k fun t => { t with stopAt := none, halted := true }
  | .displace =>
    let g := s.guestPlace c
    s.modSlotAt c k fun t => { t with stopAt := none, disabled := true, guestAt := g }

/-- Apply a slot's pending stop if it may stop now. -/
def State.tryStop (s : State) (c : Nat) (k : Fin 8) : State :=
  let t := s.slotAt c k
  match t.stopAt with
  | some (kind, asked) => if s.mayApply t kind asked then s.applyStop c k kind else s
  | none => s

/-- Every pending stop that can be applied is applied. -/
def State.tryStops (s : State) : State :=
  s.cores.foldl (fun s (e : Nat × Core) =>
    if e.2.slots.toList.any fun t => t.stopAt.isSome then (List.range 8).foldl (fun s i => s.tryStop e.1 (slotNo i)) s else s) s

/-- Ask a slot to stop: it stops at once if it can. -/
def State.askStop (s : State) (c : Nat) (k : Fin 8) (kind : StopKind) : State :=
  (s.modSlotAt c k fun t => { t with stopAt := some (kind, s.cycle) }).tryStop c k

/-- IE_STOP_TIMEOUT (R95): a stop that has waited 4,096 cycles for IE proceeds at the next boundary. -/
def execIeStopTimeout (core slot : Nat) (s : State) : Out :=
  let t := s.slotAt core (slotNo slot)
  match t.stopAt with
  | some (_, asked) => if asked + ieLimit ≤ s.cycle then .next (s.tryStop core (slotNo slot)) else .next s
  | none => .next s

/-! ### Temperature (R358) -/

/-- THERMAL_RANKING (R358): the cores of a die by temperature, coolest first. DESIGN CHOICE, log 39. -/
def execThermalRanking (die : Nat) (temps : List (Nat × Nat)) (s : State) : Out :=
  let ranking := (sortKeys (temps.map fun e => (e.2, e.1))).map fun e => (e.2, e.1)
  .next { s with dies := mapSet s.dies die { mapGet s.dies die Die.reset with ranking := ranking } }

/-- THERMAL_SLOT_DISABLE (R358): above the limit one more issuing slot is displaced, the highest-numbered first. -/
def execThermalSlotDisable (core : Nat) (s : State) : Out :=
  let hot : Bool := match s.temperature core with
    | some t => decide (s.thermalLimit < t)
    | none => false
  let ready := (List.range 8).reverse.find? fun i =>
    let t := s.slotAt core (slotNo i)
    t.life == .running && !t.disabled && t.stopAt.isNone
  match ready with
  | some i => if hot then .next (s.askStop core (slotNo i) .displace) else .next s
  | none => .next s

/-- THERMAL_SLOT_ENABLE (R358): 5 °C below the limit the lowest-numbered disabled slot is enabled; its guest returns. -/
def execThermalSlotEnable (core : Nat) (s : State) : Out :=
  let cool : Bool := match s.temperature core with
    | some t => decide (t + 5 ≤ s.thermalLimit)
    | none => false
  match (List.range 8).find? fun i => (s.slotAt core (slotNo i)).disabled with
  | some i =>
    if cool then .next (s.modSlotAt core (slotNo i) fun t => { t with disabled := false, guestAt := none }) else .next s
  | none => .next s

/-! ### Moving a context (R179, R352-R355) -/

/-- A requester's name after the context of core a is known as b. -/
def Requester.rename (a b : Nat) : Requester → Requester
  | .remote c p n => .remote (if c == a then b else c) p n
  | .slot c k => .slot (if c == a then b else c) k
  | .engine c q => .engine (if c == a then b else c) q
  | .across h c k => .across (if h == a then b else h) (if c == a then b else c) k
  | .image h p n => .image (if h == a then b else h) p n
  | .refetch h c => .refetch (if h == a then b else h) (if c == a then b else c)

def DevTask.rename (a b : Nat) (d : DevTask) : DevTask := { d with root := d.root.rename a b }
def TaskKind.rename (a b : Nat) : TaskKind → TaskKind
  | .dev d => .dev (d.rename a b)
  | .lane => .lane
  | .record => .record
def TaskRec.rename (a b : Nat) (r : TaskRec) : TaskRec := { r with dev := r.dev.map (·.rename a b) }

/-- A core's context with its own requests renamed. -/
def Core.rename (k : Core) (a b : Nat) : Core :=
  let slot := fun (t : Slot) => { t with kind := t.kind.rename a b }
  let sv := fun (x : Saved) => { x with state := slot x.state }
  { k with
    slots := k.slots.map slot, deque := k.deque.map (·.rename a b), overflow := k.overflow.map (·.rename a b)
    saved := k.saved.map sv, stack := k.stack.map sv }

/-- Developments whose root or asker is the context of core a. -/
def Partition.renameDevs (q : Partition) (a b : Nat) : Partition :=
  let dev := fun (d : Dev) =>
    { d with
      root := d.root.rename a b, asker := d.asker.rename a b
      verify := d.verify.map fun v => { v with core := if v.core == a then b else v.core } }
  { q with
    recipes := q.recipes.map fun r => { r with devs := r.devs.map dev }
    faults := q.faults.map fun f => if f.core == a then { f with core := b } else f }

/-- The context of R179: no L1 contents, no frame that a staging entry covers and no poison in one, no wait, no slot displaced. -/
def Core.context (k : Core) : Core :=
  { k with
    l1d := [], l1i := []
    tray := k.staging.foldl (fun m g => Memory.clear m g.offsets.1 g.offsets.2) k.tray
    trayBad := k.trayBad.filter fun w => !k.staging.any fun g => g.offsets.1 ≤ 4 * w && 4 * w < g.offsets.1 + g.offsets.2
    slots := k.slots.map fun t => { t with out := .none, disabled := false, guestAt := none }
    trayOld := [], preempt := none }

/-- What stays at a vacated core: it is free, with nothing of the context waiting. -/
def Core.vacated (k : Core) : Core :=
  { k.unbind with
    deque := [], overflow := [], fifos := Vector.replicate 16 [], park := [], staging := [], saved := none, stack := [], l1d := []
    l1i := [], queues := Vector.replicate 6 [] }

/-- Guests in a core's slots go back to waiting at home (R358). -/
def State.sendGuestsHome (s : State) (c : Nat) : State :=
  let home := fun (t : Slot) => if (t.guestAt.map (·.1)) == some c then { t with guestAt := none } else t
  { s with cores := s.cores.map fun (e : Nat × Core) => (e.1, e.2.mapSlots home) }

/-- Parked requests go to the core that holds their context (R179). -/
def State.moveParked (s : State) (park : List Nat) (b : Option Nat) : State :=
  match b with
  | some c => { s with packets := s.packets.map fun (p : Packet) => if park.contains p.id then { p with dx := coreX c, dy := coreY c } else p }
  | none => s

/-- Requests that waited at a core before capture: parked ones travel with the context, those at a full endpoint are
forwarded (R179, R353). -/
def State.moveWaiting (s : State) (a : Nat) (park : List Nat) (b : Option Nat) : State :=
  let s := s.moveParked park b
  { s with packets := s.packets.map fun (p : Packet) =>
    if !park.contains p.id && p.place == Place.fifo && p.target == a then { p with place := Place.port } else p }

/-- Every slot of the core can stop. -/
def State.coreStopped (s : State) (k : Core) (asked : Nat) : Bool := k.slots.toList.all fun t => t.life != .running || s.mayStop t asked
/-- The engine queues are empty and no request of the core is under way, those that its stopped slots abandon apart. An entry that waits
for a development keeps its queue, and with it the core, from draining. DESIGN CHOICE, log 114. -/
def State.coreDrained (s : State) (c : Nat) (k : Core) : Bool :=
  let gone := k.slots.toList.flatMap fun t => t.out.packets
  k.queues.toList.all (·.isEmpty) && !s.packets.any fun p => p.core == c && p.slot < detachedSlot && !gone.contains p.id

/-- A free enabled core of a partition that is promised to no other context than the one of core c (R352). -/
def State.freeFor (s : State) (p c d : Nat) : Bool := (s.core d).unbound && (s.part p).clusters.contains (clusterOf d) && !s.promised d c
/-- A free enabled core of a partition, promised to no context (R352). -/
def State.freeCore (s : State) (p d : Nat) : Bool := s.freeFor p d d

/-- Load a context into a core, under a name it had (R352, R355): the map takes its new place, and its staged frames are to be fetched.
DEDUCED, log 78. -/
def State.loadContext (s : State) (p pos : Nat) (k : Core) (name d : Nat) : State :=
  let s := ((s.wakeDie (dieOf (clusterOf d))).setCore d (k.unfetched.rename name d)).dropConst [clusterOf d]
  let s := s.modPart p fun q => { q.renameDevs name d with posMap := mapSet q.posMap pos d }
  s.moveParked k.park (some d)

/-- On whose behalf staged frames are fetched again: the core's owner. -/
def State.fetchAgent (s : State) (d : Nat) : Agent :=
  { core := d, slot := none, queue := 6, part := s.partOf d, owner := s.ownerOf d, cls := s.classOf d, smode := true, dev := none
    dig := false, launch := 0, ports := 0 }

/-- Read the frames of one staging entry from their source. -/
def stagedRows (ag : Agent) (g : Staging) : M (List Byte) := do
  let rows ← (List.range g.rows).mapM fun i => do
    let sps ← engineSpots ag (leaBy g.src (i * g.sstr)) g.rb false .load
    let r ← engineGet ag false sps
    pure r.1
  pure rows.flatten

/-- Fetch the frames of one staging entry again (R176, R355): a marked entry, or one whose source cannot be read, is restored poisoned;
a source that a RESEED holds is read later, and a latent one is developed first. -/
def State.refetch (s : State) (d : Nat) (g : Staging) : State :=
  let (off, len) := g.offsets
  match g.marked, (stagedRows (s.fetchAgent d) g) s with
  | false, .ok (bs, u) =>
    { u with sent := s.sent }.modCore d fun k =>
      { k with
        tray := Memory.writeBytes k.tray off bs
        trayBad := k.trayBad.filter fun w => !(off ≤ 4 * w && 4 * w < off + len)
        staging := k.staging.map fun x => if x == g then { x with stale := false } else x }
  | false, .error (.wait _) => s
  | false, .error (.develop rid) => s.developTile rid fun h => .refetch h d
  | _, _ => s.modCore d (·.poisonFrames g)

/-- Fetch the first frames again that are yet to be. -/
def State.refetchNext (s : State) (d : Nat) : State :=
  match (s.core d).staging.find? (·.stale) with
  | some g => s.refetch d g
  | none => s

/-- Fetch every staged frame again, as far as the sources can be read now. -/
def State.refetchAll (s : State) (d : Nat) : State := ((s.core d).staging.filter (·.stale)).foldl (fun s _ => s.refetchNext d) s

/-- Capture a core's context and bring it to a free core, or to the vault (R352 steps 2 to 4). -/
def State.capture (s : State) (c p pos : Nat) (dest : Option Nat) : State :=
  let s := (List.range 8).foldl (fun s i =>
    if (s.slotAt c (slotNo i)).life == .running then s.abandonWait c (slotNo i) else s) ((s.writeBackAll c).dropOlder fun o => o.barred.contains c)
  let s := s.sendGuestsHome c
  let k := (s.core c).context
  let s := (s.modCore c (·.vacated)).modPart p fun q => { q with forward := (c, pos) :: q.forward.filter (· != (c, pos)) }
  let s := s.moveWaiting c k.park dest
  match dest with
  | some d => (((s.loadContext p pos k c d).refetchAll d).retireForwards p)
  | none => s.modPart p fun q =>
      { q.renameDevs c (restName pos) with contexts := mapSet q.contexts pos (k.rename c (restName pos)) }

/-- Some core of a partition is free and enabled (R352). -/
def State.anyFreeCore (s : State) (p : Nat) : Bool :=
  (s.part p).clusters.any fun cl => (List.range 16).any fun i => s.freeCore p (16 * cl + i)

/-- A launch would have a place with a core in it, once the contexts of lower classes have left the place. -/
def State.wouldFit (s : State) (p core : Nat) (l : Launch) : Bool :=
  (List.range 16).any fun r => (List.range 16).any fun c =>
    let plot := rectangle l.die r c (recRows l.words) (recCols l.words)
    plot.contains core && s.fits (s.part p) l.die r c (recRows l.words) (recCols l.words) &&
      plot.all fun d => (s.core d).unbound || (s.core d).bound.any fun b => recClass l.words < b.cls.toNat

/-- Firmware has a reason to pre-empt a core by an event of its own (R352, R357): a launch of a higher class that has no place needs it,
or the core is to be disabled. -/
def State.mayPreempt (s : State) (core : Nat) (b : Binding) : Bool :=
  s.inbox.contains (.disableCore core) ||
    (s.part b.part).launches.any fun e =>
      e.2.stage == .waiting && recClass e.2.words < b.cls.toNat && (s.freePlaces b.part e.2).isEmpty && s.wouldFit b.part core e.2

/-- A destination for a core's context stands: a free core, or room in the vault (R352). -/
def State.destStands (s : State) (p core : Nat) (dest : Option Nat) : Bool :=
  match dest with
  | some d => d != core && s.freeFor p core d
  | none => s.contextRoom p [core]

/-- The destination of a pending pre-emption: the one it has, or, where that has gone, the first free core, or the vault. -/
def State.destOf (s : State) (p core : Nat) (dest : Option Nat) : Option Nat :=
  if s.destStands p core dest then dest
  else ((s.part p).clusters.flatMap fun cl => (List.range 16).map fun i => 16 * cl + i).find? fun d => s.destStands p core (some d)

/-- PREEMPTION (R352): firmware asks for a core's context for a reason of R352; the next such events for it capture the context
once its slots have stopped and it has drained. It goes to the vault only when no core is free, and not when the context area is
full; a destination that has gone is replaced. -/
def execPreemption (core : Nat) (dest : Option Nat) (s : State) : Out :=
  let k := s.core core
  match k.bound, k.position with
  | some b, some pos =>
    let fits := s.destStands b.part core dest
    match k.preempt with
    | none => if fits && s.mayPreempt core b && (dest.isSome || !s.anyFreeCore b.part) then .next (s.modCore core fun k => { k with preempt := some (dest, s.cycle) }) else .next s
    | some (to', asked) =>
      if !fits then .next s
      else if to' != dest then
        if s.destStands b.part core to' then .next s else .next (s.modCore core fun k => { k with preempt := some (dest, asked) })
      else if s.coreStopped k asked && s.coreDrained core k then .next (s.capture core b.part pos dest)
      else .next s
  | _, _ => .next s

/-- CONTEXT_RESTORE (R355): a context of the vault is loaded into a free enabled core of the partition, its staged frames are
fetched again, the map follows and its slots resume. Every core of the part has the recorded capw. -/
def execContextRestore (part position core : Nat) (s : State) : Out :=
  match mapGet? (s.part part).contexts position with
  | none => .next s
  | some k =>
    if !s.freeCore part core then .next s
    else
      let s := s.modPart part fun q => { q with contexts := mapErase q.contexts position }
      let s := s.loadContext part position k (restName position) core
      .next ((s.refetchAll core).retireForwards part)

end Sys2Proof.Machine
end

