-- ==== Sys2Proof/Machine/Admin.lean ====
section
/-!
DEFINITION. The host's commands (R314, R326, R341, R344, R356, R360, R375-R377, R386-R388, R391-R393, R422-R424): doorbells, the
arbitration of the host interface, and the Tabhus commands with their responses.
-/
namespace Sys2Proof.Machine

/-! ### Doorbells (R375, R377) -/

/-- The event of a doorbell write outside a ring (R382). -/
def eventDoorbell : BitVec 16 := 0x0101
/-- The event of a disabled core (R382). -/
def eventCore : BitVec 16 := 0x0103

/-- A function's admin queue. -/
def State.admin (s : State) (fn : Nat) : Admin := mapGet s.admins fn Admin.reset

/-- The admin registers of a function's BAR0 (R375): bases of the submission and the completion ring, then their sizes in places.
PRESUMED, log 17. -/
def State.adminReg (s : State) (fn i : Nat) : Nat := (mapGet s.bars (fn * 8 * 2 ^ 32 + 8 * i) 0).toNat
/-- Places of the submission ring and of the completion ring. -/
def State.adminSize (s : State) (fn : Nat) (completion : Bool) : Nat := s.adminReg fn (if completion then 3 else 2)

/-- The bytes of a 16-byte response (R386). -/
def responseBytes (r : BitVec 32 × BitVec 16 × Word) : List Byte := bytesOf r.1.toNat 8 ++ bytesOf (r.2.1.toNat + 2 ^ 16 * r.2.2.toNat) 8

/-- Write the waiting output of an admin completion ring while it has room, at most n of it: a response takes one place of 16 bytes,
an event entry four (R377, R380, R386). DESIGN CHOICE, log 95. -/
def State.flushAdmin (fn : Nat) : Nat → State → State
  | 0, s => s
  | n + 1, s =>
    let a := s.admin fn
    let size := s.adminSize fn true
    match a.waiting with
    | [] => s
    | w :: rest =>
      let bytes := match w with
        | .inl r => responseBytes r
        | .inr e => entryBytes e a.phase
      let k := bytes.length / 16
      if size < k || (a.cplHead + size - 1 - a.cplTail) % size < k then s
      else
        let mem := (List.range k).foldl (fun m i =>
          Memory.writeBytes m (s.adminReg fn 1 + 16 * ((a.cplTail + i) % size)) ((bytes.drop (16 * i)).take 16)) s.hostMem
        let wraps := size ≤ a.cplTail + k
        State.flushAdmin fn n { s with
          hostMem := mem
          admins := mapSet s.admins fn
            { a with waiting := rest, cplTail := (a.cplTail + k) % size, phase := if wraps then !a.phase else a.phase } }

/-- Something is to be written to a function's admin completion ring. -/
def State.adminOut (s : State) (fn : Nat) (w : Sum (BitVec 32 × BitVec 16 × Word) RingEntry) : State :=
  let a := s.admin fn
  State.flushAdmin fn (a.waiting.length + 1) { s with admins := mapSet s.admins fn { a with waiting := a.waiting ++ [w] } }

/-- An event that belongs to no partition goes to the PF's admin completion ring (R377). -/
def State.postPfEvent (s : State) (code : BitVec 16) (detail : Word) : State :=
  let e : RingEntry :=
    { tag := 0, launch := 0, status := code, type := 3, data := 0, detail := detail, lane := 0, elapsed := 0, sender := none
      since := s.stamp, awaits := [] }
  { s.adminOut 0 (.inr e) with pfEvents := s.pfEvents ++ [e] }

/-- A refused doorbell write is recorded: in the partition's stream, or the PF's. -/
def State.doorbellEvent (s : State) (fn : Nat) : State :=
  if fn = 0 then s.postPfEvent eventDoorbell 0 else s.postEvent (fn - 1) eventDoorbell 0 0

/-- Queue i of a function. -/
def State.queueOf (s : State) (fn index : Nat) : Option (Nat × HwQueue) := s.queues.find? fun e => e.2.vf == fn && e.2.index == index

/-- SUBMISSION_DOORBELL (R375, R398): the tail moves and the die wakes; a value outside the ring is ignored and recorded. -/
def execSubmissionDoorbell (fn index value : Nat) (s : State) : Out :=
  match s.queueOf fn index with
  | none => .next s
  | some (n, h) =>
    if value < h.subSize then
      .next (((s.modQueue n fun h => { h with subTail := value, bells := h.bells ++ [(value, s.stamp)] }).tick).wakeDie h.die)
    else .next (s.doorbellEvent fn)

/-- COMPLETION_DOORBELL (R375, R380, R398): the head moves and the die wakes. -/
def execCompletionDoorbell (fn index value : Nat) (s : State) : Out :=
  match s.queueOf fn index with
  | none => .next s
  | some (n, h) => if value < h.cplSize then .next ((s.modQueue n fun h => { h with cplHead := value }).wakeDie h.die) else .next (s.doorbellEvent fn)

/-- ADMIN_DOORBELL (R375, R386): a value outside the ring is ignored and recorded; the commands a tail covers follow as events of
their own. A virtual function exists while its partition does. -/
def execAdminDoorbell (fn : Nat) (completion : Bool) (value : Nat) (s : State) : Out :=
  if fn != 0 && !s.hasPart fn then .next s
  else if s.adminSize fn completion ≤ value then .next (s.doorbellEvent fn)
  else
    let a := s.admin fn
    if completion then .next (State.flushAdmin fn a.waiting.length { s with admins := mapSet s.admins fn { a with cplHead := value } })
    else .next { s with admins := mapSet s.admins fn { a with subTail := value } }

/-! ### The host interface (R320) -/

/-- A queue has a record to fetch. -/
def HwQueue.fetchable (h : HwQueue) : Bool := h.subHead != h.subTail && h.vf != 0
/-- The entry it can write now: its oldest, when the ring has room and the stores that come before it are performed. -/
def State.writable (s : State) (h : HwQueue) : Option RingEntry :=
  if h.full then none else h.pending.head?.filter fun e => !s.entryHeld e

/-- The request of a queue for a 256-byte transfer: an entry to write goes before a record to fetch. Its class is that of the
entry's launch; a record that has not been read is of class K (log 28). An entry arrives when it is posted, a record with the
doorbell that covers it. -/
def State.transferOf (s : State) (n : Nat) (h : HwQueue) : Option Packet :=
  let entry := s.writable h
  if !h.fetchable && entry.isNone then none
  else
    let cls := match entry with
      | some e => ((mapGet? (s.part (h.vf - 1)).launches e.launch.toNat).map fun l => BitVec.ofNat 2 (recClass l.words)).getD 2
      | none => 2
    let since := match entry with
      | some e => e.since
      | none => (h.bells.head?.map (·.2)).getD 0
    some
      { id := 2 ^ 128 + n, part := h.vf - 1, owner := h.owner, cls := cls, core := 0, slot := detachedSlot, dx := 0, dy := 0, unit := 5
        esc := false, poisoned := false, load := .held .none, ptr := 0, place := .done, since := since, sync := true, answer := none
        nacks := 0, via := none, origin := none, vacated := none, retried := false, causedBy := none, body := .none, lost := [] }

/-- The transfer of a queue is complete: XOBS counts the rounds it has lost (R299, R321). -/
def State.transferDone (s : State) (pk : Packet) (n : Nat) : State :=
  let lost := ((s.queue? n).map (·.lost)).getD 0
  (s.modPart pk.part fun q =>
    q.setOwner pk.owner { q.owner pk.owner with xobs := countRounds (q.owner pk.owner).xobs [(8, lost)] }).modQueue n fun h => { h with lost := 0 }

/-- The requests at the host interface, oldest first; those of one cycle by queue number (R319, R320). -/
def State.transfers (s : State) : List Packet :=
  byArrival (fun p => p.id - 2 ^ 128) (s.queues.filterMap fun (n, h) => s.transferOf n h)

/-- HOST_INTERFACE_TRANSFER (R320): one transfer by draw on structure 8; each loser's round is counted (R321). -/
def execHostInterfaceTransfer (s : State) : Out :=
  match s.decide 8 0 0 s.transfers with
  | (none, u) => .next u
  | (some (pk, losers), u) =>
    let n := pk.id - 2 ^ 128
    let u := losers.foldl (fun u l => u.modQueue (l - 2 ^ 128) fun h => { h with lost := h.lost + 1 }) u
    match u.queue? n with
    | none => .next u
    | some h =>
      let u := u.transferDone pk n
      if (u.writable h).isSome then execCompletionEntryWrite n u else execLaunchRecordFetch n u

/-! ### Commands (R386, R388) -/

/-- The response of a command. -/
def State.respond (s : State) (c : Cmd) (st : CmdStatus) (result : Word) : State :=
  let r := (c.tag, st.code, result)
  let u := s.adminOut c.fn (.inl r)
  { u with admins := mapSet u.admins c.fn { u.admin c.fn with responses := (u.admin c.fn).responses ++ [r] } }

/-- A command on a function's partition that gives its answer itself (R386, R387): BUSY before bring-up ends, BADCMD for a function
that may not issue it, NOPERM for another partition, BADPARAM for one that does not exist. -/
def State.accepted (s : State) (c : Cmd) (pf vf : Bool) (target : Nat) (f : Nat → State → State) : Out :=
  if !s.ready then .next (s.respond c .busy 0)
  else if (c.fn = 0 && !pf) || (c.fn != 0 && !vf) then .next (s.respond c .badCmd 0)
  else if c.fn != 0 && target != c.fn then .next (s.respond c .noPerm 0)
  else if !s.hasPart target then .next (s.respond c .badParam 0)
  else .next (f (target - 1) s)
/-- A command on a function's partition, with its status and result. -/
def State.command (s : State) (c : Cmd) (pf vf : Bool) (target : Nat) (f : Nat → State → CmdStatus × Word × State) : Out :=
  s.accepted c pf vf target fun p s =>
    let (st, r, u) := f p s
    u.respond c st r

/-- A command that has taken a translation away is answered once some accesses have completed (R302, R424). -/
def State.answerAfter (s : State) (c : Cmd) (vf : Nat) (accesses : List Nat) : State :=
  let me := Work.answer c vf accesses
  if accesses.any fun i => (s.packet? i).isSome then s.begin me else (s.ended me).respond c .ok 0

/-- A result of a change that may be refused. -/
def outcomeOf (s : State) (r : Except CmdStatus State) : CmdStatus × Word × State :=
  match r with
  | .ok u => (.ok, 0, u)
  | .error e => (e, 0, s)

/-! ### Vaults and clusters -/

/-- Clusters a mask names. -/
def maskClusters (m : BitVec 64) : List Nat := (List.range 64).filter fun i => m.getLsbD i

/-- The vaults of some clusters are zeroed, and no slice holds their lines (R387, R394, R401). -/
def State.zeroVaults (s : State) (cls : List Nat) : State :=
  { s with
    mem := s.mem.filter fun c => !cls.contains (c.1 / 2 ^ 31)
    memBad := s.memBad.filter fun w => !cls.contains (w / 2 ^ 29)
    latent := s.latent.filter fun l => !cls.contains (l / 2 ^ 25)
    vaultBad := s.vaultBad.filter fun l => !cls.contains (l / 2 ^ 25)
    l2 := s.l2.filter fun e => !cls.contains (e.1 / 2 ^ 25)
    cores := s.cores.map fun ((n, k) : Nat × Core) => (n, { k with l1d := k.l1d.filter fun e => !cls.contains (e.2.pa / 2 ^ 25) })
    clusters := s.clusters.map fun ((n, k) : Nat × Cluster) => (n, { k with cc := k.cc.filter fun e => !cls.contains (e.1 / 2 ^ 25) }) }

/-- The TLBs of some clusters are emptied. -/
def State.dropTlbs (s : State) (cls : List Nat) : State :=
  { s with clusters := s.clusters.map fun ((n, k) : Nat × Cluster) => (n, if cls.contains n then { k with tlb := [] } else k) }

/-- A number from the SMC's random source (R387). -/
def State.random (s : State) : BitVec 128 × State := (Config.freeRandom s.freeCtr, { s with freeCtr := s.freeCtr + 1 })

/-- The owner of a cluster, if a partition has it. -/
def State.clusterOwner (s : State) (cl : Nat) : Option Nat := (s.parts.find? fun e => e.2.clusters.contains cl).map (·.1)
/-- The cluster's die is in service (R373). -/
def State.dieWorks (s : State) (cl : Nat) : Bool := (mapGet s.dies (dieOf cl) Die.reset).enabled

/-- The parameters of PARTITION_CREATE are in range (R241, R341, R375). -/
def partitionOk (p : PartitionParams) : Bool :=
  (1 ≤ p.vf && p.vf ≤ 64) && p.clusters != 0 && p.queues ≤ 64 && (1 ≤ p.segmentCap && p.segmentCap ≤ 4096)

/-- PARTITION_CREATE (R387, R394): the PF's; the clusters must be unowned; vaults are zeroed, a memory key and owner 0's seed
are drawn. DEDUCED, log 26. -/
def execPartitionCreate (cmd : Cmd) (params : PartitionParams) (s : State) : Out :=
  let cls := maskClusters params.clusters
  if !s.ready then .next (s.respond cmd .busy 0)
  else if cmd.fn != 0 then .next (s.respond cmd .badCmd 0)
  else if !partitionOk params || s.hasPart params.vf then .next (s.respond cmd .badParam 0)
  else if cls.any fun c => (s.clusterOwner c).isSome then .next (s.respond cmd .noPerm 0)
  else if cls.any fun c => !s.dieWorks c then .next (s.respond cmd .noRes 0)
  else
    let (key, s) := s.random
    let (seed, s) := s.random
    let s := (s.zeroVaults cls).dropTlbs cls
    let q : Partition := { Partition.reset with
      clusters := cls, recipeCap := params.recipes, queueCount := params.queues, segCap := params.segmentCap
      ctxMiB := params.contextMiB, tvb := params.tvb &&& ~~~(0x7FF#64), strong := params.strong, sealedOnly := params.sealedOnly
      memKey := key, areas := Config.freeAreas s.freeCtr, owners := [(0, { seed := seed, ctr := [], xobs := [] })] }
    .next ({ s with freeCtr := s.freeCtr + 1 }.setPart (params.vf - 1) q |>.respond cmd .ok 0)

/-- Write what the ring of a queue has room for, at most n entries (R380). -/
def State.flushQueue (q : Nat) : Nat → State → State
  | 0, s => s
  | n + 1, s =>
    match execCompletionEntryWrite q s with
    | .next u => State.flushQueue q n u
    | .fault _ | .refused _ => s

/-- Entries of a function's queues wait for stores that have not been performed (R381). -/
def State.storesAwaited (s : State) (vf : Nat) : Bool := s.queues.any fun e => e.2.vf == vf && e.2.pending.any s.entryHeld

/-- A partition's queues are destroyed, after the entries their rings have room for. DEDUCED, log 62. -/
def State.destroyQueues (s : State) (vf : Nat) : State :=
  let mine := s.queues.filter fun e => e.2.vf == vf
  let s := mine.foldl (fun s e => s.flushQueue e.1 e.2.pending.length) s
  { s with queues := s.queues.filter fun e => e.2.vf != vf }

/-- The cores' last bindings to a partition are forgotten: whoever is bound next is another owner (R148). -/
def State.forgetOwners (s : State) (p : Nat) : State :=
  { s with cores := s.cores.map fun ((c, k) : Nat × Core) => (c, if (k.last.map (·.1)) == some p then { k with last := none } else k) }

/-- A virtual function is gone with its partition (R375): its registers, its admin queue, its sessions and its IDE stream. -/
def State.dropFunction (s : State) (vf : Nat) : State :=
  { s with
    parts := mapErase s.parts (vf - 1), sessions := s.sessions.filter fun e => e.2.port != .doe vf, admins := mapErase s.admins vf
    bars := s.bars.filter fun e => e.1 / 2 ^ 35 != vf, ide := mapErase s.ide vf }

/-- PARTITION_DESTROY (R375, R381, R387): the launches are contained; the rest follows once the stores that their records come after are
performed. -/
def execPartitionDestroy (cmd : Cmd) (vf : Nat) (s : State) : Out :=
  let me := Work.destroy cmd vf
  (s.ended me).accepted cmd true false vf fun p s =>
    let s := s.killAll p (containStatus .killed)
    if s.storesAwaited vf then s.begin me
    else
      let s := s.destroyQueues vf
      let cls := (s.part p).clusters
      let s := ((s.zeroVaults cls).dropTlbs cls).forgetOwners p
      (s.dropFunction vf).respond cmd .ok 0

/-! ### Owners, queues and keys (R376, R377, R391, R423) -/

/-- A launch of an owner or of a queue is bound or pending (R388). -/
def Partition.busy (q : Partition) (test : Launch → Bool) : Bool := q.launches.any fun e => e.2.stage != .complete && test e.2

/-- OWNER_CREATE (R387, R423): a seed of 0 is drawn; a replaced owner is reseeded, once the developments in its pages have
ended. -/
def execOwnerCreate (cmd : Cmd) (vf owner : Nat) (seed : BitVec 128) (s : State) : Out :=
  let me := Work.ownerCreate cmd vf owner seed
  if s.ready && s.hasPart vf && ((s.part (vf - 1)).ownerDeveloping owner).isSome &&
      (cmd.fn = 0 || cmd.fn = vf) && !(s.part (vf - 1)).busy (fun l => l.owner == owner) && 1 ≤ owner && owner ≤ 15 then
    .next (s.begin me)
  else
    (s.ended me).command cmd true true vf fun p s =>
      if owner = 0 || 15 < owner then (.badParam, 0, s)
      else if (s.part p).busy fun l => l.owner == owner then (.busy, 0, s)
      else
        let (k, s) := if seed = 0 then s.random else (seed, s)
        (.ok, 0, (s.reseed p owner k).sendWrites s (smcAgent p ((s.part p).clusters.headD 0)) none)

/-- A ring size is a power of two from 16 to 65,536 (R376). -/
def ringSizeOk (n : Nat) : Bool := (List.range 13).any fun i => n == 2 ^ (4 + i)

/-- QUEUE_CREATE (R376, R377, R423). What still waits for the ring of a queue that is replaced is dropped. DESIGN CHOICE, log 116. -/
def execQueueCreate (cmd : Cmd) (params : QueueParams) (s : State) : Out :=
  s.command cmd true true params.vf fun p s =>
    let q := s.part p
    let old := s.queue? params.number
    if 131071 < params.number || (mapGet? q.owners params.owner).isNone || !ringSizeOk params.subSize || !ringSizeOk params.cplSize ||
        !(q.clusters.any fun c => dieOf c == params.die) ||
        (s.queues.any fun e => e.1 != params.number && e.2.vf == params.vf && e.2.index == params.index) ||
        (params.events && s.queues.any fun e => e.1 != params.number && e.2.vf == params.vf && e.2.events) then (.badParam, 0, s)
    else if old.any fun h => h.vf != params.vf then (.noPerm, 0, s)
    else if q.busy fun l => l.queue == params.number then (.busy, 0, s)
    else
      let h : HwQueue :=
        { vf := params.vf, index := params.index, owner := params.owner, die := params.die, subBase := params.subBase
          cplBase := params.cplBase, subSize := params.subSize, cplSize := params.cplSize, vector := params.vector
          events := params.events, subTail := 0, subHead := 0, cplHead := 0, cplTail := 0, phase := true
          pending := if params.events then q.held else [], msix := 0, lost := 0, bells := [] }
      let s := { s with queues := mapSet s.queues params.number h }
      (.ok, 0, if params.events then s.modPart p fun q => { q with held := [] } else s)

/-- An established session of a VF's mailbox (R391). -/
def State.vfSession (s : State) (session vf : Nat) : Bool :=
  match mapGet? s.sessions session with
  | some e => e.established && e.port == .doe vf && vf != 0
  | none => false

/-- Bind a key to a handle of a partition (R391). -/
def State.bindKey (s : State) (p handle : Nat) (key : BitVec 128) : State :=
  s.modPart p fun q => { q with keys := mapSet q.keys handle key }

/-- KEY_BIND (R387, R391): a VF's, inside a session of its mailbox. DEDUCED, log 60. -/
def execKeyBind (cmd : Cmd) (session handle : Nat) (key : BitVec 128) (s : State) : Out :=
  if s.ready && cmd.fn != 0 && !s.vfSession session cmd.fn then .next (s.respond cmd .badCmd 0)
  else s.command cmd false true cmd.fn fun p s => if 15 < handle then (.badParam, 0, s) else (.ok, 0, s.bindKey p handle key)

/-! ### MAP (R387, R392, R393, R424) -/

/-- The answer of a change of the page tables: an error at once, OK after the accesses that were under way by what it has taken away. -/
def State.mapAnswer (s : State) (cmd : Cmd) (vf : Nat) (accesses : List Nat) (r : Except CmdStatus State) : State :=
  match r with
  | .ok u => u.answerAfter cmd vf accesses
  | .error e => s.respond cmd e 0

/-- MAP sub-op 0 (R424). -/
def execMapMap (cmd : Cmd) (vf : Nat) (va : Word) (owner : Nat) (rights : BitVec 3) (frame : Nat) (fromPool : Bool) (s : State) : Out :=
  s.accepted cmd true true vf fun p s =>
    s.mapAnswer cmd vf (s.underway p ((s.part p).pageRange va)) (s.mapPage p va.toNat owner rights frame fromPool)

/-- MAP sub-op 1 (R424). -/
def execMapUnmap (cmd : Cmd) (vf : Nat) (va : Word) (s : State) : Out :=
  s.accepted cmd true true vf fun p s => s.mapAnswer cmd vf (s.underway p ((s.part p).pageRange va)) (s.unmapPage p va.toNat)

/-- MAP sub-op 2 (R303, R387): the checks of RAFW, whose NONCANON is BADPARAM here and whose PROT is NOPERM. -/
def execMapRegionEntry (cmd : Cmd) (vf : Nat) (index : BitVec 4) (value : Word) (s : State) : Out :=
  s.accepted cmd true true vf fun p s =>
    let i : Fin 16 := ⟨index.toNat % 16, Nat.mod_lt _ (by decide)⟩
    s.mapAnswer cmd vf (s.underway p (regionRange i.val))
      (if regionRefused value then .error .badParam
      else if regionMoves (s.part p).raf[i] value && (s.part p).keeps (regionRange i.val) then .error .noPerm
      else .ok (s.setRegion p i value))

/-- MAP sub-op 3, import (R392). -/
def execMapImport (cmd : Cmd) (vf hostAddr handle : Nat) (iv : BitVec 96) (gcmTag : BitVec 128) (va : Word) (len : Nat) (s : State) :
    Out :=
  s.command cmd true true vf fun p s =>
    let r := s.importPages p hostAddr handle iv gcmTag va.toNat len
    (r.1, 0, r.2)

/-- MAP sub-op 4, export (R392). -/
def execMapExport (cmd : Cmd) (vf : Nat) (va : Word) (hostAddr len handle : Nat) (iv : BitVec 96) (s : State) : Out :=
  s.command cmd true true vf fun p s =>
    let r := s.exportPages p va.toNat hostAddr len handle iv
    (r.1, 0, r.2)

/-- MAP sub-op 5, load (R393). -/
def execMapLoad (cmd : Cmd) (vf hostAddr : Nat) (va : Word) (len : Nat) (s : State) : Out :=
  s.command cmd true true vf fun p s =>
    let r := s.loadPages p hostAddr va.toNat len
    (r.1, 0, r.2)

/-! ### CONTEXT_SAVE (R352, R387) -/

/-- The cores of a partition that hold some positions; all of them for an empty list. -/
def State.holders (s : State) (p : Nat) (positions : List Nat) : List Nat :=
  s.cores.filterMap fun (c, k) =>
    if (k.bound.map (·.part)) == some p && k.position.any fun x => positions.isEmpty || positions.contains x then some c else none

/-- Ask for the contexts of some cores to go to the vault. -/
def State.askVault (s : State) (cs : List Nat) : State :=
  cs.foldl (fun s c => s.modCore c fun k => if k.preempt.isSome then k else { k with preempt := some (none, s.cycle) }) s

/-- The pre-emption of some cores to the vault is not started: their slots go on (R352). -/
def State.dropVault (s : State) (cs : List Nat) : State :=
  cs.foldl (fun s c => s.modCore c fun k => if (k.preempt.map (·.1)) == some none then { k with preempt := none } else k) s

/-- CONTEXT_SAVE (R352, R387): the PF's; it ends when every named context rests in the vault. -/
def execContextSave (cmd : Cmd) (vf : Nat) (positions : List Nat) (s : State) : Out :=
  let me := Work.contextSave cmd vf positions
  let p := vf - 1
  let cs := s.holders p positions
  -- positions are looked up when the command comes; one of them may be given up while it runs
  let going := s.begun.contains me
  let named := going || positions.all fun x => (s.heldPositions p).contains x
  if s.ready && cmd.fn = 0 && s.hasPart vf && named && !cs.isEmpty && s.contextRoom p cs then .next ((s.askVault cs).begin me)
  else (s.ended me).command cmd true false vf fun _ s =>
    if !named then (.badParam, 0, s)
    else if cs.isEmpty then (.ok, 0, s)
    else (.noRoom, 0, if going then s.dropVault cs else s)

/-! ### Debug (R360, R384, R387) -/

/-- Change the slots of some lanes of a launch in its contexts at rest, and the states that developments have parked there and on its
cores. -/
def State.modResting (s : State) (p : Nat) (n : HWord) (lanes : List Nat) (f : Slot → Slot) : State :=
  let slot := fun (t : Slot) => if t.launch == n && t.life != .unbound && lanes.contains t.lane.toNat then f t else t
  let cs := s.launchCores p n
  { s with cores := s.cores.map fun ((c, k) : Nat × Core) => (c, if cs.contains c then k.mapParked slot else k) }.modPart p fun q =>
    { q with contexts := q.contexts.map fun (e : Nat × Core) => (e.1, (e.2.mapSlots slot).mapParked slot) }

/-- A lane that is not running on a core is halted at its boundary; a development that has its slot goes on first (R360). -/
def Slot.haltedAt (t : Slot) (now : Nat) : Slot :=
  if t.kind.isDev then { t with stopAt := some (.halt, now) } else { t with halted := true, out := .none }

/-- The core and slot of some lanes of a launch. -/
def State.laneSlots (s : State) (p : Nat) (n : HWord) (lanes : List Nat) : List (Nat × Fin 8) :=
  (s.launchCores p n).flatMap fun c => (List.range 8).filterMap fun i =>
    let t := s.slotAt c (slotNo i)
    if t.launch == n && t.life != .unbound && lanes.contains t.lane.toNat then some (c, slotNo i) else none

/-- The watchdog of a launch is held, or its hold released (R360, R384). -/
def Launch.holdDog (l : Launch) (hold : Bool) (now : Nat) : Launch :=
  { l with wdog := l.counted now, wdogFrom := now, hold := hold }

/-- Change a launch. -/
def State.modLaunch (s : State) (p : Nat) (n : HWord) (f : Launch → Launch) : State :=
  s.modPart p fun q => match mapGet? q.launches n.toNat with
    | some l => { q with launches := mapSet q.launches n.toNat (f l) }
    | none => q

/-- DEBUG_HALT (R360, R387): named lanes stop at their boundary; the watchdog may be held; kill contains the launch. -/
def execDebugHalt (cmd : Cmd) (vf : Nat) (launch : BitVec 32) (lanes : List Nat) (hold kill : Bool) (s : State) : Out :=
  s.command cmd true true vf fun p s =>
    match mapGet? (s.part p).launches launch.toNat with
    | none => (.badParam, 0, s)
    | some l =>
      match l.stage with
      | .complete => (.badParam, 0, s)
      | .waiting => if kill then (.ok, 0, s.refuseLaunch p launch l (containStatus .killed)) else (.badParam, 0, s)
      | .running =>
        if kill then (.ok, 0, s.contain p launch l (containStatus .killed) 0)
        else if lanes.any fun x => l.lanes ≤ x then (.badParam, 0, s)
        else
          let s := if hold then s.modLaunch p launch fun l => l.holdDog true s.cycle else s
          let s := s.modResting p launch lanes (·.haltedAt s.cycle)
          (.ok, 0, (s.laneSlots p launch lanes).foldl (fun s x => s.askStop x.1 x.2 .halt) s)

/-- A halted lane returns to the rotation at its PC (R360). -/
def Slot.resumed (t : Slot) : Slot :=
  { t with
    halted := false
    stopAt := match t.stopAt with
      | some (.displace, n) => some (.displace, n)
      | _ => none }

/-- DEBUG_RESUME (R360, R387). -/
def execDebugResume (cmd : Cmd) (vf : Nat) (launch : BitVec 32) (lanes : List Nat) (s : State) : Out :=
  s.command cmd true true vf fun p s =>
    match mapGet? (s.part p).launches launch.toNat with
    | none => (.badParam, 0, s)
    | some l =>
      if l.stage != .running || lanes.any fun x => l.lanes ≤ x then (.badParam, 0, s)
      else
        let s := s.modLaunch p launch fun l => l.holdDog false s.cycle
        let s := s.modResting p launch lanes (·.resumed)
        (.ok, 0, (s.laneSlots p launch lanes).foldl (fun s x => s.modSlotAt x.1 x.2 (·.resumed)) s)

/-! ### Modes of the L2 (R236, R314, R326, R344) -/

/-- Lines of a partition in the slices. -/
def State.partLines (s : State) (p : Nat) : List (Nat × L2Line) := s.l2.filter fun e => (s.part p).owns (64 * e.1)

/-- The scrubber changes the next set (R326): to strong, ways 14 and 15 are vacated as eviction does; the set's lines are encoded in
the new mode. -/
def State.recodeSet (s : State) (p n : Nat) : State :=
  let q := s.part p
  let here := fun (e : L2Line) => q.clusters.contains (e.slice / 4) && q.setIndex e.slice e.set == n
  let out := if q.strong then s.l2.filter fun e => here e.2 && 14 ≤ e.2.way else []
  let u := (out.foldl (fun s e => s.evict p e.1) s).sendWrites s (smcAgent p (q.clusters.getD (n / 4096) 0)) none
  { u with l2 := u.l2.map fun (l, e) => (l, if here e then { e with strong := q.strong } else e) }.modPart p fun q => { q with recode := some (n + 1) }

/-- ECC_MODE (R326): the mode changes, the scrubber goes through the sets one by one, and the command is answered when every set is
done. -/
def execEccMode (cmd : Cmd) (vf : Nat) (strong : Bool) (s : State) : Out :=
  let me := Work.eccMode cmd vf strong
  let p := vf - 1
  let q := s.part p
  if s.ready && s.hasPart vf && (cmd.fn = 0 || cmd.fn = vf) && s.begun.contains me then
    match q.recode with
    | some n =>
      if n < 4096 * q.clusters.length then .next (s.recodeSet p n)
      else .next (((s.modPart p fun q => { q with recode := none }).ended me).respond cmd .ok 0)
    | none => .next ((s.ended me).respond cmd .ok 0)
  else if s.ready && s.hasPart vf && (cmd.fn = 0 || cmd.fn = vf) && q.strong != strong && q.recode.isNone then
    .next ((s.modPart p fun q => { q with strong := strong, recode := some 0 }).begin me)
  else s.command cmd true true vf fun _ s => (.ok, 0, s)

/-- The records of a queue in the order of a redistribution: segments ascending, each head first (R344). -/
def TaskQueue.inOrder (k : TaskQueue) : List TaskRec := k.segs.flatMap (·.2)

/-- Re-hash every record for the present number of segments (R344). -/
def Partition.redistribute (q : Partition) : Partition :=
  let place := fun (k : TaskQueue) =>
    k.inOrder.foldl (fun (n : TaskQueue) (r : TaskRec) =>
      let seg := segmentOf r.key q.segments
      { segs := mapSet n.segs seg (mapGet n.segs seg [] ++ [r]) }) { segs := [] }
  { q with queues := q.queues.map fun (i, k) => (i, place k) }

/-- ENQs that wait are re-hashed for the present number of segments, and those that find room append, longest-waiting first (R344). -/
def State.rehashWaits (s : State) (p : Nat) : State :=
  let n := (s.part p).segments
  let slot := fun (t : Slot) => match t.out with
    | .enq q _ r => { t with out := .enq q (segmentOf r.key n) r }
    | _ => t
  let s := { s with cores := s.cores.map fun ((c, k) : Nat × Core) => (c, if k.bound.any (fun (b : Binding) => b.part == p) then k.mapSlots slot else k) }
  let waits := s.waitersOf p fun w => match w with
    | .enq .. => true
    | _ => false
  waits.foldl (fun s (x : Nat × Nat) => match (s.slotAt x.1 (slotNo x.2)).out with
    | .enq q seg _ => if ((s.part p).segment q seg).length < (s.part p).segCap then s.admitEnq p q seg else s
    | _ => s) s

/-- Re-hash the records and the waiting ENQs of a partition (R344). -/
def State.rehash (s : State) (p : Nat) : State := (s.modPart p (·.redistribute)).rehashWaits p

/-- A new powered mask (R314): the lines whose home changes leave their slice as eviction does; queues are redistributed. -/
def State.setMask (s : State) (p : Nat) (m : BitVec 4) : State :=
  let q := { s.part p with mask := m }
  let moved := (s.partLines p).filter fun e => homeSlice q (64 * e.1) != e.2.slice
  let s := (moved.foldl (fun s e => s.evict p e.1) s).sendWrites s (smcAgent p (q.clusters.headD 0)) none
  (s.modPart p fun q => { q with mask := m }).rehash p

/-- The operator's values of POWER_POLICY are in range (R387, R398, R399). -/
def powerOk (x : PowerParams) : Bool :=
  (x.mask.all (· != 0)) && (x.floor.all (· ≤ 3)) && (x.limit.all fun t => 70 ≤ t && t ≤ 95) && (x.cap.all fun w => 800 ≤ w && w ≤ 2600)

/-- POWER_POLICY (R314, R387, R398, R399): a VF may set its own partition's mask only. -/
def execPowerPolicy (cmd : Cmd) (params : PowerParams) (s : State) : Out :=
  let operator := params.floor.isSome || params.limit.isSome || params.cap.isSome
  if s.ready && cmd.fn != 0 && operator then .next (s.respond cmd .badCmd 0)
  else if s.ready && cmd.fn = 0 && params.mask.isNone then
    if powerOk params then
      .next ({ s with
        powerFloor := params.floor.getD s.powerFloor, thermalLimit := params.limit.getD s.thermalLimit
        powerCap := params.cap.getD s.powerCap }.respond cmd .ok 0)
    else .next (s.respond cmd .badParam 0)
  else s.command cmd true true params.vf fun p s =>
    if !powerOk params then (.badParam, 0, s)
    else
      let s := { s with
        powerFloor := params.floor.getD s.powerFloor, thermalLimit := params.limit.getD s.thermalLimit
        powerCap := params.cap.getD s.powerCap }
      (.ok, 0, match params.mask with
        | some m => s.setMask p m
        | none => s)

/-- What TELEMETRY reports to the PF and the side band, or to the function of a partition: counts of its own (R327, R377, R387,
R405). -/
def State.report (s : State) (only : Option Nat) : Report :=
  let mine := s.parts.filter fun e => only.isNone || only == some e.1
  { corrected := mine.map fun e => (e.1, e.2.corrected), lostEvents := mine.map fun e => (e.1, e.2.lostEvents)
    temperatures := s.dies.flatMap fun e => e.2.ranking, power := s.dies.map fun e => (e.1, e.2.power)
    deadDies := (s.dies.filter fun e => !e.2.enabled).map (·.1), deadCores := (s.cores.filter fun e => e.2.disabled).map (·.1)
    ports := s.ports.map fun e => (e.1, e.2.lanes, e.2.rate), thermalReset := false }

/-- A report is given: to a function, or over the side band, which also tells the cause of a thermal reset (R396, R399). -/
def State.giveReport (s : State) (to' : Option Nat) : State :=
  { s with reports := s.reports ++ [(to', match to' with
    | some fn => s.report (if fn = 0 then none else some (fn - 1))
    | none => { s.report none with thermalReset := s.lastReset })] }

/-- TELEMETRY (R387): a report of counts, temperatures, power and disabled units; the layout of its result word is not given (log
25). -/
def execTelemetry (cmd : Cmd) (s : State) : Out :=
  if !s.ready then .next (s.respond cmd .busy 0)
  else .next ({ s.giveReport (some cmd.fn) with freeCtr := s.freeCtr + 1 }.respond cmd .ok ((Config.freeTelemetry s.freeCtr).setWidth 64))

/-! ### PARTITION_RESIZE (R344, R356) -/

/-- Move the frame an entry names out of the vaults outside `keep`, and point the entry at its new place. -/
def State.moveEntry (s : State) (p : Nat) (keep : List Nat) (a frame n : Nat) : Option (Nat × State) :=
  if (List.range ((frame % 2 ^ 31 + n + 2 ^ 31 - 1) / 2 ^ 31)).all fun i => keep.contains (frame / 2 ^ 31 + i) then some (frame, s)
  else match { s.part p with clusters := keep }.freeFrame n with
    | none => none
    | some f =>
      let s := s.moveFrame p frame f n
      let s := s.modPart p fun q => { q with used := (f, n) :: q.used.eraseP fun u => u.1 == frame && u.2 == n }
      let e := (s.readEntry a).1
      some (f, s.writeEntry a (BitVec.ofNat 64 (e.toNat % 4096 + f)))

/-- Move the tables and pages under a table of level n down (R356 step 3). -/
def State.moveTable (p psz : Nat) (keep : List Nat) : Nat → Nat → State → Option State
  | 0, _, s => some s
  | n + 1, table, s =>
    (s.tableEntries table).foldl (fun (s? : Option State) a => s?.bind fun s =>
      let e := (s.readEntry a).1
      if n = 0 then
        if leafPresent e psz false then (s.moveEntry p keep a (field e psz (48 - psz) * 2 ^ psz) (2 ^ psz)).map (·.2) else some s
      else if tablePresent e then
        (s.moveEntry p keep a (field e 12 36 * 4096) 4096).bind fun r => State.moveTable p psz keep n r.1 r.2
      else some s) (some s)

/-- Move the tree of one region, root and all; the leaves of a fabric region stay. -/
def State.moveRegion (s : State) (p : Nat) (keep : List Nat) (i : Fin 16) : Option State :=
  let rg := (s.part p).raf[i]
  if !rg.getLsbD 0 then some s
  else
    let root := field rg 24 36 * 4096
    let moved := if keep.contains (root / 2 ^ 31) then some (root, s)
      else ({ s.part p with clusters := keep }.freeFrame 4096).map fun f =>
        let s := s.moveFrame p root f 4096
        (f, s.modPart p fun q => { q with raf := q.raf.set i (BitVec.ofNat 64 (rg.toNat % 2 ^ 24 + f / 4096 * 2 ^ 24)) })
    moved.bind fun (r, s) =>
      State.moveTable p (pageLog rg) keep (walkLevels (pageLog rg) - if rg.getLsbD 10 then 1 else 0) r s

/-- Move every region. -/
def State.moveRegions (s : State) (p : Nat) (keep : List Nat) : Option State :=
  (List.range 16).foldl (fun (s? : Option State) i => s?.bind fun s => s.moveRegion p keep ⟨i % 16, Nat.mod_lt _ (by decide)⟩) (some s)

/-- Contexts at rest are loaded again into free cores, lowest first (R356 step 6). -/
def State.restoreAll (s : State) (p : Nat) : State :=
  let free := (s.part p).clusters.flatMap fun cl => (List.range 16).map fun i => 16 * cl + i
  let fit := free.filter fun c => s.freeCore p c
  ((s.part p).contexts.zip fit).foldl (fun s (x : (Nat × Core) × Nat) =>
    match execContextRestore p x.1.1 x.2 s with
    | .next u => u
    | .fault _ | .refused _ => s) s

/-- The steps of a resize once every context rests (R356): the L2 is written back, pages leave departing vaults, queues are
redistributed, contexts are restored. -/
def State.resize (s : State) (p : Nat) (cls : List Nat) : Except CmdStatus State :=
  let old := (s.part p).clusters
  let gained := cls.filter fun c => !old.contains c
  let lost := old.filter fun c => !cls.contains c
  let s := ((s.partLines p).foldl (fun s e => s.evict p e.1) s).sendWrites s (smcAgent p (old.headD 0)) none
  let s := (s.zeroVaults gained).purgeRange p ⟨0, 2 ^ 60⟩
  match s.moveRegions p cls with
  | none => .error .noRes
  | some s =>
    let s := (s.zeroVaults lost).dropTlbs (lost ++ gained)
    .ok (((s.modPart p fun q => { q with clusters := cls, moved := [] }).rehash p).restoreAll p)

/-- The contexts that a resize has yet to pre-empt: on cores that leave, and those whose position has not been moved, with their cores (R356). -/
def State.unmoved (s : State) (p : Nat) (cls : List Nat) : List (Nat × Nat) :=
  (s.holders p []).filterMap fun c =>
    (s.core c).position.bind fun pos =>
      if ((s.part p).moved.contains pos && cls.contains (clusterOf c)) || (s.core c).preempt.isSome then none else some (c, pos)

/-- The next context goes to a free core that remains, or to the vault (R356 step 1): none where there is neither. -/
def State.moveNext (s : State) (p : Nat) (cls : List Nat) : Option State :=
  match s.unmoved p cls with
  | [] => none
  | (c, pos) :: _ =>
    let taken := s.cores.filterMap fun e => e.2.preempt.bind (·.1)
    let free := (cls.flatMap fun cl => (List.range 16).map fun i => 16 * cl + i).find? fun d => s.freeCore p d && !taken.contains d
    let ask := fun (dest : Option Nat) =>
      (s.modCore c fun k => { k with preempt := some (dest, s.cycle) }).modPart p fun q => { q with moved := pos :: q.moved }
    match free with
    | some d => some (ask (some d))
    | none =>
      -- a core that remains may yet become free
      if s.cores.any fun e => (e.2.bound.map (·.part)) == some p && (e.2.preempt.bind (·.1)).isSome then some s
      else if s.contextRoom p [c] then some (ask none) else none

/-- PARTITION_RESIZE (R356, R387): the PF's; every core of the partition is pre-empted first. -/
def execPartitionResize (cmd : Cmd) (vf : Nat) (clusters : BitVec 64) (s : State) : Out :=
  let me := Work.resize cmd vf clusters
  let p := vf - 1
  let cls := maskClusters clusters
  let taken := cls.any fun c => (s.clusterOwner c).any (· != p)
  let pending := (s.holders p []).any fun c => (s.core c).preempt.isSome
  let next := s.moveNext p cls
  if s.ready && cmd.fn = 0 && s.hasPart vf && !cls.isEmpty && !taken && (cls.all s.dieWorks) && (next.isSome || pending) then
    .next ((next.getD s).begin me)
  else (s.ended me).command cmd true false vf fun p s =>
    let u := s.modPart p fun q => { q with moved := [] }
    if cls.isEmpty then (.badParam, 0, s)
    else if taken then (.noPerm, 0, s)
    else if !cls.all s.dieWorks then (.noRes, 0, s)
    else if !(s.unmoved p cls).isEmpty then (.noRoom, 0, u)
    else outcomeOf u (u.resize p cls)

end Sys2Proof.Machine
end

