-- ==== Sys2Proof/Machine/Trust.lean ====
section
/-!
DEFINITION. Trust, power and reset (R373, R389-R401): the SPDM responder, IDE keys, firmware update, the resets and the power
states.
-/
namespace Sys2Proof.Machine

/-! ### The SPDM responder (R389) -/

/-- Requests the responder answers. -/
inductive SpdmAsk where
  | version | capabilities | algorithms | digests | certificate | challenge | measurements | keyExchange | finish | heartbeat
  | keyUpdate | endSession | vendor
  deriving DecidableEq, Repr

/-- Response codes of SPDM 1.3 (log 27). -/
def SpdmAsk.code : SpdmAsk → Nat
  | .version => 0x04 | .capabilities => 0x61 | .algorithms => 0x63 | .digests => 0x01 | .certificate => 0x02 | .challenge => 0x03
  | .measurements => 0x60 | .keyExchange => 0x64 | .finish => 0x65 | .heartbeat => 0x68 | .keyUpdate => 0x69 | .endSession => 0x6C
  | .vendor => 0x7E

/-- The responder's view of a transport. -/
def State.spdmAt (s : State) (port : SpdmPort) : Spdm := ((s.spdm.find? fun e => e.1 == port).map (·.2)).getD Spdm.reset
/-- Replace it. -/
def State.setSpdm (s : State) (port : SpdmPort) (x : Spdm) : State := { s with spdm := (port, x) :: s.spdm.filter fun e => e.1 != port }

/-- A transport exists (R375, R389, R396): the side band, the PF's mailbox, and that of each partition's function. -/
def State.portLive (s : State) (port : SpdmPort) : Bool :=
  match port with
  | .sideBand => true
  | .doe fn => fn = 0 || s.hasPart fn

/-- Answer with a code and contents. -/
def State.answer (s : State) (port : SpdmPort) (code : Nat) (body : List Byte) : State :=
  let x := s.spdmAt port
  s.setSpdm port { x with replies := x.replies ++ [(code, body)] }
/-- Answer a request. -/
def State.answerAsk (s : State) (port : SpdmPort) (a : SpdmAsk) (body : List Byte) : State := s.answer port a.code body
/-- The ERROR response with its reason (log 27): 1 invalid request, 4 unexpected request, 6 decryption error. -/
def State.spdmError (s : State) (port : SpdmPort) (reason : Byte) : State := s.answer port 0x7F [reason]

/-- A request that needs the algorithms negotiated (log 27). -/
def State.negotiated (s : State) (port : SpdmPort) (f : State → State) : Out :=
  if !s.portLive port then .next s
  else if !(s.spdmAt port).algs then .next (s.spdmError port 4)
  else .next (f s)

/-- GET_VERSION (R389): SPDM 1.3; the negotiation begins afresh. -/
def execGetVersion (port : SpdmPort) (s : State) : Out :=
  if !s.portLive port then .next s
  else
    let s := s.setSpdm port { s.spdmAt port with version := true, caps := false, algs := false }
    .next (s.answerAsk port .version [0x00, 0x13])

/-- GET_CAPABILITIES (R389). -/
def execGetCapabilities (port : SpdmPort) (s : State) : Out :=
  if !s.portLive port then .next s
  else if !(s.spdmAt port).version then .next (s.spdmError port 4)
  else .next ((s.setSpdm port { s.spdmAt port with caps := true, algs := false }).answerAsk port .capabilities [])

/-- NEGOTIATE_ALGORITHMS (R389): the four algorithms the device supports, each given when it is offered. -/
def execNegotiateAlgorithms (port : SpdmPort) (asym hash dhe aead : Bool) (s : State) : Out :=
  if !s.portLive port then .next s
  else if !(s.spdmAt port).caps then .next (s.spdmError port 4)
  else if !(asym && hash) then .next (s.spdmError port 1)
  else
    let given := [asym, hash, dhe, aead].map fun b => if b then (1 : Byte) else 0
    .next ((s.setSpdm port { s.spdmAt port with algs := true }).answerAsk port .algorithms given)

/-- GET_DIGESTS (R389): the one certificate slot. -/
def execGetDigests (port : SpdmPort) (s : State) : Out :=
  s.negotiated port fun s => s.answerAsk port .digests (bytesOf (Config.sm3 (Config.certificateChain 0)).toNat 32)

/-- GET_CERTIFICATE (R389): a stretch of slot 0's chain. -/
def execGetCertificate (port : SpdmPort) (slot offset len : Nat) (s : State) : Out :=
  s.negotiated port fun s =>
    let chain := Config.certificateChain 0
    if slot != 0 || chain.length < offset then s.spdmError port 1
    else s.answerAsk port .certificate ((chain.drop offset).take len)

/-- CHALLENGE (R389): a signature of the device identity key. -/
def execChallenge (port : SpdmPort) (slot : Nat) (_nonce : BitVec 256) (s : State) : Out :=
  s.negotiated port fun s =>
    if slot != 0 then s.spdmError port 1
    else { s with freeCtr := s.freeCtr + 1 }.answerAsk port .challenge (bytesOf (Config.sm2Signature s.freeCtr).toNat 64)

/-- What measurement i covers, as the model holds it (R390, R397): the ROM, which no update changes; the parts of the image in force; or
a VF's partition. -/
def State.measured (s : State) (port : SpdmPort) (i : Nat) : Option (List Word) :=
  if i = 1 then some []
  else if 2 ≤ i && i ≤ 4 then some (BitVec.ofNat 64 s.fwVersion :: (List.range 4).map fun j => s.fwDigest.extractLsb' (64 * j) 64)
  else match i, port with
    | 5, .doe fn =>
      if fn = 0 then none
      else
        let q := s.part (fn - 1)
        some (BitVec.ofNat 64 ((q.clusters.map fun c => 2 ^ c).foldl (· + ·) 0) :: bit q.strong :: q.raf.toList)
    | _, _ => none

/-- The indices a port answers for. -/
def measuredIndices (port : SpdmPort) : List Nat :=
  match port with
  | .doe fn => if fn = 0 then [1, 2, 3, 4] else [1, 2, 3, 4, 5]
  | .sideBand => [1, 2, 3, 4]

/-- GET_MEASUREMENTS (R390): one index, their number for 0, all of them for 255 (log 27). -/
def execGetMeasurements (port : SpdmPort) (index : Nat) (s : State) : Out :=
  s.negotiated port fun s =>
    let block := fun (i : Nat) => bytesOf (Config.measurement i ((s.measured port i).getD [])).toNat 32
    if index = 0 then s.answerAsk port .measurements (bytesOf (measuredIndices port).length 1)
    else if index = 255 then s.answerAsk port .measurements ((measuredIndices port).flatMap block)
    else if (measuredIndices port).contains index then s.answerAsk port .measurements (block index)
    else s.spdmError port 1

/-- KEY_EXCHANGE (R389): a new session, established by FINISH. -/
def execKeyExchange (port : SpdmPort) (slot : Nat) (_peerKey : BitVec 512) (s : State) : Out :=
  s.negotiated port fun s =>
    if slot != 0 then s.spdmError port 1
    else
      let n := ((s.sessions.map (·.1)).foldl max 0) + 1
      let s := { s with sessions := mapSet s.sessions n { port := port, established := false, epoch := 0 }, freeCtr := s.freeCtr + 1 }
      s.answerAsk port .keyExchange (bytesOf n 4 ++ bytesOf (Config.keyShare s.freeCtr).toNat 64)

/-- A session of a port. -/
def State.sessionOf (s : State) (port : SpdmPort) (n : Nat) : Option Session := (mapGet? s.sessions n).filter fun e => e.port == port

/-- FINISH (R389): the session is established when its verify data is right. -/
def execFinish (port : SpdmPort) (session : Nat) (verify : BitVec 256) (s : State) : Out :=
  s.negotiated port fun s =>
    match s.sessionOf port session with
    | none => s.spdmError port 1
    | some e =>
      if e.established then s.spdmError port 4
      else if verify = Config.finishVerify session then
        { s with sessions := mapSet s.sessions session { e with established := true } }.answerAsk port .finish []
      else { s with sessions := mapErase s.sessions session }.spdmError port 6

/-- A request inside an established session. -/
def State.inSession (s : State) (port : SpdmPort) (session : Nat) (f : Session → State → State) : Out :=
  s.negotiated port fun s =>
    match s.sessionOf port session with
    | some e => if e.established then f e s else s.spdmError port 4
    | none => s.spdmError port 4

/-- HEARTBEAT (R389). -/
def execHeartbeat (port : SpdmPort) (session : Nat) (s : State) : Out :=
  s.inSession port session fun _ s => s.answerAsk port .heartbeat []

/-- KEY_UPDATE (R389): the session's keys move on. -/
def execKeyUpdate (port : SpdmPort) (session : Nat) (s : State) : Out :=
  s.inSession port session fun e s =>
    { s with sessions := mapSet s.sessions session { e with epoch := e.epoch + 1 } }.answerAsk port .keyUpdate []

/-- END_SESSION (R389). -/
def execEndSession (port : SpdmPort) (session : Nat) (s : State) : Out :=
  s.inSession port session fun _ s => { s with sessions := mapErase s.sessions session }.answerAsk port .endSession []

/-- VENDOR_DEFINED_REQUEST (R389, R391): KEY_BIND inside a session of a VF's mailbox. -/
def execVendorDefinedRequest (port : SpdmPort) (session handle : Nat) (key : BitVec 128) (s : State) : Out :=
  s.inSession port session fun _ s =>
    match port with
    | .doe fn =>
      if fn = 0 || 15 < handle || !s.hasPart fn then s.spdmError port 1
      else (s.bindKey (fn - 1) handle key).answerAsk port .vendor []
    | .sideBand => s.spdmError port 1

/-- IDE_KM_REQUEST (R395): the selective stream of a function. DEDUCED, log 76. -/
def execIdeKmRequest (fn : Nat) (stream : BitVec 8) (key : BitVec 256) (s : State) : Out :=
  if fn = 0 || s.hasPart fn then .next { s with ide := mapSet s.ide fn (stream, key) } else .next s

/-! ### Memory encryption (R394) -/

/-- FREE VALUE (log 94): the bytes of a line of a partition's context area, recipe table or task-queue segments, whose layout no rule
gives, as a function of what the partition keeps there. -/
opaque Config.areaLine : Partition → Nat → List Byte
/-- The plain bytes of a vault line of a partition: of its areas, or of memory, which the L2 may hold newer (R235). -/
def State.vaultPlain (s : State) (p line : Nat) : List Byte :=
  if (s.part p).areas.any fun u => meets (64 * line) 64 u.1 u.2 then Config.areaLine (s.part p) line
  else match mapGet? s.l2 line with
    | some e => bytesOf e.stored 64
    | none => Memory.readBytes s.mem (64 * line) 64
/-- What the cells of a vault hold of a line of a partition: its bytes under the partition's memory key, with the line's PA as the
tweak (R394). -/
def State.vaultCells (s : State) (p line : Nat) : List Byte :=
  Config.sm4Xts (s.part p).memKey (64 * line) (s.vaultPlain p line)

/-! ### Firmware and resets (R397, R399-R401) -/

/-- FIRMWARE_UPDATE (R397): from the side band or the PF's mailbox; a signed image that is not older than the fuse is staged and
raises it. -/
def execFirmwareUpdate (port : SpdmPort) (version : Nat) (digest : BitVec 256) (signature : BitVec 512) (s : State) : Out :=
  let from' := port == .sideBand || port == .doe 0
  if from' && Config.sm2Verifies digest signature && s.fwFuse ≤ version then
    .next { s with fwStaged := some (version, digest, signature), fwFuse := version }
  else .next s

/-- The dies at the ends of a bridge edge (R308, R373). -/
def edgeDies (edge : Nat) : List Nat :=
  match edge with
  | 0 => [0, 1]
  | 1 => [0, 2]
  | 2 => [1, 3]
  | 3 => [2, 3]
  | _ => []

/-- Dies that a list of failed bridges, numbered 16 × edge + bridge, takes out (R373). -/
def deadDies (failed : List Nat) : List Nat := (failed.flatMap fun b => edgeDies (b / 16)).foldl setAdd []

/-- The package after bring-up (R400): what a reset keeps is the fuse, the image in force, host memory, and what has yet to
arrive from outside. DEDUCED, log 59. DESIGN CHOICE, log 63. -/
def State.bringUp (s : State) (failed : List Nat) : State :=
  let (version, digest, signature) := s.fwStaged.getD (s.fwVersion, s.fwDigest, s.fwSignature)
  let works := Config.sm2Verifies digest signature && s.fwFuse ≤ version
  let dead := deadDies failed
  let r := { State.reset with
    inbox := s.inbox, hostMem := s.hostMem, freeCtr := s.freeCtr, stamp := s.stamp, fwVersion := version, fwDigest := digest
    fwSignature := signature, fwFuse := s.fwFuse
    ready := works, recovery := !works, debugger := s.debugger
    dies := dead.map fun d => (d, { Die.reset with enabled := false }) }
  dead.foldl (fun s d => s.postPfEvent eventCore (BitVec.ofNat 64 d)) r

/-- PACKAGE_RESET (R373, R397, R400): cold or package reset. -/
def execPackageReset (failedBridges : List Nat) (s : State) : Out := .next (s.bringUp failedBridges)

/-- THERMAL_RESET (R373, R399): the package is reset, and the side band reports the cause; the bridges that fail their training are free.
DESIGN CHOICE, log 63. -/
def execThermalReset (s : State) : Out :=
  .next { State.bringUp { s with freeCtr := s.freeCtr + 1 } (Config.freeBridges s.freeCtr) with lastReset := true }

/-- A VF whose launches are contained is reset (R401). -/
def State.resetFunction (s : State) (vf : Nat) : State :=
  if !s.hasPart vf then s
  else
    let p := vf - 1
    let s := s.destroyQueues vf
    let cls := (s.part p).clusters
    let s := ((s.zeroVaults cls).purgeRange p ⟨0, 2 ^ 60⟩).forgetOwners p
    let (seed, s) := s.random
    s.modPart p fun q =>
      { q with
        owners := [(0, { seed := seed, ctr := [], xobs := [] })], keys := [], recipes := [], queues := [], contexts := [], faults := []
        sealedPages := [], used := [], launches := [] }

/-- FUNCTION_LEVEL_RESET (R381, R401): of a VF, or, for the PF, of every VF; the launches are contained, and the rest follows once the
stores that their records come after are performed. -/
def execFunctionLevelReset (fn : Nat) (s : State) : Out :=
  let me := Work.reset fn
  let s := s.ended me
  let vfs := if fn = 0 then s.parts.map fun e => e.1 + 1 else [fn].filter s.hasPart
  let u := vfs.foldl (fun s v => s.killAll (v - 1) (containStatus .killed)) s
  if vfs.any u.storesAwaited then .next (u.begin me) else .next (vfs.foldl (fun s v => s.resetFunction v) u)

/-! ### Power states (R398) -/

/-- Exit latency of a power state in µs (R398). -/
def exitLatency : Nat → Nat
  | 0 => 0 | 1 => 2 | 2 => 40 | _ => 2000

/-- The TOL of each launch that keeps a queue of the die active (R398). -/
def State.tolerances (s : State) (die : Nat) : List Nat :=
  s.parts.flatMap fun e => e.2.launches.filterMap fun x => if x.2.die == die && x.2.stage != .complete then some (recTol x.2.words) else none

/-- Every core of a die is idle: no slot of it runs and no engine queue of it holds an entry. -/
def State.dieIdle (s : State) (die : Nat) : Bool :=
  s.cores.all fun e => dieOf (clusterOf e.1) != die || ((e.2.slots.toList.all fun t => t.life != .running) && e.2.queues.toList.all (·.isEmpty))

/-- The lowest state a die may enter (R398): not below the floor, and with an exit latency every active queue tolerates. -/
def State.powerTarget (s : State) (die : Nat) : Nat :=
  ((List.range 4).filter fun a => a ≤ s.powerFloor && (s.tolerances die).all fun t => exitLatency a ≤ t).foldl max 0

/-- POWER_STATE_CHANGE (R398): a die wakes, or enters the lowest allowed state; time is the only effect. -/
def execPowerStateChange (die : Nat) (wake : Bool) (s : State) : Out :=
  let d := mapGet s.dies die Die.reset
  let to' := if wake || !s.dieIdle die then 0 else s.powerTarget die
  .next { s with dies := mapSet s.dies die { d with power := to' } }

end Sys2Proof.Machine
end

