-- ==== Sys2Proof/Machine/Dispatch.lean ====
section
/-!
DEFINITION. The dispatch: one arm per row of the opcode table, each one call of its meaning.
-/
namespace Sys2Proof.Machine

/-- The meaning of an instruction or event. -/
def exec (i : Instr) (s : State) : Host.Outcome State Fault Refusal :=
  match i with
  | .add d a b => Sys2Proof.Machine.execAdd d a b s
  | .sub d a b => Sys2Proof.Machine.execSub d a b s
  | .mul d a b => Sys2Proof.Machine.execMul d a b s
  | .mulh d a b => Sys2Proof.Machine.execMulh d a b s
  | .mulhu d a b => Sys2Proof.Machine.execMulhu d a b s
  | .div d a b => Sys2Proof.Machine.execDiv d a b s
  | .divu d a b => Sys2Proof.Machine.execDivu d a b s
  | .rem d a b => Sys2Proof.Machine.execRem d a b s
  | .remu d a b => Sys2Proof.Machine.execRemu d a b s
  | .and d a b => Sys2Proof.Machine.execAnd d a b s
  | .or d a b => Sys2Proof.Machine.execOr d a b s
  | .xor d a b => Sys2Proof.Machine.execXor d a b s
  | .andn d a b => Sys2Proof.Machine.execAndn d a b s
  | .shl d a b => Sys2Proof.Machine.execShl d a b s
  | .shr d a b => Sys2Proof.Machine.execShr d a b s
  | .sar d a b => Sys2Proof.Machine.execSar d a b s
  | .rol d a b => Sys2Proof.Machine.execRol d a b s
  | .min d a b => Sys2Proof.Machine.execMin d a b s
  | .minu d a b => Sys2Proof.Machine.execMinu d a b s
  | .max d a b => Sys2Proof.Machine.execMax d a b s
  | .maxu d a b => Sys2Proof.Machine.execMaxu d a b s
  | .clz d a => Sys2Proof.Machine.execClz d a s
  | .popc d a => Sys2Proof.Machine.execPopc d a s
  | .sextB d a => Sys2Proof.Machine.execSextB d a s
  | .sextH d a => Sys2Proof.Machine.execSextH d a s
  | .sextW d a => Sys2Proof.Machine.execSextW d a s
  | .lea1 d a b => Sys2Proof.Machine.execLea1 d a b s
  | .lea2 d a b => Sys2Proof.Machine.execLea2 d a b s
  | .lea4 d a b => Sys2Proof.Machine.execLea4 d a b s
  | .lea8 d a b => Sys2Proof.Machine.execLea8 d a b s
  | .mov d a => Sys2Proof.Machine.execMov d a s
  | .ptag d a b => Sys2Proof.Machine.execPtag d a b s
  | .cMov d x => Sys2Proof.Machine.execCMov d x s
  | .cAdd d x => Sys2Proof.Machine.execCAdd d x s
  | .cSub d x => Sys2Proof.Machine.execCSub d x s
  | .cMul d x => Sys2Proof.Machine.execCMul d x s
  | .cAnd d x => Sys2Proof.Machine.execCAnd d x s
  | .cOr d x => Sys2Proof.Machine.execCOr d x s
  | .cXor d x => Sys2Proof.Machine.execCXor d x s
  | .cShl d x => Sys2Proof.Machine.execCShl d x s
  | .cShr d x => Sys2Proof.Machine.execCShr d x s
  | .cSar d x => Sys2Proof.Machine.execCSar d x s
  | .cMin d x => Sys2Proof.Machine.execCMin d x s
  | .cMax d x => Sys2Proof.Machine.execCMax d x s
  | .cVmov d x => Sys2Proof.Machine.execCVmov d x s
  | .cVaddI32 d x => Sys2Proof.Machine.execCVaddI32 d x s
  | .cVsubI32 d x => Sys2Proof.Machine.execCVsubI32 d x s
  | .cVmulI32 d x => Sys2Proof.Machine.execCVmulI32 d x s
  | .cVand d x => Sys2Proof.Machine.execCVand d x s
  | .cVor d x => Sys2Proof.Machine.execCVor d x s
  | .cVxor d x => Sys2Proof.Machine.execCVxor d x s
  | .cVshl d x => Sys2Proof.Machine.execCVshl d x s
  | .cVshr d x => Sys2Proof.Machine.execCVshr d x s
  | .cVsar d x => Sys2Proof.Machine.execCVsar d x s
  | .cVminI32 d x => Sys2Proof.Machine.execCVminI32 d x s
  | .cVmaxI32 d x => Sys2Proof.Machine.execCVmaxI32 d x s
  | .cVaddF32 d x => Sys2Proof.Machine.execCVaddF32 d x s
  | .cVsubF32 d x => Sys2Proof.Machine.execCVsubF32 d x s
  | .cVmulF32 d x => Sys2Proof.Machine.execCVmulF32 d x s
  | .cVmaxF32 d x => Sys2Proof.Machine.execCVmaxF32 d x s
  | .addi d a j => Sys2Proof.Machine.execAddi d a j s
  | .andi d a j => Sys2Proof.Machine.execAndi d a j s
  | .ori d a j => Sys2Proof.Machine.execOri d a j s
  | .xori d a j => Sys2Proof.Machine.execXori d a j s
  | .shli d a n => Sys2Proof.Machine.execShli d a n s
  | .shri d a n => Sys2Proof.Machine.execShri d a n s
  | .sari d a n => Sys2Proof.Machine.execSari d a n s
  | .li d j => Sys2Proof.Machine.execLi d j s
  | .liu d j => Sys2Proof.Machine.execLiu d j s
  | .bfx d a p l => Sys2Proof.Machine.execBfx d a p l s
  | .bfi d a p l => Sys2Proof.Machine.execBfi d a p l s
  | .cmp q a b c => Sys2Proof.Machine.execCmp q a b c s
  | .cmpi q a c j => Sys2Proof.Machine.execCmpi q a c j s
  | .plogAnd d a b => Sys2Proof.Machine.execPlogAnd d a b s
  | .plogOr d a b => Sys2Proof.Machine.execPlogOr d a b s
  | .plogXor d a b => Sys2Proof.Machine.execPlogXor d a b s
  | .plogAndn d a b => Sys2Proof.Machine.execPlogAndn d a b s
  | .plogNot d a => Sys2Proof.Machine.execPlogNot d a s
  | .plogSet d => Sys2Proof.Machine.execPlogSet d s
  | .plogClr d => Sys2Proof.Machine.execPlogClr d s
  | .sel d a b p n => Sys2Proof.Machine.execSel d a b p n s
  | .br q n o => Sys2Proof.Machine.execBr q n o s
  | .jal d j => Sys2Proof.Machine.execJal d j s
  | .jalr d a j => Sys2Proof.Machine.execJalr d a j s
  | .loop a e => Sys2Proof.Machine.execLoop a e s
  | .exit => Sys2Proof.Machine.execExit s
  | .yield => Sys2Proof.Machine.execYield s
  | .vadd d a b t => Sys2Proof.Machine.execVadd d a b t s
  | .vsub d a b t => Sys2Proof.Machine.execVsub d a b t s
  | .vmul d a b t => Sys2Proof.Machine.execVmul d a b t s
  | .vmulh d a b => Sys2Proof.Machine.execVmulh d a b s
  | .vmin d a b t => Sys2Proof.Machine.execVmin d a b t s
  | .vmax d a b t => Sys2Proof.Machine.execVmax d a b t s
  | .vminu d a b => Sys2Proof.Machine.execVminu d a b s
  | .vmaxu d a b => Sys2Proof.Machine.execVmaxu d a b s
  | .vand d a b => Sys2Proof.Machine.execVand d a b s
  | .vor d a b => Sys2Proof.Machine.execVor d a b s
  | .vxor d a b => Sys2Proof.Machine.execVxor d a b s
  | .vandn d a b => Sys2Proof.Machine.execVandn d a b s
  | .vshl d a b => Sys2Proof.Machine.execVshl d a b s
  | .vshr d a b => Sys2Proof.Machine.execVshr d a b s
  | .vsar d a b => Sys2Proof.Machine.execVsar d a b s
  | .vabs d a t => Sys2Proof.Machine.execVabs d a t s
  | .vneg d a t => Sys2Proof.Machine.execVneg d a t s
  | .vmov d a => Sys2Proof.Machine.execVmov d a s
  | .vsel d a b => Sys2Proof.Machine.execVsel d a b s
  | .vperm d a b => Sys2Proof.Machine.execVperm d a b s
  | .vbc d a => Sys2Proof.Machine.execVbc d a s
  | .vredAdd d a t => Sys2Proof.Machine.execVredAdd d a t s
  | .vredMin d a t => Sys2Proof.Machine.execVredMin d a t s
  | .vredMax d a t => Sys2Proof.Machine.execVredMax d a t s
  | .vfma d a b t => Sys2Proof.Machine.execVfma d a b t s
  | .vfrcp d a t => Sys2Proof.Machine.execVfrcp d a t s
  | .vfrsq d a t => Sys2Proof.Machine.execVfrsq d a t s
  | .vcmp a b c n t => Sys2Proof.Machine.execVcmp a b c n t s
  | .vext d a l => Sys2Proof.Machine.execVext d a l s
  | .vins d a l => Sys2Proof.Machine.execVins d a l s
  | .vcvt d a b r x f => Sys2Proof.Machine.execVcvt d a b r x f s
  | .ld d a z r o => Sys2Proof.Machine.execLd d a z r o s
  | .st d a z r o => Sys2Proof.Machine.execSt d a z r o s
  | .ldv d a r o => Sys2Proof.Machine.execLdv d a r o s
  | .stv d a r o => Sys2Proof.Machine.execStv d a r o s
  | .ldb d a z r o => Sys2Proof.Machine.execLdb d a z r o s
  | .ldc d a z r o => Sys2Proof.Machine.execLdc d a z r o s
  | .ldfe d a r o => Sys2Proof.Machine.execLdfe d a r o s
  | .stfe d a r o => Sys2Proof.Machine.execStfe d a r o s
  | .ldff d a r o => Sys2Proof.Machine.execLdff d a r o s
  | .feset a b x => Sys2Proof.Machine.execFeset a b x s
  | .ldg d a b z => Sys2Proof.Machine.execLdg d a b z s
  | .sts d a b z => Sys2Proof.Machine.execSts d a b z s
  | .pref h a o => Sys2Proof.Machine.execPref h a o s
  | .amoAdd d a b x => Sys2Proof.Machine.execAmoAdd d a b x s
  | .amoAnd d a b x => Sys2Proof.Machine.execAmoAnd d a b x s
  | .amoOr d a b x => Sys2Proof.Machine.execAmoOr d a b x s
  | .amoXor d a b x => Sys2Proof.Machine.execAmoXor d a b x s
  | .amoMin d a b x => Sys2Proof.Machine.execAmoMin d a b x s
  | .amoMax d a b x => Sys2Proof.Machine.execAmoMax d a b x s
  | .amoMinu d a b x => Sys2Proof.Machine.execAmoMinu d a b x s
  | .amoMaxu d a b x => Sys2Proof.Machine.execAmoMaxu d a b x s
  | .amoSwap d a b x => Sys2Proof.Machine.execAmoSwap d a b x s
  | .amof d a b x => Sys2Proof.Machine.execAmof d a b x s
  | .cas d a b x => Sys2Proof.Machine.execCas d a b x s
  | .lda d a z o => Sys2Proof.Machine.execLda d a z o s
  | .stl d a z o => Sys2Proof.Machine.execStl d a z o s
  | .facq => Sys2Proof.Machine.execFacq s
  | .frel => Sys2Proof.Machine.execFrel s
  | .fseq => Sys2Proof.Machine.execFseq s
  | .fcon => Sys2Proof.Machine.execFcon s
  | .cpy d a r f x c q => Sys2Proof.Machine.execCpy d a r f x c q s
  | .gth d a f x c q => Sys2Proof.Machine.execGth d a f x c q s
  | .fwait a => Sys2Proof.Machine.execFwait a s
  | .ftest q a => Sys2Proof.Machine.execFtest q a s
  | .fcan a => Sys2Proof.Machine.execFcan a s
  | .fmov d a => Sys2Proof.Machine.execFmov d a s
  | .qfn m => Sys2Proof.Machine.execQfn m s
  | .spawn a b => Sys2Proof.Machine.execSpawn a b s
  | .jinit a b => Sys2Proof.Machine.execJinit a b s
  | .enq a q => Sys2Proof.Machine.execEnq a q s
  | .deq q => Sys2Proof.Machine.execDeq q s
  | .qst d q => Sys2Proof.Machine.execQst d q s
  | .fork j o => Sys2Proof.Machine.execFork j o s
  | .join j o => Sys2Proof.Machine.execJoin j o s
  | .send a b => Sys2Proof.Machine.execSend a b s
  | .recv d e => Sys2Proof.Machine.execRecv d e s
  | .recvt d e q => Sys2Proof.Machine.execRecvt d e q s
  | .tld t a b o => Sys2Proof.Machine.execTld t a b o s
  | .tst t a b o => Sys2Proof.Machine.execTst t a b o s
  | .mwl t f => Sys2Proof.Machine.execMwl t f s
  | .mst t r c f => Sys2Proof.Machine.execMst t r c f s
  | .acz a b => Sys2Proof.Machine.execAcz a b s
  | .acld t a => Sys2Proof.Machine.execAcld t a s
  | .acst t a f x c => Sys2Proof.Machine.execAcst t a f x c s
  | .act d a b c u => Sys2Proof.Machine.execAct d a b c u s
  | .acadd t a c => Sys2Proof.Machine.execAcadd t a c s
  | .tzr t => Sys2Proof.Machine.execTzr t s
  | .mstat d x => Sys2Proof.Machine.execMstat d x s
  | .rrec a b => Sys2Proof.Machine.execRrec a b s
  | .rfix a => Sys2Proof.Machine.execRfix a s
  | .rdrop a => Sys2Proof.Machine.execRdrop a s
  | .rqry d a => Sys2Proof.Machine.execRqry d a s
  | .rdev a => Sys2Proof.Machine.execRdev a s
  | .rdevV a q => Sys2Proof.Machine.execRdevV a q s
  | .rlat a => Sys2Proof.Machine.execRlat a s
  | .seedrd d a => Sys2Proof.Machine.execSeedrd d a s
  | .reseed a b => Sys2Proof.Machine.execReseed a b s
  | .xqry d a b => Sys2Proof.Machine.execXqry d a b s
  | .xobs d a => Sys2Proof.Machine.execXobs d a s
  | .garr g => Sys2Proof.Machine.execGarr g s
  | .gwt g => Sys2Proof.Machine.execGwt g s
  | .gbar g => Sys2Proof.Machine.execGbar g s
  | .gqry d g => Sys2Proof.Machine.execGqry d g s
  | .tlbi a b => Sys2Proof.Machine.execTlbi a b s
  | .rafw a b => Sys2Proof.Machine.execRafw a b s
  | .trap c => Sys2Proof.Machine.execTrap c s
  | .tret => Sys2Proof.Machine.execTret s
  | .uret => Sys2Proof.Machine.execUret s
  | .rdc d r => Sys2Proof.Machine.execRdc d r s
  | .wrc a r => Sys2Proof.Machine.execWrc a r s
  | .rdp d => Sys2Proof.Machine.execRdp d s
  | .wrp a => Sys2Proof.Machine.execWrp a s
  | .brk => Sys2Proof.Machine.execBrk s
  | .hmsg a b => Sys2Proof.Machine.execHmsg a b s
  | .divideResultWrite core slot => Sys2Proof.Machine.execDivideResultWrite core slot s
  | .yieldExpiry core slot => Sys2Proof.Machine.execYieldExpiry core slot s
  | .memoryReply core slot reply => Sys2Proof.Machine.execMemoryReply core slot reply s
  | .remoteStoreAck store reply => Sys2Proof.Machine.execRemoteStoreAck store reply s
  | .fp6Emulation core slot => Sys2Proof.Machine.execFp6Emulation core slot s
  | .matrixOpComplete core slot => Sys2Proof.Machine.execMatrixOpComplete core slot s
  | .channelPacketArrival packet => Sys2Proof.Machine.execChannelPacketArrival packet s
  | .remoteFeRequest packet => Sys2Proof.Machine.execRemoteFeRequest packet s
  | .feNackRetry core slot => Sys2Proof.Machine.execFeNackRetry core slot s
  | .engineEntryStart core queue rows => Sys2Proof.Machine.execEngineEntryStart core queue rows s
  | .engineEntryComplete core queue => Sys2Proof.Machine.execEngineEntryComplete core queue s
  | .taskTake core => Sys2Proof.Machine.execTaskTake core s
  | .stealRound core slot => Sys2Proof.Machine.execStealRound core slot s
  | .pageFaultRequest part token frame => Sys2Proof.Machine.execPageFaultRequest part token frame s
  | .pageMigration part va frame => Sys2Proof.Machine.execPageMigration part va frame s
  | .developmentSlotTimeout core slot => Sys2Proof.Machine.execDevelopmentSlotTimeout core slot s
  | .routerPacketForward router net out => Sys2Proof.Machine.execRouterPacketForward router net out s
  | .vaultBankAccess vault bank => Sys2Proof.Machine.execVaultBankAccess vault bank s
  | .vaultRefresh vault bank cycles => Sys2Proof.Machine.execVaultRefresh vault bank cycles s
  | .scrubVisit vaultSide line found => Sys2Proof.Machine.execScrubVisit vaultSide line found s
  | .laneStart core slot => Sys2Proof.Machine.execLaneStart core slot s
  | .launchComplete part launch => Sys2Proof.Machine.execLaunchComplete part launch s
  | .watchdogExpiry part launch => Sys2Proof.Machine.execWatchdogExpiry part launch s
  | .containment part launch why detail => Sys2Proof.Machine.execContainment part launch why detail s
  | .ieStopTimeout core slot => Sys2Proof.Machine.execIeStopTimeout core slot s
  | .preemption core dest => Sys2Proof.Machine.execPreemption core dest s
  | .forwardedRequest packet => Sys2Proof.Machine.execForwardedRequest packet s
  | .contextRetryNack packet => Sys2Proof.Machine.execContextRetryNack packet s
  | .contextRestore part position core => Sys2Proof.Machine.execContextRestore part position core s
  | .thermalRanking die temps => Sys2Proof.Machine.execThermalRanking die temps s
  | .thermalSlotDisable core => Sys2Proof.Machine.execThermalSlotDisable core s
  | .thermalSlotEnable core => Sys2Proof.Machine.execThermalSlotEnable core s
  | .submissionDoorbell fn index value => Sys2Proof.Machine.execSubmissionDoorbell fn index value s
  | .completionDoorbell fn index value => Sys2Proof.Machine.execCompletionDoorbell fn index value s
  | .adminDoorbell fn completion value => Sys2Proof.Machine.execAdminDoorbell fn completion value s
  | .launchRecordFetch queue => Sys2Proof.Machine.execLaunchRecordFetch queue s
  | .placementAttempt part launch row col lanes => Sys2Proof.Machine.execPlacementAttempt part launch row col lanes s
  | .completionEntryWrite queue => Sys2Proof.Machine.execCompletionEntryWrite queue s
  | .partitionCreate cmd params => Sys2Proof.Machine.execPartitionCreate cmd params s
  | .partitionResize cmd vf clusters => Sys2Proof.Machine.execPartitionResize cmd vf clusters s
  | .partitionDestroy cmd vf => Sys2Proof.Machine.execPartitionDestroy cmd vf s
  | .ownerCreate cmd vf owner seed => Sys2Proof.Machine.execOwnerCreate cmd vf owner seed s
  | .queueCreate cmd params => Sys2Proof.Machine.execQueueCreate cmd params s
  | .keyBind cmd session handle key => Sys2Proof.Machine.execKeyBind cmd session handle key s
  | .mapMap cmd vf va owner rights frame fromPool => Sys2Proof.Machine.execMapMap cmd vf va owner rights frame fromPool s
  | .mapUnmap cmd vf va => Sys2Proof.Machine.execMapUnmap cmd vf va s
  | .mapRegionEntry cmd vf index value => Sys2Proof.Machine.execMapRegionEntry cmd vf index value s
  | .mapImport cmd vf hostAddr handle iv gcmTag va len => Sys2Proof.Machine.execMapImport cmd vf hostAddr handle iv gcmTag va len s
  | .mapExport cmd vf va hostAddr len handle iv => Sys2Proof.Machine.execMapExport cmd vf va hostAddr len handle iv s
  | .mapLoad cmd vf hostAddr va len => Sys2Proof.Machine.execMapLoad cmd vf hostAddr va len s
  | .contextSave cmd vf positions => Sys2Proof.Machine.execContextSave cmd vf positions s
  | .debugHalt cmd vf launch lanes hold kill => Sys2Proof.Machine.execDebugHalt cmd vf launch lanes hold kill s
  | .debugResume cmd vf launch lanes => Sys2Proof.Machine.execDebugResume cmd vf launch lanes s
  | .eccMode cmd vf strong => Sys2Proof.Machine.execEccMode cmd vf strong s
  | .powerPolicy cmd params => Sys2Proof.Machine.execPowerPolicy cmd params s
  | .telemetry cmd => Sys2Proof.Machine.execTelemetry cmd s
  | .getVersion port => Sys2Proof.Machine.execGetVersion port s
  | .getCapabilities port => Sys2Proof.Machine.execGetCapabilities port s
  | .negotiateAlgorithms port asym hash dhe aead => Sys2Proof.Machine.execNegotiateAlgorithms port asym hash dhe aead s
  | .getDigests port => Sys2Proof.Machine.execGetDigests port s
  | .getCertificate port slot offset len => Sys2Proof.Machine.execGetCertificate port slot offset len s
  | .challenge port slot nonce => Sys2Proof.Machine.execChallenge port slot nonce s
  | .getMeasurements port index => Sys2Proof.Machine.execGetMeasurements port index s
  | .keyExchange port slot peerKey => Sys2Proof.Machine.execKeyExchange port slot peerKey s
  | .finish port session verify => Sys2Proof.Machine.execFinish port session verify s
  | .heartbeat port session => Sys2Proof.Machine.execHeartbeat port session s
  | .keyUpdate port session => Sys2Proof.Machine.execKeyUpdate port session s
  | .endSession port session => Sys2Proof.Machine.execEndSession port session s
  | .vendorDefinedRequest port session handle key => Sys2Proof.Machine.execVendorDefinedRequest port session handle key s
  | .firmwareUpdate port version digest signature => Sys2Proof.Machine.execFirmwareUpdate port version digest signature s
  | .packageReset failedBridges => Sys2Proof.Machine.execPackageReset failedBridges s
  | .functionLevelReset fn => Sys2Proof.Machine.execFunctionLevelReset fn s
  | .thermalReset => Sys2Proof.Machine.execThermalReset s
  | .powerStateChange die wake => Sys2Proof.Machine.execPowerStateChange die wake s
  | .registerWrite fn bar offset value => Sys2Proof.Machine.execRegisterWrite fn bar offset value s
  | .portRateWrite port rate => Sys2Proof.Machine.execPortRateWrite port rate s
  | .linkFlitReceive port seq crcOk ack => Sys2Proof.Machine.execLinkFlitReceive port seq crcOk ack s
  | .keepaliveSend port => Sys2Proof.Machine.execKeepaliveSend port s
  | .linkDown port => Sys2Proof.Machine.execLinkDown port s
  | .fabricRequestArrival req => Sys2Proof.Machine.execFabricRequestArrival req s
  | .requestRetransmit target seq => Sys2Proof.Machine.execRequestRetransmit target seq s
  | .sequenceAckKeepalive target => Sys2Proof.Machine.execSequenceAckKeepalive target s
  | .packageFailureDeclared package => Sys2Proof.Machine.execPackageFailureDeclared package s
  | .fabricFailureAnswer package => Sys2Proof.Machine.execFabricFailureAnswer package s
  | .illegalEncoding w => Sys2Proof.Machine.execIllegalEncoding w s
  | .fetchFault cause addr => Sys2Proof.Machine.execFetchFault cause addr s
  | .l2SliceRequest slice => Sys2Proof.Machine.execL2SliceRequest slice s
  | .remotePortAccess packet => Sys2Proof.Machine.execRemotePortAccess packet s
  | .relranPortArbitration port => Sys2Proof.Machine.execRelranPortArbitration port s
  | .hostInterfaceTransfer => Sys2Proof.Machine.execHostInterfaceTransfer s
  | .linkTrainingComplete port lanes => Sys2Proof.Machine.execLinkTrainingComplete port lanes s
  | .bridgeFlitReplay edge bridge => Sys2Proof.Machine.execBridgeFlitReplay edge bridge s
  | .ideKmRequest fn stream key => Sys2Proof.Machine.execIdeKmRequest fn stream key s

end Sys2Proof.Machine
end

