-- ==== Sys2Proof/Machine/Debug.lean ====
section
/-!
DEFINITION. What reaches the part from outside (R93, R180, R307, R313, R327, R331, R357, R360, R386, R388, R396, R406): the events that have no row
of the table, the debugger's reads and writes, and the order in which inputs are taken.
-/
namespace Sys2Proof.Machine

/-! ### The debugger (R93, R307, R360) -/

/-- The line as a core that owns word w of it holds it, else as performed: the owned copy is read in place (R307). -/
def State.ownedLine (s : State) (line w : Nat) : Vec :=
  let home := (s.performedLine line).1
  match (mapGet? s.l2 line).bind fun e => mapGet? e.reg w with
  | some c => (((s.core c).l1Find line).map fun e => e.2.data).getD home
  | none => home

/-- The place of a word of a partition's global memory in this package: the partition that holds it, and its PA (R227, R307). A fabric
page that names this package is read at its home slice here (R410, R412). The address's tag [63:60] is ignored. DEDUCED, log 106. -/
def State.debugPlace (s : State) (p : Nat) (va : Word) : Option (Nat × Nat) :=
  (s.mapped p (ptrLow va)).bind fun x =>
    let m := x.1
    let off := ptrLow va % 2 ^ m.psz
    if ((s.part p).region (ptrLow va)).getLsbD 10 then
      let pa := field m.leaf m.psz (40 - m.psz) * 2 ^ m.psz + off
      if BitVec.ofNat 64 (field m.leaf 40 13) = s.pkgid then (s.fabricHome (s.dtag p) pa).map fun h => (h, pa) else none
    else if (s.part p).owns (m.frame + off) then some (p, m.frame + off)
    else none

/-- What the command x shows of the word at an address of a partition (R307): nothing is recalled, filled or developed. It reads on behalf
of owner 0, and no page's rights keep it away; a place that is not in the partition's vaults has nothing to show, and a poisoned word shows
its bytes. DEDUCED, log 106. -/
def State.debugWord (s : State) (p : Nat) (va : Word) : DebugAnswer :=
  match s.debugPlace p va with
  | none => .absent
  | some (h, pa) =>
      let line := lineOf pa
      let w := pa % 64 / 4
      match (s.part h).recordOf line with
      | some r =>
        if r.producing then .developing r.block
        else if s.latent.contains line then .latent r.block
        else .value ((lineWord (s.ownedLine line w) w).setWidth 512)
      | none => .value ((lineWord (s.ownedLine line w) w).setWidth 512)
/-- The command draws (R318, R371): c values of an owner's stream on a structure from n on, for structure 1 the sets that R236 gives, and
the owner's counters that are not 0, by instance; of stochastic rounding, the counters of the lane's slots (R67). -/
def State.debugDraws (s : State) (p o st n c : Nat) : DebugAnswer :=
  match mapGet? (s.part p).owners o with
  | none => .absent
  | some w =>
    let values := (List.range c).map fun i => drawKey w.seed (BitVec.ofNat 16 st) (BitVec.ofNat 48 (n + i))
    let kept := (w.ctr.filter fun e => e.1 / 2 ^ 32 == st && e.2 != 0).map fun e => (e.1 % 2 ^ 32, e.2)
    let mine := fun (k : Core) => k.bound.any fun b => b.part == p && b.owner == o
    let rounding := s.cores.flatMap fun (x : Nat × Core) => if mine x.2 then
        (List.range 8).filterMap fun i =>
          let t := x.2.slots[slotNo i]
          if st == 0x4000 + t.lane.toNat && t.sr != 0 then some (8 * x.1 + i, t.sr.toNat) else none
      else []
    .draws values (if st = 1 then values.map fun v => v.toNat % 1024 else []) (if 0x4000 ≤ st then rounding else kept)

/-- The parked state of the lane of a slot in which a development runs (R159, R360). -/
def Core.parkedLane (k : Core) (i : Fin 8) : Option Slot :=
  if (k.slots[i]).kind.isDev then (k.parkedStates.find? fun sv => sv.slot == i.val && !sv.state.kind.isDev).map (·.state) else none
/-- The lane of a slot: its state where a development has parked it, else the slot's own. -/
def State.laneAt (s : State) (core : Nat) (k : Fin 8) : Slot := ((s.core core).parkedLane k).getD (s.slotAt core k)

/-- A part of the state of a slot. -/
def State.readItem (s : State) (core : Nat) (k : Fin 8) (item : DebugItem) : Vec :=
  let t := s.slotAt core k
  match item with
  | .pc => t.pc.setWidth 512
  | .p => (t.p &&& 0xFFFFFF).setWidth 512
  | .x r => (t.x[r]).setWidth 512
  | .v r => t.v[r]
  | .ctl r => ((s.focus core k).ctlRead r).setWidth 512
  | .sr => t.sr.setWidth 512
/-- A part of the state of a slot written: what no program could write stays (R77, R78, R127), and a scalar register loses its mark
(R194). -/
def State.writeItem (s : State) (core : Nat) (k : Fin 8) (item : DebugItem) (v : Vec) : State :=
  match item with
  | .pc => s.modSlotAt core k fun t => { t with pc := evenAddr (v.setWidth 64) }
  | .p => s.modSlotAt core k fun t => { t with p := (v.setWidth 24).setWidth 32 }
  | .x r => s.modSlotAt core k fun t => if r = 0 then t else { t with x := t.x.set r (v.setWidth 64), marks := t.marks.set r none }
  | .v r => s.modSlotAt core k fun t => { t with v := t.v.set r v }
  | .sr => s.modSlotAt core k fun t => { t with sr := v.setWidth 44 }
  | .ctl r =>
    if r = 0 then s.modSlotAt core k fun t => { t with sw := { swWrite t.sw (v.setWidth 64) with ie := v.getLsbD 1 } }
    else if ctlReadOnly r then s
    else ((s.focus core k).ctlWrite r (v.setWidth 64)).focus s.curCore s.curSlot

/-- A part of a halted lane's state (R360). -/
def State.debugRead (s : State) (core : Nat) (k : Fin 8) (item : DebugItem) : DebugAnswer :=
  let t := s.laneAt core k
  if !s.debugger || !t.halted then .absent else .value ((s.setSlotAt core k t).readItem core k item)

/-- A part of a halted lane's state written (R360), where a development has parked it too. -/
def State.debugWrite (s : State) (core : Nat) (k : Fin 8) (item : DebugItem) (v : Vec) : State :=
  let t := s.laneAt core k
  if !s.debugger || !t.halted then s
  else if ((s.core core).parkedLane k).isNone then s.writeItem core k item v
  else
    let u := (s.setSlotAt core k t).writeItem core k item v
    let written := u.slotAt core k
    let put := fun (sv : Saved) => if sv.slot == k.val && !sv.state.kind.isDev then { sv with state := written } else sv
    (u.modCore core fun q => q.setParked (q.parkedStates.map put)).setSlotAt core k (s.slotAt core k)

/-- What a debugger has read is noted. -/
def State.noteDebug (s : State) (a : DebugAnswer) : State := { s with debugLog := s.debugLog ++ [a] }

/-! ### Errors that are found (R180, R313) -/

/-- The count of a site's corrected errors, if it has one. -/
def SramSite.count : SramSite → Option Nat
  | .tray _ => some 2
  | .tile _ => some 3
  | .acc _ => some 4
  | .l1 _ _ => some 5
  | .weights => none

/-- A core with an uncorrectable error at a site: the word is poisoned, the weights are unusable (R180).
DESIGN CHOICE, log 104. -/
def Core.sramError (k : Core) (site : SramSite) : Core :=
  match site with
  | .tray w => match fifoPlace (4 * w) with
    -- the packet that the word is part of is poisoned
    | some (e, i) => { k with fifos := k.fifos.set e (k.fifos[e].mapIdx fun j x => if j = i then (x.1, true) else x) }
    | none => match recordPlace (4 * w), savePlace (4 * w) with
      | some (n, i), _ =>
        let last := k.deque.length - 1
        { k with deque := k.deque.mapIdx fun j r => if j + n = last then { r with bad := setAdd r.bad i } else r }
      | none, some i => { k with saved := k.saved.map fun sv => { sv with bad := setAdd sv.bad i } }
      | none, none => { k with trayBad := setAdd k.trayBad w }
  | .tile w => { k with tileBad := setAdd k.tileBad w }
  | .acc w => { k with accBad := setAdd k.accBad w }
  | .l1 va w => match mapGet? k.l1d va with
    | some l => { k with l1d := mapSet k.l1d va { l with bad := maskSet l.bad w true } }
    | none => k
  | .weights => { k with array := { k.array with wbad := k.array.wv } }

/-- An error of a core's SRAM is found (R180): corrected and counted for the core's partition, or not. -/
def State.sramFound (s : State) (core : Nat) (site : SramSite) (corrected : Bool) : State :=
  if !corrected then s.modCore core (·.sramError site)
  else match site.count, (s.core core).bound with
    | some n, some b => s.modPart b.part fun q => { q with corrected := mapSet q.corrected n (mapGet q.corrected n 0 + 1) }
    | _, _ => s

/-- A packet on a link of the die whose data fails its parity check is delivered poisoned (R313). -/
def State.parityFailed (s : State) (id : Nat) : State :=
  s.modPacket id fun p => match p.place with
    | .router _ _ | .back _ _ => if p.dataBytes = 0 then p else { p with poisoned := true }
    | _ => p

/-! ### Cores out of service (R331, R357, R382) -/

/-- Firmware disables a core that no launch is bound to; an event says so, to its partition or to the PF (R377, R382). -/
def State.disableCore (s : State) (core : Nat) : State :=
  if !(s.core core).unbound then s
  else
    let u := s.modCore core fun k => { k with disabled := true }
    match u.clusterOwner (clusterOf core) with
    | some p => u.postEvent p eventCore (BitVec.ofNat 64 core) 0
    | none => u.postPfEvent eventCore (BitVec.ofNat 64 core)

/-! ### The order of inputs (R386) -/

/-- The record of a command: its header and its code (R387). -/
def recordOf : Instr → Option (Cmd × Nat)
  | .partitionCreate c _ => some (c, 0x01)
  | .partitionResize c _ _ => some (c, 0x02)
  | .partitionDestroy c _ => some (c, 0x03)
  | .ownerCreate c _ _ _ => some (c, 0x04)
  | .queueCreate c _ => some (c, 0x05)
  | .keyBind c _ _ _ => some (c, 0x06)
  | .mapMap c _ _ _ _ _ _ | .mapUnmap c _ _ | .mapRegionEntry c _ _ _ | .mapImport c _ _ _ _ _ _ _ | .mapExport c _ _ _ _ _ _
  | .mapLoad c _ _ _ _ => some (c, 0x07)
  | .contextSave c _ _ => some (c, 0x08)
  | .debugHalt c _ _ _ _ _ => some (c, 0x09)
  | .debugResume c _ _ _ => some (c, 0x0A)
  | .eccMode c _ _ => some (c, 0x0B)
  | .powerPolicy c _ => some (c, 0x0C)
  | .telemetry c => some (c, 0x0D)
  | _ => none
/-- The same of an input. -/
def Input.record : Input → Option (Cmd × Nat)
  | .event i => recordOf i
  | .badRecord c code => some (c, code.toNat)
  | .parity _ | .sram _ _ _ | .lineError _ _ _ | .debugger _ | .debugWord _ _ | .draws _ _ _ _ _ | .debugRead _ _ _ | .debugWrite _ _ _ _
  | .disableCore _ | .hostWrite _ _ | .sideTelemetry | .resend _ | .copySeed _ _ _ _ | .keepalive _ _ | .transit _ _ _ _ _ _ => none

/-- The next record of the admin queue of a command's function is the command's: its ring is not empty, and word 0 there has its code
and its tag (R386). What words 1 to 7 say reaches the model as the command's parameters (log 17). -/
def State.recordReady (s : State) (r : Cmd × Nat) : Bool :=
  let a := s.admin r.1.fn
  let w := Memory.readN s.hostMem (s.adminReg r.1.fn 0 + 64 * a.subHead) 8
  a.subHead != a.subTail && w % 2 ^ 8 == r.2 && w / 2 ^ 32 == r.1.tag.toNat
/-- The SMC takes the next record of an admin queue (R386). -/
def State.takeRecord (s : State) (fn : Nat) : State :=
  let a := s.admin fn
  { s with admins := mapSet s.admins fn { a with subHead := (a.subHead + 1) % max (s.adminSize fn false) 1 } }

/-- The admin queue that holds a command, by its function, and the function of the partition it acts on. A key bound by a
vendor-defined request stands in no admin queue: it has the number 128 more than its function's. -/
def commandOf : Instr → Option (Nat × Option Nat)
  | .vendorDefinedRequest (.doe fn) _ _ _ => some (128 + fn, some fn)
  | .partitionCreate c p => some (c.fn, some p.vf)
  | .queueCreate c p => some (c.fn, some p.vf)
  | .powerPolicy c p => some (c.fn, some p.vf)
  | .keyBind c _ _ _ => some (c.fn, some c.fn)
  | .telemetry c => some (c.fn, none)
  | .partitionDestroy c v | .ownerCreate c v _ _ | .mapMap c v _ _ _ _ _ | .mapUnmap c v _ | .mapRegionEntry c v _ _
  | .mapImport c v _ _ _ _ _ _ | .mapExport c v _ _ _ _ _ | .mapLoad c v _ _ _ | .contextSave c v _ | .debugHalt c v _ _ _ _
  | .debugResume c v _ _ | .eccMode c v _ | .partitionResize c v _ => some (c.fn, some v)
  | _ => none
/-- The same of an input. -/
def Input.command : Input → Option (Nat × Option Nat)
  | .event i => commandOf i
  | .badRecord c _ => some (c.fn, none)
  | .parity _ | .sram _ _ _ | .lineError _ _ _ | .debugger _ | .debugWord _ _ | .draws _ _ _ _ _ | .debugRead _ _ _ | .debugWrite _ _ _ _
  | .disableCore _ | .hostWrite _ _ | .sideTelemetry | .resend _ | .copySeed _ _ _ _ | .keepalive _ _ | .transit _ _ _ _ _ _ => none
/-- The same of a command under way. -/
def Work.command : Work → Option (Nat × Option Nat)
  | .migration _ _ _ => none
  | .ownerCreate c v _ _ | .contextSave c v _ | .resize c v _ | .eccMode c v _ | .answer c v _ | .destroy c v => some (c.fn, some v)
  | .reset fn => some (256 + fn, some fn)

/-- Two commands go one after the other: they are of one admin queue, or act on one partition (R386). -/
def serialised (a b : Option (Nat × Option Nat)) : Bool :=
  match a, b with
  | some (f, p), some (g, q) => f == g || (p.isSome && p == q)
  | _, _ => false

/-- The SMC has received an input's record, or it has none (R386). -/
def State.received (s : State) (e : Input) : Bool := e.record.all s.recordReady

/-- A command waits for its record, for one under way, and for one that was received before it and waits (R386); a core is disabled once
no launch is bound to it (R357). -/
def State.inputHeld (s : State) (before : List Input) (e : Input) : Bool :=
  !s.received e || (s.begun.any fun w => serialised w.command e.command) ||
    (before.any fun x => s.received x && serialised x.command e.command) ||
    match e with
    | .disableCore c => (s.core c).bound.isSome
    | _ => false

/-- The first input that can be taken, and the others, those of a list before it held. -/
def State.nextInput (s : State) (before : List Input) : List Input → Option (Input × List Input)
  | [] => none
  | e :: rest => if s.inputHeld before e then s.nextInput (before ++ [e]) rest else some (e, before ++ rest)

/-- A record of an admin queue that is no command of R387: BADCMD for its code, else BADPARAM for its reserved bits (R388). -/
def State.badRecord (s : State) (c : Cmd) (code : BitVec 8) : State :=
  s.respond c (if !s.ready then .busy else if code = 0 || 13 < code.toNat then .badCmd else .badParam) 0

/-- The host writes its own memory. -/
def State.putHost (s : State) (addr : Nat) (bytes : List Byte) : State := { s with hostMem := Memory.writeBytes s.hostMem addr bytes }

/-- An input takes place: what is no event of the part is dropped. DESIGN CHOICE, logs 32 and 83. -/
def State.applyInput (s : State) (e : Input) : Out :=
  match e with
  | .event i => if (encode i).isNone then exec i s else .next s
  | .parity id => .next (s.parityFailed id)
  | .sram c site ok => .next (s.sramFound c site ok)
  | .lineError v line f => .next (s.lineFound v line f)
  | .debugger on => .next { s with debugger := on }
  | .debugWord p va => .next (s.noteDebug (s.debugWord p va))
  | .draws p o st n c => .next (s.noteDebug (s.debugDraws p o st n c))
  | .debugRead c k item => .next (s.noteDebug (s.debugRead c (slotNo k) item))
  | .debugWrite c k item v => .next (s.debugWrite c (slotNo k) item v)
  | .disableCore c => .next (s.disableCore c)
  | .hostWrite a bs => .next (s.putHost a bs)
  | .badRecord c code => .next (s.badRecord c code)
  | .sideTelemetry => .next (s.giveReport none)
  | .resend p => .next (s.setRelran p ((s.relran p).resend s.cycle))
  | .copySeed package p o seed => .next (s.copySeed package p o seed)
  | .keepalive source below => .next (s.keepaliveArrived source below)
  | .transit source p o cls target port => .next (s.transitArrived source p o cls target port)

/-- Take the next input. DESIGN CHOICE, log 32. -/
def State.takeInput (s : State) : Out :=
  match s.nextInput [] s.inbox with
  | none => .next s
  | some (e, rest) =>
    let u := { s with inbox := rest }
    (match e.record with
      | some r => u.takeRecord r.1.fn
      | none => u).applyInput e

end Sys2Proof.Machine
end

