-- ==== Sys2Proof/Machine/Cycle.lean ====
section
/-!
DEFINITION. What one step chooses from (R25, R26, R80, R83-R85, R95): fetching and decoding at a slot's PC, the choice of the
slot that issues, the work of the part that is due or pending, and the end of a cycle.
-/
namespace Sys2Proof.Machine

/-! ### Fetch (R25, R26) -/

/-- What a fetch gives. -/
inductive Fetched where
  | instr (i : Instr)
  /-- An encoding that is not an instruction (R43). -/
  | illegal (w : BitVec 32)
  deriving DecidableEq, Repr

/-- The bytes of half-words, lowest address first (R25). -/
def halfBytes (h : BitVec 16) : List Byte := [h.setWidth 8, (h >>> 8).setWidth 8]

/-- Decode fetched half-words (R43). -/
def decodeHalves (h0 h1 : BitVec 16) : Fetched :=
  match decode (halfBytes h0 ++ halfBytes h1) with
  | .ok (i, _) => .instr i
  | .error _ => .illegal (h1 ++ h0)

/-- Fetch and decode the instruction at the PC of the slot being executed: a 16-bit form needs no second half-word (R26). -/
def fetchInstr (s : State) : M Fetched := do
  let h0 ← fetchHalf s.agent s.me.pc
  if h0.getLsbD 0 then do
    let h1 ← fetchHalf s.agent (s.me.pc + 2)
    pure (decodeHalves h0 h1)
  else pure (decodeHalves h0 0)

/-- The fetch cause of a failed check (R26). -/
def fetchCauseOf (c : Cause) : FetchCause :=
  match c with
  | .bounds => .bounds
  | .page => .page
  | .mce => .mce
  | _ => .prot

/-- The slot being executed issues the instruction at its PC (R25, R26): the state after the fetch runs what was decoded; a
fetch that fails traps. A state that came from poisoned words is consumed: MCE (R180). DESIGN CHOICE, log 104. -/
def State.issue (s : State) : Out :=
  if s.me.spoiled then .next ((s.modMe fun t => { t with spoiled := false }).takeTrap .mce 0 true)
  else match fetchInstr s s with
  | .ok (.instr i, u) => exec i { u with sent := [] }
  | .ok (.illegal w, u) => execIllegalEncoding w { u with sent := [] }
  | .error (.trap c a) => execFetchFault (fetchCauseOf c) a s
  | .error st => stopped st s

/-! ### The choice of an issuer (R83-R85, R359) -/

/-- The slot has stopped for a pending pre-emption of its core, or for a stop of its own (R95). -/
def State.held (s : State) (k : Core) (t : Slot) : Bool :=
  (match k.preempt with
    | some (_, asked) => s.mayStop t asked
    | none => false) ||
  (match t.stopAt with
    | some (kind, asked) => s.mayApply t kind asked
    | none => false)

/-- The slot can issue in this cycle (R83). -/
def State.eligible (s : State) (k : Core) (t : Slot) : Bool :=
  t.life == .running && t.out == .none && !t.halted && t.readyAt ≤ s.cycle &&
    (match t.lastIssue with | some c => c + 4 ≤ s.cycle | none => true) && !s.held k t && !s.resting k &&
    (t.kind.isDev || !k.refetching)

/-- The slot that issues as slot i of core c: the core's own, or the guest it holds (R359). -/
def State.occupant (s : State) (c i : Nat) : Option (Nat × Nat) :=
  let t := s.slotAt c (slotNo i)
  if t.life != .unbound then (if t.disabled then none else some (c, i))
  else s.cores.findSome? fun (h, k) =>
    ((List.range 8).find? fun j => (k.slots[slotNo j]).guestAt == some (c, i)).map fun j => (h, j)

/-- The slot that would issue on turn i of core c, if it is eligible. -/
def State.candidate (s : State) (c i : Nat) : Option (Nat × Nat) :=
  (s.occupant c i).filter fun x => s.eligible (s.core x.1) (s.slotAt x.1 (slotNo x.2))

/-- The issuer of a core in this cycle (R83): the owner of the turn, else the first eligible open slot after the last issuer.
The answer is its turn number and the slot. -/
def State.pick (s : State) (c : Nat) : Option (Nat × Nat × Nat) :=
  let t := s.cycle % 8
  match s.candidate c t with
  | some x => some (t, x)
  | none =>
    (List.range 8).findSome? fun d =>
      let i := ((s.core c).lastIssuer + 1 + d) % 8
      match s.candidate c i with
      | some x => if (s.slotAt x.1 (slotNo x.2)).sw.dm then none else some (i, x)
      | none => none

/-- The next core of this cycle that has an issuer: cores take their turns of a cycle in ascending number (log 29). -/
def State.nextIssue (s : State) : Option (Nat × Nat × Nat × Nat) :=
  s.cores.findSome? fun (c, _) => if c < s.turn then none else (s.pick c).map fun x => (c, x)

/-- The issue of a slot is noted. -/
def State.noteIssue (s : State) (c i h j : Nat) : State :=
  let s := s.modCore c fun k => { k with lastIssuer := i }
  { (s.modSlotAt h (slotNo j) fun t => { t with lastIssue := some s.cycle }).focus h (slotNo j) with turn := c + 1, sent := [] }

/-- The shared writes of a core that land at the end of a cycle, in ascending slot order (R86, R131). -/
def Core.land (k : Core) (c : Nat) : Core :=
  let now := k.late.filter fun l => l.due ≤ c && !l.held
  let now := (sortKeys ((sortKeys (now.map fun l => (l.slot, l))).map fun e => (e.2.due, e.2))).map (·.2)
  now.foldl (fun k l => k.apply l.write) { k with late := k.late.filter fun l => c < l.due || l.held }
/-- Every shared write that is due lands. -/
def State.land (s : State) : State := { s with cores := s.cores.map fun (c, k) => (c, k.land s.cycle) }

/-- The next cycle: shared writes land, waits of stated length end, pending stops are applied. -/
def State.nextCycle (s : State) : State :=
  let s := s.land
  let s := { s with cycle := s.cycle + 1, turn := 0, stamp := max s.stamp ((s.cycle + 1) * 2 ^ 32) }
  s.expireCycles.tryStops

/-- The instruction of a slot awaits replies of the home slices: what it has written to the shared bank waits too, and the slot's state
before it is kept, so that an MCE of a reply is exact (R87, R181). -/
def Core.awaitReplies (k before : Core) (slot : Nat) (t : Slot) : Core :=
  { k with
    undo := mapSet k.undo slot t
    late := k.late.mapIdx fun i l => if before.late.length ≤ i && l.slot == slot then { l with held := true } else l }
/-- What follows a slot's instruction: the words it has made its core or others perform are sent, and its replies are awaited. -/
def State.afterIssue (u v : State) : State :=
  let h := u.curCore
  let w := v.sendOwnedWords u (some (h, u.curSlot.val))
  match (w.slotAt h u.curSlot).out with
  | .reply (_ :: _) => w.modCore h fun k => k.awaitReplies (u.core h) u.curSlot.val u.me
  | _ => w
/-- A state that follows a step, if there is one. -/
def onNext (o : Out) (f : State → State) : Out :=
  match o with
  | .next u => .next (f u)
  | .fault e => .fault e
  | .refused r => .refused r

/-- Issue the next slot of the cycle, or end the cycle. -/
def State.issueOrTick (s : State) : Out :=
  match s.nextIssue with
  | some (c, i, h, j) => onNext (s.noteIssue c i h j).issue (s.noteIssue c i h j).afterIssue
  | none => .next s.nextCycle

/-! ### Work of the part -/

/-- A piece of work that the part does by itself: a step of the table with the values it takes. -/
inductive Act where
  | divide (core slot : Nat) | yield (core slot : Nat) | matrix (core slot : Nat) | ieStop (core slot : Nat)
  | input
  | reply (core slot : Nat) | storeAck (pkt : Nat) | feRetry (core slot : Nat) | emulate (core slot : Nat)
  | feRow (core slot : Nat)
  | developTimeout (core slot : Nat) | laneStart (core slot : Nat) | steal (core slot : Nat) | take (core : Nat)
  | contain (part : Nat) (launch : HWord) (why : ContainCause) (detail : Word)
  | engine (core queue : Nat) | engineEnd (core queue : Nat) | preempt (core : Nat) (dest : Option Nat)
  | forward (router net : Nat) (out : MeshPort) | slice (n : Nat) | bank (vault bank : Nat)
  | channel (pkt : Nat) | tray (pkt : Nat) | fe (pkt : Nat) | passOn (pkt : Nat) | retryNack (pkt : Nat)
  | relran (port : Nat) | retransmit (target : Nat) (seq : BitVec 32) | ackKeepalive (target : Nat)
  | keepalive (port : Nat) | linkDown (port : Nat) | failAnswer (package : Nat)
  | complete (part : Nat) (launch : HWord) | watchdog (part : Nat) (launch : HWord) | transfer
  | discard (pkt : Nat) | recall (pkt : Nat) | refetch (core : Nat)
  | inject (pkt : Nat) | fabricDevelop (pkt : Nat) | place (part : Nat) (launch : HWord) | noRoute (package : Nat)
  | work (w : Work)
  deriving DecidableEq, Repr

/-- Go on with firmware's work. -/
def State.doWork (s : State) (w : Work) : Out :=
  match w with
  | .migration p va f => execPageMigration p va f s
  | .ownerCreate c v o k => execOwnerCreate c v o k s
  | .contextSave c v ps => execContextSave c v ps s
  | .resize c v m => execPartitionResize c v m s
  | .eccMode c v m => execEccMode c v m s
  | .answer c v ids => .next (s.answerAfter c v ids)
  | .destroy c v => execPartitionDestroy c v s
  | .reset fn => execFunctionLevelReset fn s

/-- A request of another package at its slice starts the development it needs. -/
def State.developPacket (s : State) (id : Nat) : State :=
  match s.packet? id with
  | some pk => match pk.load with
    | .fabric r => (s.developFor r).getD s
    | _ => s
  | none => s

/-- Firmware places a waiting launch at one of its free positions, which it chooses freely (R336), on every lane it asks for. -/
def State.placeNext (s : State) (p : Nat) (n : HWord) : Out :=
  match mapGet? (s.part p).launches n.toNat with
  | none => .next s
  | some l =>
    let at' := s.freePlaces p l
    match at'[Config.freeChoice s.freeCtr % max at'.length 1]? with
    | some (r, c) => execPlacementAttempt p n r c (recLanes l.words) { s with freeCtr := s.freeCtr + 1 }
    | none => .next s

/-- A core sends the words that a home slice has recalled on their way back (R309). -/
def State.recalled (s : State) (id : Nat) : State :=
  (s.modPacket id fun p => { p with place := .enter 1 (routerOf p.target) .core, esc := false, since := s.stamp }).tick

/-- Do a piece of work. -/
def State.perform (s : State) (a : Act) : Out :=
  match a with
  | .divide c k => execDivideResultWrite c k s
  | .yield c k => execYieldExpiry c k s
  | .matrix c k => execMatrixOpComplete c k s
  | .ieStop c k => execIeStopTimeout c k s
  | .input => s.takeInput
  | .reply c k => execMemoryReply c k none s
  | .storeAck p => execRemoteStoreAck p none s
  | .feRetry c k => execFeNackRetry c k s
  | .emulate c k => execFp6Emulation c k s
  | .feRow c k => .next (s.feRow c (slotNo k))
  | .developTimeout c k => execDevelopmentSlotTimeout c k s
  | .laneStart c k => execLaneStart c k s
  | .steal c k => execStealRound c k s
  | .take c => execTaskTake c s
  | .contain p n w d => execContainment p n w d s
  | .engine c q => execEngineEntryStart c q 1 s
  | .engineEnd c q => execEngineEntryComplete c q s
  | .preempt c d => execPreemption c d s
  | .discard p => .next (s.dropPacket p)
  | .recall p => .next (s.recalled p)
  | .refetch c => .next (s.refetchNext c)
  | .inject p => .next (s.inject p)
  | .fabricDevelop p => .next (s.developPacket p)
  | .place p n => s.placeNext p n
  | .noRoute p => execPackageFailureDeclared p s
  | .forward r n o => execRouterPacketForward r n o s
  | .slice n => execL2SliceRequest n s
  | .bank v b => execVaultBankAccess v b s
  | .channel p => execChannelPacketArrival p s
  | .tray p => execRemotePortAccess p s
  | .fe p => execRemoteFeRequest p s
  | .passOn p => execForwardedRequest p s
  | .retryNack p => execContextRetryNack p s
  | .relran p => execRelranPortArbitration p s
  | .retransmit t n => execRequestRetransmit t n s
  | .ackKeepalive t => execSequenceAckKeepalive t s
  | .keepalive p => execKeepaliveSend p s
  | .linkDown p => execLinkDown p s
  | .failAnswer p => execFabricFailureAnswer p s
  | .complete p n => execLaunchComplete p n s
  | .watchdog p n => execWatchdogExpiry p n s
  | .transfer => execHostInterfaceTransfer s
  | .work w => s.doWork w

/-- Slots of a core with their numbers. -/
def Core.numbered (k : Core) : List (Nat × Slot) := (List.range 8).map fun i => (i, k.slots[slotNo i])

/-- Work of a slot that falls in this very cycle (R82, R95, R121, R168, R169, R251). -/
def State.dueSlot (s : State) (c i : Nat) (k : Core) (t : Slot) : List Act :=
  (match t.out with
    | .divide _ _ d => if d ≤ s.cycle then [Act.divide c i] else []
    | .yield d => if d ≤ s.cycle then [Act.yield c i] else []
    | .matrix _ _ d => if d ≤ s.cycle then [Act.matrix c i] else []
    | .stream _ _ _ _ d => if d ≤ s.cycle then [Act.matrix c i] else []
    | .develop rid _ =>
      if stampCycle t.since + 64 ≤ s.cycle && k.freeSlot.isNone && !s.resting k && (s.askedRecord c i rid).isSome &&
          (k.saved.isNone || s.stackRoom (s.partOf c)) then [Act.developTimeout c i] else []
    | _ => []) ++
  (match t.stopAt with
    | some (kind, asked) => if asked + ieLimit ≤ s.cycle && s.mayApply t kind asked then [Act.ieStop c i] else []
    | none => [])

/-- Lanes whose record has become valid, in ascending order of their entries in the die slot table (R333, R334). -/
def State.laneStarts (s : State) : List Act :=
  let at' := s.cores.flatMap fun (c, k) => k.numbered.filterMap fun (i, t) =>
    let b := k.binds[slotNo i]
    if b.v && t.life == .unbound && !s.resting k && !k.refetching && k.bound == some { part := b.part, owner := b.owner, launch := b.launch, cls := b.cls } then
      some ((dieOf (clusterOf c) * 16 + coreRow c) * 128 + coreCol c * 8 + i, Act.laneStart c i)
    else none
  (sortKeys at').map (·.2)

/-- A core whose free slot takes a record of its own overflow or deque (R177); a restored one whose staged frames are yet to be fetched
takes developments alone (R355). -/
def State.takes (s : State) (k : Core) : Bool :=
  k.freeSlot.isSome && k.preempt.isNone && !s.resting k &&
    match k.overflow.head? <|> k.deque.head? with
    | some r => r.dev.isSome || !k.refetching
    | none => false
/-- The slots of a core whose steal round is due (R177). -/
def State.stealers (s : State) (k : Core) : List Nat :=
  if !k.deque.isEmpty || !k.overflow.isEmpty || k.preempt.isSome || s.resting k || k.refetching then []
  else (k.numbered.filter fun x => x.2.free && x.2.stealAt ≤ s.cycle).map (·.1)

/-- The work of this cycle that comes before anything else, in its order: lanes start, timed waits end, records are taken by free slots
of their own cores, then by thieves (R18, R177, R334). -/
def State.dueActs (s : State) : List Act :=
  s.laneStarts ++ (s.cores.flatMap fun (c, k) => k.numbered.flatMap fun (i, t) => s.dueSlot c i k t) ++
    (s.cores.filterMap fun (c, k) => if s.takes k then some (Act.take c) else none) ++
    s.cores.flatMap fun (c, k) => (s.stealers k).map (Act.steal c)

/-- Work a slot's wait makes possible. -/
def State.slotActs (s : State) (c : Nat) (k : Core) (i : Nat) (t : Slot) : List Act :=
  match t.out with
    | .reply ids => if (ids.filterMap s.packet?).isEmpty then [Act.reply c i] else []
    | .remote ids => if (s.answered ids).isSome then [Act.reply c i] else []
    | .feNacked _ d => if d ≤ s.cycle then [Act.feRetry c i] else []
    | .emulate _ _ _ => [Act.emulate c i]
    | .feRows _ _ _ => [Act.feRow c i]
    | .contained why d =>
      match k.bound with
      | some b => [Act.contain b.part b.launch why d]
      | none => []
    | _ => []

/-- Work of an engine queue. -/
def State.queueActs (s : State) (c : Nat) (k : Core) (q : Nat) : List Act :=
  match (k.queues[queueNo q]).head? with
  | some e =>
    if e.status.isSome then (if (s.engineStores c q).isEmpty then [Act.engineEnd c q] else [])
    else if e.op.fenceId.isSome || s.engineHeld c q e then [] else [Act.engine c q]
  | none => []

/-- A core that is to be captured goes to its destination, or is given another one where that has gone. -/
def State.preemptActs (s : State) (c : Nat) (k : Core) (dest : Option Nat) : List Act :=
  let d := s.destOf (s.partOf c) c dest
  if k.bound.isSome && s.destStands (s.partOf c) c d then [Act.preempt c d] else []

/-- Work of a core. -/
def State.coreActs (s : State) (c : Nat) (k : Core) : List Act :=
  (k.numbered.flatMap fun (i, t) => s.slotActs c k i t) ++ ((List.range 6).flatMap fun q => s.queueActs c k q) ++
  (if k.refetching then [Act.refetch c] else []) ++
  (match k.preempt with
    | some (d, asked) => if s.coreStopped k asked && s.coreDrained c k then s.preemptActs c k d else []
    | none => [])

/-- Work of a request that stands at the core it is addressed to. -/
def State.portActs (s : State) (pk : Packet) : List Act :=
  match pk.load with
  | .away _ _ _ _ =>
    if pk.isStore && pk.answer.isSome then [Act.storeAck pk.id]
    else ((List.range 36).filter fun p => s.portRoom p && s.mayLeave p pk).map Act.relran
  | .reply _ _ | .keepAlive _ _ | .transit _ _ =>
    if s.failed.any pk.bringsTo then [Act.discard pk.id] else ((List.range 36).filter fun p => s.portRoom p && s.mayLeave p pk).map Act.relran
  | .tray op =>
    match s.arrival pk with
    | .forward pos => if (mapGet? (s.part pk.part).contexts pos).isSome then [Act.retryNack pk.id] else [Act.passOn pk.id]
    | .serve _ | .refuse _ => if !s.firstInLine pk then [] else if op.isFe then [Act.fe pk.id] else [Act.tray pk.id]
  | .channel _ _ | .notice _ =>
    match s.arrival pk with
    | .forward pos => if (mapGet? (s.part pk.part).contexts pos).isSome then [Act.retryNack pk.id] else [Act.passOn pk.id]
    | .serve _ | .refuse _ => if s.firstInLine pk then [Act.channel pk.id] else []
  | .recall _ _ => [Act.recall pk.id]
  | .home _ _ | .pref _ _ _ | .writeBack _ | .held _ | .fabric _ => []

/-- A decision of a router's output that can be made in this cycle (R320). -/
def State.forwardAct (s : State) (net n : Nat) (pk : Packet) (e : MeshPort) : List Act :=
  match (s.moveOf net pk n e).out with
  | some o => if s.mayDecide 5 (2 * n + net) (portOrder o) then [Act.forward n net o] else []
  | none => []

/-- Work of a packet. -/
def State.packetActs (s : State) (pk : Packet) : List Act :=
  match pk.place with
  | .enter _ _ _ => if s.mayInject pk then [Act.inject pk.id] else []
  | .router n e => s.forwardAct 0 n pk e
  | .back n e => s.forwardAct 1 n pk e
  | .slice n =>
    if s.sliceReady pk then (if s.mayDecide 4 n 0 then [Act.slice n] else [])
    else match pk.load with
      | .fabric r => if (s.developFor r).isSome then [Act.fabricDevelop pk.id] else []
      | _ => []
  | .bank v b => if (s.bank v b).free s.cycle && s.mayDecide 6 v b then [Act.bank v b] else []
  | .port => s.portActs pk
  | .nacked => if stampCycle pk.since + 32 ≤ s.cycle then [Act.retryNack pk.id] else []
  | .done => if pk.isStore && pk.answer.isSome then [Act.storeAck pk.id] else []
  | .fifo | .parked => []

/-- Work of a launch. -/
def State.launchActs (s : State) (p n : Nat) (l : Launch) : List Act :=
  (if s.launchDone p (BitVec.ofNat 32 n) l then [Act.complete p (BitVec.ofNat 32 n)] else []) ++
  (if s.placeable p n l then [Act.place p (BitVec.ofNat 32 n)] else []) ++
  (if l.stage == .running && l.expired s.cycle then [Act.watchdog p (BitVec.ofNat 32 n)] else [])

/-- Work of the fabric. -/
def State.fabricActs (s : State) : List Act :=
  (s.outstanding.flatMap fun o =>
    if !o.queued && o.sentAt + fabricPeriod ≤ s.cycle && !s.failed.contains o.target && s.inDomain then [Act.retransmit o.target o.req.seq]
    else if s.failed.contains o.target then [Act.failAnswer o.target] else []) ++
  (s.ackSent.flatMap fun (t, _, c) => if c + fabricPeriod ≤ s.cycle && !s.failed.contains t && s.inDomain then [Act.ackKeepalive t] else []) ++
  s.lostPackages.map Act.noRoute ++
  (s.ports.flatMap fun (n, p) =>
    if !p.up then []
    else if 8 ≤ p.fails || p.lastValid + 100 * Config.cyclesPerMicrosecond ≤ s.cycle then [Act.linkDown n]
    else if p.lastSent + 10 * Config.cyclesPerMicrosecond ≤ s.cycle && p.unacked < 512 then [Act.keepalive n] else [])

/-- The work that is possible now, in no order of the spec's: the next event from outside among it. -/
def State.acts (s : State) : List Act :=
  (if (s.nextInput [] s.inbox).isNone then [] else [Act.input]) ++ (s.cores.flatMap fun (c, k) => s.coreActs c k) ++ s.packets.flatMap s.packetActs ++
    (s.parts.flatMap fun (p, q) => q.launches.flatMap fun (n, l) => s.launchActs p n l) ++ s.fabricActs ++
    (if s.queues.any fun e => (s.transferOf e.1 e.2).isSome then [Act.transfer] else []) ++ s.begun.map Act.work

/-- One step: what falls in this cycle; else one piece of the possible work, or an issue, by a free choice (log 13). -/
def State.advance (s : State) : Out :=
  match s.dueActs with
  | a :: _ => onNext (s.perform a) fun u => u.sendOwnedWords s none
  | [] =>
    match s.acts with
    | [] => s.issueOrTick
    | as =>
      let u := { s with freeCtr := s.freeCtr + 1 }
      match as[Config.freeChoice s.freeCtr % (as.length + 1)]? with
      | some a => onNext (u.perform a) fun v => v.sendOwnedWords s none
      | none => u.issueOrTick

/-- The slot is out of the rotation (R85). -/
def Slot.away (t : Slot) : Bool :=
  t.halted || (match t.out with
    | .none => false
    | _ => true)
/-- A slot that has come back is ready from the next cycle on (R85). -/
def Core.noteReturns (before after : Core) (c : Nat) : Core :=
  { after with
    slots := after.slots.mapIdx fun i t =>
      if (before.slots[slotNo i]).away && !t.away then { t with readyAt := c + 1 } else t }
/-- The slots that a step has brought back to the rotation. DEDUCED, log 74. -/
def State.noteReturns (s u : State) : State :=
  { u with cores := u.cores.map fun (c, k) => (c, (s.core c).noteReturns k u.cycle) }
/-- A step with its returns noted. -/
def State.advanced (s : State) : Out :=
  onNext s.advance s.noteReturns

/-! ### A program placed from outside -/

/-- One half-word of code at an address of the slot being executed: performed in memory, good and resident, with no copy of its
line in the slot's instruction cache. -/
def State.placeHalf (s : State) (va : Word) (h : BitVec 16) : Option State :=
  let ag := s.agent
  match (do
    let e ← translate ag va
    checkRights ag va e .fetch
    let t ← locate ag va e
    pure t) s with
  | .ok (.here pa _ _ _ _, _) =>
    let s := s.recall (lineOf pa) (wordsOf pa 2)
    let s := { s with
      mem := Memory.writeBytes s.mem pa (halfBytes h)
      memBad := s.memBad.filter fun w => !(wordsOf pa 2).any fun x => w == 16 * lineOf pa + x
      latent := setDel s.latent (lineOf pa) }
    some (s.modCore ag.core fun k => { k with l1i := mapErase k.l1i (va.toNat / 64) })
  | _ => none

/-- Where the next step fetches, if it is an issue at an address below the top of VA that fetches may use. -/
def State.fetchSlot (s : State) : Option State :=
  match s.dueActs, s.acts, s.nextIssue with
  | [], [], some (_, _, h, j) => some (s.focus h (slotNo j))
  | _, _, _ => none

/-- The state with a 32-bit word of code at the place the next step fetches from. -/
def State.placeCode (s : State) (w : Nat) : Option State :=
  match s.fetchSlot with
  | none => none
  | some u =>
    match u.placeHalf u.me.pc (BitVec.ofNat 16 w) with
    | none => none
    | some v => (v.placeHalf (u.me.pc + 2) (BitVec.ofNat 16 (w / 2 ^ 16))).map fun v => v.focus s.curCore s.curSlot

/-- The bench's page: one page of 1 GiB at address 0, in region 0, with every right. -/
def benchRegion : Word := BitVec.ofNat 64 (0x10 * 2 ^ 24 + 4 * 2 ^ 16 + 0x7E + 1)
/-- The leaf of the bench's page: frame 0, owner 0, RD, W and X. -/
def benchLeaf : Word := 0xF
/-- The page-table entries of the bench: root at 0x1_0000, then 0x1_1000, then the leaf table at 0x1_2000. -/
def benchTables : List Host.Cell :=
  Memory.writeN (Memory.writeN (Memory.writeN [] 0x12000 8 benchLeaf.toNat) 0x11000 8 0x12001) 0x10000 8 0x11001
/-- The PC of the bench's slot. -/
def benchPc : Word := 0x20000

/-- A machine with one bound slot, as a launch would leave it: partition 0 on cluster 0, core 0, slot 0, in U mode (log 30). -/
def State.bench : State :=
  let t := { Slot.reset with life := .running, pc := benchPc }
  let k := { Core.reset with
    slots := Core.reset.slots.set (slotNo 0) t, bound := some { part := 0, owner := 0, launch := 1, cls := 1 }, last := some (0, 0)
    position := some 0 }
  let q := { Partition.reset with
    clusters := [0], raf := Partition.reset.raf.set (⟨0, by decide⟩ : Fin 16) benchRegion, owners := [(0, Owner.reset)], queueCount := 64
    posMap := [(0, 0)], used := [(0x11000, 4096), (0x12000, 4096)] }
  { State.reset with mem := benchTables, cores := [(0, k)], parts := [(0, q)] }

/-- The word of a table row's instruction, every bit above the row's zero. -/
def tableWord (nbits w : Nat) : Nat := w % 2 ^ nbits % 2 ^ 32

end Sys2Proof.Machine
end

