-- ==== Sys2Proof/Machine/Step.lean ====
section
/-!
DEFINITION. One step of the part, and the placing of an instruction where the next step fetches.
-/
namespace Sys2Proof.Machine

/-- One step: work that falls in this cycle, one piece of possible work, the issue of one instruction, or the end of the
cycle. -/
def step (s : State) : Host.Outcome State Fault Refusal := s.advanced

/-- The state with an instruction stored where step fetches its next one. Where the next step of `s` is no fetch, the launch
that brings a program to run has yet to happen: it stands for that launch (log 30). -/
def State.withFetchWord (s : State) (nbits w : Nat) : State :=
  match s.placeCode (tableWord nbits w) with
  | some u => u
  | none => (State.bench.placeCode (tableWord nbits w)).getD State.bench

end Sys2Proof.Machine
end

