-- ==== Sys2Proof/Laws/PerInstr.lean ====
section
/-!
SUPPORT. The round trip of every instruction: decoding the bytes of an encoded well-formed instruction gives it back, with
its length (R25, R28-R41, R43). One lemma for each constructor; an event of the part has no encoding.
-/
set_option linter.unusedSimpArgs false

namespace Sys2Proof.Laws.Encoding

/-- Decoding the encoded bytes of a well-formed instruction, whatever follows them, gives the instruction and its length. -/
def Statement (i : Instr) : Prop :=
  i.wf = true → ∀ w rest, encode i = some w →
    decode (bytesOfNumber (encodedLength w) w ++ rest) = .ok (i, encodedLength w)

/-! ### From a word to its bytes and back -/

theorem number_bytes2 (w : Nat) (hw : w < 2 ^ 16) : numberOfBytes (bytesOfNumber 2 w) = w := by
  simp only [bytesOfNumber, numberOfBytes, BitVec.toNat_ofNat]
  omega

theorem number_bytes4 (w : Nat) (hw : w < 2 ^ 32) : numberOfBytes (bytesOfNumber 4 w) = w := by
  simp only [bytesOfNumber, numberOfBytes, BitVec.toNat_ofNat]
  omega

/-- A 32-bit word with bit 0 set decodes by its major opcode. -/
theorem of32 {i : Instr} {w : Nat} (maj : Nat) (rows : Nat → Option (Option Instr)) (rest : List Byte)
    (hmaj : decodeMajor maj w = some (rows w)) (hwf : i.wf = true) (hodd : w % 2 = 1) (hw : w < 2 ^ 32)
    (hm : fieldOf w 6 1 = maj) (hd : rows w = some (some i)) :
    decode (bytesOfNumber (encodedLength w) w ++ rest) = .ok (i, encodedLength w) := by
  have hl : encodedLength w = 4 := by simp [encodedLength, lengthOfHalf, hodd]
  have hb : numberOfBytes (bytesOfNumber 4 w) = w := number_bytes4 w hw
  rw [hl]
  simp only [bytesOfNumber, List.cons_append] at hb ⊢
  have h0 : (BitVec.ofNat 8 w).toNat % 2 ≠ 0 := by simp only [BitVec.toNat_ofNat]; omega
  simp only [decode, h0, if_false, hb, decode32, hm, hmaj, hd, hwf, if_true]
  rfl

/-- A 16-bit word with bit 0 clear decodes by its C16 form. -/
theorem of16 {i : Instr} {w : Nat} (rest : List Byte) (heven : w % 2 = 0) (hw : w < 2 ^ 16) (h : decode16 w = .ok i) :
    decode (bytesOfNumber (encodedLength w) w ++ rest) = .ok (i, encodedLength w) := by
  have hl : encodedLength w = 2 := by simp [encodedLength, lengthOfHalf, heven]
  have hb : numberOfBytes (bytesOfNumber 2 w) = w := number_bytes2 w hw
  rw [hl]
  simp only [bytesOfNumber, List.cons_append] at hb ⊢
  have h0 : (BitVec.ofNat 8 w).toNat % 2 = 0 := by simp only [BitVec.toNat_ofNat]; omega
  simp only [decode, h0, if_true, hb, h]
  rfl

theorem of16s {i : Instr} {w : Nat} (rest : List Byte) (heven : w % 2 = 0) (hlo : 2 ^ 15 ≤ w) (hw : w < 2 ^ 16)
    (h : decodeC16Scalar w = some i) :
    decode (bytesOfNumber (encodedLength w) w ++ rest) = .ok (i, encodedLength w) := by
  apply of16 rest heven hw
  have hk : fieldBool w 15 = true := by simp only [fieldBool, fieldOf, beq_iff_eq]; omega
  have hz : w ≠ 0 := by omega
  simp [decode16, hk, hz, h]

theorem of16v {i : Instr} {w : Nat} (rest : List Byte) (heven : w % 2 = 0) (hz : w ≠ 0) (hw : w < 2 ^ 15)
    (h : decodeC16Lane w = some i) :
    decode (bytesOfNumber (encodedLength w) w ++ rest) = .ok (i, encodedLength w) := by
  apply of16 rest heven (by omega)
  have hk : fieldBool w 15 = false := by
    simp only [fieldBool, fieldOf, beq_eq_false_iff_ne]; omega
  simp [decode16, hk, hz, h]

/-! ### From a field to its operand -/

theorem bits_eq {n : Nat} (x : BitVec n) {w hi lo : Nat} (h : fieldOf w hi lo = x.toNat) : fieldBits w hi lo n = x := by
  apply BitVec.eq_of_toNat_eq
  simp [fieldBits, h]

theorem bool_eq (b : Bool) {w bit : Nat} (h : fieldOf w bit bit = b.toNat) : fieldBool w bit = b := by
  cases b <;> simp [fieldBool, h]

theorem eight_eq (x : BitVec 3) {w hi lo : Nat} (h : fieldOf w hi lo = x.toNat) :
    eightOf (fieldOf w hi lo) = some x := by
  have := x.isLt
  simp [eightOf, h, this]

theorem fmt_lt (x : Fmt) : x.code < 14 := by cases x <;> decide
theorem fmt_eq (x : Fmt) {w hi lo : Nat} (h : fieldOf w hi lo = x.code) : Fmt.ofCode (fieldOf w hi lo) = some x := by
  rw [h]; cases x <;> rfl

theorem laneType_lt (x : LaneType) : x.code < 5 := by cases x <;> decide
theorem laneType_eq (x : LaneType) {w hi lo : Nat} (h : fieldOf w hi lo = x.code) : LaneType.ofCode (fieldOf w hi lo) = some x := by
  rw [h]; cases x <;> rfl

theorem size_lt (x : Size) : x.code < 4 := by cases x <;> decide
theorem size_eq (x : Size) {w hi lo : Nat} (h : fieldOf w hi lo = x.code) : Size.ofCode (fieldOf w hi lo) = some x := by
  rw [h]; cases x <;> rfl

theorem cond_lt (x : Cond) : x.code < 6 := by cases x <;> decide
theorem cond_eq (x : Cond) {w hi lo : Nat} (h : fieldOf w hi lo = x.code) : Cond.ofCode (fieldOf w hi lo) = some x := by
  rw [h]; cases x <;> rfl

theorem vCond_lt (x : VCond) : x.code < 7 := by cases x <;> decide
theorem vCond_eq (x : VCond) {w hi lo : Nat} (h : fieldOf w hi lo = x.code) : VCond.ofCode (fieldOf w hi lo) = some x := by
  rw [h]; cases x <;> rfl

theorem rounding_lt (x : Rounding) : x.code < 5 := by cases x <;> decide
theorem rounding_eq (x : Rounding) {w hi lo : Nat} (h : fieldOf w hi lo = x.code) : Rounding.ofCode (fieldOf w hi lo) = some x := by
  rw [h]; cases x <;> rfl

theorem accClass_lt (x : AccClass) : x.code < 3 := by cases x <;> decide
theorem accClass_eq (x : AccClass) {w hi lo : Nat} (h : fieldOf w hi lo = x.code) : AccClass.ofCode (fieldOf w hi lo) = some x := by
  rw [h]; cases x <;> rfl

theorem actFn_lt (x : ActFn) : x.code < 3 := by cases x <;> decide
theorem actFn_eq (x : ActFn) {w hi lo : Nat} (h : fieldOf w hi lo = x.code) : ActFn.ofCode (fieldOf w hi lo) = some x := by
  rw [h]; cases x <;> rfl

theorem add (d : Reg) (a : Reg) (b : Reg) : Statement (.add d a b) := by
  intro hwf w rest he
  obtain rfl := Option.some.inj he
  have := d.isLt; have := a.isLt; have := b.isLt
  refine of32 0 decodeMajor00 rest rfl hwf (by omega) (by omega) (by simp only [fieldOf]; omega) ?_
  rw [decodeMajor00]
  rw [if_pos (by simp only [fieldOf]; omega)]
  rw [bits_eq d (hi := 11) (lo := 7) (by simp only [fieldOf]; omega), bits_eq a (hi := 16) (lo := 12) (by simp only [fieldOf]; omega), bits_eq b (hi := 21) (lo := 17) (by simp only [fieldOf]; omega)]

theorem sub (d : Reg) (a : Reg) (b : Reg) : Statement (.sub d a b) := by
  intro hwf w rest he
  obtain rfl := Option.some.inj he
  have := d.isLt; have := a.isLt; have := b.isLt
  refine of32 0 decodeMajor00 rest rfl hwf (by omega) (by omega) (by simp only [fieldOf]; omega) ?_
  have f0 : fieldOf (4194305 + d.toNat * 128 + a.toNat * 4096 + b.toNat * 131072) 31 22 = 1 := by simp only [fieldOf]; omega
  simp only [decodeMajor00, f0, Nat.reduceEqDiff, reduceIte, false_and, and_false, and_self, OfNat.zero_ne_ofNat, OfNat.ofNat_ne_zero, OfNat.one_ne_ofNat, OfNat.ofNat_ne_one, zero_ne_one, one_ne_zero]
  rw [bits_eq d (hi := 11) (lo := 7) (by simp only [fieldOf]; omega), bits_eq a (hi := 16) (lo := 12) (by simp only [fieldOf]; omega), bits_eq b (hi := 21) (lo := 17) (by simp only [fieldOf]; omega)]

theorem mul (d : Reg) (a : Reg) (b : Reg) : Statement (.mul d a b) := by
  intro hwf w rest he
  obtain rfl := Option.some.inj he
  have := d.isLt; have := a.isLt; have := b.isLt
  refine of32 0 decodeMajor00 rest rfl hwf (by omega) (by omega) (by simp only [fieldOf]; omega) ?_
  have f0 : fieldOf (8388609 + d.toNat * 128 + a.toNat * 4096 + b.toNat * 131072) 31 22 = 2 := by simp only [fieldOf]; omega
  simp only [decodeMajor00, f0, Nat.reduceEqDiff, reduceIte, false_and, and_false, and_self, OfNat.zero_ne_ofNat, OfNat.ofNat_ne_zero, OfNat.one_ne_ofNat, OfNat.ofNat_ne_one, zero_ne_one, one_ne_zero]
  rw [bits_eq d (hi := 11) (lo := 7) (by simp only [fieldOf]; omega), bits_eq a (hi := 16) (lo := 12) (by simp only [fieldOf]; omega), bits_eq b (hi := 21) (lo := 17) (by simp only [fieldOf]; omega)]

theorem mulh (d : Reg) (a : Reg) (b : Reg) : Statement (.mulh d a b) := by
  intro hwf w rest he
  obtain rfl := Option.some.inj he
  have := d.isLt; have := a.isLt; have := b.isLt
  refine of32 0 decodeMajor00 rest rfl hwf (by omega) (by omega) (by simp only [fieldOf]; omega) ?_
  have f0 : fieldOf (12582913 + d.toNat * 128 + a.toNat * 4096 + b.toNat * 131072) 31 22 = 3 := by simp only [fieldOf]; omega
  simp only [decodeMajor00, f0, Nat.reduceEqDiff, reduceIte, false_and, and_false, and_self, OfNat.zero_ne_ofNat, OfNat.ofNat_ne_zero, OfNat.one_ne_ofNat, OfNat.ofNat_ne_one, zero_ne_one, one_ne_zero]
  rw [bits_eq d (hi := 11) (lo := 7) (by simp only [fieldOf]; omega), bits_eq a (hi := 16) (lo := 12) (by simp only [fieldOf]; omega), bits_eq b (hi := 21) (lo := 17) (by simp only [fieldOf]; omega)]

theorem mulhu (d : Reg) (a : Reg) (b : Reg) : Statement (.mulhu d a b) := by
  intro hwf w rest he
  obtain rfl := Option.some.inj he
  have := d.isLt; have := a.isLt; have := b.isLt
  refine of32 0 decodeMajor00 rest rfl hwf (by omega) (by omega) (by simp only [fieldOf]; omega) ?_
  have f0 : fieldOf (16777217 + d.toNat * 128 + a.toNat * 4096 + b.toNat * 131072) 31 22 = 4 := by simp only [fieldOf]; omega
  simp only [decodeMajor00, f0, Nat.reduceEqDiff, reduceIte, false_and, and_false, and_self, OfNat.zero_ne_ofNat, OfNat.ofNat_ne_zero, OfNat.one_ne_ofNat, OfNat.ofNat_ne_one, zero_ne_one, one_ne_zero]
  rw [bits_eq d (hi := 11) (lo := 7) (by simp only [fieldOf]; omega), bits_eq a (hi := 16) (lo := 12) (by simp only [fieldOf]; omega), bits_eq b (hi := 21) (lo := 17) (by simp only [fieldOf]; omega)]

theorem div (d : Reg) (a : Reg) (b : Reg) : Statement (.div d a b) := by
  intro hwf w rest he
  obtain rfl := Option.some.inj he
  have := d.isLt; have := a.isLt; have := b.isLt
  refine of32 0 decodeMajor00 rest rfl hwf (by omega) (by omega) (by simp only [fieldOf]; omega) ?_
  have f0 : fieldOf (20971521 + d.toNat * 128 + a.toNat * 4096 + b.toNat * 131072) 31 22 = 5 := by simp only [fieldOf]; omega
  simp only [decodeMajor00, f0, Nat.reduceEqDiff, reduceIte, false_and, and_false, and_self, OfNat.zero_ne_ofNat, OfNat.ofNat_ne_zero, OfNat.one_ne_ofNat, OfNat.ofNat_ne_one, zero_ne_one, one_ne_zero]
  rw [bits_eq d (hi := 11) (lo := 7) (by simp only [fieldOf]; omega), bits_eq a (hi := 16) (lo := 12) (by simp only [fieldOf]; omega), bits_eq b (hi := 21) (lo := 17) (by simp only [fieldOf]; omega)]

theorem divu (d : Reg) (a : Reg) (b : Reg) : Statement (.divu d a b) := by
  intro hwf w rest he
  obtain rfl := Option.some.inj he
  have := d.isLt; have := a.isLt; have := b.isLt
  refine of32 0 decodeMajor00 rest rfl hwf (by omega) (by omega) (by simp only [fieldOf]; omega) ?_
  have f0 : fieldOf (25165825 + d.toNat * 128 + a.toNat * 4096 + b.toNat * 131072) 31 22 = 6 := by simp only [fieldOf]; omega
  simp only [decodeMajor00, f0, Nat.reduceEqDiff, reduceIte, false_and, and_false, and_self, OfNat.zero_ne_ofNat, OfNat.ofNat_ne_zero, OfNat.one_ne_ofNat, OfNat.ofNat_ne_one, zero_ne_one, one_ne_zero]
  rw [bits_eq d (hi := 11) (lo := 7) (by simp only [fieldOf]; omega), bits_eq a (hi := 16) (lo := 12) (by simp only [fieldOf]; omega), bits_eq b (hi := 21) (lo := 17) (by simp only [fieldOf]; omega)]

theorem rem (d : Reg) (a : Reg) (b : Reg) : Statement (.rem d a b) := by
  intro hwf w rest he
  obtain rfl := Option.some.inj he
  have := d.isLt; have := a.isLt; have := b.isLt
  refine of32 0 decodeMajor00 rest rfl hwf (by omega) (by omega) (by simp only [fieldOf]; omega) ?_
  have f0 : fieldOf (29360129 + d.toNat * 128 + a.toNat * 4096 + b.toNat * 131072) 31 22 = 7 := by simp only [fieldOf]; omega
  simp only [decodeMajor00, f0, Nat.reduceEqDiff, reduceIte, false_and, and_false, and_self, OfNat.zero_ne_ofNat, OfNat.ofNat_ne_zero, OfNat.one_ne_ofNat, OfNat.ofNat_ne_one, zero_ne_one, one_ne_zero]
  rw [bits_eq d (hi := 11) (lo := 7) (by simp only [fieldOf]; omega), bits_eq a (hi := 16) (lo := 12) (by simp only [fieldOf]; omega), bits_eq b (hi := 21) (lo := 17) (by simp only [fieldOf]; omega)]

theorem remu (d : Reg) (a : Reg) (b : Reg) : Statement (.remu d a b) := by
  intro hwf w rest he
  obtain rfl := Option.some.inj he
  have := d.isLt; have := a.isLt; have := b.isLt
  refine of32 0 decodeMajor00 rest rfl hwf (by omega) (by omega) (by simp only [fieldOf]; omega) ?_
  have f0 : fieldOf (33554433 + d.toNat * 128 + a.toNat * 4096 + b.toNat * 131072) 31 22 = 8 := by simp only [fieldOf]; omega
  simp only [decodeMajor00, f0, Nat.reduceEqDiff, reduceIte, false_and, and_false, and_self, OfNat.zero_ne_ofNat, OfNat.ofNat_ne_zero, OfNat.one_ne_ofNat, OfNat.ofNat_ne_one, zero_ne_one, one_ne_zero]
  rw [bits_eq d (hi := 11) (lo := 7) (by simp only [fieldOf]; omega), bits_eq a (hi := 16) (lo := 12) (by simp only [fieldOf]; omega), bits_eq b (hi := 21) (lo := 17) (by simp only [fieldOf]; omega)]

theorem and (d : Reg) (a : Reg) (b : Reg) : Statement (.and d a b) := by
  intro hwf w rest he
  obtain rfl := Option.some.inj he
  have := d.isLt; have := a.isLt; have := b.isLt
  refine of32 0 decodeMajor00 rest rfl hwf (by omega) (by omega) (by simp only [fieldOf]; omega) ?_
  have f0 : fieldOf (37748737 + d.toNat * 128 + a.toNat * 4096 + b.toNat * 131072) 31 22 = 9 := by simp only [fieldOf]; omega
  simp only [decodeMajor00, f0, Nat.reduceEqDiff, reduceIte, false_and, and_false, and_self, OfNat.zero_ne_ofNat, OfNat.ofNat_ne_zero, OfNat.one_ne_ofNat, OfNat.ofNat_ne_one, zero_ne_one, one_ne_zero]
  rw [bits_eq d (hi := 11) (lo := 7) (by simp only [fieldOf]; omega), bits_eq a (hi := 16) (lo := 12) (by simp only [fieldOf]; omega), bits_eq b (hi := 21) (lo := 17) (by simp only [fieldOf]; omega)]

theorem or (d : Reg) (a : Reg) (b : Reg) : Statement (.or d a b) := by
  intro hwf w rest he
  obtain rfl := Option.some.inj he
  have := d.isLt; have := a.isLt; have := b.isLt
  refine of32 0 decodeMajor00 rest rfl hwf (by omega) (by omega) (by simp only [fieldOf]; omega) ?_
  have f0 : fieldOf (41943041 + d.toNat * 128 + a.toNat * 4096 + b.toNat * 131072) 31 22 = 10 := by simp only [fieldOf]; omega
  simp only [decodeMajor00, f0, Nat.reduceEqDiff, reduceIte, false_and, and_false, and_self, OfNat.zero_ne_ofNat, OfNat.ofNat_ne_zero, OfNat.one_ne_ofNat, OfNat.ofNat_ne_one, zero_ne_one, one_ne_zero]
  rw [bits_eq d (hi := 11) (lo := 7) (by simp only [fieldOf]; omega), bits_eq a (hi := 16) (lo := 12) (by simp only [fieldOf]; omega), bits_eq b (hi := 21) (lo := 17) (by simp only [fieldOf]; omega)]

theorem xor (d : Reg) (a : Reg) (b : Reg) : Statement (.xor d a b) := by
  intro hwf w rest he
  obtain rfl := Option.some.inj he
  have := d.isLt; have := a.isLt; have := b.isLt
  refine of32 0 decodeMajor00 rest rfl hwf (by omega) (by omega) (by simp only [fieldOf]; omega) ?_
  have f0 : fieldOf (46137345 + d.toNat * 128 + a.toNat * 4096 + b.toNat * 131072) 31 22 = 11 := by simp only [fieldOf]; omega
  simp only [decodeMajor00, f0, Nat.reduceEqDiff, reduceIte, false_and, and_false, and_self, OfNat.zero_ne_ofNat, OfNat.ofNat_ne_zero, OfNat.one_ne_ofNat, OfNat.ofNat_ne_one, zero_ne_one, one_ne_zero]
  rw [bits_eq d (hi := 11) (lo := 7) (by simp only [fieldOf]; omega), bits_eq a (hi := 16) (lo := 12) (by simp only [fieldOf]; omega), bits_eq b (hi := 21) (lo := 17) (by simp only [fieldOf]; omega)]

theorem andn (d : Reg) (a : Reg) (b : Reg) : Statement (.andn d a b) := by
  intro hwf w rest he
  obtain rfl := Option.some.inj he
  have := d.isLt; have := a.isLt; have := b.isLt
  refine of32 0 decodeMajor00 rest rfl hwf (by omega) (by omega) (by simp only [fieldOf]; omega) ?_
  have f0 : fieldOf (50331649 + d.toNat * 128 + a.toNat * 4096 + b.toNat * 131072) 31 22 = 12 := by simp only [fieldOf]; omega
  simp only [decodeMajor00, f0, Nat.reduceEqDiff, reduceIte, false_and, and_false, and_self, OfNat.zero_ne_ofNat, OfNat.ofNat_ne_zero, OfNat.one_ne_ofNat, OfNat.ofNat_ne_one, zero_ne_one, one_ne_zero]
  rw [bits_eq d (hi := 11) (lo := 7) (by simp only [fieldOf]; omega), bits_eq a (hi := 16) (lo := 12) (by simp only [fieldOf]; omega), bits_eq b (hi := 21) (lo := 17) (by simp only [fieldOf]; omega)]

theorem shl (d : Reg) (a : Reg) (b : Reg) : Statement (.shl d a b) := by
  intro hwf w rest he
  obtain rfl := Option.some.inj he
  have := d.isLt; have := a.isLt; have := b.isLt
  refine of32 0 decodeMajor00 rest rfl hwf (by omega) (by omega) (by simp only [fieldOf]; omega) ?_
  have f0 : fieldOf (54525953 + d.toNat * 128 + a.toNat * 4096 + b.toNat * 131072) 31 22 = 13 := by simp only [fieldOf]; omega
  simp only [decodeMajor00, f0, Nat.reduceEqDiff, reduceIte, false_and, and_false, and_self, OfNat.zero_ne_ofNat, OfNat.ofNat_ne_zero, OfNat.one_ne_ofNat, OfNat.ofNat_ne_one, zero_ne_one, one_ne_zero]
  rw [bits_eq d (hi := 11) (lo := 7) (by simp only [fieldOf]; omega), bits_eq a (hi := 16) (lo := 12) (by simp only [fieldOf]; omega), bits_eq b (hi := 21) (lo := 17) (by simp only [fieldOf]; omega)]

theorem shr (d : Reg) (a : Reg) (b : Reg) : Statement (.shr d a b) := by
  intro hwf w rest he
  obtain rfl := Option.some.inj he
  have := d.isLt; have := a.isLt; have := b.isLt
  refine of32 0 decodeMajor00 rest rfl hwf (by omega) (by omega) (by simp only [fieldOf]; omega) ?_
  have f0 : fieldOf (58720257 + d.toNat * 128 + a.toNat * 4096 + b.toNat * 131072) 31 22 = 14 := by simp only [fieldOf]; omega
  simp only [decodeMajor00, f0, Nat.reduceEqDiff, reduceIte, false_and, and_false, and_self, OfNat.zero_ne_ofNat, OfNat.ofNat_ne_zero, OfNat.one_ne_ofNat, OfNat.ofNat_ne_one, zero_ne_one, one_ne_zero]
  rw [bits_eq d (hi := 11) (lo := 7) (by simp only [fieldOf]; omega), bits_eq a (hi := 16) (lo := 12) (by simp only [fieldOf]; omega), bits_eq b (hi := 21) (lo := 17) (by simp only [fieldOf]; omega)]

theorem sar (d : Reg) (a : Reg) (b : Reg) : Statement (.sar d a b) := by
  intro hwf w rest he
  obtain rfl := Option.some.inj he
  have := d.isLt; have := a.isLt; have := b.isLt
  refine of32 0 decodeMajor00 rest rfl hwf (by omega) (by omega) (by simp only [fieldOf]; omega) ?_
  have f0 : fieldOf (62914561 + d.toNat * 128 + a.toNat * 4096 + b.toNat * 131072) 31 22 = 15 := by simp only [fieldOf]; omega
  simp only [decodeMajor00, f0, Nat.reduceEqDiff, reduceIte, false_and, and_false, and_self, OfNat.zero_ne_ofNat, OfNat.ofNat_ne_zero, OfNat.one_ne_ofNat, OfNat.ofNat_ne_one, zero_ne_one, one_ne_zero]
  rw [bits_eq d (hi := 11) (lo := 7) (by simp only [fieldOf]; omega), bits_eq a (hi := 16) (lo := 12) (by simp only [fieldOf]; omega), bits_eq b (hi := 21) (lo := 17) (by simp only [fieldOf]; omega)]

theorem rol (d : Reg) (a : Reg) (b : Reg) : Statement (.rol d a b) := by
  intro hwf w rest he
  obtain rfl := Option.some.inj he
  have := d.isLt; have := a.isLt; have := b.isLt
  refine of32 0 decodeMajor00 rest rfl hwf (by omega) (by omega) (by simp only [fieldOf]; omega) ?_
  have f0 : fieldOf (67108865 + d.toNat * 128 + a.toNat * 4096 + b.toNat * 131072) 31 22 = 16 := by simp only [fieldOf]; omega
  simp only [decodeMajor00, f0, Nat.reduceEqDiff, reduceIte, false_and, and_false, and_self, OfNat.zero_ne_ofNat, OfNat.ofNat_ne_zero, OfNat.one_ne_ofNat, OfNat.ofNat_ne_one, zero_ne_one, one_ne_zero]
  rw [bits_eq d (hi := 11) (lo := 7) (by simp only [fieldOf]; omega), bits_eq a (hi := 16) (lo := 12) (by simp only [fieldOf]; omega), bits_eq b (hi := 21) (lo := 17) (by simp only [fieldOf]; omega)]

theorem min (d : Reg) (a : Reg) (b : Reg) : Statement (.min d a b) := by
  intro hwf w rest he
  obtain rfl := Option.some.inj he
  have := d.isLt; have := a.isLt; have := b.isLt
  refine of32 0 decodeMajor00 rest rfl hwf (by omega) (by omega) (by simp only [fieldOf]; omega) ?_
  have f0 : fieldOf (71303169 + d.toNat * 128 + a.toNat * 4096 + b.toNat * 131072) 31 22 = 17 := by simp only [fieldOf]; omega
  simp only [decodeMajor00, f0, Nat.reduceEqDiff, reduceIte, false_and, and_false, and_self, OfNat.zero_ne_ofNat, OfNat.ofNat_ne_zero, OfNat.one_ne_ofNat, OfNat.ofNat_ne_one, zero_ne_one, one_ne_zero]
  rw [bits_eq d (hi := 11) (lo := 7) (by simp only [fieldOf]; omega), bits_eq a (hi := 16) (lo := 12) (by simp only [fieldOf]; omega), bits_eq b (hi := 21) (lo := 17) (by simp only [fieldOf]; omega)]

theorem minu (d : Reg) (a : Reg) (b : Reg) : Statement (.minu d a b) := by
  intro hwf w rest he
  obtain rfl := Option.some.inj he
  have := d.isLt; have := a.isLt; have := b.isLt
  refine of32 0 decodeMajor00 rest rfl hwf (by omega) (by omega) (by simp only [fieldOf]; omega) ?_
  have f0 : fieldOf (75497473 + d.toNat * 128 + a.toNat * 4096 + b.toNat * 131072) 31 22 = 18 := by simp only [fieldOf]; omega
  simp only [decodeMajor00, f0, Nat.reduceEqDiff, reduceIte, false_and, and_false, and_self, OfNat.zero_ne_ofNat, OfNat.ofNat_ne_zero, OfNat.one_ne_ofNat, OfNat.ofNat_ne_one, zero_ne_one, one_ne_zero]
  rw [bits_eq d (hi := 11) (lo := 7) (by simp only [fieldOf]; omega), bits_eq a (hi := 16) (lo := 12) (by simp only [fieldOf]; omega), bits_eq b (hi := 21) (lo := 17) (by simp only [fieldOf]; omega)]

theorem max (d : Reg) (a : Reg) (b : Reg) : Statement (.max d a b) := by
  intro hwf w rest he
  obtain rfl := Option.some.inj he
  have := d.isLt; have := a.isLt; have := b.isLt
  refine of32 0 decodeMajor00 rest rfl hwf (by omega) (by omega) (by simp only [fieldOf]; omega) ?_
  have f0 : fieldOf (79691777 + d.toNat * 128 + a.toNat * 4096 + b.toNat * 131072) 31 22 = 19 := by simp only [fieldOf]; omega
  simp only [decodeMajor00, f0, Nat.reduceEqDiff, reduceIte, false_and, and_false, and_self, OfNat.zero_ne_ofNat, OfNat.ofNat_ne_zero, OfNat.one_ne_ofNat, OfNat.ofNat_ne_one, zero_ne_one, one_ne_zero]
  rw [bits_eq d (hi := 11) (lo := 7) (by simp only [fieldOf]; omega), bits_eq a (hi := 16) (lo := 12) (by simp only [fieldOf]; omega), bits_eq b (hi := 21) (lo := 17) (by simp only [fieldOf]; omega)]

theorem maxu (d : Reg) (a : Reg) (b : Reg) : Statement (.maxu d a b) := by
  intro hwf w rest he
  obtain rfl := Option.some.inj he
  have := d.isLt; have := a.isLt; have := b.isLt
  refine of32 0 decodeMajor00 rest rfl hwf (by omega) (by omega) (by simp only [fieldOf]; omega) ?_
  have f0 : fieldOf (83886081 + d.toNat * 128 + a.toNat * 4096 + b.toNat * 131072) 31 22 = 20 := by simp only [fieldOf]; omega
  simp only [decodeMajor00, f0, Nat.reduceEqDiff, reduceIte, false_and, and_false, and_self, OfNat.zero_ne_ofNat, OfNat.ofNat_ne_zero, OfNat.one_ne_ofNat, OfNat.ofNat_ne_one, zero_ne_one, one_ne_zero]
  rw [bits_eq d (hi := 11) (lo := 7) (by simp only [fieldOf]; omega), bits_eq a (hi := 16) (lo := 12) (by simp only [fieldOf]; omega), bits_eq b (hi := 21) (lo := 17) (by simp only [fieldOf]; omega)]

theorem clz (d : Reg) (a : Reg) : Statement (.clz d a) := by
  intro hwf w rest he
  obtain rfl := Option.some.inj he
  have := d.isLt; have := a.isLt
  refine of32 0 decodeMajor00 rest rfl hwf (by omega) (by omega) (by simp only [fieldOf]; omega) ?_
  have f0 : fieldOf (88080385 + d.toNat * 128 + a.toNat * 4096) 31 22 = 21 := by simp only [fieldOf]; omega
  have f1 : fieldOf (88080385 + d.toNat * 128 + a.toNat * 4096) 31 17 = 672 := by simp only [fieldOf]; omega
  simp only [decodeMajor00, f0, f1, Nat.reduceEqDiff, reduceIte, false_and, and_false, and_self, OfNat.zero_ne_ofNat, OfNat.ofNat_ne_zero, OfNat.one_ne_ofNat, OfNat.ofNat_ne_one, zero_ne_one, one_ne_zero]
  rw [bits_eq d (hi := 11) (lo := 7) (by simp only [fieldOf]; omega), bits_eq a (hi := 16) (lo := 12) (by simp only [fieldOf]; omega)]

theorem popc (d : Reg) (a : Reg) : Statement (.popc d a) := by
  intro hwf w rest he
  obtain rfl := Option.some.inj he
  have := d.isLt; have := a.isLt
  refine of32 0 decodeMajor00 rest rfl hwf (by omega) (by omega) (by simp only [fieldOf]; omega) ?_
  have f0 : fieldOf (92274689 + d.toNat * 128 + a.toNat * 4096) 31 22 = 22 := by simp only [fieldOf]; omega
  have f1 : fieldOf (92274689 + d.toNat * 128 + a.toNat * 4096) 31 17 = 704 := by simp only [fieldOf]; omega
  simp only [decodeMajor00, f0, f1, Nat.reduceEqDiff, reduceIte, false_and, and_false, and_self, OfNat.zero_ne_ofNat, OfNat.ofNat_ne_zero, OfNat.one_ne_ofNat, OfNat.ofNat_ne_one, zero_ne_one, one_ne_zero]
  rw [bits_eq d (hi := 11) (lo := 7) (by simp only [fieldOf]; omega), bits_eq a (hi := 16) (lo := 12) (by simp only [fieldOf]; omega)]

theorem sextB (d : Reg) (a : Reg) : Statement (.sextB d a) := by
  intro hwf w rest he
  obtain rfl := Option.some.inj he
  have := d.isLt; have := a.isLt
  refine of32 0 decodeMajor00 rest rfl hwf (by omega) (by omega) (by simp only [fieldOf]; omega) ?_
  have f0 : fieldOf (96468993 + d.toNat * 128 + a.toNat * 4096) 31 22 = 23 := by simp only [fieldOf]; omega
  have f1 : fieldOf (96468993 + d.toNat * 128 + a.toNat * 4096) 31 17 = 736 := by simp only [fieldOf]; omega
  simp only [decodeMajor00, f0, f1, Nat.reduceEqDiff, reduceIte, false_and, and_false, and_self, OfNat.zero_ne_ofNat, OfNat.ofNat_ne_zero, OfNat.one_ne_ofNat, OfNat.ofNat_ne_one, zero_ne_one, one_ne_zero]
  rw [bits_eq d (hi := 11) (lo := 7) (by simp only [fieldOf]; omega), bits_eq a (hi := 16) (lo := 12) (by simp only [fieldOf]; omega)]

theorem sextH (d : Reg) (a : Reg) : Statement (.sextH d a) := by
  intro hwf w rest he
  obtain rfl := Option.some.inj he
  have := d.isLt; have := a.isLt
  refine of32 0 decodeMajor00 rest rfl hwf (by omega) (by omega) (by simp only [fieldOf]; omega) ?_
  have f0 : fieldOf (100663297 + d.toNat * 128 + a.toNat * 4096) 31 22 = 24 := by simp only [fieldOf]; omega
  have f1 : fieldOf (100663297 + d.toNat * 128 + a.toNat * 4096) 31 17 = 768 := by simp only [fieldOf]; omega
  simp only [decodeMajor00, f0, f1, Nat.reduceEqDiff, reduceIte, false_and, and_false, and_self, OfNat.zero_ne_ofNat, OfNat.ofNat_ne_zero, OfNat.one_ne_ofNat, OfNat.ofNat_ne_one, zero_ne_one, one_ne_zero]
  rw [bits_eq d (hi := 11) (lo := 7) (by simp only [fieldOf]; omega), bits_eq a (hi := 16) (lo := 12) (by simp only [fieldOf]; omega)]

theorem sextW (d : Reg) (a : Reg) : Statement (.sextW d a) := by
  intro hwf w rest he
  obtain rfl := Option.some.inj he
  have := d.isLt; have := a.isLt
  refine of32 0 decodeMajor00 rest rfl hwf (by omega) (by omega) (by simp only [fieldOf]; omega) ?_
  have f0 : fieldOf (104857601 + d.toNat * 128 + a.toNat * 4096) 31 22 = 25 := by simp only [fieldOf]; omega
  have f1 : fieldOf (104857601 + d.toNat * 128 + a.toNat * 4096) 31 17 = 800 := by simp only [fieldOf]; omega
  simp only [decodeMajor00, f0, f1, Nat.reduceEqDiff, reduceIte, false_and, and_false, and_self, OfNat.zero_ne_ofNat, OfNat.ofNat_ne_zero, OfNat.one_ne_ofNat, OfNat.ofNat_ne_one, zero_ne_one, one_ne_zero]
  rw [bits_eq d (hi := 11) (lo := 7) (by simp only [fieldOf]; omega), bits_eq a (hi := 16) (lo := 12) (by simp only [fieldOf]; omega)]

theorem lea1 (d : Reg) (a : Reg) (b : Reg) : Statement (.lea1 d a b) := by
  intro hwf w rest he
  obtain rfl := Option.some.inj he
  have := d.isLt; have := a.isLt; have := b.isLt
  refine of32 0 decodeMajor00 rest rfl hwf (by omega) (by omega) (by simp only [fieldOf]; omega) ?_
  rw [decodeMajor00]
  iterate 26 rw [if_neg (by simp only [fieldOf]; omega)]
  rw [if_pos (by simp only [fieldOf]; omega)]
  rw [bits_eq d (hi := 11) (lo := 7) (by simp only [fieldOf]; omega), bits_eq a (hi := 16) (lo := 12) (by simp only [fieldOf]; omega), bits_eq b (hi := 21) (lo := 17) (by simp only [fieldOf]; omega)]

theorem lea2 (d : Reg) (a : Reg) (b : Reg) : Statement (.lea2 d a b) := by
  intro hwf w rest he
  obtain rfl := Option.some.inj he
  have := d.isLt; have := a.isLt; have := b.isLt
  refine of32 0 decodeMajor00 rest rfl hwf (by omega) (by omega) (by simp only [fieldOf]; omega) ?_
  rw [decodeMajor00]
  iterate 27 rw [if_neg (by simp only [fieldOf]; omega)]
  rw [if_pos (by simp only [fieldOf]; omega)]
  rw [bits_eq d (hi := 11) (lo := 7) (by simp only [fieldOf]; omega), bits_eq a (hi := 16) (lo := 12) (by simp only [fieldOf]; omega), bits_eq b (hi := 21) (lo := 17) (by simp only [fieldOf]; omega)]

theorem lea4 (d : Reg) (a : Reg) (b : Reg) : Statement (.lea4 d a b) := by
  intro hwf w rest he
  obtain rfl := Option.some.inj he
  have := d.isLt; have := a.isLt; have := b.isLt
  refine of32 0 decodeMajor00 rest rfl hwf (by omega) (by omega) (by simp only [fieldOf]; omega) ?_
  rw [decodeMajor00]
  iterate 28 rw [if_neg (by simp only [fieldOf]; omega)]
  rw [if_pos (by simp only [fieldOf]; omega)]
  rw [bits_eq d (hi := 11) (lo := 7) (by simp only [fieldOf]; omega), bits_eq a (hi := 16) (lo := 12) (by simp only [fieldOf]; omega), bits_eq b (hi := 21) (lo := 17) (by simp only [fieldOf]; omega)]

theorem lea8 (d : Reg) (a : Reg) (b : Reg) : Statement (.lea8 d a b) := by
  intro hwf w rest he
  obtain rfl := Option.some.inj he
  have := d.isLt; have := a.isLt; have := b.isLt
  refine of32 0 decodeMajor00 rest rfl hwf (by omega) (by omega) (by simp only [fieldOf]; omega) ?_
  rw [decodeMajor00]
  iterate 29 rw [if_neg (by simp only [fieldOf]; omega)]
  rw [if_pos (by simp only [fieldOf]; omega)]
  rw [bits_eq d (hi := 11) (lo := 7) (by simp only [fieldOf]; omega), bits_eq a (hi := 16) (lo := 12) (by simp only [fieldOf]; omega), bits_eq b (hi := 21) (lo := 17) (by simp only [fieldOf]; omega)]

theorem mov (d : Reg) (a : Reg) : Statement (.mov d a) := by
  intro hwf w rest he
  obtain rfl := Option.some.inj he
  have := d.isLt; have := a.isLt
  refine of32 0 decodeMajor00 rest rfl hwf (by omega) (by omega) (by simp only [fieldOf]; omega) ?_
  have f0 : fieldOf (125829121 + d.toNat * 128 + a.toNat * 4096) 31 22 = 30 := by simp only [fieldOf]; omega
  have f1 : fieldOf (125829121 + d.toNat * 128 + a.toNat * 4096) 31 17 = 960 := by simp only [fieldOf]; omega
  simp only [decodeMajor00, f0, f1, Nat.reduceEqDiff, reduceIte, false_and, and_false, and_self, OfNat.zero_ne_ofNat, OfNat.ofNat_ne_zero, OfNat.one_ne_ofNat, OfNat.ofNat_ne_one, zero_ne_one, one_ne_zero]
  rw [bits_eq d (hi := 11) (lo := 7) (by simp only [fieldOf]; omega), bits_eq a (hi := 16) (lo := 12) (by simp only [fieldOf]; omega)]

theorem ptag (d : Reg) (a : Reg) (b : Reg) : Statement (.ptag d a b) := by
  intro hwf w rest he
  obtain rfl := Option.some.inj he
  have := d.isLt; have := a.isLt; have := b.isLt
  refine of32 0 decodeMajor00 rest rfl hwf (by omega) (by omega) (by simp only [fieldOf]; omega) ?_
  rw [decodeMajor00]
  iterate 31 rw [if_neg (by simp only [fieldOf]; omega)]
  rw [if_pos (by simp only [fieldOf]; omega)]
  rw [bits_eq d (hi := 11) (lo := 7) (by simp only [fieldOf]; omega), bits_eq a (hi := 16) (lo := 12) (by simp only [fieldOf]; omega), bits_eq b (hi := 21) (lo := 17) (by simp only [fieldOf]; omega)]

theorem cMov (d : Reg) (s : Reg) : Statement (.cMov d s) := by
  intro hwf w rest he
  obtain rfl := Option.some.inj he
  have := d.isLt; have := s.isLt
  refine of16s rest (by omega) (by omega) (by omega) ?_
  simp only [decodeC16Scalar, show fieldOf (32768 + d.toNat * 32 + s.toNat * 1024) 4 1 = 0 by simp only [fieldOf]; omega]
  rw [bits_eq d (hi := 9) (lo := 5) (by simp only [fieldOf]; omega), bits_eq s (hi := 14) (lo := 10) (by simp only [fieldOf]; omega)]

theorem cAdd (d : Reg) (s : Reg) : Statement (.cAdd d s) := by
  intro hwf w rest he
  obtain rfl := Option.some.inj he
  have := d.isLt; have := s.isLt
  refine of16s rest (by omega) (by omega) (by omega) ?_
  simp only [decodeC16Scalar, show fieldOf (32770 + d.toNat * 32 + s.toNat * 1024) 4 1 = 1 by simp only [fieldOf]; omega]
  rw [bits_eq d (hi := 9) (lo := 5) (by simp only [fieldOf]; omega), bits_eq s (hi := 14) (lo := 10) (by simp only [fieldOf]; omega)]

theorem cSub (d : Reg) (s : Reg) : Statement (.cSub d s) := by
  intro hwf w rest he
  obtain rfl := Option.some.inj he
  have := d.isLt; have := s.isLt
  refine of16s rest (by omega) (by omega) (by omega) ?_
  simp only [decodeC16Scalar, show fieldOf (32772 + d.toNat * 32 + s.toNat * 1024) 4 1 = 2 by simp only [fieldOf]; omega]
  rw [bits_eq d (hi := 9) (lo := 5) (by simp only [fieldOf]; omega), bits_eq s (hi := 14) (lo := 10) (by simp only [fieldOf]; omega)]

theorem cMul (d : Reg) (s : Reg) : Statement (.cMul d s) := by
  intro hwf w rest he
  obtain rfl := Option.some.inj he
  have := d.isLt; have := s.isLt
  refine of16s rest (by omega) (by omega) (by omega) ?_
  simp only [decodeC16Scalar, show fieldOf (32774 + d.toNat * 32 + s.toNat * 1024) 4 1 = 3 by simp only [fieldOf]; omega]
  rw [bits_eq d (hi := 9) (lo := 5) (by simp only [fieldOf]; omega), bits_eq s (hi := 14) (lo := 10) (by simp only [fieldOf]; omega)]

theorem cAnd (d : Reg) (s : Reg) : Statement (.cAnd d s) := by
  intro hwf w rest he
  obtain rfl := Option.some.inj he
  have := d.isLt; have := s.isLt
  refine of16s rest (by omega) (by omega) (by omega) ?_
  simp only [decodeC16Scalar, show fieldOf (32776 + d.toNat * 32 + s.toNat * 1024) 4 1 = 4 by simp only [fieldOf]; omega]
  rw [bits_eq d (hi := 9) (lo := 5) (by simp only [fieldOf]; omega), bits_eq s (hi := 14) (lo := 10) (by simp only [fieldOf]; omega)]

theorem cOr (d : Reg) (s : Reg) : Statement (.cOr d s) := by
  intro hwf w rest he
  obtain rfl := Option.some.inj he
  have := d.isLt; have := s.isLt
  refine of16s rest (by omega) (by omega) (by omega) ?_
  simp only [decodeC16Scalar, show fieldOf (32778 + d.toNat * 32 + s.toNat * 1024) 4 1 = 5 by simp only [fieldOf]; omega]
  rw [bits_eq d (hi := 9) (lo := 5) (by simp only [fieldOf]; omega), bits_eq s (hi := 14) (lo := 10) (by simp only [fieldOf]; omega)]

theorem cXor (d : Reg) (s : Reg) : Statement (.cXor d s) := by
  intro hwf w rest he
  obtain rfl := Option.some.inj he
  have := d.isLt; have := s.isLt
  refine of16s rest (by omega) (by omega) (by omega) ?_
  simp only [decodeC16Scalar, show fieldOf (32780 + d.toNat * 32 + s.toNat * 1024) 4 1 = 6 by simp only [fieldOf]; omega]
  rw [bits_eq d (hi := 9) (lo := 5) (by simp only [fieldOf]; omega), bits_eq s (hi := 14) (lo := 10) (by simp only [fieldOf]; omega)]

theorem cShl (d : Reg) (s : Reg) : Statement (.cShl d s) := by
  intro hwf w rest he
  obtain rfl := Option.some.inj he
  have := d.isLt; have := s.isLt
  refine of16s rest (by omega) (by omega) (by omega) ?_
  simp only [decodeC16Scalar, show fieldOf (32782 + d.toNat * 32 + s.toNat * 1024) 4 1 = 7 by simp only [fieldOf]; omega]
  rw [bits_eq d (hi := 9) (lo := 5) (by simp only [fieldOf]; omega), bits_eq s (hi := 14) (lo := 10) (by simp only [fieldOf]; omega)]

theorem cShr (d : Reg) (s : Reg) : Statement (.cShr d s) := by
  intro hwf w rest he
  obtain rfl := Option.some.inj he
  have := d.isLt; have := s.isLt
  refine of16s rest (by omega) (by omega) (by omega) ?_
  simp only [decodeC16Scalar, show fieldOf (32784 + d.toNat * 32 + s.toNat * 1024) 4 1 = 8 by simp only [fieldOf]; omega]
  rw [bits_eq d (hi := 9) (lo := 5) (by simp only [fieldOf]; omega), bits_eq s (hi := 14) (lo := 10) (by simp only [fieldOf]; omega)]

theorem cSar (d : Reg) (s : Reg) : Statement (.cSar d s) := by
  intro hwf w rest he
  obtain rfl := Option.some.inj he
  have := d.isLt; have := s.isLt
  refine of16s rest (by omega) (by omega) (by omega) ?_
  simp only [decodeC16Scalar, show fieldOf (32786 + d.toNat * 32 + s.toNat * 1024) 4 1 = 9 by simp only [fieldOf]; omega]
  rw [bits_eq d (hi := 9) (lo := 5) (by simp only [fieldOf]; omega), bits_eq s (hi := 14) (lo := 10) (by simp only [fieldOf]; omega)]

theorem cMin (d : Reg) (s : Reg) : Statement (.cMin d s) := by
  intro hwf w rest he
  obtain rfl := Option.some.inj he
  have := d.isLt; have := s.isLt
  refine of16s rest (by omega) (by omega) (by omega) ?_
  simp only [decodeC16Scalar, show fieldOf (32788 + d.toNat * 32 + s.toNat * 1024) 4 1 = 10 by simp only [fieldOf]; omega]
  rw [bits_eq d (hi := 9) (lo := 5) (by simp only [fieldOf]; omega), bits_eq s (hi := 14) (lo := 10) (by simp only [fieldOf]; omega)]

theorem cMax (d : Reg) (s : Reg) : Statement (.cMax d s) := by
  intro hwf w rest he
  obtain rfl := Option.some.inj he
  have := d.isLt; have := s.isLt
  refine of16s rest (by omega) (by omega) (by omega) ?_
  simp only [decodeC16Scalar, show fieldOf (32790 + d.toNat * 32 + s.toNat * 1024) 4 1 = 11 by simp only [fieldOf]; omega]
  rw [bits_eq d (hi := 9) (lo := 5) (by simp only [fieldOf]; omega), bits_eq s (hi := 14) (lo := 10) (by simp only [fieldOf]; omega)]

theorem cVmov (d : Reg) (s : Reg) : Statement (.cVmov d s) := by
  intro hwf w rest he
  obtain rfl := Option.some.inj he
  have := d.isLt; have := s.isLt
  refine of16v rest (by omega) ?_ (by omega) ?_
  · intro h
    obtain rfl : d = 0 := BitVec.eq_of_toNat_eq (by simp; omega)
    obtain rfl : s = 0 := BitVec.eq_of_toNat_eq (by simp; omega)
    exact absurd hwf (by decide)
  simp only [decodeC16Lane, show fieldOf (0 + d.toNat * 32 + s.toNat * 1024) 4 1 = 0 by simp only [fieldOf]; omega]
  rw [bits_eq d (hi := 9) (lo := 5) (by simp only [fieldOf]; omega), bits_eq s (hi := 14) (lo := 10) (by simp only [fieldOf]; omega)]

theorem cVaddI32 (d : Reg) (s : Reg) : Statement (.cVaddI32 d s) := by
  intro hwf w rest he
  obtain rfl := Option.some.inj he
  have := d.isLt; have := s.isLt
  refine of16v rest (by omega) (by omega) (by omega) ?_
  simp only [decodeC16Lane, show fieldOf (2 + d.toNat * 32 + s.toNat * 1024) 4 1 = 1 by simp only [fieldOf]; omega]
  rw [bits_eq d (hi := 9) (lo := 5) (by simp only [fieldOf]; omega), bits_eq s (hi := 14) (lo := 10) (by simp only [fieldOf]; omega)]

theorem cVsubI32 (d : Reg) (s : Reg) : Statement (.cVsubI32 d s) := by
  intro hwf w rest he
  obtain rfl := Option.some.inj he
  have := d.isLt; have := s.isLt
  refine of16v rest (by omega) (by omega) (by omega) ?_
  simp only [decodeC16Lane, show fieldOf (4 + d.toNat * 32 + s.toNat * 1024) 4 1 = 2 by simp only [fieldOf]; omega]
  rw [bits_eq d (hi := 9) (lo := 5) (by simp only [fieldOf]; omega), bits_eq s (hi := 14) (lo := 10) (by simp only [fieldOf]; omega)]

theorem cVmulI32 (d : Reg) (s : Reg) : Statement (.cVmulI32 d s) := by
  intro hwf w rest he
  obtain rfl := Option.some.inj he
  have := d.isLt; have := s.isLt
  refine of16v rest (by omega) (by omega) (by omega) ?_
  simp only [decodeC16Lane, show fieldOf (6 + d.toNat * 32 + s.toNat * 1024) 4 1 = 3 by simp only [fieldOf]; omega]
  rw [bits_eq d (hi := 9) (lo := 5) (by simp only [fieldOf]; omega), bits_eq s (hi := 14) (lo := 10) (by simp only [fieldOf]; omega)]

theorem cVand (d : Reg) (s : Reg) : Statement (.cVand d s) := by
  intro hwf w rest he
  obtain rfl := Option.some.inj he
  have := d.isLt; have := s.isLt
  refine of16v rest (by omega) (by omega) (by omega) ?_
  simp only [decodeC16Lane, show fieldOf (8 + d.toNat * 32 + s.toNat * 1024) 4 1 = 4 by simp only [fieldOf]; omega]
  rw [bits_eq d (hi := 9) (lo := 5) (by simp only [fieldOf]; omega), bits_eq s (hi := 14) (lo := 10) (by simp only [fieldOf]; omega)]

theorem cVor (d : Reg) (s : Reg) : Statement (.cVor d s) := by
  intro hwf w rest he
  obtain rfl := Option.some.inj he
  have := d.isLt; have := s.isLt
  refine of16v rest (by omega) (by omega) (by omega) ?_
  simp only [decodeC16Lane, show fieldOf (10 + d.toNat * 32 + s.toNat * 1024) 4 1 = 5 by simp only [fieldOf]; omega]
  rw [bits_eq d (hi := 9) (lo := 5) (by simp only [fieldOf]; omega), bits_eq s (hi := 14) (lo := 10) (by simp only [fieldOf]; omega)]

theorem cVxor (d : Reg) (s : Reg) : Statement (.cVxor d s) := by
  intro hwf w rest he
  obtain rfl := Option.some.inj he
  have := d.isLt; have := s.isLt
  refine of16v rest (by omega) (by omega) (by omega) ?_
  simp only [decodeC16Lane, show fieldOf (12 + d.toNat * 32 + s.toNat * 1024) 4 1 = 6 by simp only [fieldOf]; omega]
  rw [bits_eq d (hi := 9) (lo := 5) (by simp only [fieldOf]; omega), bits_eq s (hi := 14) (lo := 10) (by simp only [fieldOf]; omega)]

theorem cVshl (d : Reg) (s : Reg) : Statement (.cVshl d s) := by
  intro hwf w rest he
  obtain rfl := Option.some.inj he
  have := d.isLt; have := s.isLt
  refine of16v rest (by omega) (by omega) (by omega) ?_
  simp only [decodeC16Lane, show fieldOf (14 + d.toNat * 32 + s.toNat * 1024) 4 1 = 7 by simp only [fieldOf]; omega]
  rw [bits_eq d (hi := 9) (lo := 5) (by simp only [fieldOf]; omega), bits_eq s (hi := 14) (lo := 10) (by simp only [fieldOf]; omega)]

theorem cVshr (d : Reg) (s : Reg) : Statement (.cVshr d s) := by
  intro hwf w rest he
  obtain rfl := Option.some.inj he
  have := d.isLt; have := s.isLt
  refine of16v rest (by omega) (by omega) (by omega) ?_
  simp only [decodeC16Lane, show fieldOf (16 + d.toNat * 32 + s.toNat * 1024) 4 1 = 8 by simp only [fieldOf]; omega]
  rw [bits_eq d (hi := 9) (lo := 5) (by simp only [fieldOf]; omega), bits_eq s (hi := 14) (lo := 10) (by simp only [fieldOf]; omega)]

theorem cVsar (d : Reg) (s : Reg) : Statement (.cVsar d s) := by
  intro hwf w rest he
  obtain rfl := Option.some.inj he
  have := d.isLt; have := s.isLt
  refine of16v rest (by omega) (by omega) (by omega) ?_
  simp only [decodeC16Lane, show fieldOf (18 + d.toNat * 32 + s.toNat * 1024) 4 1 = 9 by simp only [fieldOf]; omega]
  rw [bits_eq d (hi := 9) (lo := 5) (by simp only [fieldOf]; omega), bits_eq s (hi := 14) (lo := 10) (by simp only [fieldOf]; omega)]

theorem cVminI32 (d : Reg) (s : Reg) : Statement (.cVminI32 d s) := by
  intro hwf w rest he
  obtain rfl := Option.some.inj he
  have := d.isLt; have := s.isLt
  refine of16v rest (by omega) (by omega) (by omega) ?_
  simp only [decodeC16Lane, show fieldOf (20 + d.toNat * 32 + s.toNat * 1024) 4 1 = 10 by simp only [fieldOf]; omega]
  rw [bits_eq d (hi := 9) (lo := 5) (by simp only [fieldOf]; omega), bits_eq s (hi := 14) (lo := 10) (by simp only [fieldOf]; omega)]

theorem cVmaxI32 (d : Reg) (s : Reg) : Statement (.cVmaxI32 d s) := by
  intro hwf w rest he
  obtain rfl := Option.some.inj he
  have := d.isLt; have := s.isLt
  refine of16v rest (by omega) (by omega) (by omega) ?_
  simp only [decodeC16Lane, show fieldOf (22 + d.toNat * 32 + s.toNat * 1024) 4 1 = 11 by simp only [fieldOf]; omega]
  rw [bits_eq d (hi := 9) (lo := 5) (by simp only [fieldOf]; omega), bits_eq s (hi := 14) (lo := 10) (by simp only [fieldOf]; omega)]

theorem cVaddF32 (d : Reg) (s : Reg) : Statement (.cVaddF32 d s) := by
  intro hwf w rest he
  obtain rfl := Option.some.inj he
  have := d.isLt; have := s.isLt
  refine of16v rest (by omega) (by omega) (by omega) ?_
  simp only [decodeC16Lane, show fieldOf (24 + d.toNat * 32 + s.toNat * 1024) 4 1 = 12 by simp only [fieldOf]; omega]
  rw [bits_eq d (hi := 9) (lo := 5) (by simp only [fieldOf]; omega), bits_eq s (hi := 14) (lo := 10) (by simp only [fieldOf]; omega)]

theorem cVsubF32 (d : Reg) (s : Reg) : Statement (.cVsubF32 d s) := by
  intro hwf w rest he
  obtain rfl := Option.some.inj he
  have := d.isLt; have := s.isLt
  refine of16v rest (by omega) (by omega) (by omega) ?_
  simp only [decodeC16Lane, show fieldOf (26 + d.toNat * 32 + s.toNat * 1024) 4 1 = 13 by simp only [fieldOf]; omega]
  rw [bits_eq d (hi := 9) (lo := 5) (by simp only [fieldOf]; omega), bits_eq s (hi := 14) (lo := 10) (by simp only [fieldOf]; omega)]

theorem cVmulF32 (d : Reg) (s : Reg) : Statement (.cVmulF32 d s) := by
  intro hwf w rest he
  obtain rfl := Option.some.inj he
  have := d.isLt; have := s.isLt
  refine of16v rest (by omega) (by omega) (by omega) ?_
  simp only [decodeC16Lane, show fieldOf (28 + d.toNat * 32 + s.toNat * 1024) 4 1 = 14 by simp only [fieldOf]; omega]
  rw [bits_eq d (hi := 9) (lo := 5) (by simp only [fieldOf]; omega), bits_eq s (hi := 14) (lo := 10) (by simp only [fieldOf]; omega)]

theorem cVmaxF32 (d : Reg) (s : Reg) : Statement (.cVmaxF32 d s) := by
  intro hwf w rest he
  obtain rfl := Option.some.inj he
  have := d.isLt; have := s.isLt
  refine of16v rest (by omega) (by omega) (by omega) ?_
  simp only [decodeC16Lane, show fieldOf (30 + d.toNat * 32 + s.toNat * 1024) 4 1 = 15 by simp only [fieldOf]; omega]
  rw [bits_eq d (hi := 9) (lo := 5) (by simp only [fieldOf]; omega), bits_eq s (hi := 14) (lo := 10) (by simp only [fieldOf]; omega)]

theorem addi (d : Reg) (a : Reg) (i : BitVec 15) : Statement (.addi d a i) := by
  intro hwf w rest he
  obtain rfl := Option.some.inj he
  have := d.isLt; have := a.isLt; have := i.isLt
  refine of32 1 decodeMajor01 rest rfl hwf (by omega) (by omega) (by simp only [fieldOf]; omega) ?_
  rw [decodeMajor01]
  rw [bits_eq d (hi := 11) (lo := 7) (by simp only [fieldOf]; omega), bits_eq a (hi := 16) (lo := 12) (by simp only [fieldOf]; omega), bits_eq i (hi := 31) (lo := 17) (by simp only [fieldOf]; omega)]

theorem andi (d : Reg) (a : Reg) (i : BitVec 15) : Statement (.andi d a i) := by
  intro hwf w rest he
  obtain rfl := Option.some.inj he
  have := d.isLt; have := a.isLt; have := i.isLt
  refine of32 2 decodeMajor02 rest rfl hwf (by omega) (by omega) (by simp only [fieldOf]; omega) ?_
  rw [decodeMajor02]
  rw [bits_eq d (hi := 11) (lo := 7) (by simp only [fieldOf]; omega), bits_eq a (hi := 16) (lo := 12) (by simp only [fieldOf]; omega), bits_eq i (hi := 31) (lo := 17) (by simp only [fieldOf]; omega)]

theorem ori (d : Reg) (a : Reg) (i : BitVec 15) : Statement (.ori d a i) := by
  intro hwf w rest he
  obtain rfl := Option.some.inj he
  have := d.isLt; have := a.isLt; have := i.isLt
  refine of32 3 decodeMajor03 rest rfl hwf (by omega) (by omega) (by simp only [fieldOf]; omega) ?_
  rw [decodeMajor03]
  rw [bits_eq d (hi := 11) (lo := 7) (by simp only [fieldOf]; omega), bits_eq a (hi := 16) (lo := 12) (by simp only [fieldOf]; omega), bits_eq i (hi := 31) (lo := 17) (by simp only [fieldOf]; omega)]

theorem xori (d : Reg) (a : Reg) (i : BitVec 15) : Statement (.xori d a i) := by
  intro hwf w rest he
  obtain rfl := Option.some.inj he
  have := d.isLt; have := a.isLt; have := i.isLt
  refine of32 4 decodeMajor04 rest rfl hwf (by omega) (by omega) (by simp only [fieldOf]; omega) ?_
  rw [decodeMajor04]
  rw [bits_eq d (hi := 11) (lo := 7) (by simp only [fieldOf]; omega), bits_eq a (hi := 16) (lo := 12) (by simp only [fieldOf]; omega), bits_eq i (hi := 31) (lo := 17) (by simp only [fieldOf]; omega)]

theorem shli (d : Reg) (a : Reg) (n : BitVec 6) : Statement (.shli d a n) := by
  intro hwf w rest he
  obtain rfl := Option.some.inj he
  have := d.isLt; have := a.isLt; have := n.isLt
  refine of32 5 decodeMajor05 rest rfl hwf (by omega) (by omega) (by simp only [fieldOf]; omega) ?_
  rw [decodeMajor05]
  rw [if_pos (by simp only [fieldOf]; omega)]
  rw [bits_eq d (hi := 11) (lo := 7) (by simp only [fieldOf]; omega), bits_eq a (hi := 16) (lo := 12) (by simp only [fieldOf]; omega), bits_eq n (hi := 22) (lo := 17) (by simp only [fieldOf]; omega)]

theorem shri (d : Reg) (a : Reg) (n : BitVec 6) : Statement (.shri d a n) := by
  intro hwf w rest he
  obtain rfl := Option.some.inj he
  have := d.isLt; have := a.isLt; have := n.isLt
  refine of32 6 decodeMajor06 rest rfl hwf (by omega) (by omega) (by simp only [fieldOf]; omega) ?_
  rw [decodeMajor06]
  rw [if_pos (by simp only [fieldOf]; omega)]
  rw [bits_eq d (hi := 11) (lo := 7) (by simp only [fieldOf]; omega), bits_eq a (hi := 16) (lo := 12) (by simp only [fieldOf]; omega), bits_eq n (hi := 22) (lo := 17) (by simp only [fieldOf]; omega)]

theorem sari (d : Reg) (a : Reg) (n : BitVec 6) : Statement (.sari d a n) := by
  intro hwf w rest he
  obtain rfl := Option.some.inj he
  have := d.isLt; have := a.isLt; have := n.isLt
  refine of32 7 decodeMajor07 rest rfl hwf (by omega) (by omega) (by simp only [fieldOf]; omega) ?_
  rw [decodeMajor07]
  rw [if_pos (by simp only [fieldOf]; omega)]
  rw [bits_eq d (hi := 11) (lo := 7) (by simp only [fieldOf]; omega), bits_eq a (hi := 16) (lo := 12) (by simp only [fieldOf]; omega), bits_eq n (hi := 22) (lo := 17) (by simp only [fieldOf]; omega)]

theorem li (d : Reg) (i : BitVec 15) : Statement (.li d i) := by
  intro hwf w rest he
  obtain rfl := Option.some.inj he
  have := d.isLt; have := i.isLt
  refine of32 8 decodeMajor08 rest rfl hwf (by omega) (by omega) (by simp only [fieldOf]; omega) ?_
  rw [decodeMajor08]
  rw [if_pos (by simp only [fieldOf]; omega)]
  rw [bits_eq d (hi := 11) (lo := 7) (by simp only [fieldOf]; omega), bits_eq i (hi := 31) (lo := 17) (by simp only [fieldOf]; omega)]

theorem liu (d : Reg) (i : BitVec 20) : Statement (.liu d i) := by
  intro hwf w rest he
  obtain rfl := Option.some.inj he
  have := d.isLt; have := i.isLt
  refine of32 9 decodeMajor09 rest rfl hwf (by omega) (by omega) (by simp only [fieldOf]; omega) ?_
  rw [decodeMajor09]
  rw [bits_eq d (hi := 11) (lo := 7) (by simp only [fieldOf]; omega), bits_eq i (hi := 31) (lo := 12) (by simp only [fieldOf]; omega)]

theorem bfx (d : Reg) (a : Reg) (p : BitVec 6) (l : BitVec 6) : Statement (.bfx d a p l) := by
  intro hwf w rest he
  obtain rfl := Option.some.inj he
  have := d.isLt; have := a.isLt; have := p.isLt; have := l.isLt
  refine of32 10 decodeMajor0A rest rfl hwf (by omega) (by omega) (by simp only [fieldOf]; omega) ?_
  rw [decodeMajor0A]
  rw [if_pos (by simp only [fieldOf]; omega)]
  rw [bits_eq d (hi := 11) (lo := 7) (by simp only [fieldOf]; omega), bits_eq a (hi := 16) (lo := 12) (by simp only [fieldOf]; omega), bits_eq p (hi := 22) (lo := 17) (by simp only [fieldOf]; omega), bits_eq l (hi := 28) (lo := 23) (by simp only [fieldOf]; omega)]

theorem bfi (d : Reg) (a : Reg) (p : BitVec 6) (l : BitVec 6) : Statement (.bfi d a p l) := by
  intro hwf w rest he
  obtain rfl := Option.some.inj he
  have := d.isLt; have := a.isLt; have := p.isLt; have := l.isLt
  refine of32 11 decodeMajor0B rest rfl hwf (by omega) (by omega) (by simp only [fieldOf]; omega) ?_
  rw [decodeMajor0B]
  rw [if_pos (by simp only [fieldOf]; omega)]
  rw [bits_eq d (hi := 11) (lo := 7) (by simp only [fieldOf]; omega), bits_eq a (hi := 16) (lo := 12) (by simp only [fieldOf]; omega), bits_eq p (hi := 22) (lo := 17) (by simp only [fieldOf]; omega), bits_eq l (hi := 28) (lo := 23) (by simp only [fieldOf]; omega)]

theorem cmp (q : PredNo) (a : Reg) (b : Reg) (c : Cond) : Statement (.cmp q a b c) := by
  intro hwf w rest he
  obtain rfl := Option.some.inj he
  have := q.isLt; have := a.isLt; have := b.isLt; have := cond_lt c
  refine of32 12 decodeMajor0C rest rfl hwf (by omega) (by omega) (by simp only [fieldOf]; omega) ?_
  rw [decodeMajor0C]
  rw [if_pos (by simp only [fieldOf]; omega)]
  rw [bits_eq q (hi := 9) (lo := 7) (by simp only [fieldOf]; omega), bits_eq a (hi := 16) (lo := 12) (by simp only [fieldOf]; omega), bits_eq b (hi := 21) (lo := 17) (by simp only [fieldOf]; omega), cond_eq c (hi := 24) (lo := 22) (by simp only [fieldOf]; omega)]
  rfl

theorem cmpi (q : PredNo) (a : Reg) (c : Cond) (i : BitVec 12) : Statement (.cmpi q a c i) := by
  intro hwf w rest he
  obtain rfl := Option.some.inj he
  have := q.isLt; have := a.isLt; have := cond_lt c; have := i.isLt
  refine of32 13 decodeMajor0D rest rfl hwf (by omega) (by omega) (by simp only [fieldOf]; omega) ?_
  rw [decodeMajor0D]
  rw [eight_eq q (hi := 11) (lo := 7) (by simp only [fieldOf]; omega), bits_eq a (hi := 16) (lo := 12) (by simp only [fieldOf]; omega), cond_eq c (hi := 19) (lo := 17) (by simp only [fieldOf]; omega), bits_eq i (hi := 31) (lo := 20) (by simp only [fieldOf]; omega)]
  rfl

theorem plogAnd (d : PredNo) (a : PredNo) (b : PredNo) : Statement (.plogAnd d a b) := by
  intro hwf w rest he
  obtain rfl := Option.some.inj he
  have := d.isLt; have := a.isLt; have := b.isLt
  refine of32 14 decodeMajor0E rest rfl hwf (by omega) (by omega) (by simp only [fieldOf]; omega) ?_
  rw [decodeMajor0E]
  rw [if_pos (by simp only [fieldOf]; omega)]
  rw [eight_eq d (hi := 11) (lo := 7) (by simp only [fieldOf]; omega), eight_eq a (hi := 16) (lo := 12) (by simp only [fieldOf]; omega), eight_eq b (hi := 21) (lo := 17) (by simp only [fieldOf]; omega)]
  rfl

theorem plogOr (d : PredNo) (a : PredNo) (b : PredNo) : Statement (.plogOr d a b) := by
  intro hwf w rest he
  obtain rfl := Option.some.inj he
  have := d.isLt; have := a.isLt; have := b.isLt
  refine of32 14 decodeMajor0E rest rfl hwf (by omega) (by omega) (by simp only [fieldOf]; omega) ?_
  have f0 : fieldOf (4194333 + d.toNat * 128 + a.toNat * 4096 + b.toNat * 131072) 31 22 = 1 := by simp only [fieldOf]; omega
  simp only [decodeMajor0E, f0, Nat.reduceEqDiff, reduceIte, false_and, and_false, and_self, OfNat.zero_ne_ofNat, OfNat.ofNat_ne_zero, OfNat.one_ne_ofNat, OfNat.ofNat_ne_one, zero_ne_one, one_ne_zero]
  rw [eight_eq d (hi := 11) (lo := 7) (by simp only [fieldOf]; omega), eight_eq a (hi := 16) (lo := 12) (by simp only [fieldOf]; omega), eight_eq b (hi := 21) (lo := 17) (by simp only [fieldOf]; omega)]
  rfl

theorem plogXor (d : PredNo) (a : PredNo) (b : PredNo) : Statement (.plogXor d a b) := by
  intro hwf w rest he
  obtain rfl := Option.some.inj he
  have := d.isLt; have := a.isLt; have := b.isLt
  refine of32 14 decodeMajor0E rest rfl hwf (by omega) (by omega) (by simp only [fieldOf]; omega) ?_
  have f0 : fieldOf (8388637 + d.toNat * 128 + a.toNat * 4096 + b.toNat * 131072) 31 22 = 2 := by simp only [fieldOf]; omega
  simp only [decodeMajor0E, f0, Nat.reduceEqDiff, reduceIte, false_and, and_false, and_self, OfNat.zero_ne_ofNat, OfNat.ofNat_ne_zero, OfNat.one_ne_ofNat, OfNat.ofNat_ne_one, zero_ne_one, one_ne_zero]
  rw [eight_eq d (hi := 11) (lo := 7) (by simp only [fieldOf]; omega), eight_eq a (hi := 16) (lo := 12) (by simp only [fieldOf]; omega), eight_eq b (hi := 21) (lo := 17) (by simp only [fieldOf]; omega)]
  rfl

theorem plogAndn (d : PredNo) (a : PredNo) (b : PredNo) : Statement (.plogAndn d a b) := by
  intro hwf w rest he
  obtain rfl := Option.some.inj he
  have := d.isLt; have := a.isLt; have := b.isLt
  refine of32 14 decodeMajor0E rest rfl hwf (by omega) (by omega) (by simp only [fieldOf]; omega) ?_
  have f0 : fieldOf (12582941 + d.toNat * 128 + a.toNat * 4096 + b.toNat * 131072) 31 22 = 3 := by simp only [fieldOf]; omega
  simp only [decodeMajor0E, f0, Nat.reduceEqDiff, reduceIte, false_and, and_false, and_self, OfNat.zero_ne_ofNat, OfNat.ofNat_ne_zero, OfNat.one_ne_ofNat, OfNat.ofNat_ne_one, zero_ne_one, one_ne_zero]
  rw [eight_eq d (hi := 11) (lo := 7) (by simp only [fieldOf]; omega), eight_eq a (hi := 16) (lo := 12) (by simp only [fieldOf]; omega), eight_eq b (hi := 21) (lo := 17) (by simp only [fieldOf]; omega)]
  rfl

theorem plogNot (d : PredNo) (a : PredNo) : Statement (.plogNot d a) := by
  intro hwf w rest he
  obtain rfl := Option.some.inj he
  have := d.isLt; have := a.isLt
  refine of32 14 decodeMajor0E rest rfl hwf (by omega) (by omega) (by simp only [fieldOf]; omega) ?_
  have f0 : fieldOf (16777245 + d.toNat * 128 + a.toNat * 4096) 31 22 = 4 := by simp only [fieldOf]; omega
  have f1 : fieldOf (16777245 + d.toNat * 128 + a.toNat * 4096) 31 17 = 128 := by simp only [fieldOf]; omega
  simp only [decodeMajor0E, f0, f1, Nat.reduceEqDiff, reduceIte, false_and, and_false, and_self, OfNat.zero_ne_ofNat, OfNat.ofNat_ne_zero, OfNat.one_ne_ofNat, OfNat.ofNat_ne_one, zero_ne_one, one_ne_zero]
  rw [eight_eq d (hi := 11) (lo := 7) (by simp only [fieldOf]; omega), eight_eq a (hi := 16) (lo := 12) (by simp only [fieldOf]; omega)]
  rfl

theorem plogSet (d : PredNo) : Statement (.plogSet d) := by
  intro hwf w rest he
  obtain rfl := Option.some.inj he
  have := d.isLt
  refine of32 14 decodeMajor0E rest rfl hwf (by omega) (by omega) (by simp only [fieldOf]; omega) ?_
  have f0 : fieldOf (20971549 + d.toNat * 128) 31 22 = 5 := by simp only [fieldOf]; omega
  have f1 : fieldOf (20971549 + d.toNat * 128) 31 17 = 160 := by simp only [fieldOf]; omega
  have f2 : fieldOf (20971549 + d.toNat * 128) 31 12 = 5120 := by simp only [fieldOf]; omega
  simp only [decodeMajor0E, f0, f1, f2, Nat.reduceEqDiff, reduceIte, false_and, and_false, and_self, OfNat.zero_ne_ofNat, OfNat.ofNat_ne_zero, OfNat.one_ne_ofNat, OfNat.ofNat_ne_one, zero_ne_one, one_ne_zero]
  rw [eight_eq d (hi := 11) (lo := 7) (by simp only [fieldOf]; omega)]
  rfl

theorem plogClr (d : PredNo) : Statement (.plogClr d) := by
  intro hwf w rest he
  obtain rfl := Option.some.inj he
  have := d.isLt
  refine of32 14 decodeMajor0E rest rfl hwf (by omega) (by omega) (by simp only [fieldOf]; omega) ?_
  have f0 : fieldOf (25165853 + d.toNat * 128) 31 22 = 6 := by simp only [fieldOf]; omega
  have f1 : fieldOf (25165853 + d.toNat * 128) 31 17 = 192 := by simp only [fieldOf]; omega
  have f2 : fieldOf (25165853 + d.toNat * 128) 31 12 = 6144 := by simp only [fieldOf]; omega
  simp only [decodeMajor0E, f0, f1, f2, Nat.reduceEqDiff, reduceIte, false_and, and_false, and_self, OfNat.zero_ne_ofNat, OfNat.ofNat_ne_zero, OfNat.one_ne_ofNat, OfNat.ofNat_ne_one, zero_ne_one, one_ne_zero]
  rw [eight_eq d (hi := 11) (lo := 7) (by simp only [fieldOf]; omega)]
  rfl

theorem sel (d : Reg) (a : Reg) (b : Reg) (p : PredNo) (n : Bool) : Statement (.sel d a b p n) := by
  intro hwf w rest he
  obtain rfl := Option.some.inj he
  have := d.isLt; have := a.isLt; have := b.isLt; have := p.isLt; have := n.toNat_lt
  refine of32 15 decodeMajor0F rest rfl hwf (by omega) (by omega) (by simp only [fieldOf]; omega) ?_
  rw [decodeMajor0F]
  rw [if_pos (by simp only [fieldOf]; omega)]
  rw [bits_eq d (hi := 11) (lo := 7) (by simp only [fieldOf]; omega), bits_eq a (hi := 16) (lo := 12) (by simp only [fieldOf]; omega), bits_eq b (hi := 21) (lo := 17) (by simp only [fieldOf]; omega), bits_eq p (hi := 24) (lo := 22) (by simp only [fieldOf]; omega), bool_eq n (bit := 25) (by simp only [fieldOf]; omega)]

theorem br (q : BitVec 4) (n : Bool) (o : BitVec 20) : Statement (.br q n o) := by
  intro hwf w rest he
  obtain rfl := Option.some.inj he
  have := q.isLt; have := n.toNat_lt; have := o.isLt
  refine of32 16 decodeMajor10 rest rfl hwf (by omega) (by omega) (by simp only [fieldOf]; omega) ?_
  rw [decodeMajor10]
  rw [bits_eq q (hi := 10) (lo := 7) (by simp only [fieldOf]; omega), bool_eq n (bit := 11) (by simp only [fieldOf]; omega), bits_eq o (hi := 31) (lo := 12) (by simp only [fieldOf]; omega)]

theorem jal (d : Reg) (i : BitVec 20) : Statement (.jal d i) := by
  intro hwf w rest he
  obtain rfl := Option.some.inj he
  have := d.isLt; have := i.isLt
  refine of32 17 decodeMajor11 rest rfl hwf (by omega) (by omega) (by simp only [fieldOf]; omega) ?_
  rw [decodeMajor11]
  rw [bits_eq d (hi := 11) (lo := 7) (by simp only [fieldOf]; omega), bits_eq i (hi := 31) (lo := 12) (by simp only [fieldOf]; omega)]

theorem jalr (d : Reg) (a : Reg) (i : BitVec 15) : Statement (.jalr d a i) := by
  intro hwf w rest he
  obtain rfl := Option.some.inj he
  have := d.isLt; have := a.isLt; have := i.isLt
  refine of32 18 decodeMajor12 rest rfl hwf (by omega) (by omega) (by simp only [fieldOf]; omega) ?_
  rw [decodeMajor12]
  rw [bits_eq d (hi := 11) (lo := 7) (by simp only [fieldOf]; omega), bits_eq a (hi := 16) (lo := 12) (by simp only [fieldOf]; omega), bits_eq i (hi := 31) (lo := 17) (by simp only [fieldOf]; omega)]

theorem loop (a : Reg) (e : BitVec 15) : Statement (.loop a e) := by
  intro hwf w rest he
  obtain rfl := Option.some.inj he
  have := a.isLt; have := e.isLt
  refine of32 19 decodeMajor13 rest rfl hwf (by omega) (by omega) (by simp only [fieldOf]; omega) ?_
  rw [decodeMajor13]
  rw [if_pos (by simp only [fieldOf]; omega)]
  rw [bits_eq a (hi := 16) (lo := 12) (by simp only [fieldOf]; omega), bits_eq e (hi := 31) (lo := 17) (by simp only [fieldOf]; omega)]

theorem exit : Statement (.exit) := by
  intro hwf w rest he
  obtain rfl := Option.some.inj he
  refine of32 20 decodeMajor14 rest rfl hwf (by omega) (by omega) (by simp only [fieldOf]; omega) ?_
  rw [decodeMajor14]
  rw [if_pos (by simp only [fieldOf]; omega)]

theorem yield : Statement (.yield) := by
  intro hwf w rest he
  obtain rfl := Option.some.inj he
  refine of32 20 decodeMajor14 rest rfl hwf (by omega) (by omega) (by simp only [fieldOf]; omega) ?_
  have f0 : fieldOf (4194345) 31 7 = 32768 := by simp only [fieldOf]; omega
  simp only [decodeMajor14, f0, Nat.reduceEqDiff, reduceIte, false_and, and_false, and_self, OfNat.zero_ne_ofNat, OfNat.ofNat_ne_zero, OfNat.one_ne_ofNat, OfNat.ofNat_ne_one, zero_ne_one, one_ne_zero]

theorem vadd (d : Reg) (a : Reg) (b : Reg) (t : LaneType) : Statement (.vadd d a b t) := by
  intro hwf w rest he
  obtain rfl := Option.some.inj he
  have := d.isLt; have := a.isLt; have := b.isLt; have := laneType_lt t
  refine of32 24 decodeMajor18 rest rfl hwf (by omega) (by omega) (by simp only [fieldOf]; omega) ?_
  rw [decodeMajor18]
  rw [if_pos (by simp only [fieldOf]; omega)]
  rw [bits_eq d (hi := 11) (lo := 7) (by simp only [fieldOf]; omega), bits_eq a (hi := 16) (lo := 12) (by simp only [fieldOf]; omega), bits_eq b (hi := 21) (lo := 17) (by simp only [fieldOf]; omega), laneType_eq t (hi := 31) (lo := 28) (by simp only [fieldOf]; omega)]
  rfl

theorem vsub (d : Reg) (a : Reg) (b : Reg) (t : LaneType) : Statement (.vsub d a b t) := by
  intro hwf w rest he
  obtain rfl := Option.some.inj he
  have := d.isLt; have := a.isLt; have := b.isLt; have := laneType_lt t
  refine of32 24 decodeMajor18 rest rfl hwf (by omega) (by omega) (by simp only [fieldOf]; omega) ?_
  have f0 : fieldOf (4194353 + d.toNat * 128 + a.toNat * 4096 + b.toNat * 131072 + t.code * 268435456) 27 22 = 1 := by simp only [fieldOf]; omega
  simp only [decodeMajor18, f0, Nat.reduceEqDiff, reduceIte, false_and, and_false, and_self, OfNat.zero_ne_ofNat, OfNat.ofNat_ne_zero, OfNat.one_ne_ofNat, OfNat.ofNat_ne_one, zero_ne_one, one_ne_zero]
  rw [bits_eq d (hi := 11) (lo := 7) (by simp only [fieldOf]; omega), bits_eq a (hi := 16) (lo := 12) (by simp only [fieldOf]; omega), bits_eq b (hi := 21) (lo := 17) (by simp only [fieldOf]; omega), laneType_eq t (hi := 31) (lo := 28) (by simp only [fieldOf]; omega)]
  rfl

theorem vmul (d : Reg) (a : Reg) (b : Reg) (t : LaneType) : Statement (.vmul d a b t) := by
  intro hwf w rest he
  obtain rfl := Option.some.inj he
  have := d.isLt; have := a.isLt; have := b.isLt; have := laneType_lt t
  refine of32 24 decodeMajor18 rest rfl hwf (by omega) (by omega) (by simp only [fieldOf]; omega) ?_
  have f0 : fieldOf (8388657 + d.toNat * 128 + a.toNat * 4096 + b.toNat * 131072 + t.code * 268435456) 27 22 = 2 := by simp only [fieldOf]; omega
  simp only [decodeMajor18, f0, Nat.reduceEqDiff, reduceIte, false_and, and_false, and_self, OfNat.zero_ne_ofNat, OfNat.ofNat_ne_zero, OfNat.one_ne_ofNat, OfNat.ofNat_ne_one, zero_ne_one, one_ne_zero]
  rw [bits_eq d (hi := 11) (lo := 7) (by simp only [fieldOf]; omega), bits_eq a (hi := 16) (lo := 12) (by simp only [fieldOf]; omega), bits_eq b (hi := 21) (lo := 17) (by simp only [fieldOf]; omega), laneType_eq t (hi := 31) (lo := 28) (by simp only [fieldOf]; omega)]
  rfl

theorem vmulh (d : Reg) (a : Reg) (b : Reg) : Statement (.vmulh d a b) := by
  intro hwf w rest he
  obtain rfl := Option.some.inj he
  have := d.isLt; have := a.isLt; have := b.isLt
  refine of32 24 decodeMajor18 rest rfl hwf (by omega) (by omega) (by simp only [fieldOf]; omega) ?_
  have f0 : fieldOf (12582961 + d.toNat * 128 + a.toNat * 4096 + b.toNat * 131072) 27 22 = 3 := by simp only [fieldOf]; omega
  have f1 : fieldOf (12582961 + d.toNat * 128 + a.toNat * 4096 + b.toNat * 131072) 31 22 = 3 := by simp only [fieldOf]; omega
  simp only [decodeMajor18, f0, f1, Nat.reduceEqDiff, reduceIte, false_and, and_false, and_self, OfNat.zero_ne_ofNat, OfNat.ofNat_ne_zero, OfNat.one_ne_ofNat, OfNat.ofNat_ne_one, zero_ne_one, one_ne_zero]
  rw [bits_eq d (hi := 11) (lo := 7) (by simp only [fieldOf]; omega), bits_eq a (hi := 16) (lo := 12) (by simp only [fieldOf]; omega), bits_eq b (hi := 21) (lo := 17) (by simp only [fieldOf]; omega)]

theorem vmin (d : Reg) (a : Reg) (b : Reg) (t : LaneType) : Statement (.vmin d a b t) := by
  intro hwf w rest he
  obtain rfl := Option.some.inj he
  have := d.isLt; have := a.isLt; have := b.isLt; have := laneType_lt t
  refine of32 24 decodeMajor18 rest rfl hwf (by omega) (by omega) (by simp only [fieldOf]; omega) ?_
  rw [decodeMajor18]
  iterate 4 rw [if_neg (by simp only [fieldOf]; omega)]
  rw [if_pos (by simp only [fieldOf]; omega)]
  rw [bits_eq d (hi := 11) (lo := 7) (by simp only [fieldOf]; omega), bits_eq a (hi := 16) (lo := 12) (by simp only [fieldOf]; omega), bits_eq b (hi := 21) (lo := 17) (by simp only [fieldOf]; omega), laneType_eq t (hi := 31) (lo := 28) (by simp only [fieldOf]; omega)]
  rfl

theorem vmax (d : Reg) (a : Reg) (b : Reg) (t : LaneType) : Statement (.vmax d a b t) := by
  intro hwf w rest he
  obtain rfl := Option.some.inj he
  have := d.isLt; have := a.isLt; have := b.isLt; have := laneType_lt t
  refine of32 24 decodeMajor18 rest rfl hwf (by omega) (by omega) (by simp only [fieldOf]; omega) ?_
  rw [decodeMajor18]
  iterate 5 rw [if_neg (by simp only [fieldOf]; omega)]
  rw [if_pos (by simp only [fieldOf]; omega)]
  rw [bits_eq d (hi := 11) (lo := 7) (by simp only [fieldOf]; omega), bits_eq a (hi := 16) (lo := 12) (by simp only [fieldOf]; omega), bits_eq b (hi := 21) (lo := 17) (by simp only [fieldOf]; omega), laneType_eq t (hi := 31) (lo := 28) (by simp only [fieldOf]; omega)]
  rfl

theorem vminu (d : Reg) (a : Reg) (b : Reg) : Statement (.vminu d a b) := by
  intro hwf w rest he
  obtain rfl := Option.some.inj he
  have := d.isLt; have := a.isLt; have := b.isLt
  refine of32 24 decodeMajor18 rest rfl hwf (by omega) (by omega) (by simp only [fieldOf]; omega) ?_
  have f0 : fieldOf (25165873 + d.toNat * 128 + a.toNat * 4096 + b.toNat * 131072) 27 22 = 6 := by simp only [fieldOf]; omega
  have f1 : fieldOf (25165873 + d.toNat * 128 + a.toNat * 4096 + b.toNat * 131072) 31 22 = 6 := by simp only [fieldOf]; omega
  simp only [decodeMajor18, f0, f1, Nat.reduceEqDiff, reduceIte, false_and, and_false, and_self, OfNat.zero_ne_ofNat, OfNat.ofNat_ne_zero, OfNat.one_ne_ofNat, OfNat.ofNat_ne_one, zero_ne_one, one_ne_zero]
  rw [bits_eq d (hi := 11) (lo := 7) (by simp only [fieldOf]; omega), bits_eq a (hi := 16) (lo := 12) (by simp only [fieldOf]; omega), bits_eq b (hi := 21) (lo := 17) (by simp only [fieldOf]; omega)]

theorem vmaxu (d : Reg) (a : Reg) (b : Reg) : Statement (.vmaxu d a b) := by
  intro hwf w rest he
  obtain rfl := Option.some.inj he
  have := d.isLt; have := a.isLt; have := b.isLt
  refine of32 24 decodeMajor18 rest rfl hwf (by omega) (by omega) (by simp only [fieldOf]; omega) ?_
  have f0 : fieldOf (29360177 + d.toNat * 128 + a.toNat * 4096 + b.toNat * 131072) 27 22 = 7 := by simp only [fieldOf]; omega
  have f1 : fieldOf (29360177 + d.toNat * 128 + a.toNat * 4096 + b.toNat * 131072) 31 22 = 7 := by simp only [fieldOf]; omega
  simp only [decodeMajor18, f0, f1, Nat.reduceEqDiff, reduceIte, false_and, and_false, and_self, OfNat.zero_ne_ofNat, OfNat.ofNat_ne_zero, OfNat.one_ne_ofNat, OfNat.ofNat_ne_one, zero_ne_one, one_ne_zero]
  rw [bits_eq d (hi := 11) (lo := 7) (by simp only [fieldOf]; omega), bits_eq a (hi := 16) (lo := 12) (by simp only [fieldOf]; omega), bits_eq b (hi := 21) (lo := 17) (by simp only [fieldOf]; omega)]

theorem vand (d : Reg) (a : Reg) (b : Reg) : Statement (.vand d a b) := by
  intro hwf w rest he
  obtain rfl := Option.some.inj he
  have := d.isLt; have := a.isLt; have := b.isLt
  refine of32 24 decodeMajor18 rest rfl hwf (by omega) (by omega) (by simp only [fieldOf]; omega) ?_
  have f0 : fieldOf (33554481 + d.toNat * 128 + a.toNat * 4096 + b.toNat * 131072) 27 22 = 8 := by simp only [fieldOf]; omega
  have f1 : fieldOf (33554481 + d.toNat * 128 + a.toNat * 4096 + b.toNat * 131072) 31 22 = 8 := by simp only [fieldOf]; omega
  simp only [decodeMajor18, f0, f1, Nat.reduceEqDiff, reduceIte, false_and, and_false, and_self, OfNat.zero_ne_ofNat, OfNat.ofNat_ne_zero, OfNat.one_ne_ofNat, OfNat.ofNat_ne_one, zero_ne_one, one_ne_zero]
  rw [bits_eq d (hi := 11) (lo := 7) (by simp only [fieldOf]; omega), bits_eq a (hi := 16) (lo := 12) (by simp only [fieldOf]; omega), bits_eq b (hi := 21) (lo := 17) (by simp only [fieldOf]; omega)]

theorem vor (d : Reg) (a : Reg) (b : Reg) : Statement (.vor d a b) := by
  intro hwf w rest he
  obtain rfl := Option.some.inj he
  have := d.isLt; have := a.isLt; have := b.isLt
  refine of32 24 decodeMajor18 rest rfl hwf (by omega) (by omega) (by simp only [fieldOf]; omega) ?_
  have f0 : fieldOf (37748785 + d.toNat * 128 + a.toNat * 4096 + b.toNat * 131072) 27 22 = 9 := by simp only [fieldOf]; omega
  have f1 : fieldOf (37748785 + d.toNat * 128 + a.toNat * 4096 + b.toNat * 131072) 31 22 = 9 := by simp only [fieldOf]; omega
  simp only [decodeMajor18, f0, f1, Nat.reduceEqDiff, reduceIte, false_and, and_false, and_self, OfNat.zero_ne_ofNat, OfNat.ofNat_ne_zero, OfNat.one_ne_ofNat, OfNat.ofNat_ne_one, zero_ne_one, one_ne_zero]
  rw [bits_eq d (hi := 11) (lo := 7) (by simp only [fieldOf]; omega), bits_eq a (hi := 16) (lo := 12) (by simp only [fieldOf]; omega), bits_eq b (hi := 21) (lo := 17) (by simp only [fieldOf]; omega)]

theorem vxor (d : Reg) (a : Reg) (b : Reg) : Statement (.vxor d a b) := by
  intro hwf w rest he
  obtain rfl := Option.some.inj he
  have := d.isLt; have := a.isLt; have := b.isLt
  refine of32 24 decodeMajor18 rest rfl hwf (by omega) (by omega) (by simp only [fieldOf]; omega) ?_
  have f0 : fieldOf (41943089 + d.toNat * 128 + a.toNat * 4096 + b.toNat * 131072) 27 22 = 10 := by simp only [fieldOf]; omega
  have f1 : fieldOf (41943089 + d.toNat * 128 + a.toNat * 4096 + b.toNat * 131072) 31 22 = 10 := by simp only [fieldOf]; omega
  simp only [decodeMajor18, f0, f1, Nat.reduceEqDiff, reduceIte, false_and, and_false, and_self, OfNat.zero_ne_ofNat, OfNat.ofNat_ne_zero, OfNat.one_ne_ofNat, OfNat.ofNat_ne_one, zero_ne_one, one_ne_zero]
  rw [bits_eq d (hi := 11) (lo := 7) (by simp only [fieldOf]; omega), bits_eq a (hi := 16) (lo := 12) (by simp only [fieldOf]; omega), bits_eq b (hi := 21) (lo := 17) (by simp only [fieldOf]; omega)]

theorem vandn (d : Reg) (a : Reg) (b : Reg) : Statement (.vandn d a b) := by
  intro hwf w rest he
  obtain rfl := Option.some.inj he
  have := d.isLt; have := a.isLt; have := b.isLt
  refine of32 24 decodeMajor18 rest rfl hwf (by omega) (by omega) (by simp only [fieldOf]; omega) ?_
  have f0 : fieldOf (46137393 + d.toNat * 128 + a.toNat * 4096 + b.toNat * 131072) 27 22 = 11 := by simp only [fieldOf]; omega
  have f1 : fieldOf (46137393 + d.toNat * 128 + a.toNat * 4096 + b.toNat * 131072) 31 22 = 11 := by simp only [fieldOf]; omega
  simp only [decodeMajor18, f0, f1, Nat.reduceEqDiff, reduceIte, false_and, and_false, and_self, OfNat.zero_ne_ofNat, OfNat.ofNat_ne_zero, OfNat.one_ne_ofNat, OfNat.ofNat_ne_one, zero_ne_one, one_ne_zero]
  rw [bits_eq d (hi := 11) (lo := 7) (by simp only [fieldOf]; omega), bits_eq a (hi := 16) (lo := 12) (by simp only [fieldOf]; omega), bits_eq b (hi := 21) (lo := 17) (by simp only [fieldOf]; omega)]

theorem vshl (d : Reg) (a : Reg) (b : Reg) : Statement (.vshl d a b) := by
  intro hwf w rest he
  obtain rfl := Option.some.inj he
  have := d.isLt; have := a.isLt; have := b.isLt
  refine of32 24 decodeMajor18 rest rfl hwf (by omega) (by omega) (by simp only [fieldOf]; omega) ?_
  have f0 : fieldOf (50331697 + d.toNat * 128 + a.toNat * 4096 + b.toNat * 131072) 27 22 = 12 := by simp only [fieldOf]; omega
  have f1 : fieldOf (50331697 + d.toNat * 128 + a.toNat * 4096 + b.toNat * 131072) 31 22 = 12 := by simp only [fieldOf]; omega
  simp only [decodeMajor18, f0, f1, Nat.reduceEqDiff, reduceIte, false_and, and_false, and_self, OfNat.zero_ne_ofNat, OfNat.ofNat_ne_zero, OfNat.one_ne_ofNat, OfNat.ofNat_ne_one, zero_ne_one, one_ne_zero]
  rw [bits_eq d (hi := 11) (lo := 7) (by simp only [fieldOf]; omega), bits_eq a (hi := 16) (lo := 12) (by simp only [fieldOf]; omega), bits_eq b (hi := 21) (lo := 17) (by simp only [fieldOf]; omega)]

theorem vshr (d : Reg) (a : Reg) (b : Reg) : Statement (.vshr d a b) := by
  intro hwf w rest he
  obtain rfl := Option.some.inj he
  have := d.isLt; have := a.isLt; have := b.isLt
  refine of32 24 decodeMajor18 rest rfl hwf (by omega) (by omega) (by simp only [fieldOf]; omega) ?_
  have f0 : fieldOf (54526001 + d.toNat * 128 + a.toNat * 4096 + b.toNat * 131072) 27 22 = 13 := by simp only [fieldOf]; omega
  have f1 : fieldOf (54526001 + d.toNat * 128 + a.toNat * 4096 + b.toNat * 131072) 31 22 = 13 := by simp only [fieldOf]; omega
  simp only [decodeMajor18, f0, f1, Nat.reduceEqDiff, reduceIte, false_and, and_false, and_self, OfNat.zero_ne_ofNat, OfNat.ofNat_ne_zero, OfNat.one_ne_ofNat, OfNat.ofNat_ne_one, zero_ne_one, one_ne_zero]
  rw [bits_eq d (hi := 11) (lo := 7) (by simp only [fieldOf]; omega), bits_eq a (hi := 16) (lo := 12) (by simp only [fieldOf]; omega), bits_eq b (hi := 21) (lo := 17) (by simp only [fieldOf]; omega)]

theorem vsar (d : Reg) (a : Reg) (b : Reg) : Statement (.vsar d a b) := by
  intro hwf w rest he
  obtain rfl := Option.some.inj he
  have := d.isLt; have := a.isLt; have := b.isLt
  refine of32 24 decodeMajor18 rest rfl hwf (by omega) (by omega) (by simp only [fieldOf]; omega) ?_
  have f0 : fieldOf (58720305 + d.toNat * 128 + a.toNat * 4096 + b.toNat * 131072) 27 22 = 14 := by simp only [fieldOf]; omega
  have f1 : fieldOf (58720305 + d.toNat * 128 + a.toNat * 4096 + b.toNat * 131072) 31 22 = 14 := by simp only [fieldOf]; omega
  simp only [decodeMajor18, f0, f1, Nat.reduceEqDiff, reduceIte, false_and, and_false, and_self, OfNat.zero_ne_ofNat, OfNat.ofNat_ne_zero, OfNat.one_ne_ofNat, OfNat.ofNat_ne_one, zero_ne_one, one_ne_zero]
  rw [bits_eq d (hi := 11) (lo := 7) (by simp only [fieldOf]; omega), bits_eq a (hi := 16) (lo := 12) (by simp only [fieldOf]; omega), bits_eq b (hi := 21) (lo := 17) (by simp only [fieldOf]; omega)]

theorem vabs (d : Reg) (a : Reg) (t : LaneType) : Statement (.vabs d a t) := by
  intro hwf w rest he
  obtain rfl := Option.some.inj he
  have := d.isLt; have := a.isLt; have := laneType_lt t
  refine of32 24 decodeMajor18 rest rfl hwf (by omega) (by omega) (by simp only [fieldOf]; omega) ?_
  rw [decodeMajor18]
  iterate 15 rw [if_neg (by simp only [fieldOf]; omega)]
  rw [if_pos (by simp only [fieldOf]; omega)]
  rw [bits_eq d (hi := 11) (lo := 7) (by simp only [fieldOf]; omega), bits_eq a (hi := 16) (lo := 12) (by simp only [fieldOf]; omega), laneType_eq t (hi := 31) (lo := 28) (by simp only [fieldOf]; omega)]
  rfl

theorem vneg (d : Reg) (a : Reg) (t : LaneType) : Statement (.vneg d a t) := by
  intro hwf w rest he
  obtain rfl := Option.some.inj he
  have := d.isLt; have := a.isLt; have := laneType_lt t
  refine of32 24 decodeMajor18 rest rfl hwf (by omega) (by omega) (by simp only [fieldOf]; omega) ?_
  rw [decodeMajor18]
  iterate 16 rw [if_neg (by simp only [fieldOf]; omega)]
  rw [if_pos (by simp only [fieldOf]; omega)]
  rw [bits_eq d (hi := 11) (lo := 7) (by simp only [fieldOf]; omega), bits_eq a (hi := 16) (lo := 12) (by simp only [fieldOf]; omega), laneType_eq t (hi := 31) (lo := 28) (by simp only [fieldOf]; omega)]
  rfl

theorem vmov (d : Reg) (a : Reg) : Statement (.vmov d a) := by
  intro hwf w rest he
  obtain rfl := Option.some.inj he
  have := d.isLt; have := a.isLt
  refine of32 24 decodeMajor18 rest rfl hwf (by omega) (by omega) (by simp only [fieldOf]; omega) ?_
  have f0 : fieldOf (71303217 + d.toNat * 128 + a.toNat * 4096) 27 22 = 17 := by simp only [fieldOf]; omega
  have f1 : fieldOf (71303217 + d.toNat * 128 + a.toNat * 4096) 31 22 = 17 := by simp only [fieldOf]; omega
  have f2 : fieldOf (71303217 + d.toNat * 128 + a.toNat * 4096) 27 17 = 544 := by simp only [fieldOf]; omega
  have f3 : fieldOf (71303217 + d.toNat * 128 + a.toNat * 4096) 31 17 = 544 := by simp only [fieldOf]; omega
  simp only [decodeMajor18, f0, f1, f2, f3, Nat.reduceEqDiff, reduceIte, false_and, and_false, and_self, OfNat.zero_ne_ofNat, OfNat.ofNat_ne_zero, OfNat.one_ne_ofNat, OfNat.ofNat_ne_one, zero_ne_one, one_ne_zero]
  rw [bits_eq d (hi := 11) (lo := 7) (by simp only [fieldOf]; omega), bits_eq a (hi := 16) (lo := 12) (by simp only [fieldOf]; omega)]

theorem vsel (d : Reg) (a : Reg) (b : Reg) : Statement (.vsel d a b) := by
  intro hwf w rest he
  obtain rfl := Option.some.inj he
  have := d.isLt; have := a.isLt; have := b.isLt
  refine of32 24 decodeMajor18 rest rfl hwf (by omega) (by omega) (by simp only [fieldOf]; omega) ?_
  rw [decodeMajor18]
  iterate 18 rw [if_neg (by simp only [fieldOf]; omega)]
  rw [if_pos (by simp only [fieldOf]; omega)]
  rw [bits_eq d (hi := 11) (lo := 7) (by simp only [fieldOf]; omega), bits_eq a (hi := 16) (lo := 12) (by simp only [fieldOf]; omega), bits_eq b (hi := 21) (lo := 17) (by simp only [fieldOf]; omega)]

theorem vperm (d : Reg) (a : Reg) (b : Reg) : Statement (.vperm d a b) := by
  intro hwf w rest he
  obtain rfl := Option.some.inj he
  have := d.isLt; have := a.isLt; have := b.isLt
  refine of32 24 decodeMajor18 rest rfl hwf (by omega) (by omega) (by simp only [fieldOf]; omega) ?_
  rw [decodeMajor18]
  iterate 19 rw [if_neg (by simp only [fieldOf]; omega)]
  rw [if_pos (by simp only [fieldOf]; omega)]
  rw [bits_eq d (hi := 11) (lo := 7) (by simp only [fieldOf]; omega), bits_eq a (hi := 16) (lo := 12) (by simp only [fieldOf]; omega), bits_eq b (hi := 21) (lo := 17) (by simp only [fieldOf]; omega)]

theorem vbc (d : Reg) (a : Reg) : Statement (.vbc d a) := by
  intro hwf w rest he
  obtain rfl := Option.some.inj he
  have := d.isLt; have := a.isLt
  refine of32 24 decodeMajor18 rest rfl hwf (by omega) (by omega) (by simp only [fieldOf]; omega) ?_
  have f0 : fieldOf (83886129 + d.toNat * 128 + a.toNat * 4096) 27 22 = 20 := by simp only [fieldOf]; omega
  have f1 : fieldOf (83886129 + d.toNat * 128 + a.toNat * 4096) 31 22 = 20 := by simp only [fieldOf]; omega
  have f2 : fieldOf (83886129 + d.toNat * 128 + a.toNat * 4096) 27 17 = 640 := by simp only [fieldOf]; omega
  have f3 : fieldOf (83886129 + d.toNat * 128 + a.toNat * 4096) 31 17 = 640 := by simp only [fieldOf]; omega
  simp only [decodeMajor18, f0, f1, f2, f3, Nat.reduceEqDiff, reduceIte, false_and, and_false, and_self, OfNat.zero_ne_ofNat, OfNat.ofNat_ne_zero, OfNat.one_ne_ofNat, OfNat.ofNat_ne_one, zero_ne_one, one_ne_zero]
  rw [bits_eq d (hi := 11) (lo := 7) (by simp only [fieldOf]; omega), bits_eq a (hi := 16) (lo := 12) (by simp only [fieldOf]; omega)]

theorem vredAdd (d : Reg) (a : Reg) (t : LaneType) : Statement (.vredAdd d a t) := by
  intro hwf w rest he
  obtain rfl := Option.some.inj he
  have := d.isLt; have := a.isLt; have := laneType_lt t
  refine of32 24 decodeMajor18 rest rfl hwf (by omega) (by omega) (by simp only [fieldOf]; omega) ?_
  rw [decodeMajor18]
  iterate 21 rw [if_neg (by simp only [fieldOf]; omega)]
  rw [if_pos (by simp only [fieldOf]; omega)]
  rw [bits_eq d (hi := 11) (lo := 7) (by simp only [fieldOf]; omega), bits_eq a (hi := 16) (lo := 12) (by simp only [fieldOf]; omega), laneType_eq t (hi := 31) (lo := 28) (by simp only [fieldOf]; omega)]
  rfl

theorem vredMin (d : Reg) (a : Reg) (t : LaneType) : Statement (.vredMin d a t) := by
  intro hwf w rest he
  obtain rfl := Option.some.inj he
  have := d.isLt; have := a.isLt; have := laneType_lt t
  refine of32 24 decodeMajor18 rest rfl hwf (by omega) (by omega) (by simp only [fieldOf]; omega) ?_
  rw [decodeMajor18]
  iterate 22 rw [if_neg (by simp only [fieldOf]; omega)]
  rw [if_pos (by simp only [fieldOf]; omega)]
  rw [bits_eq d (hi := 11) (lo := 7) (by simp only [fieldOf]; omega), bits_eq a (hi := 16) (lo := 12) (by simp only [fieldOf]; omega), laneType_eq t (hi := 31) (lo := 28) (by simp only [fieldOf]; omega)]
  rfl

theorem vredMax (d : Reg) (a : Reg) (t : LaneType) : Statement (.vredMax d a t) := by
  intro hwf w rest he
  obtain rfl := Option.some.inj he
  have := d.isLt; have := a.isLt; have := laneType_lt t
  refine of32 24 decodeMajor18 rest rfl hwf (by omega) (by omega) (by simp only [fieldOf]; omega) ?_
  rw [decodeMajor18]
  iterate 23 rw [if_neg (by simp only [fieldOf]; omega)]
  rw [if_pos (by simp only [fieldOf]; omega)]
  rw [bits_eq d (hi := 11) (lo := 7) (by simp only [fieldOf]; omega), bits_eq a (hi := 16) (lo := 12) (by simp only [fieldOf]; omega), laneType_eq t (hi := 31) (lo := 28) (by simp only [fieldOf]; omega)]
  rfl

theorem vfma (d : Reg) (a : Reg) (b : Reg) (t : LaneType) : Statement (.vfma d a b t) := by
  intro hwf w rest he
  obtain rfl := Option.some.inj he
  have := d.isLt; have := a.isLt; have := b.isLt; have := laneType_lt t
  refine of32 24 decodeMajor18 rest rfl hwf (by omega) (by omega) (by simp only [fieldOf]; omega) ?_
  rw [decodeMajor18]
  iterate 24 rw [if_neg (by simp only [fieldOf]; omega)]
  rw [if_pos (by simp only [fieldOf]; omega)]
  rw [bits_eq d (hi := 11) (lo := 7) (by simp only [fieldOf]; omega), bits_eq a (hi := 16) (lo := 12) (by simp only [fieldOf]; omega), bits_eq b (hi := 21) (lo := 17) (by simp only [fieldOf]; omega), laneType_eq t (hi := 31) (lo := 28) (by simp only [fieldOf]; omega)]
  rfl

theorem vfrcp (d : Reg) (a : Reg) (t : LaneType) : Statement (.vfrcp d a t) := by
  intro hwf w rest he
  obtain rfl := Option.some.inj he
  have := d.isLt; have := a.isLt; have := laneType_lt t
  refine of32 24 decodeMajor18 rest rfl hwf (by omega) (by omega) (by simp only [fieldOf]; omega) ?_
  rw [decodeMajor18]
  iterate 25 rw [if_neg (by simp only [fieldOf]; omega)]
  rw [if_pos (by simp only [fieldOf]; omega)]
  rw [bits_eq d (hi := 11) (lo := 7) (by simp only [fieldOf]; omega), bits_eq a (hi := 16) (lo := 12) (by simp only [fieldOf]; omega), laneType_eq t (hi := 31) (lo := 28) (by simp only [fieldOf]; omega)]
  rfl

theorem vfrsq (d : Reg) (a : Reg) (t : LaneType) : Statement (.vfrsq d a t) := by
  intro hwf w rest he
  obtain rfl := Option.some.inj he
  have := d.isLt; have := a.isLt; have := laneType_lt t
  refine of32 24 decodeMajor18 rest rfl hwf (by omega) (by omega) (by simp only [fieldOf]; omega) ?_
  rw [decodeMajor18]
  iterate 26 rw [if_neg (by simp only [fieldOf]; omega)]
  rw [if_pos (by simp only [fieldOf]; omega)]
  rw [bits_eq d (hi := 11) (lo := 7) (by simp only [fieldOf]; omega), bits_eq a (hi := 16) (lo := 12) (by simp only [fieldOf]; omega), laneType_eq t (hi := 31) (lo := 28) (by simp only [fieldOf]; omega)]
  rfl

theorem vcmp (a : Reg) (b : Reg) (c : VCond) (n : Bool) (t : LaneType) : Statement (.vcmp a b c n t) := by
  intro hwf w rest he
  obtain rfl := Option.some.inj he
  have := a.isLt; have := b.isLt; have := vCond_lt c; have := n.toNat_lt; have := laneType_lt t
  refine of32 25 decodeMajor19 rest rfl hwf (by omega) (by omega) (by simp only [fieldOf]; omega) ?_
  rw [decodeMajor19]
  rw [if_pos (by simp only [fieldOf]; omega)]
  rw [bits_eq a (hi := 16) (lo := 12) (by simp only [fieldOf]; omega), bits_eq b (hi := 21) (lo := 17) (by simp only [fieldOf]; omega), vCond_eq c (hi := 24) (lo := 22) (by simp only [fieldOf]; omega), bool_eq n (bit := 25) (by simp only [fieldOf]; omega), laneType_eq t (hi := 31) (lo := 28) (by simp only [fieldOf]; omega)]
  rfl

theorem vext (d : Reg) (a : Reg) (l : BitVec 4) : Statement (.vext d a l) := by
  intro hwf w rest he
  obtain rfl := Option.some.inj he
  have := d.isLt; have := a.isLt; have := l.isLt
  refine of32 26 decodeMajor1A rest rfl hwf (by omega) (by omega) (by simp only [fieldOf]; omega) ?_
  rw [decodeMajor1A]
  rw [if_pos (by simp only [fieldOf]; omega)]
  rw [bits_eq d (hi := 11) (lo := 7) (by simp only [fieldOf]; omega), bits_eq a (hi := 16) (lo := 12) (by simp only [fieldOf]; omega), bits_eq l (hi := 20) (lo := 17) (by simp only [fieldOf]; omega)]

theorem vins (d : Reg) (a : Reg) (l : BitVec 4) : Statement (.vins d a l) := by
  intro hwf w rest he
  obtain rfl := Option.some.inj he
  have := d.isLt; have := a.isLt; have := l.isLt
  refine of32 26 decodeMajor1A rest rfl hwf (by omega) (by omega) (by simp only [fieldOf]; omega) ?_
  have f0 : fieldOf (2147483701 + d.toNat * 128 + a.toNat * 4096 + l.toNat * 131072) 31 21 = 1024 := by simp only [fieldOf]; omega
  simp only [decodeMajor1A, f0, Nat.reduceEqDiff, reduceIte, false_and, and_false, and_self, OfNat.zero_ne_ofNat, OfNat.ofNat_ne_zero, OfNat.one_ne_ofNat, OfNat.ofNat_ne_one, zero_ne_one, one_ne_zero]
  rw [bits_eq d (hi := 11) (lo := 7) (by simp only [fieldOf]; omega), bits_eq a (hi := 16) (lo := 12) (by simp only [fieldOf]; omega), bits_eq l (hi := 20) (lo := 17) (by simp only [fieldOf]; omega)]

theorem vcvt (d : Reg) (a : Reg) (b : Fmt) (r : Rounding) (s : Bool) (f : Fmt) : Statement (.vcvt d a b r s f) := by
  intro hwf w rest he
  obtain rfl := Option.some.inj he
  have := d.isLt; have := a.isLt; have := fmt_lt b; have := rounding_lt r; have := s.toNat_lt; have := fmt_lt f
  refine of32 27 decodeMajor1B rest rfl hwf (by omega) (by omega) (by simp only [fieldOf]; omega) ?_
  rw [decodeMajor1B]
  rw [if_pos (by simp only [fieldOf]; omega)]
  rw [bits_eq d (hi := 11) (lo := 7) (by simp only [fieldOf]; omega), bits_eq a (hi := 16) (lo := 12) (by simp only [fieldOf]; omega), fmt_eq b (hi := 21) (lo := 17) (by simp only [fieldOf]; omega), rounding_eq r (hi := 24) (lo := 22) (by simp only [fieldOf]; omega), bool_eq s (bit := 25) (by simp only [fieldOf]; omega), fmt_eq f (hi := 31) (lo := 27) (by simp only [fieldOf]; omega)]
  rfl

theorem ld (d : Reg) (a : Reg) (z : Size) (r : Bool) (o : BitVec 12) : Statement (.ld d a z r o) := by
  intro hwf w rest he
  obtain rfl := Option.some.inj he
  have := d.isLt; have := a.isLt; have := size_lt z; have := r.toNat_lt; have := o.isLt
  refine of32 32 decodeMajor20 rest rfl hwf (by omega) (by omega) (by simp only [fieldOf]; omega) ?_
  rw [decodeMajor20]
  rw [bits_eq d (hi := 11) (lo := 7) (by simp only [fieldOf]; omega), bits_eq a (hi := 16) (lo := 12) (by simp only [fieldOf]; omega), size_eq z (hi := 18) (lo := 17) (by simp only [fieldOf]; omega), bool_eq r (bit := 19) (by simp only [fieldOf]; omega), bits_eq o (hi := 31) (lo := 20) (by simp only [fieldOf]; omega)]
  rfl

theorem st (d : Reg) (a : Reg) (z : Size) (r : Bool) (o : BitVec 12) : Statement (.st d a z r o) := by
  intro hwf w rest he
  obtain rfl := Option.some.inj he
  have := d.isLt; have := a.isLt; have := size_lt z; have := r.toNat_lt; have := o.isLt
  refine of32 33 decodeMajor21 rest rfl hwf (by omega) (by omega) (by simp only [fieldOf]; omega) ?_
  rw [decodeMajor21]
  rw [bits_eq d (hi := 11) (lo := 7) (by simp only [fieldOf]; omega), bits_eq a (hi := 16) (lo := 12) (by simp only [fieldOf]; omega), size_eq z (hi := 18) (lo := 17) (by simp only [fieldOf]; omega), bool_eq r (bit := 19) (by simp only [fieldOf]; omega), bits_eq o (hi := 31) (lo := 20) (by simp only [fieldOf]; omega)]
  rfl

theorem ldv (d : Reg) (a : Reg) (r : Bool) (o : BitVec 12) : Statement (.ldv d a r o) := by
  intro hwf w rest he
  obtain rfl := Option.some.inj he
  have := d.isLt; have := a.isLt; have := r.toNat_lt; have := o.isLt
  refine of32 34 decodeMajor22 rest rfl hwf (by omega) (by omega) (by simp only [fieldOf]; omega) ?_
  rw [decodeMajor22]
  rw [if_pos (by simp only [fieldOf]; omega)]
  rw [bits_eq d (hi := 11) (lo := 7) (by simp only [fieldOf]; omega), bits_eq a (hi := 16) (lo := 12) (by simp only [fieldOf]; omega), bool_eq r (bit := 19) (by simp only [fieldOf]; omega), bits_eq o (hi := 31) (lo := 20) (by simp only [fieldOf]; omega)]

theorem stv (d : Reg) (a : Reg) (r : Bool) (o : BitVec 12) : Statement (.stv d a r o) := by
  intro hwf w rest he
  obtain rfl := Option.some.inj he
  have := d.isLt; have := a.isLt; have := r.toNat_lt; have := o.isLt
  refine of32 35 decodeMajor23 rest rfl hwf (by omega) (by omega) (by simp only [fieldOf]; omega) ?_
  rw [decodeMajor23]
  rw [if_pos (by simp only [fieldOf]; omega)]
  rw [bits_eq d (hi := 11) (lo := 7) (by simp only [fieldOf]; omega), bits_eq a (hi := 16) (lo := 12) (by simp only [fieldOf]; omega), bool_eq r (bit := 19) (by simp only [fieldOf]; omega), bits_eq o (hi := 31) (lo := 20) (by simp only [fieldOf]; omega)]

theorem ldb (d : Reg) (a : Reg) (z : Size) (r : Bool) (o : BitVec 12) : Statement (.ldb d a z r o) := by
  intro hwf w rest he
  obtain rfl := Option.some.inj he
  have := d.isLt; have := a.isLt; have := size_lt z; have := r.toNat_lt; have := o.isLt
  refine of32 36 decodeMajor24 rest rfl hwf (by omega) (by omega) (by simp only [fieldOf]; omega) ?_
  rw [decodeMajor24]
  rw [bits_eq d (hi := 11) (lo := 7) (by simp only [fieldOf]; omega), bits_eq a (hi := 16) (lo := 12) (by simp only [fieldOf]; omega), size_eq z (hi := 18) (lo := 17) (by simp only [fieldOf]; omega), bool_eq r (bit := 19) (by simp only [fieldOf]; omega), bits_eq o (hi := 31) (lo := 20) (by simp only [fieldOf]; omega)]
  rfl

theorem ldc (d : Reg) (a : Reg) (z : Size) (r : Bool) (o : BitVec 12) : Statement (.ldc d a z r o) := by
  intro hwf w rest he
  obtain rfl := Option.some.inj he
  have := d.isLt; have := a.isLt; have := size_lt z; have := r.toNat_lt; have := o.isLt
  refine of32 37 decodeMajor25 rest rfl hwf (by omega) (by omega) (by simp only [fieldOf]; omega) ?_
  rw [decodeMajor25]
  rw [bits_eq d (hi := 11) (lo := 7) (by simp only [fieldOf]; omega), bits_eq a (hi := 16) (lo := 12) (by simp only [fieldOf]; omega), size_eq z (hi := 18) (lo := 17) (by simp only [fieldOf]; omega), bool_eq r (bit := 19) (by simp only [fieldOf]; omega), bits_eq o (hi := 31) (lo := 20) (by simp only [fieldOf]; omega)]
  rfl

theorem ldfe (d : Reg) (a : Reg) (r : Bool) (o : BitVec 12) : Statement (.ldfe d a r o) := by
  intro hwf w rest he
  obtain rfl := Option.some.inj he
  have := d.isLt; have := a.isLt; have := r.toNat_lt; have := o.isLt
  refine of32 38 decodeMajor26 rest rfl hwf (by omega) (by omega) (by simp only [fieldOf]; omega) ?_
  rw [decodeMajor26]
  rw [if_pos (by simp only [fieldOf]; omega)]
  rw [bits_eq d (hi := 11) (lo := 7) (by simp only [fieldOf]; omega), bits_eq a (hi := 16) (lo := 12) (by simp only [fieldOf]; omega), bool_eq r (bit := 19) (by simp only [fieldOf]; omega), bits_eq o (hi := 31) (lo := 20) (by simp only [fieldOf]; omega)]

theorem stfe (d : Reg) (a : Reg) (r : Bool) (o : BitVec 12) : Statement (.stfe d a r o) := by
  intro hwf w rest he
  obtain rfl := Option.some.inj he
  have := d.isLt; have := a.isLt; have := r.toNat_lt; have := o.isLt
  refine of32 39 decodeMajor27 rest rfl hwf (by omega) (by omega) (by simp only [fieldOf]; omega) ?_
  rw [decodeMajor27]
  rw [if_pos (by simp only [fieldOf]; omega)]
  rw [bits_eq d (hi := 11) (lo := 7) (by simp only [fieldOf]; omega), bits_eq a (hi := 16) (lo := 12) (by simp only [fieldOf]; omega), bool_eq r (bit := 19) (by simp only [fieldOf]; omega), bits_eq o (hi := 31) (lo := 20) (by simp only [fieldOf]; omega)]

theorem ldff (d : Reg) (a : Reg) (r : Bool) (o : BitVec 12) : Statement (.ldff d a r o) := by
  intro hwf w rest he
  obtain rfl := Option.some.inj he
  have := d.isLt; have := a.isLt; have := r.toNat_lt; have := o.isLt
  refine of32 40 decodeMajor28 rest rfl hwf (by omega) (by omega) (by simp only [fieldOf]; omega) ?_
  rw [decodeMajor28]
  rw [if_pos (by simp only [fieldOf]; omega)]
  rw [bits_eq d (hi := 11) (lo := 7) (by simp only [fieldOf]; omega), bits_eq a (hi := 16) (lo := 12) (by simp only [fieldOf]; omega), bool_eq r (bit := 19) (by simp only [fieldOf]; omega), bits_eq o (hi := 31) (lo := 20) (by simp only [fieldOf]; omega)]

theorem feset (a : Reg) (b : Reg) (s : Bool) : Statement (.feset a b s) := by
  intro hwf w rest he
  obtain rfl := Option.some.inj he
  have := a.isLt; have := b.isLt; have := s.toNat_lt
  refine of32 41 decodeMajor29 rest rfl hwf (by omega) (by omega) (by simp only [fieldOf]; omega) ?_
  rw [decodeMajor29]
  rw [if_pos (by simp only [fieldOf]; omega)]
  rw [bits_eq a (hi := 16) (lo := 12) (by simp only [fieldOf]; omega), bits_eq b (hi := 21) (lo := 17) (by simp only [fieldOf]; omega), bool_eq s (bit := 22) (by simp only [fieldOf]; omega)]

theorem ldg (d : Reg) (a : Reg) (b : Reg) (z : Size) : Statement (.ldg d a b z) := by
  intro hwf w rest he
  obtain rfl := Option.some.inj he
  have := d.isLt; have := a.isLt; have := b.isLt; have := size_lt z
  refine of32 42 decodeMajor2A rest rfl hwf (by omega) (by omega) (by simp only [fieldOf]; omega) ?_
  rw [decodeMajor2A]
  rw [if_pos (by simp only [fieldOf]; omega)]
  rw [bits_eq d (hi := 11) (lo := 7) (by simp only [fieldOf]; omega), bits_eq a (hi := 16) (lo := 12) (by simp only [fieldOf]; omega), bits_eq b (hi := 21) (lo := 17) (by simp only [fieldOf]; omega), size_eq z (hi := 23) (lo := 22) (by simp only [fieldOf]; omega)]
  rfl

theorem sts (d : Reg) (a : Reg) (b : Reg) (z : Size) : Statement (.sts d a b z) := by
  intro hwf w rest he
  obtain rfl := Option.some.inj he
  have := d.isLt; have := a.isLt; have := b.isLt; have := size_lt z
  refine of32 43 decodeMajor2B rest rfl hwf (by omega) (by omega) (by simp only [fieldOf]; omega) ?_
  rw [decodeMajor2B]
  rw [if_pos (by simp only [fieldOf]; omega)]
  rw [bits_eq d (hi := 11) (lo := 7) (by simp only [fieldOf]; omega), bits_eq a (hi := 16) (lo := 12) (by simp only [fieldOf]; omega), bits_eq b (hi := 21) (lo := 17) (by simp only [fieldOf]; omega), size_eq z (hi := 23) (lo := 22) (by simp only [fieldOf]; omega)]
  rfl

theorem pref (h : BitVec 5) (a : Reg) (o : BitVec 12) : Statement (.pref h a o) := by
  intro hwf w rest he
  obtain rfl := Option.some.inj he
  have := h.isLt; have := a.isLt; have := o.isLt
  refine of32 44 decodeMajor2C rest rfl hwf (by omega) (by omega) (by simp only [fieldOf]; omega) ?_
  rw [decodeMajor2C]
  rw [if_pos (by simp only [fieldOf]; omega)]
  rw [bits_eq h (hi := 11) (lo := 7) (by simp only [fieldOf]; omega), bits_eq a (hi := 16) (lo := 12) (by simp only [fieldOf]; omega), bits_eq o (hi := 31) (lo := 20) (by simp only [fieldOf]; omega)]

theorem amoAdd (d : Reg) (a : Reg) (b : Reg) (s : Bool) : Statement (.amoAdd d a b s) := by
  intro hwf w rest he
  obtain rfl := Option.some.inj he
  have := d.isLt; have := a.isLt; have := b.isLt; have := s.toNat_lt
  refine of32 45 decodeMajor2D rest rfl hwf (by omega) (by omega) (by simp only [fieldOf]; omega) ?_
  rw [decodeMajor2D]
  rw [if_pos (by simp only [fieldOf]; omega)]
  rw [bits_eq d (hi := 11) (lo := 7) (by simp only [fieldOf]; omega), bits_eq a (hi := 16) (lo := 12) (by simp only [fieldOf]; omega), bits_eq b (hi := 21) (lo := 17) (by simp only [fieldOf]; omega), bool_eq s (bit := 26) (by simp only [fieldOf]; omega)]

theorem amoAnd (d : Reg) (a : Reg) (b : Reg) (s : Bool) : Statement (.amoAnd d a b s) := by
  intro hwf w rest he
  obtain rfl := Option.some.inj he
  have := d.isLt; have := a.isLt; have := b.isLt; have := s.toNat_lt
  refine of32 45 decodeMajor2D rest rfl hwf (by omega) (by omega) (by simp only [fieldOf]; omega) ?_
  have f0 : fieldOf (4194395 + d.toNat * 128 + a.toNat * 4096 + b.toNat * 131072 + s.toNat * 67108864) 25 22 = 1 := by simp only [fieldOf]; omega
  have f1 : fieldOf (4194395 + d.toNat * 128 + a.toNat * 4096 + b.toNat * 131072 + s.toNat * 67108864) 31 27 = 0 := by simp only [fieldOf]; omega
  simp only [decodeMajor2D, f0, f1, Nat.reduceEqDiff, reduceIte, false_and, and_false, and_self, OfNat.zero_ne_ofNat, OfNat.ofNat_ne_zero, OfNat.one_ne_ofNat, OfNat.ofNat_ne_one, zero_ne_one, one_ne_zero]
  rw [bits_eq d (hi := 11) (lo := 7) (by simp only [fieldOf]; omega), bits_eq a (hi := 16) (lo := 12) (by simp only [fieldOf]; omega), bits_eq b (hi := 21) (lo := 17) (by simp only [fieldOf]; omega), bool_eq s (bit := 26) (by simp only [fieldOf]; omega)]

theorem amoOr (d : Reg) (a : Reg) (b : Reg) (s : Bool) : Statement (.amoOr d a b s) := by
  intro hwf w rest he
  obtain rfl := Option.some.inj he
  have := d.isLt; have := a.isLt; have := b.isLt; have := s.toNat_lt
  refine of32 45 decodeMajor2D rest rfl hwf (by omega) (by omega) (by simp only [fieldOf]; omega) ?_
  have f0 : fieldOf (8388699 + d.toNat * 128 + a.toNat * 4096 + b.toNat * 131072 + s.toNat * 67108864) 25 22 = 2 := by simp only [fieldOf]; omega
  have f1 : fieldOf (8388699 + d.toNat * 128 + a.toNat * 4096 + b.toNat * 131072 + s.toNat * 67108864) 31 27 = 0 := by simp only [fieldOf]; omega
  simp only [decodeMajor2D, f0, f1, Nat.reduceEqDiff, reduceIte, false_and, and_false, and_self, OfNat.zero_ne_ofNat, OfNat.ofNat_ne_zero, OfNat.one_ne_ofNat, OfNat.ofNat_ne_one, zero_ne_one, one_ne_zero]
  rw [bits_eq d (hi := 11) (lo := 7) (by simp only [fieldOf]; omega), bits_eq a (hi := 16) (lo := 12) (by simp only [fieldOf]; omega), bits_eq b (hi := 21) (lo := 17) (by simp only [fieldOf]; omega), bool_eq s (bit := 26) (by simp only [fieldOf]; omega)]

theorem amoXor (d : Reg) (a : Reg) (b : Reg) (s : Bool) : Statement (.amoXor d a b s) := by
  intro hwf w rest he
  obtain rfl := Option.some.inj he
  have := d.isLt; have := a.isLt; have := b.isLt; have := s.toNat_lt
  refine of32 45 decodeMajor2D rest rfl hwf (by omega) (by omega) (by simp only [fieldOf]; omega) ?_
  have f0 : fieldOf (12583003 + d.toNat * 128 + a.toNat * 4096 + b.toNat * 131072 + s.toNat * 67108864) 25 22 = 3 := by simp only [fieldOf]; omega
  have f1 : fieldOf (12583003 + d.toNat * 128 + a.toNat * 4096 + b.toNat * 131072 + s.toNat * 67108864) 31 27 = 0 := by simp only [fieldOf]; omega
  simp only [decodeMajor2D, f0, f1, Nat.reduceEqDiff, reduceIte, false_and, and_false, and_self, OfNat.zero_ne_ofNat, OfNat.ofNat_ne_zero, OfNat.one_ne_ofNat, OfNat.ofNat_ne_one, zero_ne_one, one_ne_zero]
  rw [bits_eq d (hi := 11) (lo := 7) (by simp only [fieldOf]; omega), bits_eq a (hi := 16) (lo := 12) (by simp only [fieldOf]; omega), bits_eq b (hi := 21) (lo := 17) (by simp only [fieldOf]; omega), bool_eq s (bit := 26) (by simp only [fieldOf]; omega)]

theorem amoMin (d : Reg) (a : Reg) (b : Reg) (s : Bool) : Statement (.amoMin d a b s) := by
  intro hwf w rest he
  obtain rfl := Option.some.inj he
  have := d.isLt; have := a.isLt; have := b.isLt; have := s.toNat_lt
  refine of32 45 decodeMajor2D rest rfl hwf (by omega) (by omega) (by simp only [fieldOf]; omega) ?_
  have f0 : fieldOf (16777307 + d.toNat * 128 + a.toNat * 4096 + b.toNat * 131072 + s.toNat * 67108864) 25 22 = 4 := by simp only [fieldOf]; omega
  have f1 : fieldOf (16777307 + d.toNat * 128 + a.toNat * 4096 + b.toNat * 131072 + s.toNat * 67108864) 31 27 = 0 := by simp only [fieldOf]; omega
  simp only [decodeMajor2D, f0, f1, Nat.reduceEqDiff, reduceIte, false_and, and_false, and_self, OfNat.zero_ne_ofNat, OfNat.ofNat_ne_zero, OfNat.one_ne_ofNat, OfNat.ofNat_ne_one, zero_ne_one, one_ne_zero]
  rw [bits_eq d (hi := 11) (lo := 7) (by simp only [fieldOf]; omega), bits_eq a (hi := 16) (lo := 12) (by simp only [fieldOf]; omega), bits_eq b (hi := 21) (lo := 17) (by simp only [fieldOf]; omega), bool_eq s (bit := 26) (by simp only [fieldOf]; omega)]

theorem amoMax (d : Reg) (a : Reg) (b : Reg) (s : Bool) : Statement (.amoMax d a b s) := by
  intro hwf w rest he
  obtain rfl := Option.some.inj he
  have := d.isLt; have := a.isLt; have := b.isLt; have := s.toNat_lt
  refine of32 45 decodeMajor2D rest rfl hwf (by omega) (by omega) (by simp only [fieldOf]; omega) ?_
  have f0 : fieldOf (20971611 + d.toNat * 128 + a.toNat * 4096 + b.toNat * 131072 + s.toNat * 67108864) 25 22 = 5 := by simp only [fieldOf]; omega
  have f1 : fieldOf (20971611 + d.toNat * 128 + a.toNat * 4096 + b.toNat * 131072 + s.toNat * 67108864) 31 27 = 0 := by simp only [fieldOf]; omega
  simp only [decodeMajor2D, f0, f1, Nat.reduceEqDiff, reduceIte, false_and, and_false, and_self, OfNat.zero_ne_ofNat, OfNat.ofNat_ne_zero, OfNat.one_ne_ofNat, OfNat.ofNat_ne_one, zero_ne_one, one_ne_zero]
  rw [bits_eq d (hi := 11) (lo := 7) (by simp only [fieldOf]; omega), bits_eq a (hi := 16) (lo := 12) (by simp only [fieldOf]; omega), bits_eq b (hi := 21) (lo := 17) (by simp only [fieldOf]; omega), bool_eq s (bit := 26) (by simp only [fieldOf]; omega)]

theorem amoMinu (d : Reg) (a : Reg) (b : Reg) (s : Bool) : Statement (.amoMinu d a b s) := by
  intro hwf w rest he
  obtain rfl := Option.some.inj he
  have := d.isLt; have := a.isLt; have := b.isLt; have := s.toNat_lt
  refine of32 45 decodeMajor2D rest rfl hwf (by omega) (by omega) (by simp only [fieldOf]; omega) ?_
  have f0 : fieldOf (25165915 + d.toNat * 128 + a.toNat * 4096 + b.toNat * 131072 + s.toNat * 67108864) 25 22 = 6 := by simp only [fieldOf]; omega
  have f1 : fieldOf (25165915 + d.toNat * 128 + a.toNat * 4096 + b.toNat * 131072 + s.toNat * 67108864) 31 27 = 0 := by simp only [fieldOf]; omega
  simp only [decodeMajor2D, f0, f1, Nat.reduceEqDiff, reduceIte, false_and, and_false, and_self, OfNat.zero_ne_ofNat, OfNat.ofNat_ne_zero, OfNat.one_ne_ofNat, OfNat.ofNat_ne_one, zero_ne_one, one_ne_zero]
  rw [bits_eq d (hi := 11) (lo := 7) (by simp only [fieldOf]; omega), bits_eq a (hi := 16) (lo := 12) (by simp only [fieldOf]; omega), bits_eq b (hi := 21) (lo := 17) (by simp only [fieldOf]; omega), bool_eq s (bit := 26) (by simp only [fieldOf]; omega)]

theorem amoMaxu (d : Reg) (a : Reg) (b : Reg) (s : Bool) : Statement (.amoMaxu d a b s) := by
  intro hwf w rest he
  obtain rfl := Option.some.inj he
  have := d.isLt; have := a.isLt; have := b.isLt; have := s.toNat_lt
  refine of32 45 decodeMajor2D rest rfl hwf (by omega) (by omega) (by simp only [fieldOf]; omega) ?_
  have f0 : fieldOf (29360219 + d.toNat * 128 + a.toNat * 4096 + b.toNat * 131072 + s.toNat * 67108864) 25 22 = 7 := by simp only [fieldOf]; omega
  have f1 : fieldOf (29360219 + d.toNat * 128 + a.toNat * 4096 + b.toNat * 131072 + s.toNat * 67108864) 31 27 = 0 := by simp only [fieldOf]; omega
  simp only [decodeMajor2D, f0, f1, Nat.reduceEqDiff, reduceIte, false_and, and_false, and_self, OfNat.zero_ne_ofNat, OfNat.ofNat_ne_zero, OfNat.one_ne_ofNat, OfNat.ofNat_ne_one, zero_ne_one, one_ne_zero]
  rw [bits_eq d (hi := 11) (lo := 7) (by simp only [fieldOf]; omega), bits_eq a (hi := 16) (lo := 12) (by simp only [fieldOf]; omega), bits_eq b (hi := 21) (lo := 17) (by simp only [fieldOf]; omega), bool_eq s (bit := 26) (by simp only [fieldOf]; omega)]

theorem amoSwap (d : Reg) (a : Reg) (b : Reg) (s : Bool) : Statement (.amoSwap d a b s) := by
  intro hwf w rest he
  obtain rfl := Option.some.inj he
  have := d.isLt; have := a.isLt; have := b.isLt; have := s.toNat_lt
  refine of32 45 decodeMajor2D rest rfl hwf (by omega) (by omega) (by simp only [fieldOf]; omega) ?_
  have f0 : fieldOf (33554523 + d.toNat * 128 + a.toNat * 4096 + b.toNat * 131072 + s.toNat * 67108864) 25 22 = 8 := by simp only [fieldOf]; omega
  have f1 : fieldOf (33554523 + d.toNat * 128 + a.toNat * 4096 + b.toNat * 131072 + s.toNat * 67108864) 31 27 = 0 := by simp only [fieldOf]; omega
  simp only [decodeMajor2D, f0, f1, Nat.reduceEqDiff, reduceIte, false_and, and_false, and_self, OfNat.zero_ne_ofNat, OfNat.ofNat_ne_zero, OfNat.one_ne_ofNat, OfNat.ofNat_ne_one, zero_ne_one, one_ne_zero]
  rw [bits_eq d (hi := 11) (lo := 7) (by simp only [fieldOf]; omega), bits_eq a (hi := 16) (lo := 12) (by simp only [fieldOf]; omega), bits_eq b (hi := 21) (lo := 17) (by simp only [fieldOf]; omega), bool_eq s (bit := 26) (by simp only [fieldOf]; omega)]

theorem amof (d : Reg) (a : Reg) (b : Reg) (s : Bool) : Statement (.amof d a b s) := by
  intro hwf w rest he
  obtain rfl := Option.some.inj he
  have := d.isLt; have := a.isLt; have := b.isLt; have := s.toNat_lt
  refine of32 45 decodeMajor2D rest rfl hwf (by omega) (by omega) (by simp only [fieldOf]; omega) ?_
  have f0 : fieldOf (37748827 + d.toNat * 128 + a.toNat * 4096 + b.toNat * 131072 + s.toNat * 67108864) 25 22 = 9 := by simp only [fieldOf]; omega
  have f1 : fieldOf (37748827 + d.toNat * 128 + a.toNat * 4096 + b.toNat * 131072 + s.toNat * 67108864) 31 27 = 0 := by simp only [fieldOf]; omega
  simp only [decodeMajor2D, f0, f1, Nat.reduceEqDiff, reduceIte, false_and, and_false, and_self, OfNat.zero_ne_ofNat, OfNat.ofNat_ne_zero, OfNat.one_ne_ofNat, OfNat.ofNat_ne_one, zero_ne_one, one_ne_zero]
  rw [bits_eq d (hi := 11) (lo := 7) (by simp only [fieldOf]; omega), bits_eq a (hi := 16) (lo := 12) (by simp only [fieldOf]; omega), bits_eq b (hi := 21) (lo := 17) (by simp only [fieldOf]; omega), bool_eq s (bit := 26) (by simp only [fieldOf]; omega)]

theorem cas (d : Reg) (a : Reg) (b : Reg) (s : Bool) : Statement (.cas d a b s) := by
  intro hwf w rest he
  obtain rfl := Option.some.inj he
  have := d.isLt; have := a.isLt; have := b.isLt; have := s.toNat_lt
  refine of32 46 decodeMajor2E rest rfl hwf (by omega) (by omega) (by simp only [fieldOf]; omega) ?_
  rw [decodeMajor2E]
  rw [if_pos (by simp only [fieldOf]; omega)]
  rw [bits_eq d (hi := 11) (lo := 7) (by simp only [fieldOf]; omega), bits_eq a (hi := 16) (lo := 12) (by simp only [fieldOf]; omega), bits_eq b (hi := 21) (lo := 17) (by simp only [fieldOf]; omega), bool_eq s (bit := 22) (by simp only [fieldOf]; omega)]

theorem lda (d : Reg) (a : Reg) (z : Size) (o : BitVec 12) : Statement (.lda d a z o) := by
  intro hwf w rest he
  obtain rfl := Option.some.inj he
  have := d.isLt; have := a.isLt; have := size_lt z; have := o.isLt
  refine of32 47 decodeMajor2F rest rfl hwf (by omega) (by omega) (by simp only [fieldOf]; omega) ?_
  rw [decodeMajor2F]
  rw [if_pos (by simp only [fieldOf]; omega)]
  rw [bits_eq d (hi := 11) (lo := 7) (by simp only [fieldOf]; omega), bits_eq a (hi := 16) (lo := 12) (by simp only [fieldOf]; omega), size_eq z (hi := 18) (lo := 17) (by simp only [fieldOf]; omega), bits_eq o (hi := 31) (lo := 20) (by simp only [fieldOf]; omega)]
  rfl

theorem stl (d : Reg) (a : Reg) (z : Size) (o : BitVec 12) : Statement (.stl d a z o) := by
  intro hwf w rest he
  obtain rfl := Option.some.inj he
  have := d.isLt; have := a.isLt; have := size_lt z; have := o.isLt
  refine of32 48 decodeMajor30 rest rfl hwf (by omega) (by omega) (by simp only [fieldOf]; omega) ?_
  rw [decodeMajor30]
  rw [if_pos (by simp only [fieldOf]; omega)]
  rw [bits_eq d (hi := 11) (lo := 7) (by simp only [fieldOf]; omega), bits_eq a (hi := 16) (lo := 12) (by simp only [fieldOf]; omega), size_eq z (hi := 18) (lo := 17) (by simp only [fieldOf]; omega), bits_eq o (hi := 31) (lo := 20) (by simp only [fieldOf]; omega)]
  rfl

theorem facq : Statement (.facq) := by
  intro hwf w rest he
  obtain rfl := Option.some.inj he
  refine of32 49 decodeMajor31 rest rfl hwf (by omega) (by omega) (by simp only [fieldOf]; omega) ?_
  rw [decodeMajor31]
  rw [if_pos (by simp only [fieldOf]; omega)]

theorem frel : Statement (.frel) := by
  intro hwf w rest he
  obtain rfl := Option.some.inj he
  refine of32 49 decodeMajor31 rest rfl hwf (by omega) (by omega) (by simp only [fieldOf]; omega) ?_
  have f0 : fieldOf (4194403) 31 7 = 32768 := by simp only [fieldOf]; omega
  simp only [decodeMajor31, f0, Nat.reduceEqDiff, reduceIte, false_and, and_false, and_self, OfNat.zero_ne_ofNat, OfNat.ofNat_ne_zero, OfNat.one_ne_ofNat, OfNat.ofNat_ne_one, zero_ne_one, one_ne_zero]

theorem fseq : Statement (.fseq) := by
  intro hwf w rest he
  obtain rfl := Option.some.inj he
  refine of32 49 decodeMajor31 rest rfl hwf (by omega) (by omega) (by simp only [fieldOf]; omega) ?_
  have f0 : fieldOf (8388707) 31 7 = 65536 := by simp only [fieldOf]; omega
  simp only [decodeMajor31, f0, Nat.reduceEqDiff, reduceIte, false_and, and_false, and_self, OfNat.zero_ne_ofNat, OfNat.ofNat_ne_zero, OfNat.one_ne_ofNat, OfNat.ofNat_ne_one, zero_ne_one, one_ne_zero]

theorem fcon : Statement (.fcon) := by
  intro hwf w rest he
  obtain rfl := Option.some.inj he
  refine of32 49 decodeMajor31 rest rfl hwf (by omega) (by omega) (by simp only [fieldOf]; omega) ?_
  have f0 : fieldOf (12583011) 31 7 = 98304 := by simp only [fieldOf]; omega
  simp only [decodeMajor31, f0, Nat.reduceEqDiff, reduceIte, false_and, and_false, and_self, OfNat.zero_ne_ofNat, OfNat.ofNat_ne_zero, OfNat.one_ne_ofNat, OfNat.ofNat_ne_one, zero_ne_one, one_ne_zero]

theorem cpy (d : BitVec 4) (a : Reg) (r : Bool) (f : Bool) (s : Bool) (c : Bool) (q : BitVec 2) : Statement (.cpy d a r f s c q) := by
  intro hwf w rest he
  obtain rfl := Option.some.inj he
  have := d.isLt; have := a.isLt; have := r.toNat_lt; have := f.toNat_lt; have := s.toNat_lt; have := c.toNat_lt; have := q.isLt
  refine of32 50 decodeMajor32 rest rfl hwf (by omega) (by omega) (by simp only [fieldOf]; omega) ?_
  rw [decodeMajor32]
  rw [if_pos (by simp only [fieldOf]; omega)]
  rw [bits_eq d (hi := 10) (lo := 7) (by simp only [fieldOf]; omega), bits_eq a (hi := 16) (lo := 12) (by simp only [fieldOf]; omega), bool_eq r (bit := 22) (by simp only [fieldOf]; omega), bool_eq f (bit := 23) (by simp only [fieldOf]; omega), bool_eq s (bit := 24) (by simp only [fieldOf]; omega), bool_eq c (bit := 25) (by simp only [fieldOf]; omega), bits_eq q (hi := 30) (lo := 29) (by simp only [fieldOf]; omega)]

theorem gth (d : BitVec 4) (a : Reg) (f : Bool) (s : Bool) (c : Bool) (q : BitVec 1) : Statement (.gth d a f s c q) := by
  intro hwf w rest he
  obtain rfl := Option.some.inj he
  have := d.isLt; have := a.isLt; have := f.toNat_lt; have := s.toNat_lt; have := c.toNat_lt; have := q.isLt
  refine of32 50 decodeMajor32 rest rfl hwf (by omega) (by omega) (by simp only [fieldOf]; omega) ?_
  have f0 : fieldOf (2147483749 + d.toNat * 128 + a.toNat * 4096 + f.toNat * 8388608 + s.toNat * 16777216 + c.toNat * 33554432 + q.toNat * 536870912) 11 11 = 0 := by simp only [fieldOf]; omega
  have f1 : fieldOf (2147483749 + d.toNat * 128 + a.toNat * 4096 + f.toNat * 8388608 + s.toNat * 16777216 + c.toNat * 33554432 + q.toNat * 536870912) 21 17 = 0 := by simp only [fieldOf]; omega
  have f2 : fieldOf (2147483749 + d.toNat * 128 + a.toNat * 4096 + f.toNat * 8388608 + s.toNat * 16777216 + c.toNat * 33554432 + q.toNat * 536870912) 28 26 = 0 := by simp only [fieldOf]; omega
  have f3 : fieldOf (2147483749 + d.toNat * 128 + a.toNat * 4096 + f.toNat * 8388608 + s.toNat * 16777216 + c.toNat * 33554432 + q.toNat * 536870912) 31 31 = 1 := by simp only [fieldOf]; omega
  have f4 : fieldOf (2147483749 + d.toNat * 128 + a.toNat * 4096 + f.toNat * 8388608 + s.toNat * 16777216 + c.toNat * 33554432 + q.toNat * 536870912) 22 17 = 0 := by simp only [fieldOf]; omega
  have f5 : fieldOf (2147483749 + d.toNat * 128 + a.toNat * 4096 + f.toNat * 8388608 + s.toNat * 16777216 + c.toNat * 33554432 + q.toNat * 536870912) 31 30 = 2 := by simp only [fieldOf]; omega
  simp only [decodeMajor32, f0, f1, f2, f3, f4, f5, Nat.reduceEqDiff, reduceIte, false_and, and_false, and_self, OfNat.zero_ne_ofNat, OfNat.ofNat_ne_zero, OfNat.one_ne_ofNat, OfNat.ofNat_ne_one, zero_ne_one, one_ne_zero]
  rw [bits_eq d (hi := 10) (lo := 7) (by simp only [fieldOf]; omega), bits_eq a (hi := 16) (lo := 12) (by simp only [fieldOf]; omega), bool_eq f (bit := 23) (by simp only [fieldOf]; omega), bool_eq s (bit := 24) (by simp only [fieldOf]; omega), bool_eq c (bit := 25) (by simp only [fieldOf]; omega), bits_eq q (hi := 29) (lo := 29) (by simp only [fieldOf]; omega)]

theorem fwait (a : BitVec 4) : Statement (.fwait a) := by
  intro hwf w rest he
  obtain rfl := Option.some.inj he
  have := a.isLt
  refine of32 51 decodeMajor33 rest rfl hwf (by omega) (by omega) (by simp only [fieldOf]; omega) ?_
  rw [decodeMajor33]
  rw [if_pos (by simp only [fieldOf]; omega)]
  rw [bits_eq a (hi := 15) (lo := 12) (by simp only [fieldOf]; omega)]

theorem ftest (q : PredNo) (a : BitVec 4) : Statement (.ftest q a) := by
  intro hwf w rest he
  obtain rfl := Option.some.inj he
  have := q.isLt; have := a.isLt
  refine of32 51 decodeMajor33 rest rfl hwf (by omega) (by omega) (by simp only [fieldOf]; omega) ?_
  have f0 : fieldOf (4194407 + q.toNat * 128 + a.toNat * 4096) 31 16 = 64 := by simp only [fieldOf]; omega
  have f1 : fieldOf (4194407 + q.toNat * 128 + a.toNat * 4096) 11 10 = 0 := by simp only [fieldOf]; omega
  simp only [decodeMajor33, f0, f1, Nat.reduceEqDiff, reduceIte, false_and, and_false, and_self, OfNat.zero_ne_ofNat, OfNat.ofNat_ne_zero, OfNat.one_ne_ofNat, OfNat.ofNat_ne_one, zero_ne_one, one_ne_zero]
  rw [bits_eq q (hi := 9) (lo := 7) (by simp only [fieldOf]; omega), bits_eq a (hi := 15) (lo := 12) (by simp only [fieldOf]; omega)]

theorem fcan (a : BitVec 4) : Statement (.fcan a) := by
  intro hwf w rest he
  obtain rfl := Option.some.inj he
  have := a.isLt
  refine of32 51 decodeMajor33 rest rfl hwf (by omega) (by omega) (by simp only [fieldOf]; omega) ?_
  have f0 : fieldOf (8388711 + a.toNat * 4096) 11 7 = 0 := by simp only [fieldOf]; omega
  have f1 : fieldOf (8388711 + a.toNat * 4096) 31 16 = 128 := by simp only [fieldOf]; omega
  have f2 : fieldOf (8388711 + a.toNat * 4096) 11 10 = 0 := by simp only [fieldOf]; omega
  simp only [decodeMajor33, f0, f1, f2, Nat.reduceEqDiff, reduceIte, false_and, and_false, and_self, OfNat.zero_ne_ofNat, OfNat.ofNat_ne_zero, OfNat.one_ne_ofNat, OfNat.ofNat_ne_one, zero_ne_one, one_ne_zero]
  rw [bits_eq a (hi := 15) (lo := 12) (by simp only [fieldOf]; omega)]

theorem fmov (d : BitVec 4) (a : BitVec 4) : Statement (.fmov d a) := by
  intro hwf w rest he
  obtain rfl := Option.some.inj he
  have := d.isLt; have := a.isLt
  refine of32 51 decodeMajor33 rest rfl hwf (by omega) (by omega) (by simp only [fieldOf]; omega) ?_
  have f0 : fieldOf (12583015 + d.toNat * 128 + a.toNat * 4096) 31 16 = 192 := by simp only [fieldOf]; omega
  have f1 : fieldOf (12583015 + d.toNat * 128 + a.toNat * 4096) 11 11 = 0 := by simp only [fieldOf]; omega
  simp only [decodeMajor33, f0, f1, Nat.reduceEqDiff, reduceIte, false_and, and_false, and_self, OfNat.zero_ne_ofNat, OfNat.ofNat_ne_zero, OfNat.one_ne_ofNat, OfNat.ofNat_ne_one, zero_ne_one, one_ne_zero]
  rw [bits_eq d (hi := 10) (lo := 7) (by simp only [fieldOf]; omega), bits_eq a (hi := 15) (lo := 12) (by simp only [fieldOf]; omega)]

theorem qfn (m : BitVec 6) : Statement (.qfn m) := by
  intro hwf w rest he
  obtain rfl := Option.some.inj he
  have := m.isLt
  refine of32 51 decodeMajor33 rest rfl hwf (by omega) (by omega) (by simp only [fieldOf]; omega) ?_
  rw [decodeMajor33]
  iterate 4 rw [if_neg (by simp only [fieldOf]; omega)]
  rw [if_pos (by simp only [fieldOf]; omega)]
  rw [bits_eq m (hi := 31) (lo := 26) (by simp only [fieldOf]; omega)]

theorem spawn (a : Reg) (b : Reg) : Statement (.spawn a b) := by
  intro hwf w rest he
  obtain rfl := Option.some.inj he
  have := a.isLt; have := b.isLt
  refine of32 52 decodeMajor34 rest rfl hwf (by omega) (by omega) (by simp only [fieldOf]; omega) ?_
  rw [decodeMajor34]
  rw [if_pos (by simp only [fieldOf]; omega)]
  rw [bits_eq a (hi := 16) (lo := 12) (by simp only [fieldOf]; omega), bits_eq b (hi := 21) (lo := 17) (by simp only [fieldOf]; omega)]

theorem jinit (a : Reg) (b : Reg) : Statement (.jinit a b) := by
  intro hwf w rest he
  obtain rfl := Option.some.inj he
  have := a.isLt; have := b.isLt
  refine of32 52 decodeMajor34 rest rfl hwf (by omega) (by omega) (by simp only [fieldOf]; omega) ?_
  have f0 : fieldOf (4194409 + a.toNat * 4096 + b.toNat * 131072) 11 7 = 0 := by simp only [fieldOf]; omega
  have f1 : fieldOf (4194409 + a.toNat * 4096 + b.toNat * 131072) 31 22 = 1 := by simp only [fieldOf]; omega
  simp only [decodeMajor34, f0, f1, Nat.reduceEqDiff, reduceIte, false_and, and_false, and_self, OfNat.zero_ne_ofNat, OfNat.ofNat_ne_zero, OfNat.one_ne_ofNat, OfNat.ofNat_ne_one, zero_ne_one, one_ne_zero]
  rw [bits_eq a (hi := 16) (lo := 12) (by simp only [fieldOf]; omega), bits_eq b (hi := 21) (lo := 17) (by simp only [fieldOf]; omega)]

theorem enq (a : Reg) (q : BitVec 6) : Statement (.enq a q) := by
  intro hwf w rest he
  obtain rfl := Option.some.inj he
  have := a.isLt; have := q.isLt
  refine of32 52 decodeMajor34 rest rfl hwf (by omega) (by omega) (by simp only [fieldOf]; omega) ?_
  rw [decodeMajor34]
  iterate 2 rw [if_neg (by simp only [fieldOf]; omega)]
  rw [if_pos (by simp only [fieldOf]; omega)]
  rw [bits_eq a (hi := 16) (lo := 12) (by simp only [fieldOf]; omega), bits_eq q (hi := 30) (lo := 25) (by simp only [fieldOf]; omega)]

theorem deq (q : BitVec 6) : Statement (.deq q) := by
  intro hwf w rest he
  obtain rfl := Option.some.inj he
  have := q.isLt
  refine of32 52 decodeMajor34 rest rfl hwf (by omega) (by omega) (by simp only [fieldOf]; omega) ?_
  rw [decodeMajor34]
  iterate 3 rw [if_neg (by simp only [fieldOf]; omega)]
  rw [if_pos (by simp only [fieldOf]; omega)]
  rw [bits_eq q (hi := 30) (lo := 25) (by simp only [fieldOf]; omega)]

theorem qst (d : Reg) (q : BitVec 6) : Statement (.qst d q) := by
  intro hwf w rest he
  obtain rfl := Option.some.inj he
  have := d.isLt; have := q.isLt
  refine of32 52 decodeMajor34 rest rfl hwf (by omega) (by omega) (by simp only [fieldOf]; omega) ?_
  rw [decodeMajor34]
  iterate 4 rw [if_neg (by simp only [fieldOf]; omega)]
  rw [if_pos (by simp only [fieldOf]; omega)]
  rw [bits_eq d (hi := 11) (lo := 7) (by simp only [fieldOf]; omega), bits_eq q (hi := 30) (lo := 25) (by simp only [fieldOf]; omega)]

theorem fork (j : Reg) (o : BitVec 20) : Statement (.fork j o) := by
  intro hwf w rest he
  obtain rfl := Option.some.inj he
  have := j.isLt; have := o.isLt
  refine of32 53 decodeMajor35 rest rfl hwf (by omega) (by omega) (by simp only [fieldOf]; omega) ?_
  rw [decodeMajor35]
  rw [bits_eq j (hi := 11) (lo := 7) (by simp only [fieldOf]; omega), bits_eq o (hi := 31) (lo := 12) (by simp only [fieldOf]; omega)]

theorem join (j : Reg) (o : BitVec 20) : Statement (.join j o) := by
  intro hwf w rest he
  obtain rfl := Option.some.inj he
  have := j.isLt; have := o.isLt
  refine of32 54 decodeMajor36 rest rfl hwf (by omega) (by omega) (by simp only [fieldOf]; omega) ?_
  rw [decodeMajor36]
  rw [bits_eq j (hi := 11) (lo := 7) (by simp only [fieldOf]; omega), bits_eq o (hi := 31) (lo := 12) (by simp only [fieldOf]; omega)]

theorem send (a : Reg) (b : Reg) : Statement (.send a b) := by
  intro hwf w rest he
  obtain rfl := Option.some.inj he
  have := a.isLt; have := b.isLt
  refine of32 55 decodeMajor37 rest rfl hwf (by omega) (by omega) (by simp only [fieldOf]; omega) ?_
  rw [decodeMajor37]
  rw [if_pos (by simp only [fieldOf]; omega)]
  rw [bits_eq a (hi := 16) (lo := 12) (by simp only [fieldOf]; omega), bits_eq b (hi := 21) (lo := 17) (by simp only [fieldOf]; omega)]

theorem recv (d : Reg) (e : BitVec 4) : Statement (.recv d e) := by
  intro hwf w rest he
  obtain rfl := Option.some.inj he
  have := d.isLt; have := e.isLt
  refine of32 55 decodeMajor37 rest rfl hwf (by omega) (by omega) (by simp only [fieldOf]; omega) ?_
  rw [decodeMajor37]
  iterate 1 rw [if_neg (by simp only [fieldOf]; omega)]
  rw [if_pos (by simp only [fieldOf]; omega)]
  rw [bits_eq d (hi := 11) (lo := 7) (by simp only [fieldOf]; omega), bits_eq e (hi := 28) (lo := 25) (by simp only [fieldOf]; omega)]

theorem recvt (d : Reg) (e : BitVec 4) (q : PredNo) : Statement (.recvt d e q) := by
  intro hwf w rest he
  obtain rfl := Option.some.inj he
  have := d.isLt; have := e.isLt; have := q.isLt
  refine of32 55 decodeMajor37 rest rfl hwf (by omega) (by omega) (by simp only [fieldOf]; omega) ?_
  rw [decodeMajor37]
  iterate 2 rw [if_neg (by simp only [fieldOf]; omega)]
  rw [if_pos (by simp only [fieldOf]; omega)]
  rw [bits_eq d (hi := 11) (lo := 7) (by simp only [fieldOf]; omega), bits_eq e (hi := 28) (lo := 25) (by simp only [fieldOf]; omega), bits_eq q (hi := 31) (lo := 29) (by simp only [fieldOf]; omega)]

theorem tld (t : TileNo) (a : Reg) (b : Reg) (o : Bool) : Statement (.tld t a b o) := by
  intro hwf w rest he
  obtain rfl := Option.some.inj he
  have := t.isLt; have := a.isLt; have := b.isLt; have := o.toNat_lt
  refine of32 56 decodeMajor38 rest rfl hwf (by omega) (by omega) (by simp only [fieldOf]; omega) ?_
  rw [decodeMajor38]
  rw [if_pos (by simp only [fieldOf]; omega)]
  rw [eight_eq t (hi := 11) (lo := 7) (by simp only [fieldOf]; omega), bits_eq a (hi := 16) (lo := 12) (by simp only [fieldOf]; omega), bits_eq b (hi := 21) (lo := 17) (by simp only [fieldOf]; omega), bool_eq o (bit := 22) (by simp only [fieldOf]; omega)]
  rfl

theorem tst (t : TileNo) (a : Reg) (b : Reg) (o : Bool) : Statement (.tst t a b o) := by
  intro hwf w rest he
  obtain rfl := Option.some.inj he
  have := t.isLt; have := a.isLt; have := b.isLt; have := o.toNat_lt
  refine of32 57 decodeMajor39 rest rfl hwf (by omega) (by omega) (by simp only [fieldOf]; omega) ?_
  rw [decodeMajor39]
  rw [if_pos (by simp only [fieldOf]; omega)]
  rw [eight_eq t (hi := 11) (lo := 7) (by simp only [fieldOf]; omega), bits_eq a (hi := 16) (lo := 12) (by simp only [fieldOf]; omega), bits_eq b (hi := 21) (lo := 17) (by simp only [fieldOf]; omega), bool_eq o (bit := 22) (by simp only [fieldOf]; omega)]
  rfl

theorem mwl (t : TileNo) (f : Fmt) : Statement (.mwl t f) := by
  intro hwf w rest he
  obtain rfl := Option.some.inj he
  have := t.isLt; have := fmt_lt f
  refine of32 58 decodeMajor3A rest rfl hwf (by omega) (by omega) (by simp only [fieldOf]; omega) ?_
  rw [decodeMajor3A]
  rw [if_pos (by simp only [fieldOf]; omega)]
  rw [eight_eq t (hi := 11) (lo := 7) (by simp only [fieldOf]; omega), fmt_eq f (hi := 31) (lo := 27) (by simp only [fieldOf]; omega)]
  rfl

theorem mst (t : TileNo) (r : BitVec 9) (c : BitVec 5) (f : Fmt) : Statement (.mst t r c f) := by
  intro hwf w rest he
  obtain rfl := Option.some.inj he
  have := t.isLt; have := r.isLt; have := c.isLt; have := fmt_lt f
  refine of32 59 decodeMajor3B rest rfl hwf (by omega) (by omega) (by simp only [fieldOf]; omega) ?_
  rw [decodeMajor3B]
  rw [if_pos (by simp only [fieldOf]; omega)]
  rw [eight_eq t (hi := 11) (lo := 7) (by simp only [fieldOf]; omega), bits_eq r (hi := 20) (lo := 12) (by simp only [fieldOf]; omega), bits_eq c (hi := 26) (lo := 22) (by simp only [fieldOf]; omega), fmt_eq f (hi := 31) (lo := 27) (by simp only [fieldOf]; omega)]
  rfl

theorem acz (a : Reg) (b : Reg) : Statement (.acz a b) := by
  intro hwf w rest he
  obtain rfl := Option.some.inj he
  have := a.isLt; have := b.isLt
  refine of32 60 decodeMajor3C rest rfl hwf (by omega) (by omega) (by simp only [fieldOf]; omega) ?_
  rw [decodeMajor3C]
  rw [if_pos (by simp only [fieldOf]; omega)]
  rw [bits_eq a (hi := 16) (lo := 12) (by simp only [fieldOf]; omega), bits_eq b (hi := 21) (lo := 17) (by simp only [fieldOf]; omega)]

theorem acld (t : TileNo) (a : Reg) : Statement (.acld t a) := by
  intro hwf w rest he
  obtain rfl := Option.some.inj he
  have := t.isLt; have := a.isLt
  refine of32 60 decodeMajor3C rest rfl hwf (by omega) (by omega) (by simp only [fieldOf]; omega) ?_
  have f0 : fieldOf (4194425 + t.toNat * 128 + a.toNat * 4096) 31 22 = 1 := by simp only [fieldOf]; omega
  have f1 : fieldOf (4194425 + t.toNat * 128 + a.toNat * 4096) 31 17 = 32 := by simp only [fieldOf]; omega
  simp only [decodeMajor3C, f0, f1, Nat.reduceEqDiff, reduceIte, false_and, and_false, and_self, OfNat.zero_ne_ofNat, OfNat.ofNat_ne_zero, OfNat.one_ne_ofNat, OfNat.ofNat_ne_one, zero_ne_one, one_ne_zero]
  rw [eight_eq t (hi := 11) (lo := 7) (by simp only [fieldOf]; omega), bits_eq a (hi := 16) (lo := 12) (by simp only [fieldOf]; omega)]
  rfl

theorem acst (t : TileNo) (a : Reg) (f : Fmt) (s : Bool) (c : AccClass) : Statement (.acst t a f s c) := by
  intro hwf w rest he
  obtain rfl := Option.some.inj he
  have := t.isLt; have := a.isLt; have := fmt_lt f; have := s.toNat_lt; have := accClass_lt c
  refine of32 60 decodeMajor3C rest rfl hwf (by omega) (by omega) (by simp only [fieldOf]; omega) ?_
  rw [decodeMajor3C]
  iterate 2 rw [if_neg (by simp only [fieldOf]; omega)]
  rw [if_pos (by simp only [fieldOf]; omega)]
  rw [eight_eq t (hi := 11) (lo := 7) (by simp only [fieldOf]; omega), bits_eq a (hi := 16) (lo := 12) (by simp only [fieldOf]; omega), fmt_eq f (hi := 21) (lo := 17) (by simp only [fieldOf]; omega), bool_eq s (bit := 25) (by simp only [fieldOf]; omega), accClass_eq c (hi := 27) (lo := 26) (by simp only [fieldOf]; omega)]
  rfl

theorem act (d : Reg) (a : Reg) (b : Reg) (c : AccClass) (u : ActFn) : Statement (.act d a b c u) := by
  intro hwf w rest he
  obtain rfl := Option.some.inj he
  have := d.isLt; have := a.isLt; have := b.isLt; have := accClass_lt c; have := actFn_lt u
  refine of32 60 decodeMajor3C rest rfl hwf (by omega) (by omega) (by simp only [fieldOf]; omega) ?_
  rw [decodeMajor3C]
  iterate 3 rw [if_neg (by simp only [fieldOf]; omega)]
  rw [if_pos (by simp only [fieldOf]; omega)]
  rw [bits_eq d (hi := 11) (lo := 7) (by simp only [fieldOf]; omega), bits_eq a (hi := 16) (lo := 12) (by simp only [fieldOf]; omega), bits_eq b (hi := 21) (lo := 17) (by simp only [fieldOf]; omega), accClass_eq c (hi := 27) (lo := 26) (by simp only [fieldOf]; omega), actFn_eq u (hi := 31) (lo := 28) (by simp only [fieldOf]; omega)]
  rfl

theorem acadd (t : TileNo) (a : Reg) (c : AccClass) : Statement (.acadd t a c) := by
  intro hwf w rest he
  obtain rfl := Option.some.inj he
  have := t.isLt; have := a.isLt; have := accClass_lt c
  refine of32 60 decodeMajor3C rest rfl hwf (by omega) (by omega) (by simp only [fieldOf]; omega) ?_
  rw [decodeMajor3C]
  iterate 4 rw [if_neg (by simp only [fieldOf]; omega)]
  rw [if_pos (by simp only [fieldOf]; omega)]
  rw [eight_eq t (hi := 11) (lo := 7) (by simp only [fieldOf]; omega), bits_eq a (hi := 16) (lo := 12) (by simp only [fieldOf]; omega), accClass_eq c (hi := 27) (lo := 26) (by simp only [fieldOf]; omega)]
  rfl

theorem tzr (t : TileNo) : Statement (.tzr t) := by
  intro hwf w rest he
  obtain rfl := Option.some.inj he
  have := t.isLt
  refine of32 60 decodeMajor3C rest rfl hwf (by omega) (by omega) (by simp only [fieldOf]; omega) ?_
  have f0 : fieldOf (20971641 + t.toNat * 128) 31 22 = 5 := by simp only [fieldOf]; omega
  have f1 : fieldOf (20971641 + t.toNat * 128) 31 17 = 160 := by simp only [fieldOf]; omega
  have f2 : fieldOf (20971641 + t.toNat * 128) 24 22 = 5 := by simp only [fieldOf]; omega
  have f3 : fieldOf (20971641 + t.toNat * 128) 31 28 = 0 := by simp only [fieldOf]; omega
  have f4 : fieldOf (20971641 + t.toNat * 128) 25 22 = 5 := by simp only [fieldOf]; omega
  have f5 : fieldOf (20971641 + t.toNat * 128) 25 17 = 160 := by simp only [fieldOf]; omega
  have f6 : fieldOf (20971641 + t.toNat * 128) 31 12 = 5120 := by simp only [fieldOf]; omega
  simp only [decodeMajor3C, f0, f1, f2, f3, f4, f5, f6, Nat.reduceEqDiff, reduceIte, false_and, and_false, and_self, OfNat.zero_ne_ofNat, OfNat.ofNat_ne_zero, OfNat.one_ne_ofNat, OfNat.ofNat_ne_one, zero_ne_one, one_ne_zero]
  rw [eight_eq t (hi := 11) (lo := 7) (by simp only [fieldOf]; omega)]
  rfl

theorem mstat (d : Reg) (x : Bool) : Statement (.mstat d x) := by
  intro hwf w rest he
  obtain rfl := Option.some.inj he
  have := d.isLt; have := x.toNat_lt
  refine of32 60 decodeMajor3C rest rfl hwf (by omega) (by omega) (by simp only [fieldOf]; omega) ?_
  rw [decodeMajor3C]
  iterate 6 rw [if_neg (by simp only [fieldOf]; omega)]
  rw [if_pos (by simp only [fieldOf]; omega)]
  rw [bits_eq d (hi := 11) (lo := 7) (by simp only [fieldOf]; omega), bool_eq x (bit := 25) (by simp only [fieldOf]; omega)]

theorem rrec (a : Reg) (b : Reg) : Statement (.rrec a b) := by
  intro hwf w rest he
  obtain rfl := Option.some.inj he
  have := a.isLt; have := b.isLt
  refine of32 61 decodeMajor3D rest rfl hwf (by omega) (by omega) (by simp only [fieldOf]; omega) ?_
  rw [decodeMajor3D]
  rw [if_pos (by simp only [fieldOf]; omega)]
  rw [bits_eq a (hi := 16) (lo := 12) (by simp only [fieldOf]; omega), bits_eq b (hi := 21) (lo := 17) (by simp only [fieldOf]; omega)]

theorem rfix (a : Reg) : Statement (.rfix a) := by
  intro hwf w rest he
  obtain rfl := Option.some.inj he
  have := a.isLt
  refine of32 61 decodeMajor3D rest rfl hwf (by omega) (by omega) (by simp only [fieldOf]; omega) ?_
  have f0 : fieldOf (4194427 + a.toNat * 4096) 11 7 = 0 := by simp only [fieldOf]; omega
  have f1 : fieldOf (4194427 + a.toNat * 4096) 31 22 = 1 := by simp only [fieldOf]; omega
  have f2 : fieldOf (4194427 + a.toNat * 4096) 31 17 = 32 := by simp only [fieldOf]; omega
  simp only [decodeMajor3D, f0, f1, f2, Nat.reduceEqDiff, reduceIte, false_and, and_false, and_self, OfNat.zero_ne_ofNat, OfNat.ofNat_ne_zero, OfNat.one_ne_ofNat, OfNat.ofNat_ne_one, zero_ne_one, one_ne_zero]
  rw [bits_eq a (hi := 16) (lo := 12) (by simp only [fieldOf]; omega)]

theorem rdrop (a : Reg) : Statement (.rdrop a) := by
  intro hwf w rest he
  obtain rfl := Option.some.inj he
  have := a.isLt
  refine of32 61 decodeMajor3D rest rfl hwf (by omega) (by omega) (by simp only [fieldOf]; omega) ?_
  have f0 : fieldOf (8388731 + a.toNat * 4096) 11 7 = 0 := by simp only [fieldOf]; omega
  have f1 : fieldOf (8388731 + a.toNat * 4096) 31 22 = 2 := by simp only [fieldOf]; omega
  have f2 : fieldOf (8388731 + a.toNat * 4096) 31 17 = 64 := by simp only [fieldOf]; omega
  simp only [decodeMajor3D, f0, f1, f2, Nat.reduceEqDiff, reduceIte, false_and, and_false, and_self, OfNat.zero_ne_ofNat, OfNat.ofNat_ne_zero, OfNat.one_ne_ofNat, OfNat.ofNat_ne_one, zero_ne_one, one_ne_zero]
  rw [bits_eq a (hi := 16) (lo := 12) (by simp only [fieldOf]; omega)]

theorem rqry (d : Reg) (a : Reg) : Statement (.rqry d a) := by
  intro hwf w rest he
  obtain rfl := Option.some.inj he
  have := d.isLt; have := a.isLt
  refine of32 61 decodeMajor3D rest rfl hwf (by omega) (by omega) (by simp only [fieldOf]; omega) ?_
  have f0 : fieldOf (12583035 + d.toNat * 128 + a.toNat * 4096) 31 22 = 3 := by simp only [fieldOf]; omega
  have f1 : fieldOf (12583035 + d.toNat * 128 + a.toNat * 4096) 31 17 = 96 := by simp only [fieldOf]; omega
  simp only [decodeMajor3D, f0, f1, Nat.reduceEqDiff, reduceIte, false_and, and_false, and_self, OfNat.zero_ne_ofNat, OfNat.ofNat_ne_zero, OfNat.one_ne_ofNat, OfNat.ofNat_ne_one, zero_ne_one, one_ne_zero]
  rw [bits_eq d (hi := 11) (lo := 7) (by simp only [fieldOf]; omega), bits_eq a (hi := 16) (lo := 12) (by simp only [fieldOf]; omega)]

theorem rdev (a : Reg) : Statement (.rdev a) := by
  intro hwf w rest he
  obtain rfl := Option.some.inj he
  have := a.isLt
  refine of32 61 decodeMajor3D rest rfl hwf (by omega) (by omega) (by simp only [fieldOf]; omega) ?_
  have f0 : fieldOf (16777339 + a.toNat * 4096) 11 7 = 0 := by simp only [fieldOf]; omega
  have f1 : fieldOf (16777339 + a.toNat * 4096) 31 22 = 4 := by simp only [fieldOf]; omega
  have f2 : fieldOf (16777339 + a.toNat * 4096) 31 17 = 128 := by simp only [fieldOf]; omega
  simp only [decodeMajor3D, f0, f1, f2, Nat.reduceEqDiff, reduceIte, false_and, and_false, and_self, OfNat.zero_ne_ofNat, OfNat.ofNat_ne_zero, OfNat.one_ne_ofNat, OfNat.ofNat_ne_one, zero_ne_one, one_ne_zero]
  rw [bits_eq a (hi := 16) (lo := 12) (by simp only [fieldOf]; omega)]

theorem rdevV (a : Reg) (q : PredNo) : Statement (.rdevV a q) := by
  intro hwf w rest he
  obtain rfl := Option.some.inj he
  have := a.isLt; have := q.isLt
  refine of32 61 decodeMajor3D rest rfl hwf (by omega) (by omega) (by simp only [fieldOf]; omega) ?_
  rw [decodeMajor3D]
  iterate 5 rw [if_neg (by simp only [fieldOf]; omega)]
  rw [if_pos (by simp only [fieldOf]; omega)]
  rw [bits_eq a (hi := 16) (lo := 12) (by simp only [fieldOf]; omega), bits_eq q (hi := 30) (lo := 28) (by simp only [fieldOf]; omega)]

theorem rlat (a : Reg) : Statement (.rlat a) := by
  intro hwf w rest he
  obtain rfl := Option.some.inj he
  have := a.isLt
  refine of32 61 decodeMajor3D rest rfl hwf (by omega) (by omega) (by simp only [fieldOf]; omega) ?_
  have f0 : fieldOf (20971643 + a.toNat * 4096) 11 7 = 0 := by simp only [fieldOf]; omega
  have f1 : fieldOf (20971643 + a.toNat * 4096) 31 22 = 5 := by simp only [fieldOf]; omega
  have f2 : fieldOf (20971643 + a.toNat * 4096) 31 17 = 160 := by simp only [fieldOf]; omega
  have f3 : fieldOf (20971643 + a.toNat * 4096) 27 17 = 160 := by simp only [fieldOf]; omega
  have f4 : fieldOf (20971643 + a.toNat * 4096) 31 31 = 0 := by simp only [fieldOf]; omega
  simp only [decodeMajor3D, f0, f1, f2, f3, f4, Nat.reduceEqDiff, reduceIte, false_and, and_false, and_self, OfNat.zero_ne_ofNat, OfNat.ofNat_ne_zero, OfNat.one_ne_ofNat, OfNat.ofNat_ne_one, zero_ne_one, one_ne_zero]
  rw [bits_eq a (hi := 16) (lo := 12) (by simp only [fieldOf]; omega)]

theorem seedrd (d : Reg) (a : Reg) : Statement (.seedrd d a) := by
  intro hwf w rest he
  obtain rfl := Option.some.inj he
  have := d.isLt; have := a.isLt
  refine of32 61 decodeMajor3D rest rfl hwf (by omega) (by omega) (by simp only [fieldOf]; omega) ?_
  have f0 : fieldOf (33554555 + d.toNat * 128 + a.toNat * 4096) 31 22 = 8 := by simp only [fieldOf]; omega
  have f1 : fieldOf (33554555 + d.toNat * 128 + a.toNat * 4096) 31 17 = 256 := by simp only [fieldOf]; omega
  have f2 : fieldOf (33554555 + d.toNat * 128 + a.toNat * 4096) 27 17 = 256 := by simp only [fieldOf]; omega
  have f3 : fieldOf (33554555 + d.toNat * 128 + a.toNat * 4096) 31 31 = 0 := by simp only [fieldOf]; omega
  simp only [decodeMajor3D, f0, f1, f2, f3, Nat.reduceEqDiff, reduceIte, false_and, and_false, and_self, OfNat.zero_ne_ofNat, OfNat.ofNat_ne_zero, OfNat.one_ne_ofNat, OfNat.ofNat_ne_one, zero_ne_one, one_ne_zero]
  rw [bits_eq d (hi := 11) (lo := 7) (by simp only [fieldOf]; omega), bits_eq a (hi := 16) (lo := 12) (by simp only [fieldOf]; omega)]

theorem reseed (a : Reg) (b : Reg) : Statement (.reseed a b) := by
  intro hwf w rest he
  obtain rfl := Option.some.inj he
  have := a.isLt; have := b.isLt
  refine of32 61 decodeMajor3D rest rfl hwf (by omega) (by omega) (by simp only [fieldOf]; omega) ?_
  rw [decodeMajor3D]
  iterate 8 rw [if_neg (by simp only [fieldOf]; omega)]
  rw [if_pos (by simp only [fieldOf]; omega)]
  rw [bits_eq a (hi := 16) (lo := 12) (by simp only [fieldOf]; omega), bits_eq b (hi := 21) (lo := 17) (by simp only [fieldOf]; omega)]

theorem xqry (d : Reg) (a : Reg) (b : Reg) : Statement (.xqry d a b) := by
  intro hwf w rest he
  obtain rfl := Option.some.inj he
  have := d.isLt; have := a.isLt; have := b.isLt
  refine of32 61 decodeMajor3D rest rfl hwf (by omega) (by omega) (by simp only [fieldOf]; omega) ?_
  rw [decodeMajor3D]
  iterate 9 rw [if_neg (by simp only [fieldOf]; omega)]
  rw [if_pos (by simp only [fieldOf]; omega)]
  rw [bits_eq d (hi := 11) (lo := 7) (by simp only [fieldOf]; omega), bits_eq a (hi := 16) (lo := 12) (by simp only [fieldOf]; omega), bits_eq b (hi := 21) (lo := 17) (by simp only [fieldOf]; omega)]

theorem xobs (d : Reg) (a : Reg) : Statement (.xobs d a) := by
  intro hwf w rest he
  obtain rfl := Option.some.inj he
  have := d.isLt; have := a.isLt
  refine of32 61 decodeMajor3D rest rfl hwf (by omega) (by omega) (by simp only [fieldOf]; omega) ?_
  have f0 : fieldOf (46137467 + d.toNat * 128 + a.toNat * 4096) 31 22 = 11 := by simp only [fieldOf]; omega
  have f1 : fieldOf (46137467 + d.toNat * 128 + a.toNat * 4096) 31 17 = 352 := by simp only [fieldOf]; omega
  have f2 : fieldOf (46137467 + d.toNat * 128 + a.toNat * 4096) 27 17 = 352 := by simp only [fieldOf]; omega
  have f3 : fieldOf (46137467 + d.toNat * 128 + a.toNat * 4096) 31 31 = 0 := by simp only [fieldOf]; omega
  simp only [decodeMajor3D, f0, f1, f2, f3, Nat.reduceEqDiff, reduceIte, false_and, and_false, and_self, OfNat.zero_ne_ofNat, OfNat.ofNat_ne_zero, OfNat.one_ne_ofNat, OfNat.ofNat_ne_one, zero_ne_one, one_ne_zero]
  rw [bits_eq d (hi := 11) (lo := 7) (by simp only [fieldOf]; omega), bits_eq a (hi := 16) (lo := 12) (by simp only [fieldOf]; omega)]

theorem garr (g : BitVec 8) : Statement (.garr g) := by
  intro hwf w rest he
  obtain rfl := Option.some.inj he
  have := g.isLt
  refine of32 61 decodeMajor3D rest rfl hwf (by omega) (by omega) (by simp only [fieldOf]; omega) ?_
  rw [decodeMajor3D]
  iterate 11 rw [if_neg (by simp only [fieldOf]; omega)]
  rw [if_pos (by simp only [fieldOf]; omega)]
  rw [bits_eq g (hi := 19) (lo := 12) (by simp only [fieldOf]; omega)]

theorem gwt (g : BitVec 8) : Statement (.gwt g) := by
  intro hwf w rest he
  obtain rfl := Option.some.inj he
  have := g.isLt
  refine of32 61 decodeMajor3D rest rfl hwf (by omega) (by omega) (by simp only [fieldOf]; omega) ?_
  rw [decodeMajor3D]
  iterate 12 rw [if_neg (by simp only [fieldOf]; omega)]
  rw [if_pos (by simp only [fieldOf]; omega)]
  rw [bits_eq g (hi := 19) (lo := 12) (by simp only [fieldOf]; omega)]

theorem gbar (g : BitVec 8) : Statement (.gbar g) := by
  intro hwf w rest he
  obtain rfl := Option.some.inj he
  have := g.isLt
  refine of32 61 decodeMajor3D rest rfl hwf (by omega) (by omega) (by simp only [fieldOf]; omega) ?_
  rw [decodeMajor3D]
  iterate 13 rw [if_neg (by simp only [fieldOf]; omega)]
  rw [if_pos (by simp only [fieldOf]; omega)]
  rw [bits_eq g (hi := 19) (lo := 12) (by simp only [fieldOf]; omega)]

theorem gqry (d : Reg) (g : BitVec 8) : Statement (.gqry d g) := by
  intro hwf w rest he
  obtain rfl := Option.some.inj he
  have := d.isLt; have := g.isLt
  refine of32 61 decodeMajor3D rest rfl hwf (by omega) (by omega) (by simp only [fieldOf]; omega) ?_
  rw [decodeMajor3D]
  iterate 14 rw [if_neg (by simp only [fieldOf]; omega)]
  rw [if_pos (by simp only [fieldOf]; omega)]
  rw [bits_eq d (hi := 11) (lo := 7) (by simp only [fieldOf]; omega), bits_eq g (hi := 19) (lo := 12) (by simp only [fieldOf]; omega)]

theorem tlbi (a : Reg) (b : Reg) : Statement (.tlbi a b) := by
  intro hwf w rest he
  obtain rfl := Option.some.inj he
  have := a.isLt; have := b.isLt
  refine of32 61 decodeMajor3D rest rfl hwf (by omega) (by omega) (by simp only [fieldOf]; omega) ?_
  rw [decodeMajor3D]
  iterate 15 rw [if_neg (by simp only [fieldOf]; omega)]
  rw [if_pos (by simp only [fieldOf]; omega)]
  rw [bits_eq a (hi := 16) (lo := 12) (by simp only [fieldOf]; omega), bits_eq b (hi := 21) (lo := 17) (by simp only [fieldOf]; omega)]

theorem rafw (a : Reg) (b : Reg) : Statement (.rafw a b) := by
  intro hwf w rest he
  obtain rfl := Option.some.inj he
  have := a.isLt; have := b.isLt
  refine of32 61 decodeMajor3D rest rfl hwf (by omega) (by omega) (by simp only [fieldOf]; omega) ?_
  rw [decodeMajor3D]
  iterate 16 rw [if_neg (by simp only [fieldOf]; omega)]
  rw [if_pos (by simp only [fieldOf]; omega)]
  rw [bits_eq a (hi := 16) (lo := 12) (by simp only [fieldOf]; omega), bits_eq b (hi := 21) (lo := 17) (by simp only [fieldOf]; omega)]

theorem trap (c : BitVec 6) : Statement (.trap c) := by
  intro hwf w rest he
  obtain rfl := Option.some.inj he
  have := c.isLt
  refine of32 62 decodeMajor3E rest rfl hwf (by omega) (by omega) (by simp only [fieldOf]; omega) ?_
  rw [decodeMajor3E]
  rw [if_pos (by simp only [fieldOf]; omega)]
  rw [bits_eq c (hi := 31) (lo := 26) (by simp only [fieldOf]; omega)]

theorem tret : Statement (.tret) := by
  intro hwf w rest he
  obtain rfl := Option.some.inj he
  refine of32 62 decodeMajor3E rest rfl hwf (by omega) (by omega) (by simp only [fieldOf]; omega) ?_
  have f0 : fieldOf (4194429) 25 7 = 32768 := by simp only [fieldOf]; omega
  have f1 : fieldOf (4194429) 31 7 = 32768 := by simp only [fieldOf]; omega
  simp only [decodeMajor3E, f0, f1, Nat.reduceEqDiff, reduceIte, false_and, and_false, and_self, OfNat.zero_ne_ofNat, OfNat.ofNat_ne_zero, OfNat.one_ne_ofNat, OfNat.ofNat_ne_one, zero_ne_one, one_ne_zero]

theorem uret : Statement (.uret) := by
  intro hwf w rest he
  obtain rfl := Option.some.inj he
  refine of32 62 decodeMajor3E rest rfl hwf (by omega) (by omega) (by simp only [fieldOf]; omega) ?_
  have f0 : fieldOf (8388733) 25 7 = 65536 := by simp only [fieldOf]; omega
  have f1 : fieldOf (8388733) 31 7 = 65536 := by simp only [fieldOf]; omega
  simp only [decodeMajor3E, f0, f1, Nat.reduceEqDiff, reduceIte, false_and, and_false, and_self, OfNat.zero_ne_ofNat, OfNat.ofNat_ne_zero, OfNat.one_ne_ofNat, OfNat.ofNat_ne_one, zero_ne_one, one_ne_zero]

theorem rdc (d : Reg) (r : BitVec 6) : Statement (.rdc d r) := by
  intro hwf w rest he
  obtain rfl := Option.some.inj he
  have := d.isLt; have := r.isLt
  refine of32 62 decodeMajor3E rest rfl hwf (by omega) (by omega) (by simp only [fieldOf]; omega) ?_
  rw [decodeMajor3E]
  iterate 3 rw [if_neg (by simp only [fieldOf]; omega)]
  rw [if_pos (by simp only [fieldOf]; omega)]
  rw [bits_eq d (hi := 11) (lo := 7) (by simp only [fieldOf]; omega), bits_eq r (hi := 31) (lo := 26) (by simp only [fieldOf]; omega)]

theorem wrc (a : Reg) (r : BitVec 6) : Statement (.wrc a r) := by
  intro hwf w rest he
  obtain rfl := Option.some.inj he
  have := a.isLt; have := r.isLt
  refine of32 62 decodeMajor3E rest rfl hwf (by omega) (by omega) (by simp only [fieldOf]; omega) ?_
  rw [decodeMajor3E]
  iterate 4 rw [if_neg (by simp only [fieldOf]; omega)]
  rw [if_pos (by simp only [fieldOf]; omega)]
  rw [bits_eq a (hi := 16) (lo := 12) (by simp only [fieldOf]; omega), bits_eq r (hi := 31) (lo := 26) (by simp only [fieldOf]; omega)]

theorem rdp (d : Reg) : Statement (.rdp d) := by
  intro hwf w rest he
  obtain rfl := Option.some.inj he
  have := d.isLt
  refine of32 62 decodeMajor3E rest rfl hwf (by omega) (by omega) (by simp only [fieldOf]; omega) ?_
  rw [decodeMajor3E]
  iterate 5 rw [if_neg (by simp only [fieldOf]; omega)]
  rw [if_pos (by simp only [fieldOf]; omega)]
  rw [bits_eq d (hi := 11) (lo := 7) (by simp only [fieldOf]; omega)]

theorem wrp (a : Reg) : Statement (.wrp a) := by
  intro hwf w rest he
  obtain rfl := Option.some.inj he
  have := a.isLt
  refine of32 62 decodeMajor3E rest rfl hwf (by omega) (by omega) (by simp only [fieldOf]; omega) ?_
  rw [decodeMajor3E]
  iterate 6 rw [if_neg (by simp only [fieldOf]; omega)]
  rw [if_pos (by simp only [fieldOf]; omega)]
  rw [bits_eq a (hi := 16) (lo := 12) (by simp only [fieldOf]; omega)]

theorem brk : Statement (.brk) := by
  intro hwf w rest he
  obtain rfl := Option.some.inj he
  refine of32 62 decodeMajor3E rest rfl hwf (by omega) (by omega) (by simp only [fieldOf]; omega) ?_
  have f0 : fieldOf (29360253) 25 7 = 229376 := by simp only [fieldOf]; omega
  have f1 : fieldOf (29360253) 31 7 = 229376 := by simp only [fieldOf]; omega
  have f2 : fieldOf (29360253) 25 12 = 7168 := by simp only [fieldOf]; omega
  have f3 : fieldOf (29360253) 11 7 = 0 := by simp only [fieldOf]; omega
  have f4 : fieldOf (29360253) 25 17 = 224 := by simp only [fieldOf]; omega
  have f5 : fieldOf (29360253) 31 12 = 7168 := by simp only [fieldOf]; omega
  have f6 : fieldOf (29360253) 31 17 = 224 := by simp only [fieldOf]; omega
  simp only [decodeMajor3E, f0, f1, f2, f3, f4, f5, f6, Nat.reduceEqDiff, reduceIte, false_and, and_false, and_self, OfNat.zero_ne_ofNat, OfNat.ofNat_ne_zero, OfNat.one_ne_ofNat, OfNat.ofNat_ne_one, zero_ne_one, one_ne_zero]

theorem hmsg (a : Reg) (b : Reg) : Statement (.hmsg a b) := by
  intro hwf w rest he
  obtain rfl := Option.some.inj he
  have := a.isLt; have := b.isLt
  refine of32 62 decodeMajor3E rest rfl hwf (by omega) (by omega) (by simp only [fieldOf]; omega) ?_
  rw [decodeMajor3E]
  iterate 8 rw [if_neg (by simp only [fieldOf]; omega)]
  rw [if_pos (by simp only [fieldOf]; omega)]
  rw [bits_eq a (hi := 16) (lo := 12) (by simp only [fieldOf]; omega), bits_eq b (hi := 21) (lo := 17) (by simp only [fieldOf]; omega)]

theorem divideResultWrite (core : Nat) (slot : Nat) : Statement (.divideResultWrite core slot) := by nofun

theorem yieldExpiry (core : Nat) (slot : Nat) : Statement (.yieldExpiry core slot) := by nofun

theorem memoryReply (core : Nat) (slot : Nat) (reply : Option RemoteReply) : Statement (.memoryReply core slot reply) := by nofun

theorem remoteStoreAck (store : Nat) (reply : Option RemoteReply) : Statement (.remoteStoreAck store reply) := by nofun

theorem fp6Emulation (core : Nat) (slot : Nat) : Statement (.fp6Emulation core slot) := by nofun

theorem matrixOpComplete (core : Nat) (slot : Nat) : Statement (.matrixOpComplete core slot) := by nofun

theorem channelPacketArrival (packet : Nat) : Statement (.channelPacketArrival packet) := by nofun

theorem remoteFeRequest (packet : Nat) : Statement (.remoteFeRequest packet) := by nofun

theorem feNackRetry (core : Nat) (slot : Nat) : Statement (.feNackRetry core slot) := by nofun

theorem engineEntryStart (core : Nat) (queue : Nat) (rows : Nat) : Statement (.engineEntryStart core queue rows) := by nofun

theorem engineEntryComplete (core : Nat) (queue : Nat) : Statement (.engineEntryComplete core queue) := by nofun

theorem taskTake (core : Nat) : Statement (.taskTake core) := by nofun

theorem stealRound (core : Nat) (slot : Nat) : Statement (.stealRound core slot) := by nofun

theorem pageFaultRequest (part : Nat) (token : BitVec 32) (frame : Option Nat) : Statement (.pageFaultRequest part token frame) := by nofun

theorem pageMigration (part : Nat) (va : Word) (frame : Nat) : Statement (.pageMigration part va frame) := by nofun

theorem developmentSlotTimeout (core : Nat) (slot : Nat) : Statement (.developmentSlotTimeout core slot) := by nofun

theorem routerPacketForward (router : Nat) (net : Nat) (out : MeshPort) : Statement (.routerPacketForward router net out) := by nofun

theorem vaultBankAccess (vault : Nat) (bank : Nat) : Statement (.vaultBankAccess vault bank) := by nofun

theorem vaultRefresh (vault : Nat) (bank : Nat) (cycles : Nat) : Statement (.vaultRefresh vault bank cycles) := by nofun

theorem scrubVisit (vaultSide : Bool) (line : Nat) (found : EccFinding) : Statement (.scrubVisit vaultSide line found) := by nofun

theorem laneStart (core : Nat) (slot : Nat) : Statement (.laneStart core slot) := by nofun

theorem launchComplete (part : Nat) (launch : BitVec 32) : Statement (.launchComplete part launch) := by nofun

theorem watchdogExpiry (part : Nat) (launch : BitVec 32) : Statement (.watchdogExpiry part launch) := by nofun

theorem containment (part : Nat) (launch : BitVec 32) (why : ContainCause) (detail : Word) : Statement (.containment part launch why detail) := by nofun

theorem ieStopTimeout (core : Nat) (slot : Nat) : Statement (.ieStopTimeout core slot) := by nofun

theorem preemption (core : Nat) (dest : Option Nat) : Statement (.preemption core dest) := by nofun

theorem forwardedRequest (packet : Nat) : Statement (.forwardedRequest packet) := by nofun

theorem contextRetryNack (packet : Nat) : Statement (.contextRetryNack packet) := by nofun

theorem contextRestore (part : Nat) (position : Nat) (core : Nat) : Statement (.contextRestore part position core) := by nofun

theorem thermalRanking (die : Nat) (temps : List (Nat × Nat)) : Statement (.thermalRanking die temps) := by nofun

theorem thermalSlotDisable (core : Nat) : Statement (.thermalSlotDisable core) := by nofun

theorem thermalSlotEnable (core : Nat) : Statement (.thermalSlotEnable core) := by nofun

theorem submissionDoorbell (fn : Nat) (index : Nat) (value : Nat) : Statement (.submissionDoorbell fn index value) := by nofun

theorem completionDoorbell (fn : Nat) (index : Nat) (value : Nat) : Statement (.completionDoorbell fn index value) := by nofun

theorem adminDoorbell (fn : Nat) (completion : Bool) (value : Nat) : Statement (.adminDoorbell fn completion value) := by nofun

theorem launchRecordFetch (queue : Nat) : Statement (.launchRecordFetch queue) := by nofun

theorem placementAttempt (part : Nat) (launch : BitVec 32) (row : Nat) (col : Nat) (lanes : Nat) : Statement (.placementAttempt part launch row col lanes) := by nofun

theorem completionEntryWrite (queue : Nat) : Statement (.completionEntryWrite queue) := by nofun

theorem partitionCreate (cmd : Cmd) (params : PartitionParams) : Statement (.partitionCreate cmd params) := by nofun

theorem partitionResize (cmd : Cmd) (vf : Nat) (clusters : BitVec 64) : Statement (.partitionResize cmd vf clusters) := by nofun

theorem partitionDestroy (cmd : Cmd) (vf : Nat) : Statement (.partitionDestroy cmd vf) := by nofun

theorem ownerCreate (cmd : Cmd) (vf : Nat) (owner : Nat) (seed : BitVec 128) : Statement (.ownerCreate cmd vf owner seed) := by nofun

theorem queueCreate (cmd : Cmd) (params : QueueParams) : Statement (.queueCreate cmd params) := by nofun

theorem keyBind (cmd : Cmd) (session : Nat) (handle : Nat) (key : BitVec 128) : Statement (.keyBind cmd session handle key) := by nofun

theorem mapMap (cmd : Cmd) (vf : Nat) (va : Word) (owner : Nat) (rights : BitVec 3) (frame : Nat) (fromPool : Bool) : Statement (.mapMap cmd vf va owner rights frame fromPool) := by nofun

theorem mapUnmap (cmd : Cmd) (vf : Nat) (va : Word) : Statement (.mapUnmap cmd vf va) := by nofun

theorem mapRegionEntry (cmd : Cmd) (vf : Nat) (index : BitVec 4) (value : Word) : Statement (.mapRegionEntry cmd vf index value) := by nofun

theorem mapImport (cmd : Cmd) (vf : Nat) (hostAddr : Nat) (handle : Nat) (iv : BitVec 96) (gcmTag : BitVec 128) (va : Word) (len : Nat) : Statement (.mapImport cmd vf hostAddr handle iv gcmTag va len) := by nofun

theorem mapExport (cmd : Cmd) (vf : Nat) (va : Word) (hostAddr : Nat) (len : Nat) (handle : Nat) (iv : BitVec 96) : Statement (.mapExport cmd vf va hostAddr len handle iv) := by nofun

theorem mapLoad (cmd : Cmd) (vf : Nat) (hostAddr : Nat) (va : Word) (len : Nat) : Statement (.mapLoad cmd vf hostAddr va len) := by nofun

theorem contextSave (cmd : Cmd) (vf : Nat) (positions : List Nat) : Statement (.contextSave cmd vf positions) := by nofun

theorem debugHalt (cmd : Cmd) (vf : Nat) (launch : BitVec 32) (lanes : List Nat) (hold : Bool) (kill : Bool) : Statement (.debugHalt cmd vf launch lanes hold kill) := by nofun

theorem debugResume (cmd : Cmd) (vf : Nat) (launch : BitVec 32) (lanes : List Nat) : Statement (.debugResume cmd vf launch lanes) := by nofun

theorem eccMode (cmd : Cmd) (vf : Nat) (strong : Bool) : Statement (.eccMode cmd vf strong) := by nofun

theorem powerPolicy (cmd : Cmd) (params : PowerParams) : Statement (.powerPolicy cmd params) := by nofun

theorem telemetry (cmd : Cmd) : Statement (.telemetry cmd) := by nofun

theorem getVersion (port : SpdmPort) : Statement (.getVersion port) := by nofun

theorem getCapabilities (port : SpdmPort) : Statement (.getCapabilities port) := by nofun

theorem negotiateAlgorithms (port : SpdmPort) (asym : Bool) (hash : Bool) (dhe : Bool) (aead : Bool) : Statement (.negotiateAlgorithms port asym hash dhe aead) := by nofun

theorem getDigests (port : SpdmPort) : Statement (.getDigests port) := by nofun

theorem getCertificate (port : SpdmPort) (slot : Nat) (offset : Nat) (len : Nat) : Statement (.getCertificate port slot offset len) := by nofun

theorem challenge (port : SpdmPort) (slot : Nat) (nonce : BitVec 256) : Statement (.challenge port slot nonce) := by nofun

theorem getMeasurements (port : SpdmPort) (index : Nat) : Statement (.getMeasurements port index) := by nofun

theorem keyExchange (port : SpdmPort) (slot : Nat) (peerKey : BitVec 512) : Statement (.keyExchange port slot peerKey) := by nofun

theorem finish (port : SpdmPort) (session : Nat) (verify : BitVec 256) : Statement (.finish port session verify) := by nofun

theorem heartbeat (port : SpdmPort) (session : Nat) : Statement (.heartbeat port session) := by nofun

theorem keyUpdate (port : SpdmPort) (session : Nat) : Statement (.keyUpdate port session) := by nofun

theorem endSession (port : SpdmPort) (session : Nat) : Statement (.endSession port session) := by nofun

theorem vendorDefinedRequest (port : SpdmPort) (session : Nat) (handle : Nat) (key : BitVec 128) : Statement (.vendorDefinedRequest port session handle key) := by nofun

theorem firmwareUpdate (port : SpdmPort) (version : Nat) (digest : BitVec 256) (signature : BitVec 512) : Statement (.firmwareUpdate port version digest signature) := by nofun

theorem packageReset (failedBridges : List Nat) : Statement (.packageReset failedBridges) := by nofun

theorem functionLevelReset (fn : Nat) : Statement (.functionLevelReset fn) := by nofun

theorem thermalReset : Statement .thermalReset := by nofun

theorem powerStateChange (die : Nat) (wake : Bool) : Statement (.powerStateChange die wake) := by nofun

theorem registerWrite (fn : Nat) (bar : Nat) (offset : Nat) (value : Word) : Statement (.registerWrite fn bar offset value) := by nofun

theorem portRateWrite (port : Nat) (rate : Bool) : Statement (.portRateWrite port rate) := by nofun

theorem linkFlitReceive (port : Nat) (seq : BitVec 16) (crcOk : Bool) (ack : BitVec 16) : Statement (.linkFlitReceive port seq crcOk ack) := by nofun

theorem keepaliveSend (port : Nat) : Statement (.keepaliveSend port) := by nofun

theorem linkDown (port : Nat) : Statement (.linkDown port) := by nofun

theorem fabricRequestArrival (req : FabricReq) : Statement (.fabricRequestArrival req) := by nofun

theorem requestRetransmit (target : Nat) (seq : BitVec 32) : Statement (.requestRetransmit target seq) := by nofun

theorem sequenceAckKeepalive (target : Nat) : Statement (.sequenceAckKeepalive target) := by nofun

theorem packageFailureDeclared (package : Nat) : Statement (.packageFailureDeclared package) := by nofun

theorem fabricFailureAnswer (package : Nat) : Statement (.fabricFailureAnswer package) := by nofun

theorem illegalEncoding (w : BitVec 32) : Statement (.illegalEncoding w) := by nofun

theorem fetchFault (cause : FetchCause) (addr : Word) : Statement (.fetchFault cause addr) := by nofun

theorem l2SliceRequest (slice : Nat) : Statement (.l2SliceRequest slice) := by nofun

theorem remotePortAccess (packet : Nat) : Statement (.remotePortAccess packet) := by nofun

theorem relranPortArbitration (port : Nat) : Statement (.relranPortArbitration port) := by nofun

theorem hostInterfaceTransfer : Statement (.hostInterfaceTransfer) := by nofun

theorem linkTrainingComplete (port : Nat) (lanes : Nat) : Statement (.linkTrainingComplete port lanes) := by nofun

theorem bridgeFlitReplay (edge : Nat) (bridge : Nat) : Statement (.bridgeFlitReplay edge bridge) := by nofun

theorem ideKmRequest (fn : Nat) (stream : BitVec 8) (key : BitVec 256) : Statement (.ideKmRequest fn stream key) := by nofun

end Sys2Proof.Laws.Encoding
end

