-- ==== Sys2Proof/Safety.lean ====
section
/-!
DEFINITION. The terms the statements use: source registers that name no pending engine entry, the state after a result is
written and the instruction completes, the frames an instruction keeps, and the safety of a state: its memory is in canonical
form.
-/
namespace Sys2Proof.Machine

/-! ### Results -/

/-- No register of the list names a pending engine entry (R194). -/
def State.unmarked (s : State) (rs : List Reg) : Prop := ∀ r ∈ rs, s.markOf r = none

/-- X(d) is written with a latency and the instruction of `len` bytes completes (R82, R97). -/
def State.wroteX (s : State) (lat : Nat) (len : Word) (d : Reg) (v : Word) : State := (s.setXAt lat d v).complete len

/-- The bits `en` of V(d) are written with a latency and the instruction of `len` bytes completes (R82, R97, R130). -/
def State.wroteV (s : State) (lat : Nat) (len : Word) (d : Reg) (en v : Vec) : State := (s.setVAt lat d en v).complete len

/-- One predicate bit is written and the instruction completes (R77, R97). -/
def State.wroteP (s : State) (q : PredNo) (b : Bool) : State := (s.modMe fun t => { t with p := setPred t.p q b }).complete 4

/-! ### Frames -/

/-- Every byte of the package's memory and of every core's tray reads as before. -/
def keepsMemory (s t : State) : Prop :=
  (∀ a, Memory.read t.mem a = Memory.read s.mem a) ∧ ∀ c a, Memory.read (t.core c).tray a = Memory.read (s.core c).tray a

/-- The state with nothing kept of the sources a waiting instruction has read: the slot sees its registers as they are (R287). -/
def State.seen (s : State) : State := s.modMe fun t => { t with sources := none }

/-- Scalar registers but those of a list read as before. -/
def keepsX (xs : List Reg) (s t : State) : Prop := ∀ r, r ∉ xs → t.seen.xval r = s.seen.xval r

/-- Vector registers but those of a list read as before. -/
def keepsV (vs : List Reg) (s t : State) : Prop := ∀ r, r ∉ vs → t.seen.vval r = s.seen.vval r

/-- The status word but HL, which the loop step changes (R97), and every special register but LC (10) read as before. -/
def keepsSpecial (s t : State) : Prop :=
  { t.me.sw with hl := s.me.sw.hl } = s.me.sw ∧ ∀ n, n ≠ 0 → n ≠ 10 → t.ctlRead n = s.ctlRead n

/-- The accumulators, tile registers, array weights, overflow bit and full/empty bits of every core are as before. -/
def keepsUnits (s t : State) : Prop :=
  ∀ c, (t.core c).acc = (s.core c).acc ∧ (t.core c).tiles = (s.core c).tiles ∧ (t.core c).array = (s.core c).array ∧
    (t.core c).ovf = (s.core c).ovf ∧ (t.core c).fe = (s.core c).fe

/-- What an instruction on registers leaves alone: all but the scalar and vector registers named, and the predicate word
where it is kept. -/
def regFrame (xs vs : List Reg) (keepP : Bool) (s t : State) : Prop :=
  keepsX xs s t ∧ keepsV vs s t ∧ (keepP = true → t.me.p = s.me.p) ∧ keepsSpecial s t ∧ keepsUnits s t ∧ keepsMemory s t

/-- Whatever state an instruction goes on to, the frame holds. -/
def Framed (i : Instr) (xs vs : List Reg) (keepP : Bool) : Prop := ∀ s t : State, exec i s = .next t → regFrame xs vs keepP s t

/-! ### Lanes, numbers, accesses and the matrix array -/

/-- A lane instruction of `len` bytes completes: V(d) has the active elements of type t replaced, element e by `f e`, and
keeps the bits of the others (R130, R132). -/
def writesLanes (i : Instr) (s : State) (lat : Nat) (len : Word) (d : Reg) (t : LaneType) (act : Nat → Bool) (f : Nat → Nat) :
    Prop :=
  ∃ en v : Vec, exec i s = .next (s.wroteV lat len d en v) ∧ ∀ e < laneCount t,
    elemOf t en e = (if act e then 2 ^ laneWidth t - 1 else 0) ∧ (act e = true → elemOf t v e = f e % 2 ^ laneWidth t)

/-- Element e of type t is active in the slot's lane mask (R129). -/
def State.laneOn (s : State) (t : LaneType) (e : Nat) : Bool := s.me.p.getLsbD (governs t e)

/-- The rational number a value stands for; none for an infinity or a NaN. -/
def Num.rat : Num → Option ℚ
  | .fin s m e => some ((if s then -1 else 1) * (m : ℚ) * 2 ^ e)
  | .inf _ | .nan _ _ => none

/-- Place i of the pairwise tree of 2^n leaves (R139). -/
def pairTree (f : Nat → Nat → Nat) (v : Nat → Nat) : Nat → Nat → Nat
  | 0, i => v i
  | n + 1, i => f (pairTree f v n i) (pairTree f v n (i + 2 ^ n))

/-- An instruction that has performed its access completes and leaves the rotation until the replies of what it sent arrive
(R85, R181). -/
def State.served (s : State) : State := { s.complete 4 with sent := [] }.leave (.reply s.sent)

/-- The n bytes a tray access with a local pointer reaches, in U mode or S mode, are no system area, exist and are aligned
(R24, R150, R151). -/
def localTray (p : Word) (n : Nat) (o : Bool) : Prop :=
  p.extractLsb' 60 4 = 1 ∧ p.extractLsb' 19 41 = 0 ∧
    let off := (p.extractLsb' 0 19).toNat
    if n = 64 ∧ o = true then off < 0x58000 ∧ off / 64 % 16 = 0 ∧ off % 4 = 0 else off + n ≤ 0x58000 ∧ off % n = 0

/-- Offset a tray pointer names (R150). -/
def trayOff (p : Word) : Nat := (p.extractLsb' 0 19).toNat

/-- A word of the core's tray is poisoned among some bytes. -/
def State.poisonAt (s : State) (offs : List Nat) : Prop := ∃ o ∈ offs, o / 4 ∈ s.myCore.trayBad

/-- A byte of the core's tray as a plain read may take it: what the tray holds, or with `b` the older value that another core's store has
replaced since the last acquire (R265, R271). -/
def State.trayWas (s : State) (b : Bool) (o : Nat) : Byte :=
  match b, mapGet? s.myCore.trayOld (o / 4) with
  | true, some v => v.extractLsb' (8 * (o % 4)) 8
  | true, none | false, _ => Memory.read s.myCore.tray o

/-- A byte of the package's memory reads as before, or was written back from a first-level cache that owned its word
(R162, R237). -/
def backed (s t : State) (a : Nat) : Prop :=
  Memory.read t.mem a = Memory.read s.mem a ∨
    ∃ c, ∃ e ∈ (s.core c).l1d, e.2.pa = a / 64 ∧ e.2.owned.getLsbD (a % 64 / 4) = true ∧
      Memory.read t.mem a = e.2.data.extractLsb' (8 * (a % 64)) 8

/-- A matrix operation issues: its slot takes the next place in issue order (R168). -/
def State.entered (s : State) : State := (s.modMe fun t => { t with since := s.stamp }).tick

/-- Nothing before it holds the operation back, and it names no emulated format (R168, R222). -/
def State.laneFree (s : State) (i : Instr) (l : Latch) : Prop :=
  s.entered.myCore.laneBlocked i s.stamp = false ∧ emulated i l s.entered.myCore = false

/-- A matrix operation is complete: its slot is out until its cycles have passed, and of the machine only the core's matrix store, the
free-value counter and the slot changed (R128, R168, R203). -/
def matrixDone (s t : State) (i : Instr) (cost : Nat) : Prop :=
  t.me.out = .matrix (isLoader i) (tilesOf i) (s.myCore.laneStart i s.cycle + cost) ∧
    { t.me with out := s.me.out, since := s.me.since } = (s.complete 4).me ∧ (∀ r, t.seen.xval r = s.seen.xval r) ∧ (∀ r, t.seen.vval r = s.seen.vval r) ∧
    t.mem = s.mem ∧ t.myCore.fe = s.myCore.fe

/-- Memory is in canonical form: the package's and the host's. -/
def State.memoryForm (s : State) : Prop := Memory.wf s.mem = true ∧ Memory.wf s.hostMem = true

/-- The stores of a core are in canonical form. -/
def Core.storeForm (k : Core) : Prop := Memory.wf k.tray = true ∧ Memory.wf k.tiles = true ∧ mapWf 0 k.acc = true

/-- The stores of every core, and of every context at rest, are in canonical form. -/
def State.coreForm (s : State) : Prop :=
  (∀ e ∈ s.cores, e.2.storeForm) ∧ ∀ q ∈ s.parts, ∀ e ∈ q.2.contexts, e.2.storeForm

/-! ### What lets a global access complete at once -/

/-- Nothing holds a release back: every store of the slot is acknowledged and no refusal of one is recorded (R182, R259). -/
def State.quiet (s : State) : Prop :=
  (∀ k ∈ s.packets, k.isStore = true → k.unacked s.curCore s.curSlot.val = false) ∧ s.me.nack = none

/-- The cluster TLB holds the translation `e` of a global address of the slot's partition, and a first-level line of the
address is held under the same (R223, R228). -/
def State.translated (s : State) (p : Word) (e : TlbEntry) : Prop :=
  (s.myPart.raf[(p.extractLsb' 56 4).toNat]?).any (·.getLsbD 0) = true ∧ s.tlbEntry s.myPartNo s.curCore p = some e ∧
    ∀ l, mapGet? s.myCore.l1d (p.toNat / 64) = some l → l.tr = some e

/-- An access of n bytes through a global pointer passes the checks of R24 and reaches a physical address of the partition's own
memory, by a page that is neither a fabric nor a device page (R223-R228). -/
def State.reaches (s : State) (p : Word) (n : Nat) (k : AccKind) (e : TlbEntry) (pa : Nat) : Prop :=
  p.extractLsb' 60 4 = 0 ∧ (p.extractLsb' 0 60).toNat + n ≤ 2 ^ 60 ∧ p.toNat % n = 0 ∧ s.translated p e ∧
    12 ≤ e.psize ∧ e.psize ≤ 48 ∧ e.region.getLsbD 10 = false ∧ e.region.getLsbD 11 = false ∧ allows s.me.sw.s e k = true ∧
    (field e.leaf 8 4 = s.myOwner ∨ field e.leaf 8 4 = 0) ∧
    pa = field e.leaf e.psize (48 - e.psize) * 2 ^ e.psize + p.toNat % 2 ^ e.psize ∧ s.myPart.owns pa = true

/-- The line of an address is an ordinary one for the slot, which runs no development: no record, pin or migration meets it, no reseed
holds its requests, no word of it is poisoned, the slot's core may read no older value of one (R266) and no first-level cache owns one; the maps it is looked up in are in order. -/
def State.plainLine (s : State) (pa : Nat) : Prop :=
  (∀ d, s.me.kind ≠ .dev d) ∧ s.myPart.recordOf (pa / 64) = none ∧ s.myPart.pinCount (pa / 64) = 0 ∧ s.myPart.migrating = none ∧
    s.reseeding s.agent = false ∧ (∀ w ∈ s.memBad, w / 16 ≠ pa / 64) ∧
    (∀ e o, mapGet? s.l2 (pa / 64) = some e → e.older = some o → o.writer = s.curCore ∨ s.curCore ∈ o.barred) ∧
    (∀ x ∈ s.cores, ∀ e ∈ x.2.l1d, e.2.pa = pa / 64 → e.2.owned = 0) ∧
    Memory.wf s.mem = true ∧ risesFrom 0 s.l2 = true ∧ ∀ x ∈ s.cores, risesFrom 0 x.2.l1d = true

/-! ### Safety -/

/-- The state is safe to go on from: memory and the stores of its cores are in canonical form. -/
def State.safe (s : State) : Prop := s.memoryForm ∧ s.coreForm

end Sys2Proof.Machine
end

