-- ==== Sys2Proof/Certificates/Slice0/Obligations.lean ====
section
/-!
DEFINITION. The statements for the provers. A statement of several parts is the conjunction of named claims that stand before it.
-/
open Sys2Proof Sys2Proof.Machine

/-- Decoding the bytes of any encoded well-formed instruction gives the instruction back with every operand (R25, R28-R43). -/
def Obligations.DecodeOfEncode : Prop :=
  ∀ i : Instr, Laws.Encoding.Statement i

/-- A word that decodes is the encoding of what it decodes to, and that is well formed: no word has two readings and no reserved
bit is dropped (R25, R38-R43). -/
def Obligations.EncodeOfDecode : Prop :=
  ∀ (bs : List Byte) (i : Instr) (n : Nat), decode bs = .ok (i, n) →
    i.wf = true ∧ (n = 2 ∨ n = 4) ∧ encode i = some (numberOfBytes (bs.take n))

/-- The example words of the spec's entries decode to their instructions (R100, R108, R110, R116-R119, R121-R124). -/
def Sys2Proof.Claim.ExampleWordsDecode : Prop :=
  decode32 0x010A4481 = .ok (.mulhu 9 4 5) ∧ decode32 0x01A68401 = .ok (.divu 8 8 19) ∧
  decode32 0x07CC5281 = .ok (.ptag 5 5 6) ∧ decode32 0x12345493 = .ok (.liu 9 0x12345) ∧
  decode32 0x05904315 = .ok (.bfx 6 4 8 11) ∧ decode32 0x010A4199 = .ok (.cmp 3 4 5 .ltu) ∧
  decode32 0xFFFFA421 = .ok (.br 8 false 0xFFFFA) ∧ decode32 0x000400A3 = .ok (.jal 1 0x40) ∧
  decode32 0x002A8027 = .ok (.loop 8 21) ∧ decode32 0x00400029 = .ok .yield ∧ decode32 0x1400007D = .ok (.trap 5) ∧
  decode32 0x0040007D = .ok .tret

/-- Encodings that R43 makes illegal are refused: unassigned major opcodes, the half-word 0, the unassigned C16 codes. -/
def Sys2Proof.Claim.IllegalWordsRefused : Prop :=
  (∀ w : Nat, w < 2 ^ 32 → w % 2 = 1 →
    (fieldOf w 6 1 ∈ [0x15, 0x16, 0x17, 0x1C, 0x1D, 0x1E, 0x1F, 0x3F]) → ∀ i, decode32 w ≠ .ok i) ∧
  (∀ i, decode16 0 ≠ .ok i) ∧
  (∀ w : Nat, w < 2 ^ 16 → w % 2 = 0 → fieldOf w 15 15 = 1 → 12 ≤ fieldOf w 4 1 → ∀ i, decode16 w ≠ .ok i)

/-- Words written out from the spec decode to their instructions, and words that are none are refused. -/
def Obligations.DecodingIsRight : Prop := Sys2Proof.Claim.ExampleWordsDecode ∧ Sys2Proof.Claim.IllegalWordsRefused

/-- Where nothing is due or pending and a slot has its turn, a step issues the instruction whose bytes stand at that slot's PC:
a 16-bit form from one half-word, a 32-bit form from two, is executed by exec; an encoding that is no instruction and a fetch
that fails are the events of those names; what the step adds is the words the instruction has made cross the mesh, the wait for its
replies (afterIssue) and the note of slots that have come back to the rotation. That a slot whose state came from poisoned words takes MCE
before it fetches (R180) is the model's choice, log 104. -/
def Obligations.StepRunsDecoded : Prop :=
  ∀ (s : State) (c k h j : Nat), s.dueActs = [] → s.acts = [] → s.nextIssue = some (c, k, h, j) →
    let f := s.noteIssue c k h j
    let after := fun (o : Out) => match o with
      | .next t => .next (s.noteReturns (f.afterIssue t))
      | .fault x => .fault x
      | .refused x => .refused x
    (f.me.spoiled = true → step s = after (.next ((f.modMe fun t => { t with spoiled := false }).takeTrap .mce 0 true))) ∧
    (f.me.spoiled = false →
    (∀ (h0 : BitVec 16) (u : State), fetchHalf f.agent f.me.pc f = .ok (h0, u) → h0.getLsbD 0 = false →
      (∀ i, decode (halfBytes h0) = .ok (i, 2) → step s = after (exec i { u with sent := [] })) ∧
      (∀ e, decode (halfBytes h0) = .error e → step s = after (exec (.illegalEncoding (h0.setWidth 32)) { u with sent := [] }))) ∧
    (∀ (h0 h1 : BitVec 16) (u v : State), fetchHalf f.agent f.me.pc f = .ok (h0, u) → h0.getLsbD 0 = true →
      fetchHalf f.agent (f.me.pc + 2) u = .ok (h1, v) →
      (∀ i, decode (halfBytes h0 ++ halfBytes h1) = .ok (i, 4) → step s = after (exec i { v with sent := [] })) ∧
      (∀ e, decode (halfBytes h0 ++ halfBytes h1) = .error e →
        step s = after (exec (.illegalEncoding (h1 ++ h0)) { v with sent := [] }))) ∧
    ∀ (x : Cause) (a : Word), fetchHalf f.agent f.me.pc f = .error (.trap x a) →
      step s = after (exec (.fetchFault (fetchCauseOf x) a) f))

/-- Every step keeps the canonical form of memory: the form is the model's choice of data, R400 gives what an unlisted byte reads as. -/
def Sys2Proof.Claim.MemoryFormKept : Prop :=
  ∀ s t : State, s.memoryForm → step s = .next t → t.memoryForm

/-- Every step keeps the canonical form of the stores of the cores. -/
def Sys2Proof.Claim.CoreStoresKept : Prop :=
  ∀ s t : State, s.coreForm → step s = .next t → t.coreForm

/-- Every step keeps memory and the stores of the cores in canonical form. -/
def Obligations.MemoryFormKept : Prop := Sys2Proof.Claim.MemoryFormKept ∧ Sys2Proof.Claim.CoreStoresKept

/-- What reset leaves (R77, R78, R165, R221, R333, R400, R405, R408): memory lists nothing and is in canonical form, no core is bound, a
slot's P and sw have their values, no port has a lane, and the package is out of every domain. That queues, deques and full/empty bits are
empty is the model's reading of the scrub of R400, DEDUCED, log 2. -/
def Obligations.ResetState : Prop :=
  let s := State.reset
  s.memoryForm ∧ s.coreForm ∧ (∀ a, Memory.read s.mem a = 0) ∧ s.parts = [] ∧ s.queues = [] ∧ s.l2 = [] ∧ s.latent = [] ∧ s.memBad = [] ∧
    s.pkgid = 0x1FFF ∧ (∀ n, (s.relran n).lanes = 0 ∧ (s.relran n).up = false) ∧
    ∀ c k, let t := s.slotAt c k
      t.life = .unbound ∧ t.p = 0xFFFF ∧ t.sw.toWord = 6 ∧ (s.core c).binds[k].v = false ∧ (s.core c).tc = Vector.replicate 8 0 ∧
        (s.core c).array.wv = false ∧ (s.core c).ovf = false ∧ (s.core c).resume = none ∧ (s.core c).deque = [] ∧ (s.core c).fe = []

/-- Every instruction has a meaning: none is refused, in any state (R40, R43). -/
def Obligations.NothingRefused : Prop :=
  ∀ (i : Instr) (s : State) (r : Refusal), exec i s ≠ .refused r

/-- What a scalar result does to the registers (R27, R82, R86): x0 discards it and reads as zero; a private register holds it
and loses its mark at once; a shared one is seen by the slot that wrote it at once, and by the other slots of the core not
before the write lands. -/
def Sys2Proof.Claim.RegisterWrite : Prop :=
  ∀ (s : State) (lat : Nat) (d : Reg) (v : Word),
    s.xval 0 = 0 ∧
    (d = 0 → s.setXAt lat d v = s) ∧
    (d ≠ 0 → d.toNat < 16 → (s.setXAt lat d v).xval d = v ∧ (s.setXAt lat d v).markOf d = none) ∧
    (16 ≤ d.toNat → (s.setXAt lat d v).seen.xval d = v ∧
      ∀ k : Fin 8, k ≠ s.curSlot → ((s.setXAt lat d v).focus s.curCore k).xval d = (s.focus s.curCore k).xval d) ∧
    ∀ r, r ≠ d → (s.setXAt lat d v).seen.xval r = s.seen.xval r ∧ (s.setXAt lat d v).markOf r = s.markOf r

/-- What a lane result does to the vector registers (R27, R86, R130, R131): the enabled bits of V(d) change for the slot that
wrote, the others keep their value; the other slots of the core see a shared register as before until the write lands. -/
def Sys2Proof.Claim.VectorWrite : Prop :=
  ∀ (s : State) (lat : Nat) (d : Reg) (en v : Vec),
    (∀ j, ((s.setVAt lat d en v).seen.vval d).getLsbD j = if en.getLsbD j then v.getLsbD j else (s.seen.vval d).getLsbD j) ∧
    (∀ r, r ≠ d → (s.setVAt lat d en v).seen.vval r = s.seen.vval r) ∧
    (16 ≤ d.toNat → ∀ k : Fin 8, k ≠ s.curSlot →
      ((s.setVAt lat d en v).focus s.curCore k).vval d = (s.focus s.curCore k).vval d) ∧
    ∀ r, (s.setVAt lat d en v).seen.xval r = s.seen.xval r

/-- What a scalar or vector result does to the registers. -/
def Obligations.RegistersWritten : Prop := Sys2Proof.Claim.RegisterWrite ∧ Sys2Proof.Claim.VectorWrite

/-- The loop step of R97: an instruction of `len` bytes completes without a transfer, or with one to `target`. -/
def Obligations.LoopStep : Prop :=
  ∀ (s : State) (len target : Word),
    let t := s.me
    let lo := t.lstart &&& ~~~1#64
    let hi := t.lend &&& ~~~1#64
    let after := fun (u : State) (pc lc : Word) (hl : Bool) => u.me.pc = pc ∧ u.me.lc = lc ∧ u.me.sw = { t.sw with hl := hl }
    (t.sw.hl = false → after (s.complete len) (t.pc + len) t.lc false ∧ after (s.jump target) target t.lc false) ∧
    (t.sw.hl = true → target.toNat < lo.toNat ∨ hi.toNat < target.toNat → after (s.jump target) target t.lc false) ∧
    (t.sw.hl = true → lo.toNat ≤ target.toNat → target.toNat ≤ hi.toNat → after (s.jump target) target t.lc true) ∧
    (t.sw.hl = true → t.pc ≠ hi → after (s.complete len) (t.pc + len) t.lc true) ∧
    (t.sw.hl = true → t.pc = hi → t.lc ≠ 1 → after (s.complete len) lo (t.lc - 1) true) ∧
    (t.sw.hl = true → t.pc = hi → t.lc = 1 → after (s.complete len) (t.pc + len) 0 false)

/-- The two-source scalar operations write the results R100 and R104 give, of the register values at issue (R99). -/
def Sys2Proof.Claim.ScalarBinary : Prop :=
  ∀ (s : State) (d a b : Reg), s.unmarked [a, b] →
    let A := s.xval a
    let B := s.xval b
    let n := B.toNat % 64
    (∀ p ∈ [(Instr.add d a b, A + B), (.sub d a b, A - B), (.and d a b, A &&& B), (.or d a b, A ||| B),
        (.xor d a b, A ^^^ B), (.andn d a b, A &&& ~~~B), (.shl d a b, BitVec.ofNat 64 (A.toNat * 2 ^ n)),
        (.shr d a b, BitVec.ofNat 64 (A.toNat / 2 ^ n)), (.sar d a b, BitVec.ofInt 64 (A.toInt / 2 ^ n)),
        (.rol d a b, (A <<< n) ||| (A >>> (64 - n))),
        (.min d a b, if A.toInt ≤ B.toInt then A else B), (.minu d a b, if A.toNat ≤ B.toNat then A else B),
        (.max d a b, if B.toInt ≤ A.toInt then A else B), (.maxu d a b, if B.toNat ≤ A.toNat then A else B),
        (.ptag d a b, ((B &&& 0xF) <<< 60) ||| (A &&& 0x0FFFFFFFFFFFFFFF))],
      exec p.1 s = .next (s.wroteX 2 4 d p.2)) ∧
    ∀ p ∈ [(Instr.mul d a b, BitVec.ofNat 64 (A.toNat * B.toNat)),
        (.mulh d a b, (A.signExtend 128 * B.signExtend 128).extractLsb' 64 64),
        (.mulhu d a b, (A.setWidth 128 * B.setWidth 128).extractLsb' 64 64)],
      exec p.1 s = .next (s.wroteX 3 4 d p.2)

/-- The compact scalar forms are the same operations with a = d and b = s, of two bytes (R38, R100). -/
def Sys2Proof.Claim.CompactScalar : Prop :=
  ∀ (s : State) (d r : Reg), s.unmarked [d, r] →
    let A := s.xval d
    let B := s.xval r
    let n := B.toNat % 64
    (∀ p ∈ [(Instr.cMov d r, B), (.cAdd d r, A + B), (.cSub d r, A - B), (.cAnd d r, A &&& B), (.cOr d r, A ||| B),
        (.cXor d r, A ^^^ B), (.cShl d r, BitVec.ofNat 64 (A.toNat * 2 ^ n)),
        (.cShr d r, BitVec.ofNat 64 (A.toNat / 2 ^ n)), (.cSar d r, BitVec.ofInt 64 (A.toInt / 2 ^ n)),
        (.cMin d r, if A.toInt ≤ B.toInt then A else B), (.cMax d r, if B.toInt ≤ A.toInt then A else B)],
      exec p.1 s = .next (s.wroteX 2 2 d p.2)) ∧
    exec (.cMul d r) s = .next (s.wroteX 3 2 d (BitVec.ofNat 64 (A.toNat * B.toNat)))

/-- Results of the two-source scalar operations and their compact forms. -/
def Obligations.ScalarBinary : Prop := Sys2Proof.Claim.ScalarBinary ∧ Sys2Proof.Claim.CompactScalar

/-- LEA keeps the tag unless the exact sum leaves the 60-bit range, when the tag becomes 0xE (R102). -/
def Obligations.LeaComputesPointer : Prop :=
  ∀ (s : State) (d a b : Reg), s.unmarked [a, b] →
    ∀ p ∈ [(Instr.lea1 d a b, (1 : Int)), (.lea2 d a b, 2), (.lea4 d a b, 4), (.lea8 d a b, 8)],
      ∃ v : Word, exec p.1 s = .next (s.wroteX 2 4 d v) ∧
        let sum : Int := (((s.xval a).extractLsb' 0 60).toNat : Int) + p.2 * (s.xval b).toInt
        v.extractLsb' 0 60 = BitVec.ofInt 60 sum ∧
        (0 ≤ sum → sum < 2 ^ 60 → v.extractLsb' 60 4 = (s.xval a).extractLsb' 60 4) ∧
        ((sum < 0 ∨ 2 ^ 60 ≤ sum) → v.extractLsb' 60 4 = 0xE)

/-- The one-source operations and the immediate forms (R100, R105, R106, R107, R108). -/
def Sys2Proof.Claim.ScalarUnary : Prop :=
  (∀ (s : State) (d a : Reg) (i : BitVec 15) (n : BitVec 6), s.unmarked [a] →
    let A := s.xval a
    (∀ p ∈ [(Instr.mov d a, A), (.sextB d a, BitVec.ofInt 64 (A.setWidth 8).toInt),
        (.sextH d a, BitVec.ofInt 64 (A.setWidth 16).toInt), (.sextW d a, BitVec.ofInt 64 (A.setWidth 32).toInt),
        (.addi d a i, BitVec.ofInt 64 (A.toNat + i.toInt)), (.andi d a i, A &&& i.setWidth 64),
        (.ori d a i, A ||| i.setWidth 64), (.xori d a i, A ^^^ i.setWidth 64),
        (.shli d a n, BitVec.ofNat 64 (A.toNat * 2 ^ n.toNat)), (.shri d a n, BitVec.ofNat 64 (A.toNat / 2 ^ n.toNat)),
        (.sari d a n, BitVec.ofInt 64 (A.toInt / 2 ^ n.toNat))],
      exec p.1 s = .next (s.wroteX 2 4 d p.2)) ∧
    (∃ v : Word, exec (.clz d a) s = .next (s.wroteX 2 4 d v) ∧ (A = 0 → v = 64) ∧
      (A ≠ 0 → v.toNat < 64 ∧ A.toNat / 2 ^ (63 - v.toNat) = 1)) ∧
    ∃ v : Word, exec (.popc d a) s = .next (s.wroteX 2 4 d v) ∧
      v.toNat = ((List.range 64).map fun j => (A.getLsbD j).toNat).sum) ∧
  (∀ (s : State) (d : Reg) (i : BitVec 15), exec (.li d i) s = .next (s.wroteX 2 4 d (BitVec.ofInt 64 i.toInt))) ∧
  ∀ (s : State) (d : Reg) (i : BitVec 20), s.unmarked [d] →
    exec (.liu d i) s = .next (s.wroteX 2 4 d ((s.xval d <<< 20) ||| i.setWidth 64))

/-- BFX and BFI, bit by bit (R109): BFX moves the field of l + 1 bits at p to bit 0 and clears the rest; BFI replaces that field
of the destination by the low bits of A. -/
def Sys2Proof.Claim.BitFields : Prop :=
  ∀ (s : State) (d a : Reg) (p l : BitVec 6), p.toNat + l.toNat < 64 →
    (s.unmarked [a] → ∃ v : Word, exec (.bfx d a p l) s = .next (s.wroteX 2 4 d v) ∧
      ∀ j, v.getLsbD j = (decide (j ≤ l.toNat) && (s.xval a).getLsbD (p.toNat + j))) ∧
    (s.unmarked [d, a] → ∃ v : Word, exec (.bfi d a p l) s = .next (s.wroteX 2 4 d v) ∧
      ∀ j, v.getLsbD j = if p.toNat ≤ j ∧ j ≤ p.toNat + l.toNat then (s.xval a).getLsbD (j - p.toNat)
        else (s.xval d).getLsbD j)

/-- Results of the one-source and immediate scalar operations and the bit-field operations. -/
def Obligations.ScalarUnary : Prop := Sys2Proof.Claim.ScalarUnary ∧ Sys2Proof.Claim.BitFields

/-- A divide takes the slot out of the rotation with its quotient or remainder, which is written 34 cycles after the issue (R82,
R101). The remainder has the sign of the dividend; division by zero gives all ones and the dividend. -/
def Sys2Proof.Claim.Divide : Prop :=
  ∀ (s : State) (d a b : Reg), s.unmarked [a, b] →
    let A := s.xval a
    let B := s.xval b
    let out := fun (v : Word) => (s.complete 4).leave (.divide d v (s.cycle + 34))
    (∃ q r : Word, exec (.div d a b) s = .next (out q) ∧ exec (.rem d a b) s = .next (out r) ∧
      (B = 0 → q = BitVec.ofInt 64 (-1) ∧ r = A) ∧
      (A.toInt = -2 ^ 63 → B.toInt = -1 → q = A ∧ r = 0) ∧
      (B ≠ 0 → ¬ (A.toInt = -2 ^ 63 ∧ B.toInt = -1) →
        A.toInt = q.toInt * B.toInt + r.toInt ∧ r.toInt.natAbs < B.toInt.natAbs ∧ (r = 0 ∨ (r.toInt < 0 ↔ A.toInt < 0)))) ∧
    ∃ q r : Word, exec (.divu d a b) s = .next (out q) ∧ exec (.remu d a b) s = .next (out r) ∧
      (B = 0 → q = BitVec.ofInt 64 (-1) ∧ r = A) ∧
      (B ≠ 0 → A.toNat = q.toNat * B.toNat + r.toNat ∧ r.toNat < B.toNat)

/-- DIVIDE_RESULT_WRITE writes the result in its cycle and the slot returns to the rotation (R82, R85, R101). -/
def Sys2Proof.Claim.DivideResult : Prop :=
  ∀ (s : State) (c : Nat) (k : Fin 8) (d : Reg) (v : Word),
    (s.slotAt c k).out = .divide d v s.cycle →
    exec (.divideResultWrite c k.val) s =
      .next ((((s.focus c k).setX d v).modMe fun t => { t with out := .none }).focus s.curCore s.curSlot)

/-- Division and remainder: the results, their corners and when they are written. -/
def Obligations.Division : Prop := Sys2Proof.Claim.Divide ∧ Sys2Proof.Claim.DivideResult

/-- Comparisons and predicate logic write one bit of P (R110, R111, R112). -/
def Sys2Proof.Claim.PredicateResults : Prop :=
  (∀ (s : State) (q : PredNo) (a b : Reg), s.unmarked [a, b] →
    let A := s.xval a
    let B := s.xval b
    ∀ p ∈ [(Cond.eq, decide (A = B)), (.ne, decide (A ≠ B)), (.lt, decide (A.toInt < B.toInt)),
        (.le, decide (A.toInt ≤ B.toInt)), (.ltu, decide (A.toNat < B.toNat)), (.leu, decide (A.toNat ≤ B.toNat))],
      exec (.cmp q a b p.1) s = .next (s.wroteP q p.2)) ∧
  (∀ (s : State) (q : PredNo) (a : Reg) (i : BitVec 12), s.unmarked [a] →
    let A := s.xval a
    let B := BitVec.ofInt 64 i.toInt
    ∀ p ∈ [(Cond.eq, decide (A = B)), (.ne, decide (A ≠ B)), (.lt, decide (A.toInt < B.toInt)),
        (.le, decide (A.toInt ≤ B.toInt)), (.ltu, decide (A.toNat < B.toNat)), (.leu, decide (A.toNat ≤ B.toNat))],
      exec (.cmpi q a p.1 i) s = .next (s.wroteP q p.2)) ∧
  ∀ (s : State) (d a b : PredNo),
    let x := s.me.p.getLsbD (16 + a.toNat)
    let y := s.me.p.getLsbD (16 + b.toNat)
    ∀ p ∈ [(Instr.plogAnd d a b, x && y), (.plogOr d a b, x || y), (.plogXor d a b, x != y), (.plogAndn d a b, x && !y),
        (.plogNot d a, !x), (.plogSet d, true), (.plogClr d, false)],
      exec p.1 s = .next (s.wroteP d p.2)

/-- Writing predicate bit q leaves every other bit of P (R110, R112). -/
def Sys2Proof.Claim.PredicateBit : Prop :=
  ∀ (s : State) (q : PredNo) (b : Bool) (j : Nat),
    (s.wroteP q b).me.p.getLsbD j = if j = 16 + q.toNat then b else s.me.p.getLsbD j

/-- SEL, RDP and WRP (R113, R114). -/
def Sys2Proof.Claim.SelectAndPredicateWord : Prop :=
  (∀ (s : State) (d a b : Reg) (q : PredNo) (n : Bool), s.unmarked [a, b] →
    exec (.sel d a b q n) s =
      .next (s.wroteX 2 4 d (if s.me.p.getLsbD (16 + q.toNat) = n then s.xval b else s.xval a))) ∧
  (∀ (s : State) (d : Reg), exec (.rdp d) s = .next (s.wroteX 2 4 d (s.me.p.setWidth 64 &&& 0xFFFFFF))) ∧
  ∀ (s : State) (a : Reg), s.unmarked [a] →
    exec (.wrp a) s =
      .next ((s.modMe fun t => { t with p := (s.xval a &&& 0xFFFFFF).setWidth 32 }).complete 4)

/-- Comparisons, predicate logic, SEL and the predicate word. -/
def Obligations.Predicates : Prop := Sys2Proof.Claim.PredicateResults ∧ Sys2Proof.Claim.PredicateBit ∧ Sys2Proof.Claim.SelectAndPredicateWord

/-- The integer lane operations and movements, with the compact forms (R134, R136, R141, R146): each active lane holds the
result, an inactive one keeps its bits. -/
def Obligations.LaneInteger : Prop :=
  ∀ (s : State) (d a b : Reg),
    let A := fun i => laneOf (s.vval a) i
    let D := fun i => laneOf (s.vval d) i
    let on := s.laneOn .i32
    let add := fun (x y : HWord) => x + y
    let sub := fun (x y : HWord) => x - y
    let mul := fun (x y : HWord) => x * y
    let mulh := fun (x y : HWord) => (x.signExtend 64 * y.signExtend 64).extractLsb' 32 32
    let mins := fun (x y : HWord) => if x.toInt ≤ y.toInt then x else y
    let maxs := fun (x y : HWord) => if y.toInt ≤ x.toInt then x else y
    let minu := fun (x y : HWord) => if x.toNat ≤ y.toNat then x else y
    let maxu := fun (x y : HWord) => if y.toNat ≤ x.toNat then x else y
    let shl := fun (x y : HWord) => x <<< (y.toNat % 32)
    let shr := fun (x y : HWord) => x >>> (y.toNat % 32)
    let sar := fun (x y : HWord) => BitVec.ofInt 32 (x.toInt / 2 ^ (y.toNat % 32))
    (∀ p ∈ [(Instr.vadd d a b .i32, add), (.vsub d a b .i32, sub), (.vmul d a b .i32, mul), (.vmulh d a b, mulh),
        (.vmin d a b .i32, mins), (.vmax d a b .i32, maxs), (.vminu d a b, minu), (.vmaxu d a b, maxu),
        (.vand d a b, fun x y => x &&& y), (.vor d a b, fun x y => x ||| y), (.vxor d a b, fun x y => x ^^^ y),
        (.vandn d a b, fun x y => x &&& ~~~y), (.vshl d a b, shl), (.vshr d a b, shr), (.vsar d a b, sar),
        (.vabs d a .i32, fun x _ => if x.toInt < 0 then -x else x), (.vneg d a .i32, fun x _ => -x),
        (.vmov d a, fun x _ => x)],
      writesLanes p.1 s 3 4 d .i32 on fun i => (p.2 (A i) (laneOf (s.vval b) i)).toNat) ∧
    (∀ p ∈ [(Instr.cVaddI32 d a, add), (.cVsubI32 d a, sub), (.cVmulI32 d a, mul), (.cVminI32 d a, mins),
        (.cVmaxI32 d a, maxs), (.cVand d a, fun x y => x &&& y), (.cVor d a, fun x y => x ||| y),
        (.cVxor d a, fun x y => x ^^^ y), (.cVshl d a, shl), (.cVshr d a, shr), (.cVsar d a, sar),
        (.cVmov d a, fun _ y => y)],
      writesLanes p.1 s 3 2 d .i32 on fun i => (p.2 (D i) (A i)).toNat) ∧
    writesLanes (.vperm d a b) s 3 4 d .i32 on (fun i => (A ((laneOf (s.vval b) i).toNat % 16)).toNat) ∧
    (s.unmarked [a] → writesLanes (.vbc d a) s 3 4 d .i32 on fun _ => ((s.xval a).setWidth 32).toNat) ∧
    ∀ l : BitVec 4, s.unmarked [a] →
      writesLanes (.vins d a l) s 3 4 d .i32 (fun i => i == l.toNat) fun _ => ((s.xval a).setWidth 32).toNat

/-- The float lane operations round the exact results to the format of the type, element by element, with the compact forms
(R129, R135, R137, R146). What the operations of a format compute, the statements on exact values, rounding and estimates
say. -/
def Sys2Proof.Claim.LaneFloat : Prop :=
  ∀ (s : State) (d a b : Reg) (t : LaneType), t ≠ .i32 →
    let F := laneFmt t
    let A := elemOf t (s.vval a)
    let B := elemOf t (s.vval b)
    let D := elemOf t (s.vval d)
    (∀ p ∈ [(Instr.vadd d a b t, F.add), (.vsub d a b t, F.sub), (.vmul d a b t, F.mul), (.vmin d a b t, F.min),
        (.vmax d a b t, F.max), (.vabs d a t, fun x _ => F.abs x), (.vneg d a t, fun x _ => F.negate x),
        (.vfrcp d a t, fun x _ => F.frcp x), (.vfrsq d a t, fun x _ => F.frsq x)],
      writesLanes p.1 s 4 4 d t (s.laneOn t) fun e => p.2 (A e) (B e)) ∧
    writesLanes (.vfma d a b t) s 4 4 d t (s.laneOn t) (fun e => F.fma (A e) (B e) (D e)) ∧
    (t = .f32 → ∀ p ∈ [(Instr.cVaddF32 d a, F.add), (.cVsubF32 d a, F.sub), (.cVmulF32 d a, F.mul), (.cVmaxF32 d a, F.max)],
      writesLanes p.1 s 4 2 d t (s.laneOn t) fun e => p.2 (D e) (A e))

/-- The exact values behind the float operations (R54, R72, R135): sums, products and fused products of numbers are those of
the rationals; an exact zero sum is −0 only of two −0; comparisons are those of the rationals, with −0 below +0 in MIN and
MAX (R71). -/
def Sys2Proof.Claim.FloatExact : Prop :=
  (∀ (x y : Machine.Num) (p q : ℚ), x.rat = some p → y.rat = some q →
    (x.add y).rat = some (p + q) ∧ (x.mul y).rat = some (p * q) ∧ x.neg.rat = some (-p) ∧
    (x.same y = true ↔ p = q) ∧ (x.less y = true ↔ p < q) ∧ (p ≠ q → (x.below y = true ↔ p < q))) ∧
  (∀ (x y z : Machine.Num) (p q r : ℚ), x.rat = some p → y.rat = some q → z.rat = some r →
    (x.fma y z).rat = some (p * q + r)) ∧
  ∀ (s t : Bool) (m n : Nat) (e g : Int),
    ((Machine.Num.fin s m e).rat = (Machine.Num.fin (!t) n g).rat →
      ∃ h, (Machine.Num.fin s m e).add (.fin t n g) = .fin (s && t) 0 h) ∧
    ∃ h, (Machine.Num.fin s m e).mul (.fin t n g) = .fin (s != t) (m * n) h

/-- Rounding to a format within its finite range (R51, R54, R65): RTZ, RDN and RUP deliver the neighbour R65 names, RNE a
nearest value, on a tie the one with an even code; a result keeps the sign of the exact value. -/
def Sys2Proof.Claim.RoundingModes : Prop :=
  ∀ (fmt : Fmt) (f : FloatFmt), fmtFloat fmt = some f →
  ∀ (neg : Bool) (m : Nat) (e : Int) (x top : ℚ), (Machine.Num.fin neg m e).rat = some x → (f.value f.maxCode).rat = some top →
    |x| ≤ top →
    ∀ (mode : Rounding) (sat : Bool) (dr : Nat), mode ≠ .sr →
      let c := roundFloat f mode sat dr neg m e
      c < 2 ^ f.bits ∧ (c.testBit (f.eb + f.fb) = neg) ∧
      ∃ y, (f.value c).rat = some y ∧
        ∀ (c' : Nat) (z : ℚ), c' < 2 ^ f.bits → (f.value c').rat = some z →
          (mode = .rtz → |y| ≤ |x| ∧ (|z| ≤ |x| → |z| ≤ |y|)) ∧
          (mode = .rdn → y ≤ x ∧ (z ≤ x → z ≤ y)) ∧
          (mode = .rup → x ≤ y ∧ (x ≤ z → y ≤ z)) ∧
          (mode = .rne → |y - x| ≤ |z - x| ∧ (z ≠ y → |y - x| = |z - x| → c % 2 = 0))

/-- VFMA, VFRCP and VFRSQ and the compact F32 forms complete in every state (R82, R97, R130, R135, R137, R146): they write V(d) alone and
keep its inactive elements; where the operands of an active element are finite and the exact sum, difference, product or fused product is in
range, the element is a number nearest to it. -/
def Sys2Proof.Claim.LaneFormsComplete : Prop :=
  ∀ (s : State) (d a b : Reg) (t : LaneType), t ≠ .i32 →
    let F := laneFmt t
    let val := fun (v : Vec) (e : Nat) => (F.value (elemOf t v e)).rat
    let two := fun (f : ℚ → ℚ → ℚ) (e : Nat) => (val (s.vval d) e).bind fun x => (val (s.vval a) e).map fun y => f x y
    let fused := fun (e : Nat) => (val (s.vval a) e).bind fun x => (val (s.vval b) e).bind fun y => (val (s.vval d) e).map fun z => x * y + z
    let nearest := fun (c : Nat) (x : ℚ) => ∃ y, (F.value c).rat = some y ∧ ∀ c' z, c' < 2 ^ F.bits → (F.value c').rat = some z → |y - x| ≤ |z - x|
    let ends := fun (i : Instr) (len : Word) (exact : Nat → Option ℚ) => ∃ u, exec i s = .next u ∧ u.me.pc = (s.complete len).me.pc ∧
      regFrame [] [d] true s u ∧ ∀ e < laneCount t,
        (s.laneOn t e = false → elemOf t (u.seen.vval d) e = elemOf t (s.seen.vval d) e) ∧
        (s.laneOn t e = true → ∀ x top, exact e = some x → (F.value F.maxCode).rat = some top → |x| ≤ top → nearest (elemOf t (u.seen.vval d) e) x)
    ends (.vfma d a b t) 4 fused ∧ ends (.vfrcp d a t) 4 (fun _ => none) ∧ ends (.vfrsq d a t) 4 (fun _ => none) ∧
    (t = .f32 → ends (.cVaddF32 d a) 2 (two (· + ·)) ∧ ends (.cVsubF32 d a) 2 (two (· - ·)) ∧ ends (.cVmulF32 d a) 2 (two (· * ·)) ∧
      ends (.cVmaxF32 d a) 2 (two max))

/-- ADD, SUB, MUL and FMA of a format round the exact result once, to nearest with ties to even; MIN and MAX take −0 below +0 (R65, R71,
R135). -/
def Sys2Proof.Claim.FloatOperations : Prop :=
  (∀ (F : FloatFmt) (x y z : Nat) (neg : Bool) (m : Nat) (e : Int),
    let rounded := roundFloat F .rne false 0 neg m e
    ((F.value x).add (F.value y) = .fin neg m e → F.add x y = rounded) ∧
    ((F.value x).add (F.value y).neg = .fin neg m e → F.sub x y = rounded) ∧
    ((F.value x).mul (F.value y) = .fin neg m e → F.mul x y = rounded) ∧
    ((F.value x).fma (F.value y) (F.value z) = .fin neg m e → F.fma x y z = rounded)) ∧
  (∀ (a b : Bool) (e g : Int), (Machine.Num.fin a 0 e).below (.fin b 0 g) = (a && !b)) ∧
  ∀ (F : FloatFmt) (x y : Nat) (e g : Int), F.value x = .fin true 0 e → F.value y = .fin false 0 g →
    F.min x y = x ∧ F.min y x = x ∧ F.max x y = y ∧ F.max y x = y

/-- Float lane operations are the exact results, rounded to the nearest number, ties to even. -/
def Obligations.LaneFloat : Prop :=
  Sys2Proof.Claim.LaneFloat ∧ Sys2Proof.Claim.LaneFormsComplete ∧ Sys2Proof.Claim.FloatExact ∧ Sys2Proof.Claim.FloatOperations ∧
  Sys2Proof.Claim.RoundingModes

/-- The estimates of normal results (R137): 1 / x and 1 / sqrt x truncated to 12 significant bits. -/
def Sys2Proof.Claim.Estimates : Prop :=
  ∀ t ∈ [LaneType.f32, .f64],
    let F := laneFmt t
    ∀ (code : Nat) (neg : Bool) (m : Nat) (e : Int) (k : Nat) (j : Int) (top : ℚ),
      F.value code = .fin neg m e → m ≠ 0 → 2 ^ 11 ≤ k → k < 2 ^ 12 → (F.value F.maxCode).rat = some top →
      let x : ℚ := m * 2 ^ e
      let q : ℚ := k * 2 ^ j
      (2 : ℚ) ^ F.emin ≤ q → q ≤ top →
      (q * x ≤ 1 → 1 < (k + 1) * 2 ^ j * x → (F.value (F.frcp code)).rat = some (if neg then -q else q)) ∧
      (neg = false → q ^ 2 * x ≤ 1 → 1 < ((k + 1) * 2 ^ j) ^ 2 * x → (F.value (F.frsq code)).rat = some q)

/-- VSEL blends every lane by the mask; the reductions write element 0 with the pairwise tree of R139, padded by the identity of
R72; VEXT reads one lane (R136, R139, R141). -/
def Sys2Proof.Claim.SelectReduceExtract : Prop :=
  ∀ (s : State) (d a b : Reg),
    writesLanes (.vsel d a b) s 3 4 d .i32 (fun _ => true)
      (fun i => if s.me.p.getLsbD i then (laneOf (s.vval a) i).toNat else (laneOf (s.vval b) i).toNat) ∧
    (∀ l : BitVec 4, exec (.vext d a l) s = .next (s.wroteX 3 4 d ((laneOf (s.vval a) l.toNat).setWidth 64))) ∧
    ∀ t ∈ [LaneType.i32, .f32, .f64],
    ∀ p ∈ [(Instr.vredAdd d a t, RedOp.add), (.vredMin d a t, .min), (.vredMax d a t, .max)],
      writesLanes p.1 s 4 4 d t (fun e => e == 0) fun _ =>
        if ∃ e < laneCount t, s.laneOn t e = true then
          pairTree (laneOp p.2.op t) (fun e => if s.laneOn t e then elemOf t (s.vval a) e else redIdentity p.2 t)
            (Nat.log2 (laneCount t)) 0
        else redEmpty p.2 t

/-- VCMP compares every element, active or not, and writes the lane mask alone (R71, R140). -/
def Sys2Proof.Claim.LaneCompare : Prop :=
  ∀ (s : State) (a b : Reg) (c : VCond) (n : Bool) (t : LaneType), t ∈ [LaneType.i32, .f32, .f64] →
    ∃ w : HWord, exec (.vcmp a b c n t) s = .next ((s.modMe fun u => { u with p := w }).complete 4) ∧
      (∀ j, 16 ≤ j → w.getLsbD j = s.me.p.getLsbD j) ∧
      ∀ i < 16,
        let x := elemOf t (s.vval a) (if t = .f64 then i / 2 else i)
        let y := elemOf t (s.vval b) (if t = .f64 then i / 2 else i)
        let F := laneFmt t
        w.getLsbD i = ((!n || s.me.p.getLsbD i) &&
          if t = .i32 then
            match c with
            | .eq => decide (x = y) | .ne => decide (x ≠ y)
            | .lt => decide ((BitVec.ofNat 32 x).toInt < (BitVec.ofNat 32 y).toInt)
            | .le => decide ((BitVec.ofNat 32 x).toInt ≤ (BitVec.ofNat 32 y).toInt)
            | .ltu => decide (x < y) | .leu => decide (x ≤ y) | .uno => false
          else
            match c with
            | .eq => (F.value x).same (F.value y) | .ne => !(F.value x).same (F.value y)
            | .lt => (F.value x).less (F.value y)
            | .le => (F.value x).less (F.value y) || (F.value x).same (F.value y)
            | .uno => (F.value x).isNan || (F.value y).isNan
            | .ltu | .leu => false)

/-- Estimates, lane selection, reductions, extraction and lane comparisons. -/
def Obligations.LaneOthers : Prop := Sys2Proof.Claim.Estimates ∧ Sys2Proof.Claim.SelectReduceExtract ∧ Sys2Proof.Claim.LaneCompare

/-- VCVT between built formats (R142-R145): N fields are converted under the mask bits of their index, the bits above them are
written 0, and with rounding SR the slot's counter advances. -/
def Sys2Proof.Claim.LaneConvert : Prop :=
  ∀ (s : State) (d a : Reg) (b f : Fmt) (r : Rounding) (sat : Bool), fmtEmulated b = false → fmtEmulated f = false →
    ∀ key : BitVec 128, (r = .sr → s.srKey = some key) →
    let n := if f = .fp64 ∨ b = .fp64 then 8 else 16
    ∃ en v : Vec,
      exec (.vcvt d a b r sat f) s =
        .next ((if r = .sr then (s.setVAt 4 d en v).modMe fun t => { t with sr := t.sr + 1 }
          else s.setVAt 4 d en v).complete 4) ∧
      (∀ j < n, s.me.p.getLsbD j = true →
        vecField en (fmtBits f * j) (fmtBits f) = 2 ^ fmtBits f - 1 ∧
        vecField v (fmtBits f * j) (fmtBits f) =
          convert f r sat
            (if r = .sr then (drawKey key (0x4000 ||| (s.me.lane.setWidth 14).setWidth 16)
              (BitVec.ofNat 48 (16 * s.me.sr.toNat + j))).toNat else 0)
            (fmtValue b (vecField (s.vval a) (fmtBits b * j) (fmtBits b))) % 2 ^ fmtBits f) ∧
      (∀ j < n, s.me.p.getLsbD j = false → vecField en (fmtBits f * j) (fmtBits f) = 0) ∧
      ∀ i < 512, n * fmtBits f ≤ i → en.getLsbD i = true ∧ v.getLsbD i = false

/-- VCVT on an FP6 format holds the slot for the die control core (R64); with rounding SR and no key, in a development of a
launch that is not deterministic, VCVT traps NONDET (R145). -/
def Sys2Proof.Claim.LaneConvertElsewhere : Prop :=
  ∀ (s : State) (d a : Reg) (b f : Fmt) (r : Rounding) (sat : Bool),
    ((r ≠ .sr ∨ s.srKey.isSome = true) → (fmtEmulated b = true ∨ fmtEmulated f = true) →
      exec (.vcvt d a b r sat f) s =
        .next (s.leave (.emulate (.vcvt d a b r sat f) { tcs := s.mySight.tc, a := 0, b := 0, d := 0 } (s.vval a)))) ∧
    (r = .sr → s.srKey = none → exec (.vcvt d a b r sat f) s = .next (s.takeTrap .nondet 0 false))

/-- Conversions between number formats, on the lanes and by the control core. -/
def Obligations.LaneConversions : Prop := Sys2Proof.Claim.LaneConvert ∧ Sys2Proof.Claim.LaneConvertElsewhere

/-- Scalar, predicate and transfer instructions change nothing but their destination, P where they write it, PC, lc and HL
(R97, R99). -/
def Sys2Proof.Claim.ScalarFrame : Prop :=
  ∀ (d a b : Reg) (q p e : PredNo) (c : Cond) (i : BitVec 15) (u : BitVec 20) (v : BitVec 12) (n l : BitVec 6) (z : Bool)
    (q4 : BitVec 4),
    (∀ x ∈ [Instr.add d a b, .sub d a b, .mul d a b, .mulh d a b, .mulhu d a b, .and d a b, .or d a b, .xor d a b,
        .andn d a b, .shl d a b, .shr d a b, .sar d a b, .rol d a b, .min d a b, .minu d a b, .max d a b, .maxu d a b,
        .clz d a, .popc d a, .sextB d a, .sextH d a, .sextW d a, .lea1 d a b, .lea2 d a b, .lea4 d a b, .lea8 d a b,
        .mov d a, .ptag d a b, .cMov d a, .cAdd d a, .cSub d a, .cMul d a, .cAnd d a, .cOr d a, .cXor d a, .cShl d a,
        .cShr d a, .cSar d a, .cMin d a, .cMax d a, .addi d a i, .andi d a i, .ori d a i, .xori d a i, .shli d a n,
        .shri d a n, .sari d a n, .li d i, .liu d u, .bfx d a n l, .bfi d a n l, .sel d a b q z, .rdp d, .jal d u,
        .jalr d a i], Framed x [d] [] true) ∧
    (∀ x ∈ [Instr.div d a b, .divu d a b, .rem d a b, .remu d a b, .br q4 z u, .yield], Framed x [] [] true) ∧
    ∀ x ∈ [Instr.cmp q a b c, .cmpi q a c v, .plogAnd q p e, .plogOr q p e, .plogXor q p e, .plogAndn q p e, .plogNot q p,
        .plogSet q, .plogClr q, .wrp a], Framed x [] [] false

/-- Lane instructions change nothing but their destination, the lane mask for VCMP, PC, lc and HL (R130, R136, R139-R141). -/
def Sys2Proof.Claim.LaneFrame : Prop :=
  ∀ (d a b : Reg) (t : LaneType) (c : VCond) (n : Bool) (l : BitVec 4),
    (∀ x ∈ [Instr.vadd d a b t, .vsub d a b t, .vmul d a b t, .vmulh d a b, .vmin d a b t, .vmax d a b t, .vminu d a b,
        .vmaxu d a b, .vand d a b, .vor d a b, .vxor d a b, .vandn d a b, .vshl d a b, .vshr d a b, .vsar d a b,
        .vabs d a t, .vneg d a t, .vmov d a, .vsel d a b, .vperm d a b, .vbc d a, .vredAdd d a t, .vredMin d a t,
        .vredMax d a t, .vfma d a b t, .vfrcp d a t, .vfrsq d a t, .vins d a l, .cVmov d a, .cVaddI32 d a, .cVsubI32 d a,
        .cVmulI32 d a, .cVand d a, .cVor d a, .cVxor d a, .cVshl d a, .cVshr d a, .cVsar d a, .cVminI32 d a,
        .cVmaxI32 d a, .cVaddF32 d a, .cVsubF32 d a, .cVmulF32 d a, .cVmaxF32 d a], Framed x [] [d] true) ∧
    Framed (.vext d a l) [d] [] true ∧ Framed (.vcmp a b c n t) [] [] false ∧
    ∀ (f g : Fmt) (r : Rounding) (sat : Bool) (s u : State), (r ≠ .sr ∨ s.srKey.isSome = true) →
      exec (.vcvt d a f r sat g) s = .next u → regFrame [] [d] true s u

/-- What the scalar and lane instructions leave unchanged. -/
def Obligations.RegisterFrames : Prop := Sys2Proof.Claim.ScalarFrame ∧ Sys2Proof.Claim.LaneFrame

/-- BR transfers where its predicate says, and writes no register (R116). -/
def Obligations.Branch : Prop :=
  (∀ (s : State) (q : BitVec 4) (n : Bool) (o : BitVec 20), q.toNat ≤ 8 →
    let c := if q = 8 then true else s.me.p.getLsbD (16 + q.toNat)
    exec (.br q n o) s = .next (if c ≠ n then s.jump (s.me.pc + BitVec.ofInt 64 (2 * o.toInt)) else s.complete 4)) ∧
  ∀ w : Nat, w < 2 ^ 32 → w % 2 = 1 → fieldOf w 6 1 = 0x10 →
    (9 ≤ fieldOf w 10 7 ∨ (fieldOf w 10 7 = 8 ∧ fieldOf w 11 11 = 1)) → ∀ i, decode32 w ≠ .ok i

/-- JAL writes the link and transfers; outside an active loop body it cancels the loop (R97, R117). -/
def Sys2Proof.Claim.JumpAndLink : Prop :=
  ∀ (s : State) (d : Reg) (i : BitVec 20),
    let target := s.me.pc + BitVec.ofInt 64 (2 * i.toInt)
    exec (.jal d i) s = .next ((s.setXAt 2 d (s.me.pc + 4)).jump target) ∧
    (-1048576 ≤ 2 * i.toInt ∧ 2 * i.toInt ≤ 1048574) ∧
    (target.toNat < (s.me.lstart &&& ~~~1#64).toNat ∨ (s.me.lend &&& ~~~1#64).toNat < target.toNat →
      ((s.setXAt 2 d (s.me.pc + 4)).jump target).me.sw.hl = false)

/-- JALR reads its register before the link is written; an odd target loses bit 0 (R118). -/
def Sys2Proof.Claim.JumpAndLinkRegister : Prop :=
  ∀ (s : State) (d a : Reg) (i : BitVec 15), s.unmarked [a] →
    exec (.jalr d a i) s =
      .next ((s.setXAt 2 d (s.me.pc + 4)).jump ((s.xval a + BitVec.ofInt 64 i.toInt) &&& ~~~1#64))

/-- JAL and JALR write the link and transfer. -/
def Obligations.Jumps : Prop := Sys2Proof.Claim.JumpAndLink ∧ Sys2Proof.Claim.JumpAndLinkRegister

/-- LOOP starts a loop of a nonzero count, skips the body for a count of 0, and traps as the last instruction of an active body;
with a count of 0 a failed fetch at the end of the body is the LOOP's trap (R96, R119). -/
def Sys2Proof.Claim.HardwareLoop : Prop :=
  ∀ (s : State) (a : Reg) (e : BitVec 15),
    let start := s.me.pc + 4
    let last := start + BitVec.ofNat 64 (2 * e.toNat)
    let set := fun (u : State) (n : Word) (hl : Bool) =>
      u.modMe fun t => { t with lstart := start, lend := last, lc := n, sw := { t.sw with hl := hl } }
    (s.me.sw.hl = true → s.me.pc = s.me.lend &&& ~~~1#64 → exec (.loop a e) s = .next (s.takeTrap .loop 0 false)) ∧
    (¬ (s.me.sw.hl = true ∧ s.me.pc = s.me.lend &&& ~~~1#64) → s.unmarked [a] →
      (s.xval a ≠ 0 → exec (.loop a e) s = .next ((set s (s.xval a) true).complete 4)) ∧
      (s.xval a = 0 →
        (∀ (h : BitVec 16) (u : State), fetchHalf s.agent last s = .ok (h, u) →
          exec (.loop a e) s = .next ((set u 0 false).jump (last + if h.getLsbD 0 then 4 else 2))) ∧
        ∀ (c : Cause), fetchHalf s.agent last s = .error (.trap c last) →
          exec (.loop a e) s = .next (s.takeTrap c last (c == .mce || c == .fabric))))

/-- YIELD takes the slot out of the rotation for 8 cycles; YIELD_EXPIRY returns it then, and no earlier (R85, R121). -/
def Sys2Proof.Claim.Yield : Prop :=
  (∀ s : State, exec .yield s = .next ((s.complete 4).leave (.yield (s.cycle + 8)))) ∧
  ∀ (s : State) (c : Nat) (k : Fin 8) (due : Nat), (s.slotAt c k).out = .yield due →
    (due ≤ s.cycle → exec (.yieldExpiry c k.val) s = .next (s.modSlotAt c k fun t => { t with out := .none })) ∧
    (s.cycle < due → exec (.yieldExpiry c k.val) s = .next s)

/-- LOOP starts, skips or traps; YIELD leaves the rotation for 8 cycles. -/
def Obligations.LoopsAndYield : Prop := Sys2Proof.Claim.HardwareLoop ∧ Sys2Proof.Claim.Yield

/-- S-mode trap entry (R89) of a slot that runs no development, for a trap that is no upcall (R90): what is saved, what the
status becomes and where the PC goes; the registers, the loop registers and P are kept. -/
def Sys2Proof.Claim.TrapEntry : Prop :=
  ∀ (s : State) (c : Cause) (addr : Word) (contains : Bool),
    (∀ d, s.me.kind ≠ .dev d) →
    ¬ (c ∈ [Cause.page, .pin, .devdepth, .devfault] ∧ s.me.sw.s = false ∧ s.me.sw.ue = true ∧ s.me.uvb ≠ 0) →
    let t := s.me
    let u := (s.takeTrap c addr contains).me
    keepsMemory s (s.takeTrap c addr contains) ∧ keepsUnits s (s.takeTrap c addr contains) ∧
    u.pc = s.ctlRead 32 + BitVec.ofNat 64 (64 * c.code) ∧
    u.x = t.x ∧ u.v = t.v ∧ u.p = t.p ∧ u.marks = t.marks ∧ (u.lc, u.lstart, u.lend) = (t.lc, t.lstart, t.lend) ∧
    (u.uvb, u.uepc, u.ucause, u.uaddr, u.utoken) = (t.uvb, t.uepc, t.ucause, t.uaddr, t.utoken) ∧
    (if c ∈ [Cause.notrap, .badsst] ∧ t.sw.s = true then
      u.ecause = BitVec.ofNat 64 c.code ∧ u.eaddr = t.pc ∧ u.sst = t.sst ∧ u.epc = t.epc ∧ u.sw = t.sw
    else
      u.sst = 0x8000000000000000 ||| s.ctlRead 0 ∧ u.epc = t.pc ∧ u.ecause = BitVec.ofNat 64 c.code ∧ u.eaddr = addr ∧
        u.sw = { t.sw with s := true, ie := false, hl := false })

/-- Upcall entry (R90): the slot stays in its mode, upcalls are off and the PC goes to uvb; for PAGE the partition's next token
is given out with a request for firmware (R230). Bit 0 of uvb is cleared on its way into the PC, which is the model's reading, DEDUCED,
log 45. -/
def Sys2Proof.Claim.UpcallEntry : Prop :=
  ∀ (s : State) (c : Cause) (addr : Word), (∀ d, s.me.kind ≠ .dev d) →
    c ∈ [Cause.page, .pin, .devdepth, .devfault] → s.me.sw.s = false → s.me.sw.ue = true → s.me.uvb ≠ 0 →
    let t := s.me
    let n := s.takeTrap c addr false
    keepsMemory s n ∧ keepsUnits s n ∧ n.me.uepc = t.pc ∧ n.me.ucause = BitVec.ofNat 64 (c.code + if t.sw.hl then 0x8000 else 0) ∧ n.me.uaddr = addr ∧
    n.me.utoken = (if c = .page then s.myPart.token.setWidth 64 else 0) ∧
    n.me.sw = { t.sw with ue := false, hl := false } ∧ n.me.pc = evenAddr t.uvb ∧
    n.me.x = t.x ∧ n.me.v = t.v ∧ n.me.p = t.p ∧ (n.me.sst, n.me.epc, n.me.ecause, n.me.eaddr) = (t.sst, t.epc, t.ecause, t.eaddr) ∧
    (c = .page →
      n.myPart.faults = s.myPart.faults ++
        [{ token := s.myPart.token, core := s.curCore, slot := s.curSlot.val, owner := s.myOwner, lane := t.lane, va := addr }] ∧
      n.myPart.token = if s.myPart.token + 1 = 0 then 1 else s.myPart.token + 1)

/-- Taking a trap or an upcall: what is saved, what the status becomes and where the PC goes. -/
def Obligations.ExceptionEntry : Prop := Sys2Proof.Claim.TrapEntry ∧ Sys2Proof.Claim.UpcallEntry

/-- TRAP and BRK enter the S-mode vector after the loop step, with epc the next PC; BRK under a debugger halts the slot with its
PC at the BRK instead (R89, R93, R97, R122, R125). That the status saved, its HL in sst[4] among it, is the one after the loop step is the
model's reading, DEDUCED, log 97. -/
def Sys2Proof.Claim.SoftwareTraps : Prop :=
  ∀ (s : State), (∀ d, s.me.kind ≠ .dev d) →
    let t := (s.complete 4).me
    let into := fun (o : Out) (code : Nat) => ∃ n, o = .next n ∧ keepsMemory s n ∧ keepsUnits s n ∧ n.me.epc = t.pc ∧ n.me.lc = t.lc ∧
      n.me.sst = 0x8000000000000000 ||| (s.complete 4).ctlRead 0 ∧ n.me.ecause = BitVec.ofNat 64 code ∧ n.me.eaddr = 0 ∧
      n.me.sw = { t.sw with s := true, ie := false, hl := false } ∧
      n.me.pc = s.ctlRead 32 + BitVec.ofNat 64 (64 * (code % 256)) ∧ n.me.x = s.me.x
    (∀ c : BitVec 6, into (exec (.trap c) s) (22 + 256 * c.toNat)) ∧
    (s.debugger = false → into (exec .brk s) 23) ∧
    (s.debugger = true → exec .brk s = .next (s.modMe fun t => { t with halted := true }))

/-- Any trap of a development ends its chain with DEVFAULT at the requester (R252). -/
def Sys2Proof.Claim.DevelopmentTrap : Prop :=
  ∀ (s : State) (d : DevTask), s.me.kind = .dev d →
    (∀ c a b, s.takeTrap c a b = s.abandon d .devfault (s.blockOf d.recipe)) ∧
    (∀ c : BitVec 6, exec (.trap c) s = .next (s.abandon d .devfault (s.blockOf d.recipe))) ∧
    (s.debugger = false → exec .brk s = .next (s.abandon d .devfault (s.blockOf d.recipe)))

/-- An encoding that is no instruction traps ILL; a failed fetch traps with the cause and address of its check, but at a trap or
upcall vector the slot stops for containment (R26, R43, R94). -/
def Sys2Proof.Claim.IllegalAndFailedFetch : Prop :=
  ∀ (s : State),
    (∀ w, exec (.illegalEncoding w) s = .next (s.takeTrap .ill 0 false)) ∧
    ∀ (c : FetchCause) (a : Word),
      (s.me.atVector = true → exec (.fetchFault c a) s = .next (s.leave (.contained .vecFault a))) ∧
      (s.me.atVector = false → ∀ p ∈ [(FetchCause.bounds, Cause.bounds, false), (.page, .page, false), (.prot, .prot, false),
        (.mce, .mce, true)], exec (.fetchFault p.1 a) s = .next (s.takeTrap p.2.1 a p.2.2))

/-- TRAP, BRK, illegal encodings, failed fetches and the traps of a development. -/
def Obligations.ExceptionsRaised : Prop := Sys2Proof.Claim.SoftwareTraps ∧ Sys2Proof.Claim.DevelopmentTrap ∧ Sys2Proof.Claim.IllegalAndFailedFetch

/-- TRET (R123): the checks in their order, then the status and the PC; no loop step follows. -/
def Sys2Proof.Claim.TrapReturn : Prop :=
  ∀ (s : State),
    let t := s.me
    (t.sw.s = false → exec .tret s = .next (s.takeTrap .priv 0 false)) ∧
    (t.sw.s = true → t.sst.getLsbD 63 = false → exec .tret s = .next (s.takeTrap .notrap t.pc false)) ∧
    let bad := t.sst.extractLsb' 32 31 ≠ 0 ∨ t.sst.extractLsb' 16 16 ≠ 0 ∨ t.sst.extractLsb' 5 3 ≠ 0
    (t.sw.s = true → t.sst.getLsbD 63 = true → bad → exec .tret s = .next (s.takeTrap .badsst t.pc false)) ∧
    (t.sw.s = true → t.sst.getLsbD 63 = true → ¬ bad →
      exec .tret s = .next (s.modMe fun t => settled { t with
        sw := { t.sw with s := t.sst.getLsbD 0, ie := t.sst.getLsbD 1, ue := t.sst.getLsbD 2, hl := t.sst.getLsbD 4 }
        sst := t.sst &&& 0x7FFFFFFFFFFFFFFF, pc := t.epc &&& ~~~1#64 })) ∧
    (t.sw.s = true → t.sst.getLsbD 63 = false ∨ bad → (∀ d, t.kind ≠ .dev d) →
      ∃ n, exec .tret s = .next n ∧ n.me.sst = t.sst ∧ n.me.epc = t.epc)

/-- URET (R124), legal in both modes: the loop registers are kept and no loop step follows. -/
def Sys2Proof.Claim.UpcallReturn : Prop :=
  ∀ (s : State),
    let t := s.me
    (t.sw.ue = true → exec .uret s = .next (s.takeTrap .notrap t.pc false)) ∧
    (t.sw.ue = false →
      exec .uret s = .next (s.modMe fun t => settled { t with
        sw := { t.sw with ue := true, hl := t.ucause.getLsbD 15 }, pc := t.uepc &&& ~~~1#64 }))

/-- TRET and URET restore the status and the PC, after their checks. -/
def Obligations.ExceptionReturn : Prop := Sys2Proof.Claim.TrapReturn ∧ Sys2Proof.Claim.UpcallReturn

/-- RDC gives a register's value, zero-extended from its width, in the modes that may read it (R42, R77-R79, R126); capw has the
value R149 gives. -/
def Sys2Proof.Claim.ReadControl : Prop :=
  ∀ (s : State) (d : Reg) (r : BitVec 6),
    let t := s.me
    let secret := r.toNat ∈ [1, 2, 3, 4, 32]
    (secret → t.sw.s = false → exec (.rdc d r) s = .next (s.takeTrap .priv 0 false)) ∧
    (r = 13 → t.sw.dm = true → exec (.rdc d r) s = .next (s.takeTrap .nondet 0 false)) ∧
    ((secret → t.sw.s = true) → ¬ (r = 13 ∧ t.sw.dm = true) →
      ∃ v, exec (.rdc d r) s = .next (s.wroteX 2 4 d v) ∧
        (∀ p ∈ [(1, t.sst), (2, t.epc), (3, t.ecause), (4, t.eaddr), (5, t.uvb), (6, t.uepc), (7, t.ucause), (8, t.uaddr),
            (9, t.utoken), (10, t.lc), (11, t.lstart), (12, t.lend), (13, BitVec.ofNat 64 t.alost.toNat),
            (14, BitVec.ofNat 64 t.lane.toNat), (15, BitVec.ofNat 64 t.lcount.toNat), (16, BitVec.ofNat 64 t.launch.toNat),
            (17, BitVec.ofNat 64 t.sw.owner.toNat), (18, t.gm), (32, s.mySight.tvb), (33, 0x00000001C0420851#64)],
          r.toNat = p.1 → v = p.2) ∧
        (∀ j : Fin 8, r.toNat = 40 + j.val → v = s.mySight.tc[j]) ∧
        (r = 0 → ∀ j, v.getLsbD j = (j == 0 && t.sw.s || j == 1 && t.sw.ie || j == 2 && t.sw.ue || j == 3 && t.sw.dm ||
          j == 4 && t.sw.hl || decide (8 ≤ j) && decide (j < 16) && t.sw.owner.getLsbD (j - 8))))

/-- WRC (R42, R78, R127, R128): the writable bits of a register take the value; the loop step that follows uses a new lc, lstart
or lend and the old HL, over which the written sw fields are then installed. -/
def Sys2Proof.Claim.WriteControl : Prop :=
  ∀ (s : State) (a : Reg) (r : BitVec 6), s.unmarked [a] →
    let A := s.xval a
    let put := fun (f : Slot → Slot) => Host.Outcome.next (σ := State) (φ := Fault) (ρ := Refusal) ((s.modMe f).complete 4)
    (r.toNat ∈ [13, 14, 15, 16, 17, 18, 33] → exec (.wrc a r) s = .next (s.takeTrap .ill 0 false)) ∧
    (r.toNat ∈ [1, 2, 3, 4, 32] → s.me.sw.s = false → exec (.wrc a r) s = .next (s.takeTrap .priv 0 false)) ∧
    (s.me.sw.s = true → ∀ p ∈ [((1 : BitVec 6), put fun t => { t with sst := A }), (2, put fun t => { t with epc := A }),
        (3, put fun t => { t with ecause := A }), (4, put fun t => { t with eaddr := A }),
        (32, .next ((s.writeShared 2 (.ctl 32 (A &&& ~~~(0x7FF#64)))).complete 4))], exec (.wrc a p.1) s = p.2) ∧
    (∀ p ∈ [((5 : BitVec 6), put fun t => { t with uvb := A }), (6, put fun t => { t with uepc := A }),
        (7, put fun t => { t with ucause := A }), (8, put fun t => { t with uaddr := A }),
        (9, put fun t => { t with utoken := A }), (10, put fun t => { t with lc := A }),
        (11, put fun t => { t with lstart := A }), (12, put fun t => { t with lend := A })], exec (.wrc a p.1) s = p.2) ∧
    (∀ j < 8, exec (.wrc a (BitVec.ofNat 6 (40 + j))) s =
      .next ((s.writeShared 2 (.ctl (40 + j) (A &&& 0x000000FFFF1FFFFF))).complete 4)) ∧
    exec (.wrc a 0) s = .next ((s.complete 4).modMe fun t =>
      { t with sw := { t.sw with ue := A.getLsbD 2, hl := A.getLsbD 4, ie := if s.me.sw.s then A.getLsbD 1 else t.sw.ie } })

/-- RDC and WRC on every control register, with the modes that may use them. -/
def Obligations.ControlRegisters : Prop := Sys2Proof.Claim.ReadControl ∧ Sys2Proof.Claim.WriteControl

/-- The checks of R24 on an access of 1, 2, 4 or 8 bytes run in their order and name their causes; an access to the local tray
that passes them has its place there; a control pointer has no access (R35, R150, R374). That it fails the earlier checks first, and that a
rank past the cluster count is refused at the instruction, are the model's readings, DEDUCED, logs 42 and 91. -/
def Sys2Proof.Claim.AccessChecks : Prop :=
  ∀ (ag : Agent) (p : Word) (n : Nat) (o : Bool) (k : AccKind) (s : State), n ∈ [1, 2, 4, 8] →
    let tag := p.extractLsb' 60 4
    let low := (p.extractLsb' 0 60).toNat
    let off := trayOff p
    let tray := (tag = 1 ∧ p.extractLsb' 19 41 = 0) ∨ (tag = 2 ∧ p.extractLsb' 19 21 = 0 ∧ p.extractLsb' 50 10 = 0)
    let traps := fun c => checkAccess ag p n o k s = .error (.trap c p)
    (3 ≤ tag.toNat → tag ≠ 15 → traps .noncanon) ∧
    (tag = 0 ∨ tag = 15 → o = true → traps .noncanon) ∧
    (tag = 1 ∨ tag = 2 → ¬ tray → traps .noncanon) ∧
    (tag = 0 ∨ tag = 15 → o = false → 2 ^ 60 < low + n → traps .bounds) ∧
    (tag = 0 ∨ tag = 15 → o = false → low + n ≤ 2 ^ 60 → low % n ≠ 0 → traps .align) ∧
    (tag = 15 → o = false → low + n ≤ 2 ^ 60 → low % n = 0 → traps .prot) ∧
    (tray → 0x60000 < off + n → traps .bounds) ∧
    (tray → off + n ≤ 0x60000 → off % n ≠ 0 → traps .align) ∧
    (tray → off + n ≤ 0x60000 → off % n = 0 → ag.smode = false → 0x58000 < off + n → traps .traysys) ∧
    (tray → off + n ≤ 0x60000 → off % n = 0 → (ag.smode = true ∨ off + n ≤ 0x58000) →
      (tag = 1 → checkAccess ag p n o k s = .ok (.own off, s)) ∧
      (tag = 2 → let pos := (p.extractLsb' 40 10).toNat
        ((s.core ag.core).position = some pos → checkAccess ag p n o k s = .ok (.own off, s)) ∧
        ((s.core ag.core).position ≠ some pos → pos / 16 < (s.part ag.part).clusters.length →
          checkAccess ag p n o k s = .ok (.peer pos off, s)) ∧
        ((s.core ag.core).position ≠ some pos → (s.part ag.part).clusters.length ≤ pos / 16 → traps .prot)))

/-- The rights of a page: the region's and the leaf's together, CONST against stores in U mode, and the owner, where 0 stands
for every owner (R226). -/
def Sys2Proof.Claim.PageRights : Prop :=
  ∀ (ag : Agent) (va : Word) (e : TlbEntry) (k : AccKind) (s : State),
    let r := fun (j : Nat) => e.region.getLsbD (j + if ag.smode then 4 else 1)
    let leafOwner := e.leaf.extractLsb' 8 4
    let may : Bool := match k with
      | .load | .plainLoad => r 0 && e.leaf.getLsbD 1
      | .store | .plainStore => r 1 && e.leaf.getLsbD 2 && (ag.smode || !e.region.getLsbD 9)
      | .fetch => r 2 && e.leaf.getLsbD 3
      | .atomic => r 0 && e.leaf.getLsbD 1 && (r 1 && e.leaf.getLsbD 2 && (ag.smode || !e.region.getLsbD 9))
    (may = true ∧ (leafOwner.toNat = ag.owner ∨ leafOwner = 0) → checkRights ag va e k s = .ok ((), s)) ∧
    (¬ (may = true ∧ (leafOwner.toNat = ag.owner ∨ leafOwner = 0)) → checkRights ag va e k s = .error (.trap .prot va))

/-- The translation step of R24: an access that passes the checks before it, hits no first-level line and no TLB entry, and lies in a region
that is not valid traps PROT (R223; log 55), and one whose page has no present entry traps PAGE with its pointer (R225). -/
def Sys2Proof.Claim.TranslationChecks : Prop :=
  ∀ (ag : Agent) (p : Word) (n : Nat) (k : AccKind) (s : State), n ∈ [1, 2, 4, 8, 64] →
    let low := (p.extractLsb' 0 60).toNat
    let rg := (s.part ag.part).raf.toList.getD (p.extractLsb' 56 4).toNat 0
    let psz := pageLog rg
    p.extractLsb' 60 4 = 0 → low + n ≤ 2 ^ 60 → low % n = 0 → mapGet? (s.core ag.core).l1d (p.toNat / 64) = none →
    (rg.getLsbD 0 = false → checkAccess ag p n false k s = .error (.trap .prot p)) ∧
    (rg.getLsbD 0 = true → mapGet? (s.clusterAt (clusterOf ag.core)).tlb (p.toNat / 2 ^ psz * 2 ^ psz) = none →
      ∀ u, walk ag p psz (rg.getLsbD 10) (walkLevels psz) (field rg 24 36 * 4096) s = .ok (none, u) →
        checkAccess ag p n false k s = .error (.trap .page p))

/-- The walk (R224, R225): the entry of 8 bytes that a table's level selects; an entry with V = 0 ends it with no translation, a table entry
leads to the next level, and a present leaf is the translation. -/
def Sys2Proof.Claim.PageWalk : Prop :=
  ∀ (ag : Agent) (va : Word) (psz n table : Nat) (fabric : Bool) (s u : State) (e : Word),
    walkRead ag (table + 8 * (va.toNat % 2 ^ 56 / 2 ^ (psz + 9 * n) % 512)) va s = .ok (e, u) →
    (e.getLsbD 0 = false → walk ag va psz fabric (n + 1) table s = .ok (none, u)) ∧
    (n ≠ 0 → e.getLsbD 0 = true → e.extractLsb' 48 16 = 0 → e.extractLsb' 4 3 = 0 →
      walk ag va psz fabric (n + 1) table s = walk ag va psz fabric n ((e.extractLsb' 12 36).toNat * 4096) u) ∧
    (n = 0 → leafPresent e psz fabric = true → walk ag va psz fabric (n + 1) table s = .ok (some e, u))

/-- The checks of an access in their order, its translation, and the rights of its page. -/
def Obligations.AccessChecks : Prop :=
  Sys2Proof.Claim.AccessChecks ∧ Sys2Proof.Claim.TranslationChecks ∧ Sys2Proof.Claim.PageWalk ∧ Sys2Proof.Claim.PageRights

/-- A load whose checks pass and whose data is there completes with the data in its destination; one whose data comes from
another core or package waits for it; what a failed check raises is all the load does (R24, R181, R185-R187, R290). -/
def Sys2Proof.Claim.LoadCompletes : Prop :=
  ∀ (s : State) (d a : Reg) (z : Size) (r : Bool) (o : BitVec 12), s.unmarked [a] →
    let n := sizeBytes z
    let p := effPtr (s.xval a) n o
    let q := effPtr (s.xval a) 64 o
    let goes := fun (i : Instr) (p : Word) (n : Nat) (r : Bool) (k : AccKind) (path : ReadPath) (sink : Sink) =>
      (∀ st, checkAccess s.agent p n r k s = .error st → exec i s = stopped st s) ∧
      ∀ (sp : Spot) (u : State), checkAccess s.agent p n r k s = .ok (sp, u) →
        (∀ st, readSpot s.agent path p n r sink sp u = .error st → exec i s = stopped st s) ∧
        (∀ v w, readSpot s.agent path p n r sink sp u = .ok (.now v, w) → exec i s = .next (w.sinkData sink (bytesOf v n)).served) ∧
        (∀ i' w, readSpot s.agent path p n r sink sp u = .ok (.later i', w) →
          exec i s = .next ({ w with sent := [] }.leave (.remote [i'])))
    goes (.ld d a z r o) p n r .plainLoad .plain (.x d) ∧
    goes (.ldv d a r o) q 64 r .plainLoad .plain (.row d (s.me.p.setWidth 16)) ∧
    (p.extractLsb' 60 4 = 0 → goes (.ldb d a z r o) p n r .load .home (.x d) ∧ goes (.lda d a z o) p n false .load .home (.acquireX d)) ∧
    (p.extractLsb' 60 4 ≠ 0 → ∀ i ∈ [Instr.ldb d a z r o, .lda d a z o], exec i s = .next (s.takeTrap .noncanon p false))

/-- LDC takes a global pointer to a page that is no fabric page and reads through the cluster constant cache: a hit returns what
the cache holds, whatever memory holds (R187, R238, R411). -/
def Sys2Proof.Claim.ConstantLoad : Prop :=
  ∀ (s : State) (d a : Reg) (z : Size) (o : BitVec 12), s.unmarked [a] →
    let n := sizeBytes z
    let p := effPtr (s.xval a) n o
    (p.extractLsb' 60 4 ≠ 0 → ∀ r, exec (.ldc d a z r o) s = .next (s.takeTrap .noncanon p false)) ∧
    (p.extractLsb' 60 4 = 0 →
      ∀ (va : Word) (ps pa own home : Nat) (u : State), checkAccess s.agent p n false .load s = .ok (.mem va ps (.here pa own home false true), u) →
        (∀ l, mapGet? (u.clusterAt (clusterOf s.curCore)).cc (pa / 64) = some l →
          exec (.ldc d a z false o) s =
            .next (u.setX d (BitVec.ofNat 64 (l.data.toNat / 2 ^ (8 * (pa % 64)) % 2 ^ (8 * n)))).served) ∧
        ∀ v w, mapGet? (u.clusterAt (clusterOf s.curCore)).cc (pa / 64) = none →
          constRead s.agent va pa own home n u = .ok (v, w) →
          exec (.ldc d a z false o) s = .next (w.setX d (BitVec.ofNat 64 v)).served)

/-- A home read returns the performed bytes after the slice has recalled the addressed words from the cache that owns them, and its core
reads none older of the line from then on (R266); a poisoned word among them is an MCE (R180, R187, R237). -/
def Sys2Proof.Claim.HomeRead : Prop :=
  ∀ (ag : Agent) (va : Word) (pa own home n : Nat) (s : State), (s.part home).recordOf (pa / 64) = none → s.reseeding ag = false →
    ∃ (id : Nat) (u : State), sendHome ag home (pa / 64) (s.l2Touch home own (pa / 64)).1 va (.read n)
        (s.l2Touch home own (pa / 64)).2 = .ok (id, u) ∧
      let w := ((u.sendWrites s ag (some id)).recall (pa / 64) (wordsOf pa n)).barOlder ag.core (pa / 64)
      ((∀ j ∈ wordsOf pa n, 16 * (pa / 64) + j ∉ w.memBad) →
        homeRead ag va pa own home n s = .ok (Memory.readN w.mem pa n, w)) ∧
      ((∃ j ∈ wordsOf pa n, 16 * (pa / 64) + j ∈ w.memBad) → homeRead ag va pa own home n s = .error (.trap .mce va))

/-- Loads from this package's memory complete (R161, R181, R185, R187, R238, R257, R290): through a pointer that reaches an ordinary line, LD
with a first-level line that holds its words reads that line, and LD without one, LDB, LDA and LDC read the bytes memory holds, LDC what its
constant cache holds if it has the line. -/
def Sys2Proof.Claim.GlobalLoads : Prop :=
  ∀ (s : State) (d a : Reg) (z : Size) (o : BitVec 12) (e : TlbEntry) (pa : Nat), s.unmarked [a] →
    let n := sizeBytes z
    let p := effPtr (s.xval a) n o
    let gets := fun (i : Instr) (v : Nat) => ∃ t, exec i s = .next t ∧ t.me.pc = (s.complete 4).me.pc ∧ (∃ ids, t.me.out = .reply ids) ∧
      (d ≠ 0 → t.xval d = BitVec.ofNat 64 v)
    let cc := mapGet? (s.clusterAt (clusterOf s.curCore)).cc (pa / 64)
    (s.reaches p n .plainLoad e pa → ∀ l, mapGet? s.myCore.l1d (p.toNat / 64) = some l → l.holds p.toNat n = true →
      (∀ w ∈ wordsOf pa n, l.bad.getLsbD w = false) → gets (.ld d a z false o) (lineBytes l.data (pa % 64) n)) ∧
    (s.plainLine pa →
      (s.reaches p n .plainLoad e pa → mapGet? s.myCore.l1d (p.toNat / 64) = none → gets (.ld d a z false o) (Memory.readN s.mem pa n)) ∧
      (s.reaches p n .load e pa →
        gets (.ldb d a z false o) (Memory.readN s.mem pa n) ∧ gets (.lda d a z o) (Memory.readN s.mem pa n) ∧
        (cc = none → gets (.ldc d a z false o) (Memory.readN s.mem pa n)))) ∧
    (s.reaches p n .load e pa → ∀ l, cc = some l → gets (.ldc d a z false o) (lineBytes l.data (pa % 64) n))

/-- Loads complete with the performed value of their bytes. -/
def Obligations.Loads : Prop :=
  Sys2Proof.Claim.LoadCompletes ∧ Sys2Proof.Claim.GlobalLoads ∧ Sys2Proof.Claim.ConstantLoad ∧ Sys2Proof.Claim.HomeRead

/-- A store whose checks pass and whose place takes the bytes completes; a failed check is all it does (R24, R181, R185, R186). -/
def Sys2Proof.Claim.StoreCompletes : Prop :=
  ∀ (s : State) (d a : Reg) (z : Size) (r : Bool) (o : BitVec 12),
    let n := sizeBytes z
    ∀ x ∈ [(Instr.st d a z r o, effPtr (s.xval a) n o, n, byteMap (s.xval d).toNat n, s.unmarked [a, d]),
        (.stv d a r o, effPtr (s.xval a) 64 o, 64, laneBytes (s.vval d) (s.me.p.setWidth 16), s.unmarked [a])],
      x.2.2.2.2 →
      (∀ st, checkAccess s.agent x.2.1 x.2.2.1 r .plainStore s = .error st → exec x.1 s = stopped st s) ∧
      ∀ (sp : Spot) (u w t : State), checkAccess s.agent x.2.1 x.2.2.1 r .plainStore s = .ok (sp, u) →
        writeSpot s.agent x.2.1 x.2.2.1 r x.2.2.2.1 sp u = .ok ((), w) →
        digestStore s.agent [(sp, x.2.2.2.1)] w = .ok ((), t) → exec x.1 s = .next t.served

/-- STL takes a global pointer; after its checks it is a release, then writes at the home slice (R182, R290). -/
def Sys2Proof.Claim.StoreRelease : Prop :=
  ∀ (s : State) (d a : Reg) (z : Size) (o : BitVec 12), s.unmarked [a, d] →
    let n := sizeBytes z
    let p := effPtr (s.xval a) n o
    let bs := byteMap (s.xval d).toNat n
    (p.extractLsb' 60 4 ≠ 0 → exec (.stl d a z o) s = .next (s.takeTrap .noncanon p false)) ∧
    (p.extractLsb' 60 4 = 0 → ∀ (sp : Spot) (u : State), checkAccess s.agent p n false .store s = .ok (sp, u) →
      (∀ st, release u = .error st → exec (.stl d a z o) s = stopped st s) ∧
      ∀ v t, release u = .ok ((), v) → writeAtHome s.agent p n bs sp v = .ok ((), t) → exec (.stl d a z o) s = .next t)

/-- What a store to this package's memory leaves: a plain store puts the bytes into the core's own cache line and owns their
words; STL performs them in memory (R162, R257, R290). The physical address is aligned as the pointer is: a page is at least 4
KiB. -/
def Sys2Proof.Claim.StoredValue : Prop :=
  ∀ (s : State) (d a : Reg) (z : Size) (o : BitVec 12), s.unmarked [a, d] → (∀ v, s.me.kind ≠ .dev v) →
    let n := sizeBytes z
    let p := effPtr (s.xval a) n o
    let v := (s.xval d).toNat % 2 ^ (8 * n)
    ∀ (k : AccKind) (va : Word) (ps pa own home : Nat) (cached : Bool) (u w t : State),
      checkAccess s.agent p n false k s = .ok (.mem va ps (.here pa own home false cached), u) → pa % n = 0 →
      (cached = true → writeSpot s.agent p n false (byteMap (s.xval d).toNat n) (.mem va ps (.here pa own home false cached)) u = .ok ((), w) →
        ∃ l, mapGet? (w.core s.curCore).l1d (va.toNat / 64) = some l ∧ lineBytes l.data (pa % 64) n = v ∧
          ∀ j ∈ wordsOf pa n, l.owned.getLsbD j = true) ∧
      (Memory.wf w.mem = true →
        writeAtHome s.agent p n (byteMap (s.xval d).toNat n) (.mem va ps (.here pa own home false cached)) w = .ok ((), t) →
        Memory.readN t.mem pa n = v)

/-- Stores to an ordinary line of this package's memory complete (R162, R181, R182, R185, R290): ST leaves the bytes, owned, in the core's own
line; STL, with no store of the slot unacknowledged, leaves them in memory. -/
def Sys2Proof.Claim.GlobalStores : Prop :=
  ∀ (s : State) (d a : Reg) (z : Size) (o : BitVec 12) (e : TlbEntry) (pa : Nat), s.unmarked [a, d] → s.plainLine pa →
    let n := sizeBytes z
    let p := effPtr (s.xval a) n o
    let v := (s.xval d).toNat % 2 ^ (8 * n)
    let ends := fun (i : Instr) (q : State → Prop) => ∃ t, exec i s = .next t ∧ t.me.pc = (s.complete 4).me.pc ∧
      (∃ ids, t.me.out = .reply ids) ∧ keepsX [] s t ∧ q t
    (s.reaches p n .plainStore e pa → ends (.st d a z false o) fun t => ∃ l, mapGet? t.myCore.l1d (p.toNat / 64) = some l ∧
      lineBytes l.data (pa % 64) n = v ∧ ∀ j ∈ wordsOf pa n, l.owned.getLsbD j = true) ∧
    (s.reaches p n .store e pa → s.quiet → ends (.stl d a z o) fun t => Memory.readN t.mem pa n = v)

/-- Stores put their bytes into the owning cache line or memory, and STL releases first. -/
def Obligations.Stores : Prop :=
  Sys2Proof.Claim.StoreCompletes ∧ Sys2Proof.Claim.GlobalStores ∧ Sys2Proof.Claim.StoreRelease ∧ Sys2Proof.Claim.StoredValue

/-- Local tray loads: the bytes the access reaches, row or frame column, in their order; a poisoned word is an MCE (R151, R180,
R185, R186). Where another core's store has replaced one of the words since the core's last acquire, the load may take the older value
(R265, R271), for all its bytes by one free choice, which is the model's, DEDUCED, log 111. -/
def Sys2Proof.Claim.TrayLoad : Prop :=
  ∀ (s : State) (d a : Reg) (z : Size) (r : Bool) (o : BitVec 12), s.unmarked [a] → s.sent = [] →
    let n := sizeBytes z
    let p := effPtr (s.xval a) n o
    let q := effPtr (s.xval a) 64 o
    let tray := s.myCore.tray
    let word := fun (i : Nat) => BitVec.ofNat 32 (Memory.readN tray (if r then trayOff q + 64 * i else trayOff q + 4 * i) 4)
    let offs := (List.range n).map (trayOff p + ·)
    let reach := (List.range 64).map fun i => if r then trayOff q + 64 * (i / 4) + i % 4 else trayOff q + i
    let older := fun (os : List Nat) => ∃ x ∈ os, (mapGet? s.myCore.trayOld (x / 4)).isSome = true
    let chosen := { s with freeCtr := s.freeCtr + 1 }
    (localTray p n r →
      (¬ s.poisonAt offs → ¬ older offs →
        exec (.ld d a z r o) s = .next (s.setX d (BitVec.ofNat 64 (Memory.readN tray (trayOff p) n))).served) ∧
      (¬ s.poisonAt offs → older offs → ∃ b : Bool,
        exec (.ld d a z r o) s = .next (chosen.setX d (BitVec.ofNat 64 (numberOf (offs.map (s.trayWas b))))).served) ∧
      (s.poisonAt offs → exec (.ld d a z r o) s = .next (s.takeTrap .mce p true))) ∧
    (localTray q 64 r →
      (¬ s.poisonAt reach → ¬ older reach → ∃ v : Vec,
        exec (.ldv d a r o) s = .next (s.setVAt 0 d (laneEnable .i32 (s.me.p.setWidth 16)) v).served ∧
        ∀ i < 16, s.me.p.getLsbD i = true → laneOf v i = word i) ∧
      (¬ s.poisonAt reach → older reach → ∃ (b : Bool) (v : Vec),
        exec (.ldv d a r o) s = .next (chosen.setVAt 0 d (laneEnable .i32 (s.me.p.setWidth 16)) v).served ∧
        ∀ i < 16, s.me.p.getLsbD i = true →
          laneOf v i = BitVec.ofNat 32 (numberOf (((reach.drop (4 * i)).take 4).map (s.trayWas b)))) ∧
      (s.poisonAt reach → exec (.ldv d a r o) s = .next (s.takeTrap .mce q true)))

/-- Local tray stores write the bytes the access reaches, and each whole word they cover is good again; registers, memory and
full/empty bits are kept (R151, R155, R180, R185, R186). -/
def Sys2Proof.Claim.TrayStore : Prop :=
  ∀ (s : State) (d a : Reg) (z : Size) (r : Bool) (o : BitVec 12), s.unmarked [a, d] → s.sent = [] →
    Memory.wf s.myCore.tray = true →
    let n := sizeBytes z
    let p := effPtr (s.xval a) n o
    let q := effPtr (s.xval a) 64 o
    let spot := fun (i j : Nat) => (if r then trayOff q + 64 * i else trayOff q + 4 * i) + j
    let kept := fun (t : State) => regFrame [] [] true s { t with cores := mapSet t.cores s.curCore { t.myCore with tray := s.myCore.tray } }
    (localTray p n r → ∃ t, exec (.st d a z r o) s = .next t ∧ kept t ∧ t.me.out = .reply [] ∧
      (∀ i < n, Memory.read t.myCore.tray (trayOff p + i) = (s.xval d).extractLsb' (8 * i) 8) ∧
      (∀ x, x ∈ t.myCore.trayBad ↔ x ∈ s.myCore.trayBad ∧ ¬ (trayOff p ≤ 4 * x ∧ 4 * x + 4 ≤ trayOff p + n)) ∧
      ∀ b, b < trayOff p ∨ trayOff p + n ≤ b → Memory.read t.myCore.tray b = Memory.read s.myCore.tray b) ∧
    (localTray q 64 r → ∃ t, exec (.stv d a r o) s = .next t ∧ kept t ∧ t.me.out = .reply [] ∧
      (∀ i < 16, ∀ j < 4, s.me.p.getLsbD i = true →
        Memory.read t.myCore.tray (spot i j) = (laneOf (s.vval d) i).extractLsb' (8 * j) 8) ∧
      (∀ x, x ∈ t.myCore.trayBad ↔ x ∈ s.myCore.trayBad ∧ ∀ i < 16, s.me.p.getLsbD i = true → 4 * x ≠ spot i 0) ∧
      ∀ b, (∀ i < 16, ∀ j < 4, s.me.p.getLsbD i = true → b ≠ spot i j) →
        Memory.read t.myCore.tray b = Memory.read s.myCore.tray b)

/-- Loads and stores on the local tray read and write the bytes the access reaches. -/
def Obligations.TrayAccess : Prop := Sys2Proof.Claim.TrayLoad ∧ Sys2Proof.Claim.TrayStore

/-- The frame of memory: whatever a load, a store or an atomic to one place does, every byte of memory outside the bytes stored
at the address its checks find reads as before or was written back by the cache that owned its word; the trays are kept
outside the bytes stored (R162, R185-R187, R237, R288, R290). -/
def Obligations.MemoryFrame : Prop :=
  ∀ (s t : State) (d a b : Reg) (z : Size) (r w : Bool) (o : BitVec 12), (∀ v, s.me.kind ≠ .dev v) → Memory.wf s.mem = true →
    let n := sizeBytes z
    let m := if w then 8 else 4
    let p := fun (k : Nat) => effPtr (s.xval a) k o
    (∀ i ∈ [Instr.ld d a z r o, .ldv d a r o, .ldb d a z r o, .ldc d a z r o, .lda d a z o, .ldg d a b z],
      exec i s = .next t → (∀ c, backed s t c) ∧ ∀ c x, Memory.read (t.core c).tray x = Memory.read (s.core c).tray x) ∧
    ∀ i ∈ [(Instr.st d a z r o, p n, n, r, AccKind.plainStore), (.stv d a r o, p 64, 64, r, .plainStore), (.stl d a z o, p n, n, false, .store),
        (.amoAdd d a b w, s.xval a, m, false, .atomic), (.amoAnd d a b w, s.xval a, m, false, .atomic),
        (.amoOr d a b w, s.xval a, m, false, .atomic), (.amoXor d a b w, s.xval a, m, false, .atomic),
        (.amoMin d a b w, s.xval a, m, false, .atomic), (.amoMax d a b w, s.xval a, m, false, .atomic),
        (.amoMinu d a b w, s.xval a, m, false, .atomic), (.amoMaxu d a b w, s.xval a, m, false, .atomic),
        (.amoSwap d a b w, s.xval a, m, false, .atomic), (.amof d a b w, s.xval a, m, false, .atomic),
        (.cas d a b w, s.xval a, m, false, .atomic)],
      exec i.1 s = .next t → Memory.wf s.myCore.tray = true →
      (∀ c, (∀ va ps pa own home dev cached u, checkAccess s.agent i.2.1 i.2.2.1 i.2.2.2.1 i.2.2.2.2 s =
          .ok (.mem va ps (.here pa own home dev cached), u) → c < pa ∨ pa + i.2.2.1 ≤ c) → backed s t c) ∧
      (∀ c x, (c = s.curCore → ∀ off u, checkAccess s.agent i.2.1 i.2.2.1 i.2.2.2.1 i.2.2.2.2 s = .ok (.own off, u) →
          x ∉ trayOffs off i.2.2.1 i.2.2.2.1) → Memory.read (t.core c).tray x = Memory.read (s.core c).tray x)

/-- Gathers and scatters on the local tray: each active lane's element, zero-extended, as the tray holds it or as it was before another
core's store since the last acquire (R265, R271, log 111); where lanes of a scatter write the same
byte the highest lane's value remains; with no active lane nothing happens (R189). -/
def Sys2Proof.Claim.TrayGatherScatter : Prop :=
  ∀ (s : State) (d a b : Reg) (z : Size), z ≠ .d → s.unmarked [a] → s.sent = [] → Memory.wf s.myCore.tray = true →
    let n := sizeBytes z
    let q := fun (i : Nat) => leaBy (s.xval a) ((laneOf (s.vval b) i).toNat * n)
    let on := fun (i : Nat) => i < 16 ∧ s.me.p.getLsbD i = true
    (∀ i, on i → localTray (q i) n false) →
    ((∀ i, on i → ¬ s.poisonAt ((List.range n).map (trayOff (q i) + ·))) →
      ∃ t, exec (.ldg d a b z) s = .next t ∧ regFrame [] [d] true s t ∧
        ∀ i < 16, ∃ w : Bool, laneOf (t.vval d) i =
          if s.me.p.getLsbD i then BitVec.ofNat 32 (numberOf ((List.range n).map fun j => s.trayWas w (trayOff (q i) + j)))
          else laneOf (s.seen.vval d) i) ∧
    ∃ t, exec (.sts d a b z) s = .next t ∧ t.mem = s.mem ∧ keepsX [] s t ∧ keepsV [] s t ∧ t.me.p = s.me.p ∧ keepsSpecial s t ∧
      (∀ x, (∀ i, on i → x < trayOff (q i) ∨ trayOff (q i) + n ≤ x) →
        Memory.read t.myCore.tray x = Memory.read s.myCore.tray x) ∧
      ∀ i, on i → ∀ j < n, (∀ k, on k → i < k → trayOff (q i) + j < trayOff (q k) ∨ trayOff (q k) + n ≤ trayOff (q i) + j) →
        Memory.read t.myCore.tray (trayOff (q i) + j) = (laneOf (s.vval d) i).extractLsb' (8 * j) 8

/-- Every active lane of a gather or scatter is checked before anything is performed, ascending: the first failure is all the
instruction does (R189). -/
def Sys2Proof.Claim.GatherScatterChecks : Prop :=
  ∀ (s : State) (d a b : Reg) (z : Size), s.unmarked [a] →
    let n := sizeBytes z
    let spots := fun k => laneSpots (s.xval a) (s.vval b) n (activeLanes (s.me.p.setWidth 16)) k s s
    (∀ st, spots .plainLoad = .error st → exec (.ldg d a b z) s = stopped st s) ∧
    (∀ st, spots .plainStore = .error st → exec (.sts d a b z) s = stopped st s) ∧
    ∀ i < 16, s.me.p.getLsbD i = true → (∀ j < i, s.me.p.getLsbD j = false) →
      ∀ k st, checkAccess s.agent (leaBy (s.xval a) ((laneOf (s.vval b) i).toNat * n)) n false k s = .error st → spots k = .error st

/-- PREF never traps on its address and stays in the rotation; the hints 8 to 15 do nothing; a prefetch whose address fails a
check or lies in a tray space does nothing (R43, R188). -/
def Sys2Proof.Claim.PrefetchCompletes : Prop :=
  ∀ (s : State) (h : BitVec 5) (a : Reg) (o : BitVec 12),
    let p := effPtr (s.xval a) 1 o
    (8 ≤ h.toNat → exec (.pref h a o) s = .next (s.complete 4)) ∧
    (h.toNat < 8 → s.unmarked [a] → s.sent = [] →
      (p.extractLsb' 60 4 ≠ 0 → exec (.pref h a o) s = .next (s.complete 4)) ∧
      (∀ st, checkAccess s.agent p 1 false .load s = .error st → exec (.pref h a o) s = .next (s.complete 4)) ∧
      ∃ t, exec (.pref h a o) s = .next t ∧ t.me = (s.complete 4).me ∧ keepsX [] s t ∧ (Memory.wf s.mem = true → ∀ c, backed s t c))

/-- Gathers, scatters and prefetches. -/
def Obligations.GatherScatterPrefetch : Prop := Sys2Proof.Claim.TrayGatherScatter ∧ Sys2Proof.Claim.GatherScatterChecks ∧ Sys2Proof.Claim.PrefetchCompletes

/-- The full/empty operations on a word of the local tray: where its state is the one they wait for they act at once and the word's
waiters are examined, else the slot waits in place (R155, R156, R190). -/
def Sys2Proof.Claim.FullEmptyLocal : Prop :=
  ∀ (s : State) (d a : Reg) (r : Bool) (o : BitVec 12), s.unmarked [a, d] → s.sent = [] →
    let p := effPtr (s.xval a) 4 o
    let w := trayOff p / 4
    let c := s.curCore
    let full := w ∈ s.myCore.fe
    let word := BitVec.ofNat 64 (Memory.readN s.myCore.tray (4 * w) 4)
    let b := (s.xval d).setWidth 32
    localTray p 4 r →
    (full → w ∉ s.myCore.trayBad →
      exec (.ldfe d a r o) s = .next (((s.modMyCore (·.setFull w false)).setX d word).served.feWake c w) ∧
      exec (.ldff d a r o) s = .next ((s.modMyCore fun k => k).setX d word).served ∧
      exec (.stfe d a r o) s = .next (s.leave (.fe .stfe d p b))) ∧
    (full → w ∈ s.myCore.trayBad → ∀ i ∈ [Instr.ldfe d a r o, .ldff d a r o], exec i s = .next (s.takeTrap .mce p true)) ∧
    (¬ full →
      exec (.ldfe d a r o) s = .next (s.leave (.fe .ldfe d p 0)) ∧
      exec (.ldff d a r o) s = .next (s.leave (.fe .ldff d p 0)) ∧
      exec (.stfe d a r o) s = .next ((s.modMyCore fun k =>
        (k.trayWrite ((bytesOf b.toNat 4).zipIdx.map fun (x, i) => (4 * w + i, x))).setFull w true).served.feWake c w))

/-- A word that changes state serves its waiters in order of arrival, the state left by one service deciding the next: of two slots
that wait with LDFE on a word, the earlier arrival takes it when it becomes full, and the other still waits (R156). -/
def Sys2Proof.Claim.WaiterOrder : Prop :=
  ∀ (s : State) (c w : Nat) (j k : Fin 8) (d e : Reg) (p q : Word) (b b' : HWord), j ≠ k →
    (s.slotAt c j).out = .fe .ldfe d p b → (s.slotAt c k).out = .fe .ldfe e q b' → wordOfPtr p = w → wordOfPtr q = w →
    (∀ i, i ≠ j → i ≠ k → (s.slotAt c i).out.onWord w = false) → (s.core c).park = [] →
    (s.slotAt c j).since / 2 ^ 32 < (s.slotAt c k).since / 2 ^ 32 ∨
      ((s.slotAt c j).since / 2 ^ 32 = (s.slotAt c k).since / 2 ^ 32 ∧ j.val < k.val) →
    w ∉ (s.core c).fe → (s.core c).trayPoisoned [4 * w] = false →
    let t := s.setFe c w true
    (t.slotAt c j).out = .none ∧ (t.slotAt c k).out = .fe .ldfe e q b' ∧ (t.core c).isFull w = false

/-- FESET sets the states of X(b) consecutive words; a count of 0 makes no check and has no effect (R192). -/
def Sys2Proof.Claim.SetFullEmpty : Prop :=
  ∀ (s : State) (a b : Reg) (full : Bool), s.unmarked [a, b] → s.sent = [] →
    let p := s.xval a
    let n := (s.xval b).toNat
    let off := trayOff p
    (n = 0 → exec (.feset a b full) s = .next (s.complete 4)) ∧
    (n ≠ 0 → p.extractLsb' 60 4 = 1 → p.extractLsb' 19 41 = 0 →
      (0x60000 < off + 4 * n → exec (.feset a b full) s = .next (s.takeTrap .bounds p false)) ∧
      (off + 4 * n ≤ 0x60000 → off % 4 ≠ 0 → exec (.feset a b full) s = .next (s.takeTrap .align p false)) ∧
      (off + 4 * n ≤ 0x60000 → off % 4 = 0 → s.me.sw.s = false → 0x58000 < off + 4 * n →
        exec (.feset a b full) s = .next (s.takeTrap .traysys p false)) ∧
      (off + 4 * n ≤ 0x60000 → off % 4 = 0 → s.me.sw.s = true ∨ off + 4 * n ≤ 0x58000 →
        (off / 64 = (off + 4 * n - 1) / 64 → exec (.feset a b full) s = .next (s.served.feSetTray s.curCore off n full)) ∧
        (off / 64 < (off + 4 * n - 1) / 64 → ∀ w, w = (64 - off % 64) / 4 →
          exec (.feset a b full) s = .next ((s.feSetTray s.curCore off w full).leave (.feRows (off + 4 * w) (n - w) full))))) ∧
    -- each further step sets one frame row, and the last one completes the instruction
    ∀ (off n : Nat), 0 < n → off % 64 = 0 → s.me.out = .feRows off n full →
      let t := s.feSetTray s.curCore off (min n 16) full
      s.feRow s.curCore s.curSlot = if n ≤ 16 then (t.modMe fun t => { t with out := .none }).complete 4
        else t.modMe fun t => { t with out := .feRows (off + 64) (n - 16) full }

/-- Full/empty operations, the order of their waiters and FESET. -/
def Obligations.FullEmpty : Prop := Sys2Proof.Claim.FullEmptyLocal ∧ Sys2Proof.Claim.WaiterOrder ∧ Sys2Proof.Claim.SetFullEmpty

/-- Atomics on the local tray read and write their word as one event, whatever its full/empty bit; CAS writes where the old value is
X(d); AMOF traps NONDET in a deterministic task (R288, R289). -/
def Sys2Proof.Claim.TrayAtomics : Prop :=
  ∀ (s : State) (d a b : Reg) (z : Bool), s.unmarked [a, b, d] → s.sent = [] →
    let n := if z then 8 else 4
    let p := s.xval a
    let off := trayOff p
    let old := Memory.readN s.myCore.tray off n
    let B := (s.xval b).toNat % 2 ^ (8 * n)
    let sg := fun (v : Nat) => (BitVec.ofNat (8 * n) v).toInt
    let put := fun (v : Nat) => Host.Outcome.next (σ := State) (φ := Fault) (ρ := Refusal)
      ((s.modMyCore fun k => k.trayWrite ((byteMap v n).map fun b => (off + b.1, b.2))).setX d (BitVec.ofNat 64 old)).served
    localTray p n false → ¬ s.poisonAt ((List.range n).map (off + ·)) →
    (∀ x ∈ [(Instr.amoAdd d a b z, (old + B) % 2 ^ (8 * n)), (.amoAnd d a b z, old &&& B), (.amoOr d a b z, old ||| B),
        (.amoXor d a b z, old ^^^ B), (.amoMin d a b z, if sg B < sg old then B else old),
        (.amoMax d a b z, if sg old < sg B then B else old), (.amoMinu d a b z, min old B), (.amoMaxu d a b z, max old B),
        (.amoSwap d a b z, B)], exec x.1 s = put x.2) ∧
    (s.me.sw.dm = true → exec (.amof d a b z) s = .next (s.takeTrap .nondet 0 false)) ∧
    (s.me.sw.dm = false → exec (.amof d a b z) s = put ((laneFmt (if z then .f64 else .f32)).add old B)) ∧
    (old = (s.xval d).toNat % 2 ^ (8 * n) → exec (.cas d a b z) s = put B) ∧
    (old ≠ (s.xval d).toNat % 2 ^ (8 * n) → exec (.cas d a b z) s = .next (s.setX d (BitVec.ofNat 64 old)).served)

/-- Atomics anywhere: a pointer with another tag than 0, 1 or 2 is NONCANON; where the checks pass and the old value is there, they
complete with it; where another core or package performs them the slot waits for the answer (R288). -/
def Sys2Proof.Claim.AtomicCompletes : Prop :=
  ∀ (s : State) (d a b : Reg) (z : Bool), s.unmarked [a, b, d] → s.me.sw.dm = false →
    let n := if z then 8 else 4
    let p := s.xval a
    ∀ x ∈ [(Instr.amoAdd d a b z, Rmw.amo .add (s.xval b).toNat), (.amoAnd d a b z, .amo .and (s.xval b).toNat),
        (.amoOr d a b z, .amo .or (s.xval b).toNat), (.amoXor d a b z, .amo .xor (s.xval b).toNat),
        (.amoMin d a b z, .amo .min (s.xval b).toNat), (.amoMax d a b z, .amo .max (s.xval b).toNat),
        (.amoMinu d a b z, .amo .minu (s.xval b).toNat), (.amoMaxu d a b z, .amo .maxu (s.xval b).toNat),
        (.amoSwap d a b z, .amo .swap (s.xval b).toNat), (.amof d a b z, .amo .fadd (s.xval b).toNat),
        (.cas d a b z, .cas (s.xval d).toNat (s.xval b).toNat)],
      (2 < (p.extractLsb' 60 4).toNat → exec x.1 s = .next (s.takeTrap .noncanon p false)) ∧
      ((p.extractLsb' 60 4).toNat ≤ 2 → ∀ (sp : Spot) (u : State), checkAccess s.agent p n false .atomic s = .ok (sp, u) →
        (∀ v w, rmwAt p n x.2 (.x d) s sp u = .ok (some v, w) → exec x.1 s = .next (w.setX d (BitVec.ofNat 64 v)).served) ∧
        ∀ w, rmwAt p n x.2 (.x d) s sp u = .ok (none, w) → exec x.1 s = .next w)

/-- A read-modify-write at the home slice leaves the new value in memory, or the old one where a CAS fails, and answers the old value:
what the addressed words hold once they are recalled (R237, R288). -/
def Sys2Proof.Claim.HomeAtomic : Prop :=
  ∀ (ag : Agent) (va : Word) (pa own home : Nat) (device : Bool) (n : Nat) (r : Rmw) (s t : State) (old : Nat),
    ag.dev = none → n = 4 ∨ n = 8 → Memory.wf s.mem = true →
    rmwHome ag va pa own home device n r s = .ok (old, t) →
    old < 2 ^ (8 * n) ∧ Memory.readN t.mem pa n = (r.new n old).getD old ∧ ∀ v, r.new n old = some v → v < 2 ^ (8 * n)

/-- Atomics on an ordinary line of this package's memory complete (R237, R288, R289): X(d) takes the old value of the bytes, and memory the
new one. -/
def Sys2Proof.Claim.HomeAtomicsComplete : Prop :=
  ∀ (s : State) (d a b : Reg) (z : Bool) (e : TlbEntry) (pa : Nat), s.unmarked [a, b, d] → s.plainLine pa →
    let n := if z then 8 else 4
    let old := Memory.readN s.mem pa n
    let B := (s.xval b).toNat % 2 ^ (8 * n)
    let sg := fun (v : Nat) => (BitVec.ofNat (8 * n) v).toInt
    s.reaches (s.xval a) n .atomic e pa →
    ∀ x ∈ [(Instr.amoAdd d a b z, old + B), (.amoAnd d a b z, old &&& B), (.amoOr d a b z, old ||| B), (.amoXor d a b z, old ^^^ B),
        (.amoMin d a b z, if sg B < sg old then B else old), (.amoMax d a b z, if sg old < sg B then B else old),
        (.amoMinu d a b z, min old B), (.amoMaxu d a b z, max old B), (.amoSwap d a b z, B),
        (.amof d a b z, (laneFmt (if z then .f64 else .f32)).add old B),
        (.cas d a b z, if old = (s.xval d).toNat % 2 ^ (8 * n) then B else old)],
      (s.me.sw.dm = true → x.1 ≠ .amof d a b z) →
      ∃ t, exec x.1 s = .next t ∧ t.me.pc = (s.complete 4).me.pc ∧ (∃ ids, t.me.out = .reply ids) ∧ keepsX [d] s t ∧
        (d ≠ 0 → t.xval d = BitVec.ofNat 64 old) ∧ Memory.readN t.mem pa n = x.2 % 2 ^ (8 * n)

/-- Atomics give the old value and store the new one, on the tray and at the home slice. -/
def Obligations.Atomics : Prop :=
  Sys2Proof.Claim.TrayAtomics ∧ Sys2Proof.Claim.HomeAtomicsComplete ∧ Sys2Proof.Claim.AtomicCompletes ∧ Sys2Proof.Claim.HomeAtomic

/-- The fences (R162, R163, R182, R291): a release waits for the slot's unacknowledged stores, then reports a recorded refusal and
clears it, then performs the owned words of the core's cache, none of which is read older from then on (R261); an acquire leaves no
unowned word valid and no older tray value; FCON empties the
cluster's constant cache. -/
def Obligations.Fences : Prop :=
  ∀ (s : State),
    let pending := s.packets.any fun pk => pk.isStore && pk.unacked s.curCore s.curSlot.val
    let releases := [Instr.frel, .fseq, .fcon]
    exec .facq s = .next ((s.modMyCore (·.acquire)).complete 4) ∧
    (∀ t, exec .facq s = .next t → t.myCore.trayOld = [] ∧ ∀ e ∈ t.myCore.l1d, e.2.valid = e.2.owned) ∧
    (pending = true → ∀ i ∈ releases, exec i s = .next (s.hold .release)) ∧
    (pending = false → ∀ n, s.me.nack = some n → ∀ i ∈ releases,
      exec i s = .next ((s.modMe fun t => { t with nack := none }).takeTrap n.cause n.addr (n.cause == .fabric))) ∧
    (pending = false → s.me.nack = none →
      let u := s.writeBackAll s.curCore
      let cl := clusterOf s.curCore
      (∀ e ∈ u.l2, ∀ o, e.2.older = some o → o.writer ≠ s.curCore) ∧
      exec .frel s = .next (u.complete 4) ∧
      exec .fseq s = .next ((u.modMyCore (·.acquire)).complete 4) ∧
      exec .fcon s = .next ({ u with clusters := mapSet u.clusters cl { u.clusterAt cl with cc := [] } }.complete 4))

/-- The issue of CPY and GTH (R193): a descriptor that is not global is NONCANON; after the checks and the release the descriptor is
read; a field out of range is NONCANON, with the release performed; the entry is queued, or the slot waits for a place. -/
def Sys2Proof.Claim.EngineIssue : Prop :=
  ∀ (s : State) (d : BitVec 4) (a : Reg) (r f sc dc : Bool) (q : BitVec 2) (g : BitVec 1), s.unmarked [a] →
    let p := s.xval a
    ∀ x ∈ [(Instr.cpy d a r f sc dc q, q.toNat, fun ws => copyEntry ws r f sc dc),
        (.gth d a f sc dc g, 4 + g.toNat, fun ws => gatherEntry ws f sc dc)],
      (p.extractLsb' 60 4 ≠ 0 → exec x.1 s = .next (s.takeTrap .noncanon p false)) ∧
      (p.extractLsb' 60 4 = 0 →
        (∀ st, checkRange s.agent p 32 8 .load s = .error st → exec x.1 s = stopped st s) ∧
        ∀ sps u v ws w, checkRange s.agent p 32 8 .load s = .ok (sps, u) → release u = .ok ((), v) →
          readRange s.agent sps v = .ok (ws, w) →
          (x.2.2 ws = none → exec x.1 s = .next (v.takeTrap .noncanon p false)) ∧
          ∀ op, x.2.2 ws = some op →
            exec x.1 s = .next (if (w.myCore.queues[queueNo x.2.1]).length < 16 then { w with sent := [] }.acceptEntry x.2.1 op f d
              else { w with sent := [] }.leave (.engine x.2.1 op f d)))

/-- An accepted entry stands at the tail of its queue, its register is marked with it, and the instruction is complete; x0 takes no
mark (R171, R193, R194). -/
def Sys2Proof.Claim.EngineEntryAccepted : Prop :=
  ∀ (s : State) (q : Fin 6) (op : EntryOp) (f : Bool) (d : BitVec 4),
    let t := s.acceptEntry q.val op f d
    (∃ e : Entry, t.myCore.queues[q] = s.myCore.queues[q] ++ [e] ∧ e.op = op ∧ e.full = f ∧ e.status = none ∧ e.started = false ∧
      e.done = 0 ∧ (d ≠ 0 → t.markOf (d.setWidth 5) = some e.id)) ∧
    (∀ j, j ≠ q → t.myCore.queues[j] = s.myCore.queues[j]) ∧
    (∀ r, r ≠ d.setWidth 5 → t.markOf r = s.markOf r) ∧ t.me.x = s.me.x ∧ t.me.pc = (s.complete 4).me.pc ∧ t.me.out = .none ∧
    t.mem = s.mem

/-- The steps of an entry (R172-R175): the head entry of a queue goes on by the rows given, unless it holds for something; one with a
status ends with it, once every access of it is acknowledged, and with status 0 records its staging frames first. -/
def Sys2Proof.Claim.EngineSteps : Prop :=
  ∀ (s : State) (c n : Nat) (q : Fin 6),
    (∀ u, State.engineRun c q.val n s = .ok u → exec (.engineEntryStart c q.val n) s = .next u) ∧
    ((s.core c).queues[q] = [] → exec (.engineEntryStart c q.val n) s = .next s ∧ exec (.engineEntryComplete c q.val) s = .next s) ∧
    ∀ e rest, (s.core c).queues[q] = e :: rest →
      (s.engineStores c q.val ≠ [] → exec (.engineEntryComplete c q.val) s = .next s) ∧
      (s.engineStores c q.val = [] → ∀ st, e.status = some st → st ≠ 0 →
        exec (.engineEntryComplete c q.val) s = .next (s.endEntry c q.val e.id e.done st)) ∧
      (s.engineStores c q.val = [] → e.status = some 0 → e.full = false →
        exec (.engineEntryComplete c q.val) s = .next ((s.modCore c fun k => k.stage e.op).endEntry c q.val e.id e.done 0)) ∧
      (e.status = none → exec (.engineEntryComplete c q.val) s = .next s)

/-- A row of a copy between places of the core's own tray (R172, R174): its bytes arrive, nothing else of the tray changes, and the
entry counts one more row. A row of more than 131,136 bytes takes several steps, each of 131,072 bytes but the last (log 67). -/
def Sys2Proof.Claim.CopyRow : Prop :=
  ∀ (s : State) (q : Fin 6) (e : Entry) (rest : List Entry) (src dst : Word) (rb rows : Nat) (ss ds : Int),
    let c := e.agent.core
    (s.core c).queues[q] = e :: rest → e.op = .copy src dst rb rows ss ds false false false → e.status = none → e.wait = .none →
    e.cancel = false → e.done < rows → e.part < rb → e.wrote = [] → Memory.wf (s.core c).tray = true → s.engineStores c q.val = [] →
    let sp := leaBy src (e.done * ss)
    let dp := leaBy dst (e.done * ds)
    let lo := e.part
    let n := if rb - lo ≤ 131136 then rb - lo else 131072
    (∀ p ∈ [sp, dp], p.extractLsb' 60 4 = 1 ∧ p.extractLsb' 19 41 = 0 ∧ trayOff p + rb ≤ 0x58000 ∧ (n = 64 → (trayOff p + lo) % 64 = 0)) →
    (∀ j < n, (trayOff sp + lo + j) / 4 ∉ (s.core c).trayBad) → (∀ x ∈ rest, x.id ≠ e.id) →
    ∃ t, exec (.engineEntryStart c q.val 1) s = .next t ∧
      (t.core c).queues[q] = { e with
        started := true, done := if lo + n = rb then e.done + 1 else e.done, part := if lo + n = rb then 0 else lo + n
        inRow := decide (lo + n ≠ rb) } :: rest ∧
      (∀ j < n, Memory.read (t.core c).tray (trayOff dp + lo + j) = Memory.read (s.core c).tray (trayOff sp + lo + j)) ∧
      (∀ b, b < trayOff dp + lo ∨ trayOff dp + lo + n ≤ b → Memory.read (t.core c).tray b = Memory.read (s.core c).tray b) ∧
      t.mem = s.mem ∧ (t.core c).fe = (s.core c).fe ∧ (t.core c).slots = (s.core c).slots

/-- CPY and GTH complete at their issue (R193): with no store of the slot unacknowledged, the words of a descriptor in an ordinary line are
asked for at its home slice, and the slot leaves the rotation until they are there (R181, R257); with the words of a descriptor there whose
fields are in range, and room in the queue, the entry stands in the queue, the register is marked with it and the instruction is complete.
That the read of the descriptor is a part of its own is the model's reading, DEDUCED, log 69. -/
def Sys2Proof.Claim.EngineIssueCompletes : Prop :=
  ∀ (s : State) (d : BitVec 4) (a : Reg) (r f sc dc : Bool) (q : BitVec 2) (g : BitVec 1) (e : TlbEntry) (pa : Nat), s.unmarked [a] →
    s.quiet → s.reaches (s.xval a) 32 .load e pa →
    let word := fun (u : State) (i : Nat) => mapGet? u.me.fetched ((s.xval a).toNat + 8 * i)
    ∀ x ∈ [(Instr.cpy d a r f sc dc q, q.toNat, fun ws => copyEntry ws r f sc dc), (.gth d a f sc dc g, 4 + g.toNat, fun ws => gatherEntry ws f sc dc)],
      (s.plainLine pa → (∀ i < 4, word s i = none) →
        ∃ t ids, exec x.1 s = .next t ∧ t.me.pc = s.me.pc ∧ t.me.out = .reply ids ∧ t.myCore.queues = s.myCore.queues ∧
          ∀ i < 4, word t i = some (BitVec.ofNat 64 (Memory.readN s.mem (pa + 8 * i) 8))) ∧
      ∀ w0 w1 w2 w3 op, word s 0 = some w0 → word s 1 = some w1 → word s 2 = some w2 → word s 3 = some w3 → x.2.2 [w0, w1, w2, w3] = some op →
        (s.myCore.queues[queueNo x.2.1]).length < 16 →
        ∃ t, exec x.1 s = .next t ∧ t.me.pc = (s.complete 4).me.pc ∧ t.me.out = .none ∧
          ∃ k : Entry, t.myCore.queues[queueNo x.2.1] = s.myCore.queues[queueNo x.2.1] ++ [k] ∧ k.op = op ∧ k.full = f ∧
            (d ≠ 0 → t.markOf (d.setWidth 5) = some k.id)

/-- The issue, the steps and the end of engine entries. -/
def Obligations.EnginesAndEntries : Prop := Sys2Proof.Claim.EngineIssue ∧ Sys2Proof.Claim.EngineIssueCompletes ∧ Sys2Proof.Claim.EngineEntryAccepted ∧ Sys2Proof.Claim.EngineSteps ∧ Sys2Proof.Claim.CopyRow

/-- The instructions on futures (R194, R195): FWAIT waits while its register is pending, then acquires; FTEST never waits and is
NONDET in a deterministic task; FMOV copies value and mark; FCAN asks for cancellation; QFN puts a fence in each named queue. -/
def Sys2Proof.Claim.Futures : Prop :=
  ∀ (s : State) (d a : BitVec 4) (q : PredNo) (m : BitVec 6),
    let r := a.setWidth 5
    (s.markOf r = none → exec (.fwait a) s = .next ((s.modMyCore (·.acquire)).complete 4)) ∧
    (∀ i, s.markOf r = some i → exec (.fwait a) s = .next (s.leave (.future i))) ∧
    (s.me.sw.dm = true → exec (.ftest q a) s = .next (s.takeTrap .nondet 0 false)) ∧
    (s.me.sw.dm = false → exec (.ftest q a) s = .next (s.wroteP q (s.markOf r).isNone)) ∧
    (s.markOf r = none → exec (.fmov d a) s = .next ((s.setX (d.setWidth 5) (s.xval r)).complete 4)) ∧
    (∀ i, s.markOf r = some i →
      exec (.fmov d a) s = .next (((s.setX (d.setWidth 5) (s.xval r)).modMe fun t => t.mark d i).complete 4)) ∧
    (s.markOf r = none → exec (.fcan a) s = .next (s.complete 4)) ∧
    (∀ i, s.markOf r = some i → exec (.fcan a) s = .next ((s.cancelEntry s.curCore i).complete 4)) ∧
    ((∀ j : Fin 6, m.getLsbD j.val = true → (s.myCore.queues[j]).length < 16) → exec (.qfn m) s = .next (s.acceptFence m)) ∧
    ((∃ j : Fin 6, m.getLsbD j.val = true ∧ 16 ≤ (s.myCore.queues[j]).length) → exec (.qfn m) s = .next (s.hold .queue))

/-- A read of a pending register holds the slot, whatever the instruction does with it (R85, R194). -/
def Sys2Proof.Claim.PendingRead : Prop :=
  ∀ (s : State) (d a b : Reg) (i : Nat) (j : BitVec 15) (q : PredNo) (c : Cond) (z : Size) (o : BitVec 12) (n : Bool),
    s.markOf a = some i →
    ∀ x ∈ [Instr.add d a b, .mul d a b, .div d a b, .addi d a j, .mov d a, .cmp q a b c, .sel d a b q n, .jalr d a j, .wrp a, .vbc d a,
        .ld d a z n o, .st d a z n o, .ldv d a n o, .stv d a n o, .ldg d a b z, .sts d a b z, .amoAdd d a b n, .cas d a b n, .spawn a b,
        .jinit a b, .send a b, .ldfe d a n o, .feset a b n, .rqry d a],
      exec x s = .next (s.leave (.future i))

/-- Cancellation (R195): an entry that has not started ends at once with status 4 and 0 rows; a started one is told to stop after its
row, and between two rows, or after the last, it takes status 4; one that has its status keeps it. -/
def Sys2Proof.Claim.Cancellation : Prop :=
  ∀ (s : State) (c i q : Nat) (e : Entry), (s.core c).findEntry i = some (q, e) →
    (e.status = none → e.started = false → s.cancelEntry c i = s.endEntry c q i 0 4) ∧
    (e.status = none → e.started = true → s.cancelEntry c i = s.modCore c fun k => k.modEntry i fun e => { e with cancel := true }) ∧
    (e.status ≠ none → s.cancelEntry c i = s) ∧
    ∀ (p : Fin 6) (rest : List Entry), (s.core c).queues[p] = e :: rest → e.status = none → e.cancel = true → e.inRow = false →
      e.wait = .none → e.op.fenceId = none → ∃ t, exec (.engineEntryStart c p.val 1) s = .next t ∧
        ((t.core c).queues[p]).head? = some { e with status := some 4 } ∧ t.mem = s.mem

/-- A register that still names an entry when it ends takes the handle, with its rows, queue and status in their places, and loses
its mark; a register that does not keeps its value (R175). -/
def Sys2Proof.Claim.HandleWritten : Prop :=
  ∀ (t : Slot) (i : Nat) (done q status : Nat) (j : Fin 16), done < 2 ^ 48 → q < 8 → status < 256 →
    let h := handleOf done q status
    (h.extractLsb' 16 48 = BitVec.ofNat 48 done ∧ h.extractLsb' 11 5 = 0 ∧ h.extractLsb' 8 3 = BitVec.ofNat 3 q ∧
      h.extractLsb' 0 8 = BitVec.ofNat 8 status) ∧
    (t.marks[j] = some i → (t.takeHandle i h).x[j] = h ∧ (t.takeHandle i h).marks[j] = none) ∧
    (t.marks[j] ≠ some i → (t.takeHandle i h).x[j] = t.x[j] ∧ (t.takeHandle i h).marks[j] = t.marks[j])

/-- Futures: waiting, testing, moving, cancelling, and the handle an entry leaves. -/
def Obligations.FuturesAndHandles : Prop := Sys2Proof.Claim.Futures ∧ Sys2Proof.Claim.PendingRead ∧ Sys2Proof.Claim.Cancellation ∧ Sys2Proof.Claim.HandleWritten

/-- SPAWN and JINIT (R196, R197, R198): SPAWN reserves a place or traps DQFULL, releases, and pushes its record; JINIT stores the
counter as one atomic event; a local counter is NONCANON. -/
def Sys2Proof.Claim.SpawnAndCounter : Prop :=
  ∀ (s : State) (a b : Reg), (∀ r, s.markOf r = none) →
    let pc := s.xval a &&& ~~~1#64
    let held := s.modMe fun t => { t with reserved := true }
    (s.me.reserved = false → s.myCore.dequeRoom = false → exec (.spawn a b) s = .next (s.takeTrap .dqfull 0 false)) ∧
    (s.me.reserved = true ∨ s.myCore.dequeRoom = true → ∀ u, release held = .ok ((), u) →
      exec (.spawn a b) s = .next ((u.pushRecord (u.buildRecord pc 1 (some (s.xval b)))).complete 4)) ∧
    ((s.xval a).extractLsb' 60 4 = 1 → exec (.jinit a b) s = .next (s.takeTrap .noncanon (s.xval a) false)) ∧
    ∀ sp u v w, counterSpot (s.xval a) s s = .ok (sp, u) → rmwAt (s.xval a) 8 (.put (s.xval b).toNat) (.x 0) s sp u = .ok (some v, w) →
      exec (.jinit a b) s = .next w.served

/-- The record SPAWN and FORK build (R81, R196), and its place at the top of the deque (R177). -/
def Sys2Proof.Claim.RecordPushed : Prop :=
  ∀ (s : State) (pc : Word) (type : BitVec 8) (x1 : Option Word),
    let r := s.buildRecord pc type x1
    let k := (s.pushRecord r).myCore
    r.pc = pc ∧ r.p = s.me.p.setWidth 24 ∧ r.key = 0 ∧ r.depth = 0 ∧ r.type = type ∧ r.dev = none ∧ r.x[0] = 0 ∧
    (∀ v, x1 = some v → r.x[1] = v) ∧ (x1 = none → r.x[1] = s.me.x[1]) ∧
    (∀ j : Fin 16, 2 ≤ j.val → r.x[j] = s.me.x[j]) ∧ (∀ j : Fin 8, r.v[j] = s.me.v[j.val]) ∧
    k.deque = r :: s.myCore.deque ∧ (s.pushRecord r).me.reserved = false

/-- FORK and JOIN (R199): after the checks and the release FORK increments its counter and pushes a record; JOIN decrements it, and
continues at its target with an acquire where it reaches zero, else ends the task. -/
def Sys2Proof.Claim.ForkAndJoin : Prop :=
  ∀ (s : State) (j : Reg) (o : BitVec 20), (∀ r, s.markOf r = none) →
    let p := s.xval j
    let target := s.me.pc + BitVec.ofInt 64 (2 * o.toInt)
    let ask := fun (u : State) => u.modMe fun t => { t with reserved := true }
    (p.extractLsb' 60 4 = 1 → ∀ i ∈ [Instr.fork j o, .join j o], exec i s = .next (s.takeTrap .noncanon p false)) ∧
    ∀ sp u, counterSpot p s s = .ok (sp, u) →
      (u.me.reserved = false → u.myCore.dequeRoom = false → exec (.fork j o) s = .next (s.takeTrap .dqfull 0 false)) ∧
      (u.me.reserved = true ∨ u.myCore.dequeRoom = true → ∀ v w old, release (ask u) = .ok ((), v) →
        rmwAt p 8 (.amo .add 1) (.fork target) s sp v = .ok (some old, w) →
        exec (.fork j o) s = .next
          ({ (w.pushRecord (w.buildRecord target 2 none)).complete 4 with sent := [] }.leave
            (.reply ((w.pushRecord (w.buildRecord target 2 none)).complete 4).sent))) ∧
      ∀ v w old, release u = .ok ((), v) → rmwAt p 8 (.amo .add (2 ^ 64 - 1)) (.join target) s sp v = .ok (some old, w) →
        (old = 1 → exec (.join j o) s =
          .next ({ (w.modMyCore (·.acquire)).jump target with sent := [] }.leave (.reply ((w.modMyCore (·.acquire)).jump target).sent))) ∧
        (old ≠ 1 → exec (.join j o) s = .next w.endTask)

/-- EXIT is a release and ends the task: a lane's or a record's slot is idle, with HL clear, no mark and no wait, and its core's queues
and deque are kept (R120, R177). -/
def Sys2Proof.Claim.TaskEnd : Prop :=
  ∀ (s : State),
    (∀ st, release s = .error st → exec .exit s = stopped st s) ∧
    ∀ u, release s = .ok ((), u) → exec .exit s = .next u.endTask ∧
      ((∀ d, s.me.kind ≠ .dev d) →
        u.endTask.me.life = .idle ∧ u.endTask.me.out = .none ∧ u.endTask.me.sw.hl = false ∧
        (∀ r, u.endTask.markOf r = none) ∧ u.endTask.me.stealAt = s.cycle ∧ u.endTask.myCore.deque = s.myCore.deque ∧
        u.endTask.myCore.queues = s.myCore.queues ∧ u.endTask.me.nack = none)

/-- SPAWN, JINIT, FORK, JOIN and EXIT complete (R120, R177, R196-R199): with no store of the slot unacknowledged, a free place on the deque for
the forms that push and a counter in an ordinary line. JOIN goes on at its target where it brings the counter to zero, and else ends its
task. -/
def Sys2Proof.Claim.TasksComplete : Prop :=
  ∀ (s : State) (a b : Reg) (o : BitVec 20), (∀ r, s.markOf r = none) → s.quiet → (∀ d, s.me.kind ≠ .dev d) →
    let goes := fun (i : Instr) (q : State → Prop) => ∃ t, exec i s = .next t ∧ q t
    let ended := fun (t : State) => t.me.life = .idle ∧ t.me.out = .none ∧ t.myCore.deque = s.myCore.deque
    let room := s.me.reserved = true ∨ s.myCore.dequeRoom = true
    let target := s.me.pc + BitVec.ofInt 64 (2 * o.toInt)
    goes .exit ended ∧
    (room → goes (.spawn a b) fun t => t.me.pc = (s.complete 4).me.pc ∧ t.me.reserved = false ∧
      t.myCore.deque = s.buildRecord (s.xval a &&& ~~~1#64) 1 (some (s.xval b)) :: s.myCore.deque) ∧
    ∀ (e : TlbEntry) (pa : Nat), s.plainLine pa → s.reaches (s.xval a) 8 .atomic e pa →
      let old := Memory.readN s.mem pa 8
      let holds := fun (t : State) (v : Nat) => Memory.readN t.mem pa 8 = v % 2 ^ 64
      goes (.jinit a b) (fun t => t.me.pc = (s.complete 4).me.pc ∧ holds t (s.xval b).toNat) ∧
      (room → goes (.fork a o) fun t => t.me.pc = (s.complete 4).me.pc ∧ holds t (old + 1) ∧
        t.myCore.deque = s.buildRecord target 2 none :: s.myCore.deque) ∧
      (old = 1 → goes (.join a o) fun t => t.me.pc = target ∧ holds t 0) ∧
      (old ≠ 1 → goes (.join a o) fun t => ended t ∧ holds t (old + (2 ^ 64 - 1)))

/-- SPAWN, FORK, JOIN, JINIT and EXIT: records, counters and the end of a task. -/
def Obligations.TasksCreatedAndEnded : Prop := Sys2Proof.Claim.SpawnAndCounter ∧ Sys2Proof.Claim.TasksComplete ∧ Sys2Proof.Claim.RecordPushed ∧ Sys2Proof.Claim.ForkAndJoin ∧ Sys2Proof.Claim.TaskEnd

/-- Task start from a record (R79, R81): the registers of the record, the rest at their start values; uvb and the launch's identity
are kept, and so is DM. That a record with a poisoned word (R180) is consumed as the slot first issues is the model's choice, log 104. -/
def Sys2Proof.Claim.TaskStart : Prop :=
  ∀ (t : Slot) (r : TaskRec),
    let u := startRecord t r
    u.life = .running ∧ u.pc = r.pc &&& ~~~1#64 ∧ u.p = r.p.setWidth 32 ∧ u.x[0] = 0 ∧ (∀ j : Fin 16, j ≠ 0 → u.x[j] = r.x[j]) ∧
    (∀ j : Fin 8, u.v[j.val] = r.v[j]) ∧ (∀ j : Fin 16, 8 ≤ j.val → u.v[j] = 0) ∧
    u.sw = { t.sw with hl := false, ue := true, ie := true, s := false } ∧
    (u.sst, u.epc, u.ecause, u.eaddr, u.uepc, u.ucause, u.uaddr, u.utoken, u.lc, u.lstart, u.lend) = (0, 0, 0, 0, 0, 0, 0, 0, 0, 0, 0) ∧
    u.alost = 0 ∧ u.sr = 0 ∧ u.uvb = t.uvb ∧ (u.lane, u.lcount, u.launch, u.gm) = (t.lane, t.lcount, t.launch, t.gm) ∧
    (∀ j : Fin 16, u.marks[j] = none) ∧ u.nack = none ∧ u.spoiled = !r.bad.isEmpty

/-- TASK_TAKE and STEAL_ROUND (R177): the lowest free slot takes the record held in the development overflow first, else the top
record; an idle slot without work takes the bottom stealable record of another core of its plot, or waits 256 cycles. -/
def Sys2Proof.Claim.TakingTasks : Prop :=
  ∀ (s : State) (c : Nat) (i : Nat), (s.core c).preempt = none → s.resting (s.core c) = false →
    ((s.core c).freeSlot = some i →
      (∀ r rest, (s.core c).overflow = r :: rest →
        exec (.taskTake c) s = .next ((s.setCore c { s.core c with overflow := rest }).startIn c i r)) ∧
      (∀ r rest, (s.core c).overflow = [] → (s.core c).deque = r :: rest →
        exec (.taskTake c) s = .next ((s.setCore c { s.core c with deque := rest }).startIn c i r))) ∧
    ((s.core c).freeSlot = none → exec (.taskTake c) s = .next s) ∧
    ∀ k : Fin 8, (s.slotAt c k).free = true → (s.core c).deque = [] → (s.core c).overflow = [] → (s.slotAt c k).stealAt ≤ s.cycle →
      (∀ n, s.stealableAt n = none) →
      exec (.stealRound c k.val) s =
        .next ((s.draw (s.partOf c) (s.ownerOf c) 7 c 0).2.modSlotAt c k fun t => { t with stealAt := s.cycle + 256 })

/-- A steal takes a record that is no development from a core of the thief's plot and starts it in the thief's slot (R177). -/
def Sys2Proof.Claim.StealTakes : Prop :=
  ∀ (s : State) (c : Nat) (k : Fin 8), (s.core c).preempt = none → s.resting (s.core c) = false → (s.slotAt c k).free = true →
    (s.core c).deque = [] → (s.core c).overflow = [] → (s.slotAt c k).stealAt ≤ s.cycle →
    (∃ n ∈ s.plotCores c, n ≠ c ∧ s.stealableAt n ≠ none) →
    ∃ n ∈ s.plotCores c, ∃ r, s.stealableAt n = some r ∧ r.dev = none ∧
      exec (.stealRound c k.val) s =
        .next (((s.draw (s.partOf c) (s.ownerOf c) 7 c 0).2.modCore n (·.stolen)).startIn c k.val r)

/-- DEVELOPMENT_SLOT_TIMEOUT (R159, R251): 64 cycles after its request, with no slot of the core free and room for the parked state, a
development that no slot has taken runs in its requester's own slot; earlier, or for a slot that has asked for none itself, nothing
happens. -/
def Sys2Proof.Claim.DevelopmentTimeout : Prop :=
  ∀ (s : State) (c : Nat) (k : Fin 8) (rid : Nat) (p : Option PredNo), (s.slotAt c k).out = .develop rid p →
    (s.cycle < (s.slotAt c k).since / 2 ^ 32 + 64 → exec (.developmentSlotTimeout c k.val) s = .next s) ∧
    (s.askedRecord c k.val rid = none → exec (.developmentSlotTimeout c k.val) s = .next s) ∧
    ((s.core c).freeSlot.isSome = true → exec (.developmentSlotTimeout c k.val) s = .next s) ∧
    ∀ r, s.askedRecord c k.val rid = some r → (s.core c).freeSlot = none → s.resting (s.core c) = false →
      (s.slotAt c k).since / 2 ^ 32 + 64 ≤ s.cycle → (s.core c).saved.isNone || s.stackRoom (s.partOf c) →
      ∃ t, exec (.developmentSlotTimeout c k.val) s = .next t ∧
        (t.slotAt c k).life = .running ∧ (t.slotAt c k).pc = r.pc &&& ~~~1#64 ∧ (t.slotAt c k).out = .none ∧
        (t.core c).deque = (s.core c).deque.erase r ∧ (t.core c).overflow = (s.core c).overflow.erase r ∧
        ((s.core c).saved = none → (t.core c).saved = some { slot := k.val, state := s.slotAt c k, depth := r.depth })

/-- How a record starts in a slot: taken, stolen, or for a development that has waited. -/
def Obligations.TasksStarted : Prop := Sys2Proof.Claim.TaskStart ∧ Sys2Proof.Claim.TakingTasks ∧ Sys2Proof.Claim.StealTakes ∧ Sys2Proof.Claim.DevelopmentTimeout

/-- ENQ (R200, R335, R342): from its issue it is in flight; its checks, a queue the partition has, the release, the home read, then the
record goes to the segment of its key, or the slot waits while that is full and no DEQ waits. That the record is checked before the queue
is log 70. -/
def Sys2Proof.Claim.Enqueue : Prop :=
  ∀ (s : State) (a : Reg) (q : BitVec 6), s.unmarked [a] →
    let e := s.modMe (·.enqueues)
    (∀ st, checkRange e.agent (s.xval a) 656 8 .load e = .error st → exec (.enq a q) s = stopped st e) ∧
    ∀ sps u, checkRange e.agent (s.xval a) 656 8 .load e = .ok (sps, u) →
      (u.myPart.queueCount ≤ q.toNat → exec (.enq a q) s = .next (e.takeTrap .prot (q.setWidth 64) false)) ∧
      (q.toNat < u.myPart.queueCount → ∀ v ws w, release u = .ok ((), v) → readRange e.agent sps v = .ok (ws, w) →
        let r := enqRecord ws
        let n := w.myPart.clusters.length * ((List.range 4).filter fun j => w.myPart.mask.getLsbD j).length
        let seg := r.key.toNat * 40503 % 2 ^ 16 * n / 2 ^ 16
        let x := { w with sent := [] }
        let full := x.myPart.segCap ≤ (x.myPart.segment q.toNat seg).length
        let waiting := x.waitersOf x.myPartNo (·.isDeq q.toNat)
        (full ∧ waiting = [] → exec (.enq a q) s = .next (x.leave (.enq q.toNat seg r))) ∧
        (¬ (full ∧ waiting = []) → exec (.enq a q) s = .next ((x.appendRecord x.myPartNo q.toNat seg r).complete 4)))

/-- DEQ and QST (R200, R289, R343, R345): NONDET in a deterministic task, PROT for a queue the partition has not; DEQ ends the task
with its release and starts the record its search finds, or waits; QST reads the capacity, the segments and the records. -/
def Sys2Proof.Claim.DequeueAndStatus : Prop :=
  ∀ (s : State) (d : Reg) (q : BitVec 6),
    let recs := ((mapGet s.myPart.queues q.toNat { segs := [] }).segs.map fun e => e.2.length).foldl (· + ·) 0
    (s.me.sw.dm = true → ∀ i ∈ [Instr.deq q, .qst d q], exec i s = .next (s.takeTrap .nondet 0 false)) ∧
    (s.me.sw.dm = false → s.myPart.queueCount ≤ q.toNat →
      ∀ i ∈ [Instr.deq q, .qst d q], exec i s = .next (s.takeTrap .prot (q.setWidth 64) false)) ∧
    (s.me.sw.dm = false → q.toNat < s.myPart.queueCount →
      (s.reseeding s.agent = false → ∃ (v : Word) (u : State), segmentRequests s.myPart s = .ok ((), u) ∧
        u.packets.length = s.packets.length + s.myPart.segments ∧ exec (.qst d q) s = .next (u.setX d v).served ∧
        v.extractLsb' 48 16 = BitVec.ofNat 16 s.myPart.segCap ∧ v.extractLsb' 32 16 = BitVec.ofNat 16 s.myPart.segments ∧
        v.extractLsb' 0 32 = BitVec.ofNat 32 recs) ∧
      ∀ u v, release s = .ok ((), u) →
        (findSegment q.toNat u = .ok (none, v) →
          exec (.deq q) s = .next ((v.leave (.deq q.toNat)).modMe fun t => { t with dequeuing := true })) ∧
        ∀ seg r rest, findSegment q.toNat u = .ok (some seg, v) → v.myPart.segment q.toNat seg = r :: rest →
          exec (.deq q) s = .next ((v.takeSegment v.myPartNo q.toNat seg).startIn s.curCore s.curSlot.val r))

/-- ENQ of a record in the local tray and DEQ of a queue whose nearest segments hold a record complete (R81, R200, R342, R343): with no store of
the slot unacknowledged, and for ENQ a place in the segment of the record's key or a DEQ that waits. That ENQ's record may lie in a tray is
the model's reading, DEDUCED, log 43. -/
def Sys2Proof.Claim.QueuesComplete : Prop :=
  ∀ (s : State) (a : Reg) (q : BitVec 6), s.unmarked [a] → s.quiet → q.toNat < s.myPart.queueCount →
    let off := trayOff (s.xval a)
    let r := enqRecord ((List.range 82).map fun i => BitVec.ofNat 64 (Memory.readN s.myCore.tray (off + 8 * i) 8))
    let seg := r.key.toNat * 40503 % 2 ^ 16 * s.myPart.segments / 2 ^ 16
    ((s.xval a).extractLsb' 60 4 = 1 → (s.xval a).extractLsb' 19 41 = 0 → off % 8 = 0 → off + 656 ≤ 0x58000 →
      (∀ w ∈ s.myCore.trayBad, w < off / 4 ∨ off / 4 + 164 ≤ w) →
      (s.waitersOf s.myPartNo (·.isDeq q.toNat) = [] → (s.myPart.segment q.toNat seg).length < s.myPart.segCap →
        ∃ t, exec (.enq a q) s = .next t ∧ t.me.pc = (s.complete 4).me.pc ∧
          t.myPart.segment q.toNat seg = s.myPart.segment q.toNat seg ++ [r]) ∧
      (∀ c i rest, s.waitersOf s.myPartNo (·.isDeq q.toNat) = (c, i) :: rest → (c, i % 8) ≠ (s.curCore, s.curSlot.val) →
        ∃ t, exec (.enq a q) s = .next t ∧ t.me.pc = (s.complete 4).me.pc ∧ t.myPart = s.myPart ∧
          (t.slotAt c (slotNo i)).life = .running ∧ (t.slotAt c (slotNo i)).pc = evenAddr r.pc)) ∧
    ∀ j r rest, s.me.sw.dm = false → s.myPart.firstFull q.toNat (rankOf s.myPart (clusterOf s.curCore)) = some j →
      s.myPart.segment q.toNat j = r :: rest → s.waitersOf s.myPartNo (·.isEnq q.toNat j) = [] →
      ∃ t, exec (.deq q) s = .next t ∧ t.me.life = .running ∧ t.me.pc = evenAddr r.pc ∧
        t.myPart = s.myPart.setSegment q.toNat j rest

/-- The queues of a partition: ENQ, DEQ and QST. -/
def Obligations.TaskQueues : Prop := Sys2Proof.Claim.Enqueue ∧ Sys2Proof.Claim.QueuesComplete ∧ Sys2Proof.Claim.DequeueAndStatus

/-- The checks of SEND in their order, then its release; the packet leaves with all 64 bytes and the slot waits for it to be placed
(R201). -/
def Sys2Proof.Claim.SendCompletes : Prop :=
  ∀ (s : State) (a b : Reg), s.unmarked [a] →
    let x := s.xval a
    let bad := x.extractLsb' 50 14 ≠ 0 ∨ x.extractLsb' 4 36 ≠ 0
    let e := (x.extractLsb' 0 4).toNat
    (bad → exec (.send a b) s = .next (s.takeTrap .noncanon x false)) ∧
    (¬ bad → e = 15 → s.me.sw.s = false → exec (.send a b) s = .next (s.takeTrap .priv 0 false)) ∧
    (¬ bad → (e ≠ 15 ∨ s.me.sw.s = true) →
      (∀ st, sendTarget x s = .error st → exec (.send a b) s = stopped st s) ∧
      ∀ u, sendTarget x s = .ok ((), s) → release s = .ok ((), u) →
        let c := (u.coreFor u.curCore u.myPartNo (x.extractLsb' 40 10).toNat).getD 0
        let m := u.send u.agent (coreX c) (coreY c) 0 (.channel e (s.vval b)) x true true
        exec (.send a b) s = .next (m.2.leave (.remote [m.1])))

/-- RECV and RECVT (R178, R202): the head packet is taken whole, whatever the mask, with an acquire; RECV on an empty endpoint waits;
RECVT says which in a predicate and is NONDET in a deterministic task; a poisoned packet is an MCE (R180). -/
def Sys2Proof.Claim.Receive : Prop :=
  ∀ (s : State) (d : Reg) (e : BitVec 4) (q : PredNo),
    let taken := fun (v : Vec) (rest : List (Vec × Bool)) =>
      (((s.setV d v).modMyCore fun k => k.setFifo e.toNat rest).admitPacket s.curCore e.toNat).modMyCore (·.acquire)
    (∀ v rest, s.myCore.fifo e.toNat = (v, false) :: rest →
      exec (.recv d e) s = .next ((taken v rest).complete 4) ∧
      (s.me.sw.dm = false → exec (.recvt d e q) s = .next ((taken v rest).wroteP q true))) ∧
    (∀ v rest, s.myCore.fifo e.toNat = (v, true) :: rest →
      exec (.recv d e) s = .next (s.takeTrap .mce 0 true) ∧
      (s.me.sw.dm = false → exec (.recvt d e q) s = .next (s.takeTrap .mce 0 true))) ∧
    (s.myCore.fifo e.toNat = [] →
      exec (.recv d e) s = .next (s.leave (.recv e.toNat d)) ∧
      (s.me.sw.dm = false → exec (.recvt d e q) s = .next (s.wroteP q false))) ∧
    (s.me.sw.dm = true → exec (.recvt d e q) s = .next (s.takeTrap .nondet 0 false))

/-- A packet that reaches its core goes to the slot that has waited longest in RECV there, else into the FIFO of four; a full endpoint
holds it; a core that the position has left answers PROT, a fenced one CONTAINED; a packet waits for the earlier ones of its sender's core
to the same position (R160, R178, R201, R312). -/
def Sys2Proof.Claim.PacketArrival : Prop :=
  ∀ (s : State) (i e : Nat) (pk : Packet) (data : Vec), s.packet? i = some pk → pk.load = .channel e data → pk.place = .port →
    (s.firstInLine pk = false → exec (.channelPacketArrival i) s = .next s) ∧ (s.firstInLine pk = true →
    (∀ c, s.arrival pk = .refuse c → exec (.channelPacketArrival i) s = .next (s.answerAt pk.target pk.id (.trap c))) ∧
    ∀ c, s.arrival pk = .serve c → s.fifoWaiters c e = [] →
      (∀ j r, (s.core c).receiver e = some (j, r) → (s.core c).fifo e = [] →
        exec (.channelPacketArrival i) s = .next ((s.receive c j r data pk.poisoned).answerAt c pk.id .ok)) ∧
      ((s.core c).receiver e = none → ((s.core c).fifo e).length < 4 →
        exec (.channelPacketArrival i) s =
          .next ((s.modCore c fun k => k.setFifo e (k.fifo e ++ [(data, pk.poisoned)])).answerAt c pk.id .ok)) ∧
      ((s.core c).receiver e = none → 4 ≤ ((s.core c).fifo e).length →
        exec (.channelPacketArrival i) s = .next (s.modPacket pk.id fun p => { p with place := .fifo, since := s.stamp }).tick))

/-- SEND goes out and completes (R182, R201): to a position that an enabled core of the partition holds, with no store of the slot unacknowledged, the
packet leaves with V(b) whole and the slot waits for it; once it is placed, the reply completes the instruction. -/
def Sys2Proof.Claim.SendGoesOut : Prop :=
  ∀ (s : State) (a b : Reg), s.unmarked [a] → s.quiet →
    let x := s.xval a
    let pos := (x.extractLsb' 40 10).toNat
    let e := (x.extractLsb' 0 4).toNat
    (x.extractLsb' 50 14 = 0 → x.extractLsb' 4 36 = 0 → e ≠ 15 ∨ s.me.sw.s = true →
      ∀ c, s.coreFor s.curCore s.myPartNo pos = some c → (s.core c).disabled = false → (s.core c).bound.map (·.part) = some s.myPartNo →
      (s.core c).position = some pos →
      ∃ t k, exec (.send a b) s = .next t ∧ t.packets = s.packets ++ [k] ∧ t.me.out = .remote [k.id] ∧ k.load = .channel e (s.vval b) ∧
        k.dx = coreX c ∧ k.dy = coreY c ∧ k.core = s.curCore ∧ k.slot = s.curSlot.val ∧ t.mem = (s.writeBackAll s.curCore).mem) ∧
    ∀ k, s.me.out = .remote [k.id] → s.packet? k.id = some k → k.load = .channel e (s.vval b) → k.place = .done → k.answer = some .ok →
      ∃ t, exec (.memoryReply s.curCore s.curSlot.val none) s = .next t ∧ t.me.pc = (s.complete 4).me.pc ∧ t.me.out = .none

/-- Channels: SEND, RECV, RECVT and the arrival of packets. -/
def Obligations.Channels : Prop := Sys2Proof.Claim.SendCompletes ∧ Sys2Proof.Claim.SendGoesOut ∧ Sys2Proof.Claim.Receive ∧ Sys2Proof.Claim.PacketArrival

/-- Tile transfers by rows, and TZR (R165, R206, R207, R210): the bytes of the rows move between the tray and the tile; the tile's
other bytes and the other tiles are kept; a transfer takes 6 cycles, one for each tray access and one for each retry of a bank conflict, whose
number is free (R152, R205; log 86). Rows of 64 bytes lie at multiples of 64, and the first that does not is ALIGN with its pointer (R151);
that R151's words bind these rows beside R207's checks is the model's reading, DEDUCED, log 103, and so is the count of one access for each
tray row that a row touches, log 102. -/
def Sys2Proof.Claim.TileRows : Prop :=
  ∀ (s : State) (t : TileNo) (a b : Reg) (f : Fmt), s.unmarked [a, b] →
    let l : Latch := { tcs := s.mySight.tc, a := s.xval a, b := s.xval b, d := 0 }
    let rows := tcRows (l.tc t.toNat)
    let rb := rowBytesOf (tcCols (l.tc t.toNat)) f
    let off := fun (i : Nat) => (trayOff l.a : Int) + i * l.b.toInt
    let at' := fun (i b : Nat) => (off i).toNat + b
    tcShape (l.tc t.toNat) = some f → Memory.wf s.myCore.tiles = true → Memory.wf s.myCore.tray = true →
    (s.laneFree (.tzr t) { l with a := 0, b := 0 } → ∃ u, exec (.tzr t) s = .next u ∧ matrixDone s u (.tzr t) (6 + rows) ∧
      u.myCore.tray = s.myCore.tray ∧
      ∀ x, Memory.read u.myCore.tiles x =
        if t.toNat * 4096 ≤ x ∧ x < t.toNat * 4096 + 128 * rows ∧ x % 128 < rb then 0 else Memory.read s.myCore.tiles x) ∧
    (l.a.extractLsb' 60 4 = 1 → l.a.extractLsb' 19 41 = 0 → l.a.toNat % 4 = 0 → l.b.toNat % 4 = 0 →
      (∀ i < rows, 0 ≤ off i ∧ off i + rb ≤ if s.me.sw.s then 0x60000 else 0x58000) → (rb = 64 → ∀ i < rows, off i % 64 = 0) →
      let cost := 6 + rowAccesses ((List.range rows).map fun i => (off i).toNat) rb
      (s.laneFree (.tld t a b false) l → (∀ i < rows, ∀ x < rb, s.myCore.trayPoisoned [at' i x] = false) →
        ∃ u, exec (.tld t a b false) s = .next u ∧ (∃ retries, matrixDone s u (.tld t a b false) (cost + retries)) ∧ u.myCore.tray = s.myCore.tray ∧
          (∀ i < rows, ∀ x < rb, at' i x < 0x58000 →
            Memory.read u.myCore.tiles (t.toNat * 4096 + 128 * i + x) = Memory.read s.myCore.tray (at' i x)) ∧
          ∀ y, ¬ (t.toNat * 4096 ≤ y ∧ y < t.toNat * 4096 + 128 * rows ∧ y % 128 < rb) →
            Memory.read u.myCore.tiles y = Memory.read s.myCore.tiles y) ∧
      (s.laneFree (.tst t a b false) l → s.myCore.tilePoisoned t.toNat rows rb = false →
        ∃ u, exec (.tst t a b false) s = .next u ∧ (∃ retries, matrixDone s u (.tst t a b false) (cost + retries)) ∧ u.myCore.tiles = s.myCore.tiles ∧
          (∀ i < rows, ∀ x < rb, at' i x < 0x58000 → (∀ k < rows, i < k → at' i x < (off k).toNat ∨ (off k).toNat + rb ≤ at' i x) →
            Memory.read u.myCore.tray (at' i x) = Memory.read s.myCore.tiles (t.toNat * 4096 + 128 * i + x)) ∧
          ∀ y, (∀ i < rows, y < (off i).toNat ∨ (off i).toNat + rb ≤ y) → Memory.read u.myCore.tray y = Memory.read s.myCore.tray y)) ∧
    (l.a.extractLsb' 60 4 = 1 → l.a.extractLsb' 19 41 = 0 → l.a.toNat % 4 = 0 → l.b.toNat % 4 = 0 → rb = 64 →
      (∀ i < rows, 0 ≤ off i ∧ off i + 64 ≤ 0x60000) → ∀ j < rows, off j % 64 ≠ 0 → (∀ i < j, off i % 64 = 0) →
      ∀ x ∈ [Instr.tld t a b false, .tst t a b false], s.laneFree x l →
        exec x s = .next (s.takeTrap .align (l.a + BitVec.ofInt 64 (j * l.b.toInt)) false))

/-- Tile transfers by columns (R154, R208): element (row j, column i) of the tile is field j of stored row i in the tray. That a TST writes
no other byte of the tray is the model's reading, DEDUCED, log 46. -/
def Sys2Proof.Claim.TileColumns : Prop :=
  ∀ (s : State) (t : TileNo) (a b : Reg) (f : Fmt), s.unmarked [a, b] →
    let l : Latch := { tcs := s.mySight.tc, a := s.xval a, b := s.xval b, d := 0 }
    let rows := tcRows (l.tc t.toNat)
    let cols := tcCols (l.tc t.toNat)
    let w := fmtBits f
    let n := frameCols rows w
    let cost := 6 + n * ((cols + 15) / 16)
    let field' := fun (u : State) (i j : Nat) => Memory.readN u.myCore.tray (trayOff l.a + 64 * i) (4 * n) / 2 ^ (w * j) % 2 ^ w
    tcShape (l.tc t.toNat) = some f → Memory.wf s.myCore.tiles = true → Memory.wf s.myCore.tray = true →
    l.b = 64 → w ≠ 6 → trayOff l.a / 4 % 16 + n ≤ 16 → l.a.extractLsb' 60 4 = 1 → l.a.extractLsb' 19 41 = 0 → trayOff l.a % 4 = 0 →
    trayOff l.a / 64 % 16 = 0 → trayOff l.a + 64 * (cols - 1) + 4 * n ≤ (if s.me.sw.s then 0x60000 else 0x58000) →
    let inside := fun (i : Nat) => trayOff l.a + 64 * i + 4 * n ≤ 0x58000
    (s.laneFree (.tld t a b true) l → (∀ k < n, ∀ i < 16 * ((cols + 15) / 16), s.myCore.trayPoisoned [trayOff l.a + 64 * i + 4 * k] = false) →
      ∃ u, exec (.tld t a b true) s = .next u ∧ (∃ retries, matrixDone s u (.tld t a b true) (cost + retries)) ∧ u.myCore.tray = s.myCore.tray ∧
        ∀ j < rows, ∀ i < cols, inside i → u.myCore.tileElem t.toNat j i w = field' s i j) ∧
    (s.laneFree (.tst t a b true) l → rows * w % 32 = 0 → s.myCore.tilePoisoned t.toNat rows (rowBytesOf cols f) = false →
      ∃ u, exec (.tst t a b true) s = .next u ∧ (∃ retries, matrixDone s u (.tst t a b true) (cost + retries)) ∧ u.myCore.tiles = s.myCore.tiles ∧
        (∀ j < rows, ∀ i < cols, inside i → field' u i j = s.myCore.tileElem t.toNat j i w) ∧
        ∀ y, (∀ i < cols, y < trayOff l.a + 64 * i ∨ trayOff l.a + 64 * i + 4 * n ≤ y) →
          Memory.read u.myCore.tray y = Memory.read s.myCore.tray y)

/-- Tiles move by rows and by columns between the tray and the tile store. -/
def Obligations.TileTransfers : Prop := Sys2Proof.Claim.TileRows ∧ Sys2Proof.Claim.TileColumns

/-- MWL latches the tile, its band and, in FP4S, the block scales of its companion (R211). -/
def Sys2Proof.Claim.WeightsLatched : Prop :=
  ∀ (s : State) (t : TileNo) (f : Fmt),
    let l : Latch := { tcs := s.mySight.tc, a := 0, b := 0, d := 0 }
    let tc := l.tc t.toNat
    let four := f == .fp4s
    s.laneFree (.mwl t f) l → tcFmt tc = f.code → shapeOk (tcRows tc) (tcCols tc) f = true → (f = .fp64 → tcRows tc ≤ 16) →
    (f = .fp4s → t.toNat % 2 = 0 ∧ companionOk l t.toNat = true) →
    let bad := s.myCore.tilePoisoned t.toNat (tcRows tc) (rowBytesOf (tcCols tc) f) ||
      (four && s.myCore.tilePoisoned (t.toNat ^^^ 1) (tcRows tc) (tcCols tc / 8))
    (bad = false → Memory.wf s.myCore.tiles = true →
      ∃ u, exec (.mwl t f) s = .next u ∧ matrixDone s u (.mwl t f) 32 ∧ u.myCore.tiles = s.myCore.tiles ∧ u.myCore.resume = none ∧
        let w := u.myCore.array
        w.wv = true ∧ w.wbad = false ∧ w.fmt = some f ∧ w.rows = tcRows tc ∧ w.cols = tcCols tc ∧
          (∀ i < tcRows tc, ∀ x < rowBytesOf (tcCols tc) f,
            Memory.read w.w (128 * i + x) = Memory.read s.myCore.tiles (t.toNat * 4096 + 128 * i + x)) ∧
          (f = .fp4s → w.band = BitVec.ofNat 16 (tcBand tc) ∧ ∀ i < tcRows tc, ∀ x < tcCols tc / 8,
            Memory.read w.blk (16 * i + x) = Memory.read s.myCore.tiles ((t.toNat ^^^ 1) * 4096 + 128 * i + x))) ∧
    (bad = true → ∃ u : State, exec (.mwl t f) s = .next (u.takeTrap .mce 0 false) ∧ u.myCore.array = s.myCore.array ∧ u.myCore.resume = none)

/-- MST whose checks pass streams its first tile not done before: each product row adds to its accumulator row, as the class sums
(R166, R212, R213, R215); a pre-emption that may stop it, or a poisoned tile, which traps MCE, records the place instead (R95, R169). That
a poisoned accumulator row which the tile adds to is an MCE as well (R180) is the model's reading, DEDUCED, log 48. -/
def Sys2Proof.Claim.StreamStarts : Prop :=
  ∀ (s : State) (t : TileNo) (row : BitVec 9) (c : BitVec 5) (f wf : Fmt) (cls : AccClass) (single : Bool),
    let i := Instr.mst t row c f
    let l : Latch := { tcs := s.mySight.tc, a := 0, b := 0, d := 0 }
    let done := resumeTiles s.myCore.resume s.curSlot.val s.me.pc i
    let at' := fun (m : Nat) => row.toNat + ((streamTiles t.toNat m f).map fun x => tcRows (l.tc x)).foldl (· + ·) 0
    let x := if f == .fp4s then t.toNat + 2 * done else t.toNat + done
    let k := s.myCore
    let sum := fun (ovf : Bool) (i j : Nat) =>
      accumulate cls single (k.accElem cls (at' done + i) j) ovf ((k.actValue l f x i k.array.cols).zip (k.array.value wf j k.array.cols))
    s.laneFree i l → mapWf 0 s.myCore.acc = true → k.array.wv = true → k.array.wbad = false → k.array.fmt = some wf →
    ∀ depth most, matrixPair wf f = some (cls, single, depth, most) → k.array.cols ≤ depth → k.array.rows ≤ most →
    (f = .fp4s → t.toNat % 2 = 0) → at' c.toNat ≤ 512 →
    (∀ y ∈ streamTiles t.toNat c.toNat f, y ≤ 7 ∧ tcFmt (l.tc y) = f.code ∧ tcCols (l.tc y) = k.array.cols ∧
      shapeOk (tcRows (l.tc y)) (tcCols (l.tc y)) f = true ∧ (f = .fp4s → companionOk l y = true)) →
    done < c.toNat →
    (s.streamStop = true → ∃ u, exec i s = .next u ∧ u.me.pc = s.me.pc ∧ u.myCore.acc = k.acc ∧ u.mem = s.mem ∧
      u.myCore.resume = some { slot := s.curSlot.val, pc := s.me.pc, fields := i, tiles := done }) ∧
    (s.streamStop = false → k.streamPoisoned l f cls x (at' done) = false → ∃ u, exec i s = .next u ∧
      u.me.out = .stream i l (done + 1) (at' done + tcRows (l.tc x)) (k.laneStart i s.cycle + 64 + tcRows (l.tc x)) ∧
      u.me.pc = s.me.pc ∧ u.mem = s.mem ∧ u.myCore.tiles = k.tiles ∧ u.myCore.array = k.array ∧ u.myCore.resume = none ∧
      (∀ i < tcRows (l.tc x), ∀ j < k.array.rows, u.myCore.accElem cls (at' done + i) j = (sum false i j).1 % 2 ^ (32 * classWords cls)) ∧
      (∀ r, ∀ j < 32, (r < at' done ∨ at' done + tcRows (l.tc x) ≤ r ∨ classWords cls * k.array.rows ≤ j) → u.myCore.accWord r j = k.accWord r j) ∧
      (u.myCore.ovf = true ↔ k.ovf = true ∨ ∃ i < tcRows (l.tc x), ∃ j < k.array.rows, (sum false i j).2 = true)) ∧
    (s.streamStop = false → k.streamPoisoned l f cls x (at' done) = true → ∃ u : State, exec i s = .next (u.takeTrap .mce 0 false) ∧ u.myCore.acc = k.acc ∧
      u.myCore.resume = some { slot := s.curSlot.val, pc := s.me.pc, fields := i, tiles := done })

/-- The shapes MWL and MST refuse with MATFMT, at every issue (R166, R211, R212): a tile that names another format or fails its shape or
companion, no latched weights, a pair that R166 does not list, more columns or rows than the pair takes, a tile number above 7, or
accumulator rows above 512; MST with unusable latched weights traps MCE (R180, R212). That an odd tile number of an FP4S stream is MATFMT
is the model's reading, DEDUCED, log 89. -/
def Sys2Proof.Claim.StreamShapes : Prop :=
  ∀ (s : State) (t : TileNo) (row : BitVec 9) (c : BitVec 5) (f : Fmt),
    let l : Latch := { tcs := s.mySight.tc, a := 0, b := 0, d := 0 }
    let k := s.myCore
    let fits := fun (y : Nat) => shapeOk (tcRows (l.tc y)) (tcCols (l.tc y)) f = true ∧ tcFmt (l.tc y) = f.code ∧ (f = .fp4s → companionOk l y = true)
    let rows := row.toNat + ((streamTiles t.toNat c.toNat f).map fun x => tcRows (l.tc x)).foldl (· + ·) 0
    let pairs := ∃ wf cls single depth most, k.array.fmt = some wf ∧ matrixPair wf f = some (cls, single, depth, most) ∧
      k.array.cols ≤ depth ∧ k.array.rows ≤ most
    let streams := k.array.wv = true ∧ pairs ∧ (f = .fp4s → t.toNat % 2 = 0) ∧ rows ≤ 512 ∧
      ∀ y ∈ streamTiles t.toNat c.toNat f, y ≤ 7 ∧ tcCols (l.tc y) = k.array.cols ∧ fits y
    (s.laneFree (.mwl t f) l → ¬ (fits t.toNat ∧ (f = .fp64 → tcRows (l.tc t.toNat) ≤ 16) ∧ (f = .fp4s → t.toNat % 2 = 0)) →
      exec (.mwl t f) s = .next (s.takeTrap .matfmt 0 false)) ∧
    (s.laneFree (.mst t row c f) l →
      (¬ streams → exec (.mst t row c f) s = .next (s.takeTrap .matfmt 0 false)) ∧
      (streams → k.array.wbad = true → exec (.mst t row c f) s = .next (s.takeTrap .mce 0 false)))

/-- Weights are latched, and a stream adds each product row to its accumulator row; the shapes that both refuse. -/
def Obligations.MatrixStream : Prop :=
  Sys2Proof.Claim.WeightsLatched ∧ Sys2Proof.Claim.StreamStarts ∧ Sys2Proof.Claim.StreamShapes

/-- The five accumulator operations (R170, R204, R216-R220): rows r to r + m − 1 change as stated, element by element; other words, the
tiles and the overflow bit are kept, but ACADD in class i32 adds to it. Each clears the resume record, and a poisoned word that it reads is
an MCE with eaddr 0 and nothing written (R180, R216). That ACZ and ACT of no rows keep the record is the model's reading, DEDUCED, log 49. -/
def Sys2Proof.Claim.AccumulatorOperations : Prop :=
  ∀ (s : State) (t : TileNo) (a b d : Reg) (f : Fmt) (cls : AccClass) (fn : ActFn) (sat : Bool), s.unmarked [a, b, d] →
    Memory.wf s.myCore.tiles = true → mapWf 0 s.myCore.acc = true →
    let tcs := s.mySight.tc
    let k := s.myCore
    let r := (s.xval a).toNat
    let m := (s.xval b).toNat
    let tc := tcs[tileNo t.toNat]
    let rows := tcRows tc
    let cols := tcCols tc
    let low := 2 ^ (32 * classWords cls)
    let others := fun (u : State) (m : Nat) => u.myCore.tiles = k.tiles ∧ u.myCore.tray = k.tray ∧
      ∀ x, ∀ j < 32, (x < r ∨ r + m ≤ x) → u.myCore.accWord x j = k.accWord x j
    let completes := fun (i : Instr) (m : Nat) (p : State → Prop) =>
      ∃ u, exec i s = .next u ∧ matrixDone s u i (8 + m) ∧ u.myCore.array = k.array ∧
        u.myCore.resume = (if m = 0 then k.resume else none) ∧ p u
    let poisoned := fun (i : Instr) => exec i s = .next (s.takeTrap .mce 0 false)
    (r + m ≤ 512 → r ≤ 511 →
      (s.laneFree (.acz a b) ⟨tcs, s.xval a, s.xval b, 0⟩ → completes (.acz a b) m fun u => others u m ∧ u.myCore.ovf = k.ovf ∧
        ∀ i < m, ∀ j < 32, u.myCore.accWord (r + i) j = 0) ∧
      (s.laneFree (.act d a b cls fn) ⟨tcs, s.xval a, s.xval b, s.xval d⟩ → ¬ (fn = .scale ∧ cls = .i32) →
        k.accPoisoned cls r m (classCols cls) = false → completes (.act d a b cls fn) m fun u => others u m ∧ u.myCore.ovf = k.ovf ∧
          ∀ i < m, ∀ j < classCols cls, u.myCore.accElem cls (r + i) j =
            actFn fn cls (k.accElem cls (r + i) j) ((s.xval d).toNat % low) % low) ∧
      (s.laneFree (.act d a b cls fn) ⟨tcs, s.xval a, s.xval b, s.xval d⟩ → ¬ (fn = .scale ∧ cls = .i32) →
        k.accPoisoned cls r m (classCols cls) = true → poisoned (.act d a b cls fn))) ∧
    (fn = .scale → cls = .i32 → s.laneFree (.act d a b cls fn) ⟨tcs, s.xval a, s.xval b, s.xval d⟩ →
      ∃ u : State, exec (.act d a b cls fn) s = .next (u.takeTrap .ill 0 false) ∧ u.myCore.acc = k.acc) ∧
    (r + rows ≤ 512 → r ≤ 511 →
      (tcShape tc = some f → f = .fp32 ∨ f = .fp64 → s.laneFree (.acld t a) ⟨tcs, s.xval a, 0, 0⟩ →
        k.tilePoisoned t.toNat rows (rowBytesOf cols f) = true → poisoned (.acld t a)) ∧
      (shapeOk rows cols f = true → cols ≤ classCols cls → s.laneFree (.acst t a f sat cls) ⟨tcs, s.xval a, 0, 0⟩ →
        k.accPoisoned cls r rows cols = true → poisoned (.acst t a f sat cls)) ∧
      (tcShape tc = some f → acaddFmt cls f = true → cols ≤ classCols cls → s.laneFree (.acadd t a cls) ⟨tcs, s.xval a, 0, 0⟩ →
        (k.tilePoisoned t.toNat rows (rowBytesOf cols f) || k.accPoisoned cls r rows cols) = true → poisoned (.acadd t a cls)) ∧
      (tcShape tc = some f → f = .fp32 ∨ f = .fp64 → s.laneFree (.acld t a) ⟨tcs, s.xval a, 0, 0⟩ →
        k.tilePoisoned t.toNat rows (rowBytesOf cols f) = false → completes (.acld t a) rows fun u => others u rows ∧
          u.myCore.ovf = k.ovf ∧ ∀ i < rows, ∀ j < 32, (u.myCore.accWord (r + i) j).toNat =
            if j < rowBytesOf cols f / 4 then k.tileElem t.toNat i j 32 else (k.accWord (r + i) j).toNat) ∧
      (shapeOk rows cols f = true → cols ≤ classCols cls → s.laneFree (.acst t a f sat cls) ⟨tcs, s.xval a, 0, 0⟩ →
        k.accPoisoned cls r rows cols = false → completes (.acst t a f sat cls) rows fun u => u.myCore.acc = k.acc ∧
          u.myCore.tray = k.tray ∧ u.myCore.ovf = k.ovf ∧
          (∀ i < rows, ∀ j < cols, u.myCore.tileElem t.toNat i j (fmtBits f) =
            convert f .rne sat 0 (accValue cls (k.accElem cls (r + i) j)) % 2 ^ fmtBits f) ∧
          ∀ y, ¬ (t.toNat * 4096 ≤ y ∧ y < t.toNat * 4096 + 128 * rows ∧ y % 128 < rowBytesOf cols f) →
            Memory.read u.myCore.tiles y = Memory.read k.tiles y) ∧
      (tcShape tc = some f → acaddFmt cls f = true → cols ≤ classCols cls → s.laneFree (.acadd t a cls) ⟨tcs, s.xval a, 0, 0⟩ →
        (k.tilePoisoned t.toNat rows (rowBytesOf cols f) || k.accPoisoned cls r rows cols) = false →
        let sum := fun (i j : Nat) => acaddElem cls (k.accElem cls (r + i) j) false (fmtValue f (k.tileElem t.toNat i j (fmtBits f)))
        completes (.acadd t a cls) rows fun u => others u rows ∧
          (u.myCore.ovf = true ↔ k.ovf = true ∨ ∃ i < rows, ∃ j < cols, (sum i j).2 = true) ∧
          ∀ i < rows, ∀ j < classCols cls, u.myCore.accElem cls (r + i) j =
            if j < cols then (sum i j).1 % low else k.accElem cls (r + i) j))

/-- MSTAT (R221): the fields stand at their places, and .CLR then clears OVF; in a deterministic task the resume record reads zero. -/
def Sys2Proof.Claim.MatrixStatus : Prop :=
  ∀ (s : State) (d : Reg) (clr : Bool), s.laneFree (.mstat d clr) ⟨s.mySight.tc, 0, 0, 0⟩ →
    let k := s.myCore
    ∃ u, exec (.mstat d clr) s = .next u ∧ u.me.out = .matrix false [] (k.laneStart (.mstat d clr) s.cycle + 1) ∧
      (∀ r, r ≠ d → u.seen.xval r = s.seen.xval r) ∧ u.mem = s.mem ∧ u.myCore.acc = k.acc ∧ u.myCore.resume = k.resume ∧
      u.myCore.ovf = (k.ovf && !clr) ∧
      (d ≠ 0 → ∀ w, u.xval d = w → w.getLsbD 0 = k.ovf ∧ w.getLsbD 16 = k.array.wv ∧ w.getLsbD 17 = k.array.wbad ∧
        w.getLsbD 23 = false ∧ w.extractLsb' 12 4 = 0 ∧ w.extractLsb' 5 3 = 0 ∧
        (k.array.rows ≤ 32 → k.array.cols ≤ 128 → w.extractLsb' 40 24 = 0 ∧
          w.extractLsb' 24 8 = BitVec.ofNat 8 k.array.rows ∧ w.extractLsb' 32 8 = BitVec.ofNat 8 k.array.cols ∧
          w.extractLsb' 18 5 = BitVec.ofNat 5 ((k.array.fmt.map Fmt.code).getD 0)) ∧
        w.getLsbD 1 = (k.resume.isSome && !s.me.sw.dm) ∧
        (k.resume = none ∨ s.me.sw.dm = true → w.extractLsb' 2 3 = 0 ∧ w.extractLsb' 8 4 = 0) ∧
        ∀ q, k.resume = some q → s.me.sw.dm = false → w.extractLsb' 2 3 = BitVec.ofNat 3 q.slot ∧ w.extractLsb' 8 4 = BitVec.ofNat 4 q.tiles)

/-- The accumulator operations change their rows element by element; MSTAT reads the status. -/
def Obligations.AccumulatorOperations : Prop := Sys2Proof.Claim.AccumulatorOperations ∧ Sys2Proof.Claim.MatrixStatus

/-- A matrix operation that an earlier one of the core holds back waits for its lane; one that names FP6 is handed to the control core
(R64, R168, R222). -/
def Sys2Proof.Claim.MatrixWaits : Prop :=
  ∀ (s : State) (t : TileNo) (a b d : Reg) (f : Fmt) (cls : AccClass) (fn : ActFn) (row : BitVec 9) (c : BitVec 5) (o : Bool),
    s.unmarked [a, b, d] →
    let tcs := s.mySight.tc
    let both : Latch := ⟨tcs, s.xval a, s.xval b, 0⟩
    let one : Latch := ⟨tcs, s.xval a, 0, 0⟩
    let none' : Latch := ⟨tcs, 0, 0, 0⟩
    ∀ x ∈ [(Instr.tld t a b o, both), (.tst t a b o, both), (.tzr t, none'), (.mwl t f, none'), (.mst t row c f, none'), (.acz a b, both),
        (.acld t a, one), (.acst t a f o cls, one), (.act d a b cls fn, ⟨tcs, s.xval a, s.xval b, s.xval d⟩), (.acadd t a cls, one),
        (.mstat d o, none')],
      let hold := fun (w : Wait) => s.entered.modMe fun t => { t with out := w }
      let blocked := s.entered.myCore.laneBlocked x.1 s.stamp
      (blocked = true → exec x.1 s = .next (hold (.lane x.1 x.2))) ∧
      (blocked = false → emulated x.1 x.2 s.entered.myCore = true → exec x.1 s = .next (hold (.emulate x.1 x.2 0)))

/-- MATRIX_OP_COMPLETE (R168, R169, R213): a slot comes back in the cycle its operation completes, not before; a stream at a tile
boundary completes, stops for a pre-emption with its place recorded, or streams its next tile. -/
def Sys2Proof.Claim.MatrixCompletion : Prop :=
  ∀ (s : State) (c : Nat) (n : Fin 8),
    let t := s.slotAt c n
    (∀ l ts due, t.out = .matrix l ts due → exec (.matrixOpComplete c n.val) s =
      .next (if s.cycle < due then s else s.modSlotAt c n fun t => { t with out := .none })) ∧
    ∀ d row q f l tile r due, t.out = .stream (.mst d row q f) l tile r due →
      (s.cycle < due → exec (.matrixOpComplete c n.val) s = .next s) ∧
      (due ≤ s.cycle → ∃ v : State, exec (.matrixOpComplete c n.val) s = .next (State.admitLane c 8 v) ∧ v.mem = s.mem ∧
        (q.toNat ≤ tile → (v.core c).resume = none ∧ (v.core c).acc = (s.core c).acc ∧
          v.slotAt c n = settled (loopStep { t with out := .none } (t.pc + 4) false)) ∧
        (tile < q.toNat → (s.focus c n).streamStop = true → (v.core c).acc = (s.core c).acc ∧
          (v.core c).resume = some { slot := n.val, pc := t.pc, fields := .mst d row q f, tiles := tile } ∧
          v.slotAt c n = { t with out := .none }) ∧
        (tile < q.toNat → (s.focus c n).streamStop = false → ∀ wf cls single depth most, (s.core c).array.fmt = some wf →
          matrixPair wf f = some (cls, single, depth, most) →
          let x := if f == .fp4s then d.toNat + 2 * tile else d.toNat + tile
          (s.core c).streamPoisoned l f cls x r = false →
          (v.core c).acc = ((s.core c).streamTile l wf f cls single x r).acc ∧
          v.slotAt c n = { t with out := .stream (.mst d row q f) l (tile + 1) (r + tcRows (l.tc x)) (due + tcRows (l.tc x)) }))

/-- FP6_EMULATION (R64, R222): a conversion that waits for the control core has its effect, and a matrix operation is performed as the
array would perform it once nothing holds it back; an operation that is not there changes nothing. That a conversion reads its key and
counter when it is performed is the model's reading, DEDUCED, log 87. -/
def Sys2Proof.Claim.Emulation : Prop :=
  ∀ (s : State) (c : Nat) (n : Fin 8),
    let here := fun (v : State) => v.focus s.curCore s.curSlot
    let slot := (s.focus c n).modMe fun t => { t with out := .none }
    ((∀ i l src, (s.slotAt c n).out ≠ .emulate i l src) → exec (.fp6Emulation c n.val) s = .next s) ∧
    (∀ d a b r sat f l src v, (s.slotAt c n).out = .emulate (.vcvt d a b r sat f) l src → run (cvtV 0 d src b r sat f) slot = .next v →
      exec (.fp6Emulation c n.val) s = .next (here v)) ∧
    ∀ i l src, (s.slotAt c n).out = .emulate i l src → isMatrix i = true →
      ((s.core c).laneBlocked i (s.slotAt c n).since = true → exec (.fp6Emulation c n.val) s = .next s) ∧
      ∀ v, (s.core c).laneBlocked i (s.slotAt c n).since = false → run (matrixPerform i l) slot = .next v →
        exec (.fp6Emulation c n.val) s = .next (State.admitLane c 8 (here v))

/-- FP6_EMULATION of a waiting VCVT completes in every state (R64, R142-R145): each field under its mask bit is the conversion of the source
that the issue read, one without is kept, the bits above the fields are 0, and the slot goes on behind the instruction; with rounding SR the
key and the counter of the slot are those of that moment. DEDUCED, log 87. -/
def Sys2Proof.Claim.EmulatedConversion : Prop :=
  ∀ (s : State) (c : Nat) (n : Fin 8) (d a : Reg) (b f : Fmt) (r : Rounding) (sat : Bool) (l : Latch) (src : Vec) (key : BitVec 128),
    (s.slotAt c n).out = .emulate (.vcvt d a b r sat f) l src →
    let slot := (s.focus c n).modMe fun t => { t with out := .none }
    (r = .sr → slot.srKey = some key) →
    let count := if f = .fp64 ∨ b = .fp64 then 8 else 16
    ∃ en v : Vec,
      exec (.fp6Emulation c n.val) s =
        .next (((if r = .sr then (slot.setVAt 0 d en v).modMe fun t => { t with sr := t.sr + 1 }
          else slot.setVAt 0 d en v).complete 4).focus s.curCore s.curSlot) ∧
      (∀ j < count, slot.me.p.getLsbD j = true →
        vecField en (fmtBits f * j) (fmtBits f) = 2 ^ fmtBits f - 1 ∧
        vecField v (fmtBits f * j) (fmtBits f) =
          convert f r sat
            (if r = .sr then (drawKey key (0x4000 ||| (slot.me.lane.setWidth 14).setWidth 16)
              (BitVec.ofNat 48 (16 * slot.me.sr.toNat + j))).toNat else 0)
            (fmtValue b (vecField src (fmtBits b * j) (fmtBits b))) % 2 ^ fmtBits f) ∧
      (∀ j < count, slot.me.p.getLsbD j = false → vecField en (fmtBits f * j) (fmtBits f) = 0) ∧
      ∀ i < 512, count * fmtBits f ≤ i → en.getLsbD i = true ∧ v.getLsbD i = false

/-- The lanes of the matrix sequencer: waiting, completion, tile boundaries and emulation. -/
def Obligations.MatrixSequencer : Prop :=
  Sys2Proof.Claim.MatrixWaits ∧ Sys2Proof.Claim.MatrixCompletion ∧ Sys2Proof.Claim.Emulation ∧ Sys2Proof.Claim.EmulatedConversion

/-- RREC (R244, R246, R292): a failed check before the release is all it does; after it the release `v` stands; a line already recorded
is PROT; no room, or a pin count at its limit, is RTFULL; else the record is entered. -/
def Sys2Proof.Claim.RecipeRecorded : Prop :=
  ∀ (s : State) (a b : Reg), s.unmarked [a, b] →
    let block := recipeBlock s.agent (s.xval a) (s.xval b) s
    (∀ st, block = .error st → exec (.rrec a b) s = stopped st s) ∧
    ∀ sps line w, block = .ok ((sps, line), w) →
      (∀ st, release w = .error st → exec (.rrec a b) s = stopped st s) ∧
      ∀ v, release w = .ok ((), v) →
        let parts := recipeParts s.agent (s.xval a) (s.xval b) sps line v
        (∀ st, parts = .error st → exec (.rrec a b) s = stopped st v) ∧
        ∀ r u, parts = .ok (r, u) →
          let q := u.myPart
          (∀ l ∈ r.lines, (q.recordOf l.2).isSome = true → (∀ k ∈ r.lines, (q.recordOf k.2).isSome = true → l.1 ≤ k.1) →
            r.lines.Pairwise (fun x y => x.1 < y.1) →
            exec (.rrec a b) s = .next (v.takeTrap .prot (BitVec.ofNat 64 (64 * l.1)) false)) ∧
          ((∀ l ∈ r.lines, q.recordOf l.2 = none) →
            (q.recipeCap ≤ q.recipes.length ∨ q.pinsFit r.pins = false →
              exec (.rrec a b) s = .next (v.takeTrap .rtfull r.words[1] false)) ∧
            (q.recipes.length < q.recipeCap → q.pinsFit r.pins = true →
              exec (.rrec a b) s = .next (u.addRecipe (s.xval b) r).served))

/-- RFIX, RDROP, RDEV, RDEV.V, RLAT and RQRY on the record their address names (R247-R250, R293-R295): with none they have no effect;
they wait for a development in progress; RFIX, RDEV and RDEV.V develop a latent tile. -/
def Sys2Proof.Claim.RecipeInstructions : Prop :=
  ∀ (s : State) (a d : Reg) (q : PredNo) (u : State),
    (∀ st, recordAt a s s = .error st → ∀ i ∈ [Instr.rfix a, .rdrop a, .rdev a, .rdevV a q, .rlat a], exec i s = stopped st s) ∧
    (recordAt a s s = .ok (none, u) →
      (∀ i ∈ [Instr.rfix a, .rdrop a, .rdev a, .rlat a], exec i s = .next u.served) ∧
      exec (.rdevV a q) s = .next (u.modMe fun t => { t with p := setPred t.p q false }).served) ∧
    (∀ home r, recordAt a s s = .ok (some (home, r), u) →
      (r.devs ≠ [] → ∀ i ∈ [Instr.rfix a, .rdrop a, .rdev a, .rdevV a q, .rlat a], exec i s = .next (s.hold (.develop r.id none))) ∧
      (r.devs = [] →
        exec (.rdrop a) s = .next ((r.lines.foldl (fun s l => s.zeroLatent l.2) u).dropRecord home r.id).served ∧
        exec (.rlat a) s = .next (r.lines.foldl (fun s l => s.makeLatent l.2) u).served ∧
        (u.tileLatent r = true →
          (∀ i ∈ [Instr.rfix a, .rdev a], exec i s = .next (s.keepSources.requestDevelopment r.id none none)) ∧
          exec (.rdevV a q) s = .next (u.requestDevelopment r.id none (some q))) ∧
        (u.tileLatent r = false →
          exec (.rfix a) s = .next (((r.lines.foldl (fun s l => s.fixLine l.2) u).sendWrites u u.agent none).dropRecord home r.id).served ∧
          exec (.rdev a) s = .next u.served ∧
          exec (.rdevV a q) s = .next (u.requestDevelopment r.id
            (some { core := s.curCore, slot := s.curSlot.val, q := q, differ := false }) (some q))))) ∧
    (s.unmarked [a] → (s.xval a).extractLsb' 60 4 = 0 → ∀ va ps pa own home dev cached,
      checkAccess s.agent (s.xval a) 1 false .load s = .ok (.mem va ps (.here pa own home dev cached), u) →
      let r := (u.part home).recordOf (lineOf pa)
      exec (.rqry d a) s = .next (u.setX d (rqryWord ((u.part home).pinCount (lineOf pa)) (u.recordState r) u.me.sw.dm)).served ∧
      (u.recordState r = match r with
        | none => 0
        | some r => if r.devs ≠ [] then 3 else if u.tileLatent r = true then 2 else 1)) ∧
    ∀ n k dm, k < 4 → (rqryWord n k dm).toNat = n % 256 * 256 + if dm = true ∧ 2 ≤ k then 1 else k

/-- A request for a development (R251, R253): a record no chain develops is given one, of the depth after the asker's, and its task
stands on top of the deque while there is room; the slot waits; the fifth level is not started. -/
def Sys2Proof.Claim.DevelopmentRequested : Prop :=
  ∀ (s : State) (r : Recipe) (v : Option Verify) (pq : Option PredNo),
    s.myPart.recipes.find? (·.id == r.id) = some r →
    (∀ d, s.me.kind = .dev d → 4 ≤ d.depth → (∀ x ∈ r.devs, x.root = d.root) →
      s.requestDevelopment r.id v pq = s.abandon d .devdepth r.block) ∧
    (r.devs = [] → (∀ d, s.me.kind = .dev d → d.depth < 4) → s.myCore.dequeRoom = true →
      let depth := match s.me.kind with
        | .dev d => d.depth + 1
        | .lane | .record => 1
      let t := s.requestDevelopment r.id v pq
      t.me.out = .develop r.id pq ∧ t.me.pc = s.me.pc ∧ t.mem = s.mem ∧
      ∃ k : TaskRec, t.myCore.deque = k :: s.myCore.deque ∧ k.pc = r.words[0] ∧ k.x[1] = r.block ∧ k.x[2] = BitVec.ofNat 64 depth ∧
        ∃ e : Dev, ∃ x ∈ t.myPart.recipes, x.id = r.id ∧ x.devs = [e] ∧ e.depth = depth ∧ e.verify = v ∧ e.written = [] ∧
          e.asker = .slot s.curCore s.curSlot.val)

/-- RREC completes (R244-R246, R292): the words of a block in an ordinary line are asked for at its home slice, and the slot leaves the rotation
until they are there (R181, R257), which is a part of its own by log 69; with the words there, where the block's fields are in range, its entry
lies on a page that can only be executed, the lines of its tile on pages that can be written in a recorded region and in no record yet, its
sources on pages that can be read, and the table and the pin counts have room, one record more stands in the table. -/
def Sys2Proof.Claim.RecordCompletes : Prop :=
  ∀ (s : State) (a b : Reg) (e : TlbEntry) (pa : Nat) (tile pins : Word → Nat), s.unmarked [a, b] → s.quiet →
    s.reaches (s.xval b) 64 .load e pa → (s.xval a).extractLsb' 60 4 = 0 →
    let word := fun (u : State) (i : Nat) => mapGet? u.me.fetched ((s.xval b).toNat + 8 * i)
    (s.plainLine pa → (∀ i < 8, word s i = none) →
      ∃ t ids, exec (.rrec a b) s = .next t ∧ t.me.pc = s.me.pc ∧ t.me.out = .reply ids ∧ t.myPart.recipes = s.myPart.recipes ∧
        ∀ i < 8, word t i = some (BitVec.ofNat 64 (Memory.readN s.mem (pa + 8 * i) 8))) ∧
    ∀ blk : Vector Word 8, (∀ i : Fin 8, word s i.val = some blk[i]) →
    blockOk blk (s.xval a) = true → (∃ x, s.translated blk[0] x ∧ execOnly x = true) →
    (∀ v ∈ tileLines blk, ∃ x, s.reaches v 64 .store x (64 * tile v) ∧ x.region.getLsbD 8 = true ∧ s.myPart.recordOf (tile v) = none) →
    (∀ v ∈ allSources blk, ∃ x, s.reaches v 64 .load x (64 * pins v)) →
    s.myPart.recipes.length < s.myPart.recipeCap → s.myPart.pinsFit (pa / 64 :: (allSources blk).map pins) = true →
    ∃ t r, exec (.rrec a b) s = .next t ∧ t.me.pc = (s.complete 4).me.pc ∧ t.myPart.recipes = s.myPart.recipes ++ [r] ∧ r.block = s.xval b ∧
      r.words = blk ∧ r.lines = (tileLines blk).map (fun v => (v.toNat / 64, tile v)) ∧ r.pins = pa / 64 :: (allSources blk).map pins ∧
      r.devs = [] ∧ ∀ v ∈ tileLines blk, t.myPart.recordOf (tile v) ≠ none

/-- RFIX, RDROP, RDEV, RDEV.V, RLAT and RQRY complete (R247-R250, R293-R295) through a pointer that reaches the partition's memory: on an address
without a record, and on a record that no chain is developing; RFIX and RDEV on a resident tile. -/
def Sys2Proof.Claim.RecipesComplete : Prop :=
  ∀ (s : State) (a d : Reg) (q : PredNo) (e : TlbEntry) (pa : Nat), s.unmarked [a] → s.reaches (s.xval a) 1 .load e pa →
    let rec? := s.myPart.recordOf (pa / 64)
    exec (.rqry d a) s = .next (s.setX d (rqryWord (s.myPart.pinCount (pa / 64)) (s.recordState rec?) s.me.sw.dm)).served ∧
    (s.reseeding s.agent = false →
    (rec? = none → (∀ i ∈ [Instr.rfix a, .rdrop a, .rdev a, .rlat a], exec i s = .next s.served) ∧
      exec (.rdevV a q) s = .next (s.modMe fun t => { t with p := setPred t.p q false }).served) ∧
    ∀ r, rec? = some r → r.devs = [] →
      exec (.rdrop a) s = .next ((r.lines.foldl (fun s l => s.zeroLatent l.2) s).dropRecord s.myPartNo r.id).served ∧
      exec (.rlat a) s = .next (r.lines.foldl (fun s l => s.makeLatent l.2) s).served ∧
      (s.tileLatent r = false → exec (.rdev a) s = .next s.served ∧
        exec (.rfix a) s = .next (((r.lines.foldl (fun s l => s.fixLine l.2) s).sendWrites s s.agent none).dropRecord s.myPartNo r.id).served ∧
        exec (.rdevV a q) s = .next (s.requestDevelopment r.id
          (some { core := s.curCore, slot := s.curSlot.val, q := q, differ := false }) (some q))))

/-- Recipe records are made, fixed, dropped, developed and made latent. -/
def Obligations.Recipes : Prop :=
  Sys2Proof.Claim.RecordCompletes ∧ Sys2Proof.Claim.RecipesComplete ∧ Sys2Proof.Claim.RecipeRecorded ∧ Sys2Proof.Claim.RecipeInstructions ∧ Sys2Proof.Claim.DevelopmentRequested

/-- The group barriers (R241-R243, R300, R301): a group the lane is not in is GROUP, a broken one CONTAINED; GARR waits for the lane's
last episode, releases, turns its sense and arrives; GWT waits for the phase, then acquires; GBAR does both; GQRY reads. Each sends its
request to the group's home slice. -/
def Sys2Proof.Claim.GroupBarriers : Prop :=
  ∀ (s : State) (g : BitVec 8) (d : Reg),
    let e := s.myPart.group g.toNat
    (groupSlot s.me.gm g.toNat = none →
      (∀ i ∈ [Instr.garr g, .gwt g, .gbar g], exec i s = .next (s.takeTrap .group (g.setWidth 64) false)) ∧
      (s.me.sw.dm = false → exec (.gqry d g) s = .next (s.takeTrap .group (g.setWidth 64) false))) ∧
    (s.me.sw.dm = true → exec (.gqry d g) s = .next (s.takeTrap .nondet 0 false)) ∧
    ∀ j, groupSlot s.me.gm g.toNat = some j →
      let done := e.phase = senseOf s.me.gm j
      let arrived := fun (u : State) => (u.modMe fun t => { t with gm := flipSense t.gm j }).arriveGroup u.myPartNo g.toNat
      let got := fun (u : State) => (u.modMyCore (·.acquire)).served
      (e.broken = true → ∀ i ∈ [Instr.garr g, .gwt g, .gbar g], exec i s = .next (s.takeTrap .contained (g.setWidth 64) false)) ∧
      (s.me.sw.dm = false → ∀ u, groupRequest g s = .ok ((), u) →
        exec (.gqry d g) s = .next (u.setX d (gqryWord e j (senseOf s.me.gm j))).served) ∧
      (e.broken = false →
        (¬ done → exec (.garr g) s = .next (s.hold (.barrier g.toNat)) ∧ exec (.gwt g) s = .next (s.leave (.barrier g.toNat)) ∧
          exec (.gbar g) s = .next (if s.me.arrived = true then s.leave (.barrier g.toNat) else s.hold (.barrier g.toNat))) ∧
        (done → ∀ u, groupRequest g s = .ok ((), u) →
          exec (.gwt g) s = .next (got u) ∧ (s.me.arrived = true → exec (.gbar g) s = .next (got u))) ∧
        (done → ∀ v u, release s = .ok ((), v) → groupRequest g v = .ok ((), u) → exec (.garr g) s = .next (arrived u).served ∧
          (s.me.arrived = false →
            let w := (arrived u).modMe fun t => { t with arrived := true }
            ((w.myPart.group g.toNat).phase ≠ senseOf w.me.gm j → exec (.gbar g) s = .next (w.leave (.barrier g.toNat))) ∧
            ∀ x, (w.myPart.group g.toNat).phase = senseOf w.me.gm j → groupRequest g w = .ok ((), x) →
              exec (.gbar g) s = .next (got x))))

/-- The group instructions complete (R242, R300, R301): for a lane in an unbroken group whose last episode is over, with no store
unacknowledged and no reseed of its owner under way, GARR arrives, GWT completes, GBAR completes as the last arrival or after it, and
GQRY reads. -/
def Sys2Proof.Claim.GroupsComplete : Prop :=
  ∀ (s : State) (g : BitVec 8) (d : Reg) (j : Nat), groupSlot s.me.gm g.toNat = some j → s.quiet → s.reseeding s.agent = false →
    let e := s.myPart.group g.toNat
    let last : Group := { e with count := 0, phase := !e.phase }
    let ends := fun (i : Instr) (gm : Word) (x : Group) => ∃ t, exec i s = .next t ∧ t.me.pc = (s.complete 4).me.pc ∧ t.me.gm = gm ∧
      t.myPart.group g.toNat = x ∧ t.me.arrived = false ∧ ∃ ids, t.me.out = .reply ids
    (s.me.sw.dm = false → ends (.gqry d g) s.me.gm e) ∧
    (e.broken = false → e.phase = senseOf s.me.gm j →
      ends (.gwt g) s.me.gm e ∧ (s.me.arrived = true → ends (.gbar g) s.me.gm e) ∧
      ends (.garr g) (flipSense s.me.gm j) (if e.count + 1 = e.n then last else { e with count := e.count + 1 }) ∧
      (s.me.arrived = false → e.count + 1 = e.n → j < 4 → ends (.gbar g) (flipSense s.me.gm j) last))

/-- An arrival (R242): the last of an episode sets the count to 0, turns the phase over and lets the partition's waiters execute;
another adds one to the count. -/
def Sys2Proof.Claim.GroupArrival : Prop :=
  ∀ (s : State) (p g : Nat),
    let e := (s.part p).group g
    let t := s.arriveGroup p g
    (e.count + 1 = e.n → (t.part p).group g = { e with count := 0, phase := !e.phase } ∧
      ∀ c k, (s.core c).bound.map (·.part) = some p → (s.slotAt c k).out = .barrier g → (t.slotAt c k).out = .none) ∧
    (e.count + 1 ≠ e.n → (t.part p).group g = { e with count := e.count + 1 } ∧ t.cores = s.cores) ∧
    (∀ h, h ≠ g → (t.part p).group h = (s.part p).group h) ∧ t.mem = s.mem

/-- Group barriers: arrival, waiting, the phase and broken groups. -/
def Obligations.GroupBarriers : Prop := Sys2Proof.Claim.GroupBarriers ∧ Sys2Proof.Claim.GroupsComplete ∧ Sys2Proof.Claim.GroupArrival

/-- The owner streams (R239, R240, R296-R299): SEEDRD reads half of the seed; RESEED waits for the owner's earlier RESEEDs and its
developments, then sets the seed, clears counters and counts and removes the owner's lines from the partition's slices; XOBS reads a count; XQRY gives certainty or the stated bound, with its
cycles. What makes a live form, its NONDET before the class and a pair without a law, and the live count are the model's readings, DEDUCED, log
40. -/
def Sys2Proof.Claim.OwnerStreams : Prop :=
  ∀ (s : State) (d a b : Reg), s.unmarked [a, b] →
    let x := s.xval a
    let y := s.xval b
    let w := s.myPart.owner s.myOwner
    let st := (x.extractLsb' 0 4).toNat
    (s.me.sw.dm = true → ∀ i ∈ [Instr.seedrd d a, .xobs d a], exec i s = .next (s.takeTrap .nondet 0 false)) ∧
    (s.me.sw.dm = false →
      exec (.seedrd d a) s = .next (s.setX d (if x.getLsbD 0 then w.seed.extractLsb' 64 64 else w.seed.extractLsb' 0 64)).served ∧
      exec (.xobs d a) s = .next (s.setX d (if lawStructures.contains st = true
        then mapGet w.xobs (xobsKey st (x.extractLsb' 4 3).toNat) 0 else 0)).served) ∧
    (s.askReseed.reseedNext = false → exec (.reseed a b) s = .next (s.askReseed.hold .reseed)) ∧
    (s.askReseed.reseedNext = true →
      (∀ r, s.myPart.ownerDeveloping s.myOwner = some r → exec (.reseed a b) s = .next (s.askReseed.hold (.develop r.id none))) ∧
      (s.myPart.ownerDeveloping s.myOwner = none → ∃ t, exec (.reseed a b) s = .next t ∧
        t.myPart.owner s.myOwner = { seed := y ++ x, ctr := [], xobs := [] } ∧ t.me.pc = (s.complete 4).me.pc ∧
        (s.myOwner, s.curCore, s.curSlot.val) ∉ t.myPart.reseeds ∧
        (risesFrom 0 s.l2 = true → (∀ x ∈ t.l2, x.2.owner = s.myOwner → x.2.slice / 4 ∉ s.myPart.clusters) ∧
          ∀ l x, mapGet? s.l2 l = some x → x.owner ≠ s.myOwner → (mapGet? t.l2 l).isSome = true) ∧
        (∀ o, o ≠ s.myOwner → t.myPart.owner o = s.myPart.owner o) ∧ ∀ r, t.seen.xval r = s.seen.xval r)) ∧
    let pairs := (lawPairs x y).1
    let lawless := (lawPairs x y).2
    let l := lawList pairs (s.liveCount s.myPartNo)
    let k := min (y.extractLsb' 0 16).toNat 4095
    let spent := fun (v : Word) (n : Nat) => ((s.setX d v).complete 4).leave (.cycles (s.cycle + n))
    (s.me.sw.dm = true → liveForm x = true → exec (.xqry d a b) s = .next (s.takeTrap .nondet 0 false)) ∧
    (s.me.sw.dm = false ∨ liveForm x = false →
      (s.classOf s.curCore ≠ 0 ∨ lawless = true → exec (.xqry d a b) s = .next (spent 0xFFFFFFFF 16)) ∧
      (s.classOf s.curCore = 0 → lawless = false → exec (.xqry d a b) s =
        .next (spent (if k = 0 then 0xFFFFFFFF else BitVec.ofNat 64 (exceedance l k)) (16 + k * l.length))))

/-- TLBI and RAFW (R229, R302, R303): PRIV outside S mode; TLBI drops the range's translations in every cluster of the partition; RAFW
refuses a value that is never installed, and a change under recorded or pinned lines, else installs the entry. Both leave the rotation
until the accesses that translated in the range have completed. -/
def Sys2Proof.Claim.TranslationControl : Prop :=
  ∀ (s : State) (a b : Reg),
    (s.me.sw.s = false → ∀ i ∈ [Instr.tlbi a b, .rafw a b], exec i s = .next (s.takeTrap .priv 0 false)) ∧
    (s.me.sw.s = true → s.unmarked [a, b] →
      let x := s.xval a
      let v := s.xval b
      let i : Fin 16 := ⟨(x.extractLsb' 0 4).toNat, by omega⟩
      let q := s.myPart
      let r : VaRange := if v.extractLsb' 0 2 = 0 then q.pageRange x else
        if v.extractLsb' 0 2 = 1 then regionRange (x.extractLsb' 56 4).toNat else ⟨0, 2 ^ 60⟩
      let awaits := fun (u : State) (r : VaRange) =>
        let v := u.complete 4
        Host.Outcome.next (σ := State) (φ := Fault) (ρ := Refusal)
          ({ v with sent := [] }.leave (.reply (v.sent ++ v.underway v.myPartNo r)))
      exec (.tlbi a b) s = awaits (s.purgeRange s.myPartNo r) r ∧
      (regionRefused v = true → exec (.rafw a b) s = .next (s.takeTrap .noncanon (BitVec.ofNat 64 i.val) false)) ∧
      (regionRefused v = false → (regionMoves q.raf[i] v && q.keeps (regionRange i.val)) = true →
        exec (.rafw a b) s = .next (s.takeTrap .prot (BitVec.ofNat 64 i.val) false)) ∧
      (regionRefused v = false → (regionMoves q.raf[i] v && q.keeps (regionRange i.val)) = false →
        exec (.rafw a b) s = awaits (s.setRegion s.myPartNo i v) (regionRange i.val) ∧ (s.setRegion s.myPartNo i v).myPart.raf[i] = v)) ∧
    (∀ (p : Nat) (r : VaRange) (k : Packet), k ∈ s.packets → k.part = p → k.load.translated = true → r.has (k.ptr.toNat % 2 ^ 60) = true →
      k.id ∈ s.underway p r) ∧
    ∀ (p : Nat) (r : VaRange) (c va : Nat), c ∈ (s.part p).clusters → r.has va = true →
      ∀ e ∈ ((s.purgeRange p r).clusterAt c).tlb, e.1 ≠ va

/-- Owner streams and translation control. -/
def Obligations.StreamsAndTranslation : Prop := Sys2Proof.Claim.OwnerStreams ∧ Sys2Proof.Claim.TranslationControl

/-- What a request meets at a core (R160, R330, R353, R354): a fenced core answers CONTAINED before all else; the core that holds the
position serves it; one that it has left passes it on; any other answers PROT. -/
def Sys2Proof.Claim.ArrivalChecks : Prop :=
  ∀ (s : State) (p : Packet),
    let k := s.core p.target
    let pos := p.position.getD 0
    let holds := k.disabled = false ∧ k.bound.map (·.part) = some p.part ∧ k.position = some pos
    (k.fenced = true → s.arrival p = .refuse .contained) ∧
    (k.fenced = false → holds → s.arrival p = .serve p.target) ∧
    (k.fenced = false → ¬ holds → (p.target, pos) ∈ (s.part p.part).forward → s.arrival p = .forward pos) ∧
    (k.fenced = false → ¬ holds → (p.target, pos) ∉ (s.part p.part).forward → s.arrival p = .refuse .prot)

/-- Requests at a core (R156, R160, R288, R312, R313, R353, R354): a request that an earlier one of its sender stands before waits; a
tray operation is served and answered with the bytes, or MCE for a poisoned word, a FESET one frame row at a time; a full/empty operation is performed, parked or NACKed; a request for a moved context is passed on, one for a context at rest is
answered with a retry NACK, which comes back to the sender's port and has the request repeated after 32 cycles. That a poisoned full/empty write is answered MCE without effect is the model's reading, DEDUCED, log
85. -/
def Sys2Proof.Claim.RemoteRequests : Prop :=
  ∀ (s : State) (id : Nat) (p : Packet), s.packet? id = some p → p.id = id →
    (s.firstInLine p = false → exec (.remotePortAccess id) s = .next s ∧ exec (.remoteFeRequest id) s = .next s) ∧
    (∀ op, p.load = .tray op → op.isFe = false → p.place = .port → s.firstInLine p = true →
      (∀ c, s.arrival p = .serve c → s.restOfRows c p op = none →
        exec (.remotePortAccess id) s = .next ((s.serveTray c p op).1.answerAt c id (s.serveTray c p op).2)) ∧
      (∀ c u, s.arrival p = .serve c → s.restOfRows c p op = some u → exec (.remotePortAccess id) s = .next u) ∧
      (∀ x, s.arrival p = .refuse x → exec (.remotePortAccess id) s = .next (s.answerAt p.target id (.trap x)))) ∧
    (∀ op off b d, p.load = .tray (.fe op off b d) → p.place = .port → s.firstInLine p = true →
      (∀ x, s.arrival p = .refuse x → exec (.remoteFeRequest id) s = .next (s.answerAt p.target id (.trap x))) ∧
      ∀ c, s.arrival p = .serve c →
        let k := s.core c
        let w := off / 4
        let bad := k.fePoisoned op w || (p.poisoned && !op.wants)
        (k.isFull w = op.wants → bad = true → exec (.remoteFeRequest id) s = .next (s.answerAt c id (.trap .mce))) ∧
        (k.isFull w = op.wants → bad = false → ∃ u, exec (.remoteFeRequest id) s =
            .next (if op = .ldff then u else u.feWake c w) ∧
          u = (s.modCore c fun q => q.feDo op w b).answerAt c id (if op.wants then .data (bytesOf (s.feValue c w).toNat 4) else .ok)) ∧
        (k.isFull w ≠ op.wants → k.park.length < Config.parkEntries → ∃ u, exec (.remoteFeRequest id) s = .next u ∧
          (u.core c).park = k.park ++ [id] ∧ (u.core c).tray = k.tray ∧ (u.core c).fe = k.fe ∧
          ∃ q, u.packet? id = some q ∧ q = { p with place := .parked, since := s.stamp }) ∧
        (k.isFull w ≠ op.wants → Config.parkEntries ≤ k.park.length → exec (.remoteFeRequest id) s = .next (s.answerAt c id .nack))) ∧
    (∀ pos, s.arrival p = .forward pos → p.place = .port → p.unit = 0 →
      (mapGet? (s.part p.part).contexts pos ≠ none → exec (.contextRetryNack id) s = .next (s.answerAt p.target id .retry)) ∧
      (s.firstInLine p = true →
        (∀ q ∈ s.packets, ¬ (q.place = .port ∧ q.target = p.target ∧ q.position = p.position ∧ q.since < p.since)) →
        mapGet? (s.part p.part).contexts pos = none → ∀ c, s.coreOfPos p.part pos = some c → ∃ u, exec (.forwardedRequest id) s = .next u ∧
          u.cores = s.cores ∧ ∃ q, u.packet? id = some q ∧
            q = { p with dx := coreX c, dy := coreY c, place := .enter 0 (routerOf p.target) .core, since := s.stamp, esc := p.startEsc
                         vacated := some (p.vacated.getD p.target) })) ∧
    (p.answer = some .retry → (s.core p.core).fenced = false →
      (p.orphan = true → s.responseHome p = s.dropPacket id) ∧
      (p.orphan = false → ∃ q, (s.responseHome p).packet? id = some q ∧ q = { p with place := .nacked, answer := none, since := s.stamp })) ∧
    (p.place = .nacked →
      (s.cycle < stampCycle p.since + 32 → exec (.contextRetryNack id) s = .next s) ∧
      (stampCycle p.since + 32 ≤ s.cycle → ∃ u, exec (.contextRetryNack id) s = .next u ∧ u.cores = s.cores ∧
        ∃ q, u.packet? id = some q ∧ q.place = .enter 0 (routerOf p.core) .core ∧ q.since = s.stamp ∧ q.load = p.load ∧
          q.esc = p.startEsc ∧ q.retried = true ∧ ∀ pos c, p.position = some pos → s.coreOfPos p.part pos = some c → q.dx = coreX c ∧ q.dy = coreY c))

/-- MEMORY_REPLY, REMOTE_STORE_ACK and FE_NACK_RETRY (R86, R87, R156, R181, R182): a slot goes on when all it waits for is answered and back, and
what its instruction has written to the shared bank may land; a poisoned reply of a home slice is an exact MCE instead, with the slot as it
was before the instruction (R180); a store's refusal is recorded in its slot, the first since the last report; a NACKed operation is sent again after 32 cycles, and the
1,024th NACK is FERETRY. -/
def Sys2Proof.Claim.RepliesTaken : Prop :=
  ∀ (s : State) (c : Nat) (n : Fin 8),
    let t := s.slotAt c n
    let here := fun (u : State) => u.focus s.curCore s.curSlot
    let back := fun (u : State) => (u.focus c n).modMe fun t => { t with out := .none }
    let done := (s.focus c n).replyDone
    (∀ ids, t.out = .reply ids → exec (.memoryReply c n.val none) s =
      .next (if (ids.filterMap s.packet?).isEmpty then here done else s)) ∧
    (done.slotAt c n = { t with out := .none } ∧ done.mem = s.mem ∧ ∀ l ∈ (done.core c).late, l.slot = n.val → l.held = false) ∧
    (∀ ids p old, t.out = .reply ids → p.id ∈ ids → p.core = c → p.slot = n.val → mapGet? (s.core c).undo n.val = some old →
      s.consumePoison p = here (((s.undoReply c n).focus c n).takeTrap .mce p.ptr true) ∧
      let u := (s.undoReply c n).slotAt c n
      u.pc = old.pc ∧ u.x = old.x ∧ u.v = old.v ∧ u.p = old.p ∧ u.sw = old.sw ∧ u.lc = old.lc ∧ u.marks = old.marks ∧ u.out = .none ∧
      ∀ l ∈ ((s.undoReply c n).core c).late, l.slot = n.val → l.held = false) ∧
    (∀ id p d bs, t.out = .remote [id] → s.packet? id = some p → p.place = .done → p.poisoned = false → p.answer = some (.data bs) →
      p.sinkOf = .x d → exec (.memoryReply c n.val none) s =
        .next (here (((back (s.dropPacket id)).setX d (BitVec.ofNat 64 (numberOf bs))).complete 4))) ∧
    (∀ id p x, t.out = .remote [id] → s.packet? id = some p → p.place = .done → p.answer = some (.trap x) →
      exec (.memoryReply c n.val none) s = .next (here ((back (s.dropPacket id)).takeTrap x p.ptr (x == .mce || x == .fabric)))) ∧
    (∀ ids, t.out = .remote ids → (∃ id ∈ ids, ∃ p, s.packet? id = some p ∧ (p.answer = none ∨ p.place ≠ .done)) →
      exec (.memoryReply c n.val none) s = .next s) ∧
    (∀ id p, s.packet? id = some p → p.isStore = true → p.place = .done →
      (p.answer = none → exec (.remoteStoreAck id none) s = .next s) ∧
      (p.answer.isSome = true → exec (.remoteStoreAck id none) s = .next (s.storeAnswered p)) ∧
      (p.answer.isSome = true → p.core = c → p.slot = n.val → ((s.storeAnswered p).slotAt c n).nack = match p.cause with
        | some x => some (t.nack.getD { cause := x, addr := p.causeAt })
        | none => t.nack)) ∧
    ∀ id due p, t.out = .feNacked id due → s.packet? id = some p →
      (Config.feNackLimit ≤ p.nacks → exec (.feNackRetry c n.val) s =
        .next (here ((back ((s.requestDone p).dropPacket id)).takeTrap .feretry p.ptr false))) ∧
      (p.nacks < Config.feNackLimit → s.cycle < due → exec (.feNackRetry c n.val) s = .next s) ∧
      (p.nacks < Config.feNackLimit → due ≤ s.cycle → ∃ u, exec (.feNackRetry c n.val) s = .next u ∧
        u.slotAt c n = { t with out := .remote [id] } ∧
        let dest := (s.coreFor c p.part (p.ptr.extractLsb' 40 10).toNat).getD p.target
        ∃ q, u.packet? id = some q ∧ q = { p with
          place := .enter 0 (routerOf c) .core, dx := coreX dest, dy := coreY dest, since := s.stamp, answer := none, esc := false
          vacated := none })

/-- Requests that reach a core, and replies that reach a slot. -/
def Obligations.RemoteRequests : Prop := Sys2Proof.Claim.ArrivalChecks ∧ Sys2Proof.Claim.RemoteRequests ∧ Sys2Proof.Claim.RepliesTaken

/-- One decision (R318-R322): only the highest class present competes; of one owner it takes the oldest request and draws nothing; two
owners draw a ticket each on the structure, the higher wins and the other's oldest request has lost one more round. -/
def Sys2Proof.Claim.ArbitrationLaw : Prop :=
  ∀ (s : State) (st inst index : Nat) (ps : List Packet),
    let top := topClass ps
    (∀ p ∈ top, ∀ q ∈ ps, p.cls.toNat ≤ q.cls.toNat) ∧
    (∀ p ∈ ps, (∀ q ∈ ps, p.cls.toNat ≤ q.cls.toNat) → p.cls.toNat ≤ 3 → p ∈ top) ∧
    (ps = [] → s.arbitrate st inst index ps = (none, s)) ∧
    (∀ p rest, top = p :: rest → (∀ q ∈ rest, q.identity = p.identity) → (s.arbitrate st inst index ps).1 = some p ∧
      (s.arbitrate st inst index ps).2.parts = s.parts) ∧
    ∀ p q, top = [p, q] → p.identity ≠ q.identity → p.origin = none → q.origin = none →
      let a := s.draw p.part p.owner st inst index
      let b := a.2.draw q.part q.owner st inst index
      (a.1.toNat < b.1.toNat → ∃ u, s.arbitrate st inst index ps = (some q, u) ∧ u.parts = b.2.parts ∧
        ∀ x ∈ s.packets, (if x.id = p.id then x.lose st else x) ∈ u.packets) ∧
      (b.1.toNat < a.1.toNat → ∃ u, s.arbitrate st inst index ps = (some p, u) ∧ u.parts = b.2.parts ∧
        ∀ x ∈ s.packets, (if x.id = q.id then x.lose st else x) ∈ u.packets)

/-- A draw (R239, R318): it is a function of the owner's seed, the structure and its counter, and steps that counter alone. -/
def Sys2Proof.Claim.DrawStepsCounter : Prop :=
  ∀ (s : State) (p o st inst index : Nat),
    let w := (s.part p).owner o
    let c := mapGet w.ctr (ctrKey st inst) 0
    let t := (s.draw p o st inst index).2
    (s.draw p o st inst index).1 = drawKey w.seed (BitVec.ofNat 16 st) (drawInput st index c) ∧
    mapGet ((t.part p).owner o).ctr (ctrKey st inst) 0 = (c + 1) % 2 ^ ctrBits st ∧
    (∀ k, k ≠ ctrKey st inst → mapGet ((t.part p).owner o).ctr k 0 = mapGet w.ctr k 0) ∧
    ((t.part p).owner o).seed = w.seed ∧ (∀ x, x ≠ o → (t.part p).owner x = (s.part p).owner x) ∧ t.mem = s.mem ∧ t.cores = s.cores ∧
    t.packets = s.packets ∧
    (drawKey w.seed (BitVec.ofNat 16 st) (drawInput st index c)) =
      (permute w.seed (BitVec.ofNat 16 st ++ drawInput st index c)).extractLsb' 0 32

/-- Mesh and vault steps (R234, R309-R315, R319, R320): an output of a router, a slice and a vault bank each make at most one decision in
a cycle, a router's outputs in their order, among what waits there in its order of arrival, by the arbitration law, and the winner alone
moves; a bank that is busy or being refreshed does nothing; a bank is busy for 4 cycles after an access, and refreshed once in a window;
a replay changes no program's state. -/
def Sys2Proof.Claim.MeshSteps : Prop :=
  ∀ (s : State) (router net v b n e w : Nat) (out : MeshPort),
    let inst := 2 * router + net
    let here := s.packets.filterMap fun p =>
      match p.at? net with
      | some (m, e) => if m = router ∧ (s.moveOf net p m e).out = some out ∧ s.behindOlder net p = false then some p else none
      | none => none
    let atBank := byArrival (fun p => p.sliceOf % 4) (s.packets.filter fun p => p.place == .bank v b)
    let atSlice := byArrival (Packet.sliceInput n) (s.packets.filter fun p => p.place == .slice n && s.sliceReady p)
    (here = [] ∨ s.mayDecide 5 inst (portOrder out) = false → exec (.routerPacketForward router net out) s = .next s) ∧
    (∀ p u q m e, s.mayDecide 5 inst (portOrder out) = true →
      s.arbitrate 5 inst inst (byArrival (Packet.inputOrder net) here) = (some p, u) → u.packet? p.id = some q → p.at? net = some (m, e) →
      exec (.routerPacketForward router net out) s = .next ((u.noteDecision 5 inst (portOrder out)).take net q m (s.moveOf net p m e))) ∧
    ((s.bank v b).free s.cycle = false ∨ s.mayDecide 6 v b = false → exec (.vaultBankAccess v b) s = .next s) ∧
    ((s.bank v b).free s.cycle = true → s.mayDecide 6 v b = true → ∀ p u, s.arbitrate 6 v 0 atBank = (some p, u) →
      ∃ t, exec (.vaultBankAccess v b) s = .next t ∧ (t.bank v b).ready = s.cycle + 4 ∧ (t.bank v b).refreshed = (u.bank v b).refreshed ∧
        t.mem = s.mem ∧ (p.load.isWriteBack = false → t.cores = s.cores) ∧ t.mayDecide 6 v b = false) ∧
    (atSlice = [] ∨ s.mayDecide 4 n 0 = false → exec (.l2SliceRequest n) s = .next s) ∧
    (∀ p u line vault, s.mayDecide 4 n 0 = true → s.arbitrate 4 n 0 atSlice = (some p, u) → p.load = .home line vault →
      exec (.l2SliceRequest n) s = .next (((u.noteDecision 4 n 0).poisonedRequest p).leaveSlice p n line vault)) ∧
    (∀ st i o, (s.noteDecision st i o).mayDecide st i o = false ∧ ∀ x, o < x → (s.noteDecision st i o).mayDecide st i x = true) ∧
    (∀ cycles, 113 < cycles → exec (.vaultRefresh v b cycles) s = .next s) ∧
    (∀ cycles, cycles ≤ 113 → (s.bank v b).free s.cycle = true →
      (∀ t m, (s.bank v b).refreshed = some (t, m) → t / 3666 < s.cycle / 3666) →
      exec (.vaultRefresh v b cycles) s = .next (s.setBank v b { s.bank v b with refreshed := some (s.cycle, cycles) })) ∧
    exec (.bridgeFlitReplay e w) s =
      .next { s with replays := mapSet s.replays (bridgeNo e w) (mapGet s.replays (bridgeNo e w) 0 + 1) }

/-- A decision with one packet to serve, which draws nothing (R319): the packet moves on at its router, its slice and its bank. -/
def Sys2Proof.Claim.MeshCompletes : Prop :=
  ∀ (s : State) (p : Packet), s.packets = [p] →
    (∀ router net entry out, p.at? net = some (router, entry) → (s.moveOf net p router entry).out = some out →
      s.mayDecide 5 (2 * router + net) (portOrder out) = true →
      ∃ t, exec (.routerPacketForward router net out) s = .next t ∧ t.mem = s.mem ∧
        ∀ h esc, s.moveOf net p router entry = .hop h esc → ∃ q, t.packets = [q] ∧ q.at? net = some (h.next, h.entry) ∧ q.esc = esc ∧
          q.load = p.load ∧ q.lost = p.lost) ∧
    (∀ n line vault, p.place = .slice n → p.load = .home line vault → p.origin = none → s.mayDecide 4 n 0 = true →
      ∃ t q, exec (.l2SliceRequest n) s = .next t ∧ t.packets = [q] ∧ t.mem = s.mem ∧
        (vault = false → q.place = .enter 1 (routerOf (sliceCore (n / 4) (n % 4))) .slice) ∧
        (vault = true → line / 2 ^ 25 = n / 4 → q.place = .bank (n / 4) (line / 64 % 64))) ∧
    ∀ v b, p.place = .bank v b → p.via = none → p.origin = none → (s.bank v b).free s.cycle = true → s.mayDecide 6 v b = true →
      ∃ t, exec (.vaultBankAccess v b) s = .next t ∧ (t.bank v b).ready = s.cycle + 4 ∧ t.mem = s.mem ∧
        (p.load.isWriteBack = true → t.packets = []) ∧
        (p.load.isWriteBack = false → ∃ q, t.packets = [q] ∧ q.load = p.load ∧ q.place = .enter 1 (routerOf (sliceCore (p.sliceOf / 4) (p.sliceOf % 4))) .slice)

/-- A scrub visit (R249, R315, R326, R327): it uses cycles that the structure has free, and that of a vault line is an access of its bank, which
is busy for 4 cycles; a corrected error of a line is counted for its
partition; an uncorrectable one makes a line of a recorded tile latent, unless words of it are registered, and poisons any other line; the
loss of the vault copy of a line that the L2 holds is only noted, which is the model's reading, DEDUCED, log 51. -/
def Sys2Proof.Claim.ScrubVisits : Prop :=
  ∀ (s : State) (line : Nat),
    let u := { s with scrubbed := s.scrubbed + 1 }
    (∀ side f, s.scrubFree side line = false → exec (.scrubVisit side line f) s = .next s) ∧
    let b := u.scrubBank true line
    ((b.bank (line / 2 ^ 25) (line / 64 % 64)).ready = s.cycle + 4 ∧ b.mem = s.mem ∧ b.l2 = s.l2 ∧ b.cores = s.cores) ∧
    (s.scrubFree true line = true →
      exec (.scrubVisit true line .clean) s = .next b ∧ exec (.scrubVisit true line .corrected) s = .next (b.countCorrected line 1) ∧
      exec (.scrubVisit true line .uncorrectable) s = .next (if (mapGet? s.l2 line).isSome = true
        then { b with vaultBad := setAdd s.vaultBad line } else b.lineError line true)) ∧
    (s.scrubFree false line = true →
      (mapGet? s.l2 line = none → ∀ f, exec (.scrubVisit false line f) s = .next u) ∧
      ((mapGet? s.l2 line).isSome = true → exec (.scrubVisit false line .clean) s = .next u ∧
        exec (.scrubVisit false line .corrected) s = .next (u.countCorrected line 0) ∧
        exec (.scrubVisit false line .uncorrectable) s = .next (u.lineError line false))) ∧
    ∀ side, (∀ p, s.partOfPa (64 * line) = some p → (s.part p).recordOf line = none) →
      (s.lineError line side).latent = s.latent ∧ ∀ w < 16, 16 * line + w ∈ (s.lineError line side).memBad

/-- The law of arbitration and its draws, and the mesh and vault steps that follow it. -/
def Obligations.Arbitration : Prop :=
  Sys2Proof.Claim.ArbitrationLaw ∧ Sys2Proof.Claim.DrawStepsCounter ∧ Sys2Proof.Claim.MeshSteps ∧ Sys2Proof.Claim.MeshCompletes ∧
    Sys2Proof.Claim.ScrubVisits

/-- The fetch and the placement of a launch (R336, R378, R422): a record refused by its first check ends with that status and binds
nothing; else it waits; a waiting launch in a free, fitting place whose second checks pass runs. -/
def Sys2Proof.Claim.LaunchFetchedAndPlaced : Prop :=
  ∀ (s : State) (q : Nat) (h : HwQueue), s.queue? q = some h → h.subHead ≠ h.subTail → h.vf ≠ 0 →
    let p := h.vf - 1
    let w := (List.range 32).map fun i => BitVec.ofNat 64 (Memory.readN s.hostMem (h.subBase + 256 * h.subHead + 8 * i) 8)
    let n := (s.part p).nextLaunch
    ∃ t, exec (.launchRecordFetch q) s = .next t ∧ (t.part p).nextLaunch = nextToken n ∧ t.hostMem = s.hostMem ∧ t.cores = s.cores ∧
      (∃ g, t.queue? q = some g ∧ g.subHead = (h.subHead + 1) % max h.subSize 1 ∧
        (s.firstStage (s.part p) h.die w = none → g.pending = h.pending) ∧
        ∀ st, s.firstStage (s.part p) h.die w = some st → ∃ e, g.pending = h.pending ++ [e] ∧ e.status = st ∧ e.launch = n ∧ e.type = 1 ∧
          e.tag = w.getD 9 0) ∧
      ∃ l, mapGet? (t.part p).launches n.toNat = some l ∧ l.words = w ∧ l.owner = h.owner ∧ l.queue = q ∧
        (s.firstStage (s.part p) h.die w = none → l.stage = .waiting) ∧ (s.firstStage (s.part p) h.die w ≠ none → l.stage = .complete)

/-- The first checks of a launch record, in their order (R422). -/
def Sys2Proof.Claim.FirstChecks : Prop :=
  ∀ (s : State) (q : Partition) (die : Nat) (w : List Word),
    (badRecord w = true → s.firstStage q die w = some statusBadRec) ∧
    (badRecord w = false → (w.getD 4 0).getLsbD 8 = true → (w.getD 4 0).getLsbD 9 = true → s.firstStage q die w = some statusDetQfed) ∧
    (badRecord w = false → (w.getD 4 0).getLsbD 8 = true → (w.getD 4 0).getLsbD 9 = false → (w.getD 4 0).getLsbD 10 = true →
      ((w.getD 4 0).extractLsb' 16 5).toNat ≤ 9 → s.firstStage q die w = some statusDetKsplit) ∧
    ((w.getD 4 0).extractLsb' 0 2 = 3 ∨ (w.getD 3 0).extractLsb' 5 3 ≠ 0 ∨ (w.getD 6 0).extractLsb' 36 28 ≠ 0 → badRecord w = true) ∧
    (badRecord w = false → (w.getD 4 0).getLsbD 8 = false →
      s.firstStage q die w = if s.shapeFits q die w = true then none else some statusShape)

/-- LANE_START (R79, R80, R334): the slot of a valid record starts at its entry with the lane's numbers in x1 to x3 and everything else
at its start value, on a core that has its binding and that no resize holds (R356); in any other case nothing happens. -/
def Sys2Proof.Claim.LaneStarts : Prop :=
  ∀ (s : State) (c : Nat) (n : Fin 8),
    let k := s.core c
    let b := k.binds[n]
    let bound := k.bound = some { part := b.part, owner := b.owner, launch := b.launch, cls := b.cls }
    (b.v = false ∨ (s.slotAt c n).life ≠ .unbound ∨ ¬ bound ∨ s.resting k = true → exec (.laneStart c n.val) s = .next s) ∧
    (b.v = true → (s.slotAt c n).life = .unbound → bound → s.resting k = false →
      ∃ t, exec (.laneStart c n.val) s = .next t ∧
        let u := t.slotAt c n
        u.life = .running ∧ u.pc = evenAddr b.entry ∧ u.x[0] = 0 ∧ u.x[1] = b.args ∧ u.x[2] = b.lane.setWidth 64 ∧
        u.x[3] = b.lcm.setWidth 64 + 1 ∧ (∀ j : Fin 16, 4 ≤ j.val → u.x[j] = 0) ∧ (∀ j : Fin 16, u.v[j] = 0) ∧ u.p = Slot.reset.p ∧
        u.sw.s = false ∧ u.sw.ie = true ∧ u.sw.ue = true ∧ u.sw.hl = false ∧ u.sw.dm = b.dm ∧ u.sw.owner = BitVec.ofNat 8 b.owner ∧
        (u.sst, u.epc, u.ecause, u.eaddr, u.uvb, u.uepc, u.ucause, u.uaddr, u.utoken) = (0, 0, 0, 0, 0, 0, 0, 0, 0) ∧
        (u.lc, u.lstart, u.lend) = (0, 0, 0) ∧ u.alost = 0 ∧ u.sr = 0 ∧ (∀ j : Fin 16, u.marks[j] = none) ∧ u.nack = none ∧
        (∀ i, u.gm.getLsbD i = if i < 32 then b.gid.getLsbD i else decide (i < 36) && b.gv.getLsbD (i - 32)) ∧
        u.lane = b.lane.setWidth 32 ∧ u.lcount = b.lcm.setWidth 32 + 1 ∧ u.launch = b.launch ∧
        (∀ j, j ≠ n → t.slotAt c j = s.slotAt c j))

/-- What the binding step leaves (R148, R331, R334, R338; log 79): every core of a placed plot, one without a lane too, holds the launch's
binding and a position, is not fenced, and has tvb from the partition's configuration and no deque, parked request or staging entry;
where its last binding was another owner's or another partition's, its shared bank, tile control registers, tiles and accumulators
are zero. -/
def Sys2Proof.Claim.PlotBound : Prop :=
  ∀ (s : State) (p : Nat) (n : HWord) (l : Launch) (r c m : Nat) (ds : List GroupDesc),
    ∀ x ∈ rectangle l.die r c (recRows l.words) (recCols l.words),
      let k := (s.place p n l r c m ds).core x
      k.bound = some { part := p, owner := l.owner, launch := n, cls := (l.word 4).setWidth 2 } ∧ k.position.isSome = true ∧
        k.fenced = false ∧ k.tvb = (s.part p).tvb ∧ k.deque = [] ∧ k.overflow = [] ∧ k.park = [] ∧ k.staging = [] ∧ k.l1i = [] ∧
        ((s.core x).last ≠ some (p, l.owner) →
          k.y = Vector.replicate 16 0 ∧ k.w = Vector.replicate 16 0 ∧ k.tc = Vector.replicate 8 0 ∧ k.tiles = [] ∧ k.acc = [] ∧ k.l1d = [])

/-- Launch records are fetched and checked, plots are bound, and lanes start. -/
def Obligations.LaunchesStarted : Prop :=
  Sys2Proof.Claim.LaunchFetchedAndPlaced ∧ Sys2Proof.Claim.FirstChecks ∧ Sys2Proof.Claim.PlotBound ∧ Sys2Proof.Claim.LaneStarts

/-- The places of a launch's end (R329, R335, R382, R384): PLACEMENT_ATTEMPT, LAUNCH_COMPLETE, WATCHDOG_EXPIRY and CONTAINMENT act on a
launch in the stage they name and under their conditions, and otherwise change nothing; a launch without groups that R322 keeps from one
position is kept from every position (R422). A launch whose group image cannot be read yet waits, and an image in a latent tile is developed
first, which is the model's choice, log 108. -/
def Sys2Proof.Claim.LaunchSteps : Prop :=
  ∀ (s : State) (p : Nat) (n : BitVec 32) (l : Launch), mapGet? (s.part p).launches n.toNat = some l →
    (s.launchDone p n l = true → exec (.launchComplete p n) s = .next (s.completeLaunch p n l)) ∧
    (s.launchDone p n l = false → exec (.launchComplete p n) s = .next s) ∧
    (l.stage = .running → l.expired s.cycle = true → exec (.watchdogExpiry p n) s =
      .next (if s.launchDone p n l = true then s.completeLaunch p n l else s.contain p n l 0x0001 0)) ∧
    (l.expired s.cycle = false → exec (.watchdogExpiry p n) s = .next s) ∧
    (l.stage = .running → ∀ d, exec (.containment p n .killed d) s = .next (s.contain p n l 0x0004 0) ∧
      exec (.containment p n .watchdog d) s =
        .next (if l.expired s.cycle = true ∧ s.launchDone p n l = false then s.contain p n l 0x0001 0 else s)) ∧
    (l.stage = .running → ∀ x ∈ [(ContainCause.mce, (0x0002 : BitVec 16)), (.vecFault, 0x0003), (.fabric, 0x0005)], ∀ d,
      exec (.containment p n x.1 d) s = .next (if s.containAsked p n x.1 d = true then s.contain p n l x.2 d else s)) ∧
    (l.stage ≠ .running → ∀ c d, exec (.containment p n c d) s = .next s ∧ exec (.watchdogExpiry p n) s = .next s) ∧
    ∀ r c m,
      let free := s.fits (s.part p) l.die r c (recRows l.words) (recCols l.words) = true ∧
        (∀ x ∈ rectangle l.die r c (recRows l.words) (recCols l.words), (s.core x).unbound = true ∧ s.promised x x = false) ∧
        lanesAllowed l.words m = true ∧ s.behind p n.toNat l = false
      (l.stage = .waiting → free → s.imageHeld p l r c m = some none → exec (.placementAttempt p n r c m) s = .next s) ∧
      (l.stage = .waiting → free → ∀ rid, s.imageHeld p l r c m = some (some rid) →
        exec (.placementAttempt p n r c m) s = .next (s.developTile rid fun h => .image h p n.toNat)) ∧
      (l.imageFailed = true → s.imageHeld p l r c m = none ∧ s.secondStage p l r c m = .error 0x0013) ∧
      (l.stage = .waiting → free → s.imageHeld p l r c m = none → ∀ st, s.secondStage p l r c m = .error st →
        exec (.placementAttempt p n r c m) s = .next (s.refuseLaunch p n l st)) ∧
      (s.secondStage p l r c m = .error 0x0011 → l.word 2 = 0 → ∀ i j, s.classFits p { l with row := i, col := j } = false) ∧
      (l.stage = .waiting → free → ∀ ds u, s.secondStage p l r c m = .ok (ds, u) →
        exec (.placementAttempt p n r c m) s = .next (u.place p n l r c m ds)) ∧
      (l.stage ≠ .waiting ∨ ¬ free → exec (.placementAttempt p n r c m) s = .next s)

/-- Containment (R329, R385): every core of the plot is fenced and at its reset state, no home slice keeps a registration of it, its
messages that are not written are given up, the launch's completion entry is posted with the status, and the launch is complete. -/
def Sys2Proof.Claim.ContainmentEffect : Prop :=
  ∀ (s : State) (p : Nat) (n : HWord) (l : Launch) (st : BitVec 16) (d : Word), mapGet? (s.part p).launches n.toNat = some l →
    let t := s.contain p n l st d
    (∀ c ∈ s.launchCores p n, t.core c = { Core.reset with fenced := true, disabled := (s.core c).disabled }) ∧
    (∀ e ∈ t.l2, ∀ r ∈ e.2.reg, r.2 ∉ s.launchCores p n) ∧
    (∃ e, mapGet? (t.part p).launches n.toNat = some e ∧ e.stage = .complete) ∧
    ∀ h, s.queue? l.queue = some h → ∃ g e, t.queue? l.queue = some g ∧
      g.pending = (h.pending.filter fun x => !(x.sender.any fun y => (s.launchCores p n).contains y.1)) ++ [e] ∧ e.status = st ∧
      e.launch = n ∧ e.detail = d ∧ e.data = 0 ∧ e.type = 1

/-- Placement, completion, the watchdog and containment of a launch. -/
def Obligations.LaunchesEnded : Prop := Sys2Proof.Claim.LaunchSteps ∧ Sys2Proof.Claim.ContainmentEffect

/-- The doorbells (R375, R377, R386, R398): a value inside the ring moves the tail or the head, waking the queue's die; one outside is
ignored and recorded as an event. Where the admin registers stand is the model's choice (log 17). -/
def Sys2Proof.Claim.Doorbells : Prop :=
  ∀ (s : State) (fn i v : Nat) (cpl : Bool),
    (s.queueOf fn i = none → exec (.submissionDoorbell fn i v) s = .next s ∧ exec (.completionDoorbell fn i v) s = .next s) ∧
    (∀ n h, s.queueOf fn i = some (n, h) →
      exec (.submissionDoorbell fn i v) s =
        .next (if v < h.subSize
          then ((s.modQueue n fun h => { h with subTail := v, bells := h.bells ++ [(v, s.stamp)] }).tick).wakeDie h.die
          else s.doorbellEvent fn) ∧
      exec (.completionDoorbell fn i v) s =
        .next (if v < h.cplSize then (s.modQueue n fun h => { h with cplHead := v }).wakeDie h.die else s.doorbellEvent fn)) ∧
    (fn ≠ 0 → s.hasPart fn = false → exec (.adminDoorbell fn cpl v) s = .next s) ∧
    (fn = 0 ∨ s.hasPart fn = true → s.adminSize fn cpl ≤ v → exec (.adminDoorbell fn cpl v) s = .next (s.doorbellEvent fn)) ∧
    (fn = 0 ∨ s.hasPart fn = true → v < s.adminSize fn cpl → ∃ t, exec (.adminDoorbell fn cpl v) s = .next t ∧
      (t.admin fn).subTail = (if cpl then (s.admin fn).subTail else v) ∧ (t.admin fn).cplHead = (if cpl then v else (s.admin fn).cplHead) ∧
      t.mem = s.mem ∧ t.cores = s.cores ∧ t.parts = s.parts)

/-- COMPLETION_ENTRY_WRITE (R380, R381): with room in the ring, and the stores performed that the entry follows, the oldest entry is
written whole at the tail, its phase bit included; the tail moves, the phase turns over at the ring's end, and MSI-X is raised; else nothing
changes. That a ring is full with one place unused is log 52. -/
def Sys2Proof.Claim.CompletionEntries : Prop :=
  ∀ (s : State) (q : Nat) (h : HwQueue), s.queue? q = some h →
    let tail := (h.cplTail + 1) % max h.cplSize 1
    let a := h.cplBase + 64 * h.cplTail
    (h.pending = [] ∨ tail = h.cplHead → exec (.completionEntryWrite q) s = .next s) ∧
    (∀ e rest, h.pending = e :: rest → s.entryHeld e = true → exec (.completionEntryWrite q) s = .next s) ∧
    ∀ e rest, h.pending = e :: rest → s.entryHeld e = false → tail ≠ h.cplHead → Memory.wf s.hostMem = true →
      ∃ t, exec (.completionEntryWrite q) s = .next t ∧
        (∃ g, t.queue? q = some g ∧ g.pending = rest ∧ g.cplTail = tail ∧ g.phase = (if tail = 0 then !h.phase else h.phase) ∧
          g.msix = h.msix + 1) ∧
        (Memory.readN t.hostMem a 8 = e.tag.toNat ∧
          Memory.readN t.hostMem (a + 8) 8 =
            (if h.phase then 2 ^ 63 else 0) + e.type.toNat * 2 ^ 48 + e.status.toNat * 2 ^ 32 + e.launch.toNat ∧
          Memory.readN t.hostMem (a + 16) 8 = e.data.toNat ∧ Memory.readN t.hostMem (a + 24) 8 = e.detail.toNat ∧
          Memory.readN t.hostMem (a + 32) 8 = e.lane.toNat ∧ Memory.readN t.hostMem (a + 40) 8 = e.elapsed.toNat ∧
          (∀ x, x < a ∨ a + 64 ≤ x → Memory.read t.hostMem x = Memory.read s.hostMem x)) ∧
        t.mem = s.mem ∧
        (e.sender = none → t.cores = s.cores) ∧
        ∀ c k, e.sender = some (c, k) → t.slotAt c (slotNo k) =
          settled (loopStep { s.slotAt c (slotNo k) with out := .none } ((s.slotAt c (slotNo k)).pc + 4) false)

/-- HMSG (R385): PRIV in a development task; else the message entry joins its queue and the slot waits until it is written. -/
def Sys2Proof.Claim.HostMessage : Prop :=
  ∀ (s : State) (a b : Reg),
    (∀ d, s.me.kind = .dev d → exec (.hmsg a b) s = .next (s.takeTrap .priv 0 false)) ∧
    ((∀ d, s.me.kind ≠ .dev d) → s.unmarked [a, b] → ∀ l h, s.launchOf s.curCore = some l → s.queue? l.queue = some h →
      ∃ t e g, exec (.hmsg a b) s = .next t ∧ t.me.out = .ring l.queue ∧ t.me.pc = s.me.pc ∧ t.queue? l.queue = some g ∧
        g.pending = h.pending ++ [e] ∧ e.type = 2 ∧ e.data = s.xval a ∧ e.detail = s.xval b ∧ e.tag = l.word 9 ∧ e.launch = s.me.launch ∧
        e.lane = s.me.lane.setWidth 13 ∧ e.sender = some (s.curCore, s.curSlot.val) ∧ t.mem = s.mem)

/-- HOST_INTERFACE_TRANSFER (R299, R320, R321): one queue, chosen by the law on structure 8, writes an entry or fetches a record, and the
losers' rounds are counted; where one queue asks, its transfer takes place without a draw. The class a transfer competes in is the
model's choice (log 28); that a completion ring is full with one place unused is log 52. -/
def Sys2Proof.Claim.HostTransfer : Prop :=
  ∀ (s : State),
    let asks := s.transfers
    (∀ p, p ∈ asks ↔ ∃ n h, (n, h) ∈ s.queues ∧ s.transferOf n h = some p) ∧
    asks.Pairwise (fun p q => stampCycle p.since ≤ stampCycle q.since) ∧
    (∀ u, s.decide 8 0 0 asks = (none, u) → exec .hostInterfaceTransfer s = .next u) ∧
    (∀ p ls u h, s.decide 8 0 0 asks = (some (p, ls), u) →
      let n := p.id - 2 ^ 128
      let v := ls.foldl (fun u l => u.modQueue (l - 2 ^ 128) fun h => { h with lost := h.lost + 1 }) u
      v.queue? n = some h → exec .hostInterfaceTransfer s =
        if ((v.transferDone p n).writable h).isSome = true then exec (.completionEntryWrite n) (v.transferDone p n) else exec (.launchRecordFetch n) (v.transferDone p n)) ∧
    (∀ n h, s.transferOf n h = none ↔ (h.fetchable = false ∧ s.writable h = none)) ∧
    ∀ n h, s.queues = [(n, h)] → h.fetchable = true ∨ s.writable h ≠ none →
      ∃ t g, exec .hostInterfaceTransfer s = .next t ∧ t.queue? n = some g ∧ t.mem = s.mem ∧
        (s.writable h ≠ none → g.pending = h.pending.tail ∧ g.msix = h.msix + 1) ∧
        (s.writable h = none → g.subHead = (h.subHead + 1) % max h.subSize 1)

/-- Doorbells, completion entries, host messages and host transfers. -/
def Obligations.HostRings : Prop := Sys2Proof.Claim.Doorbells ∧ Sys2Proof.Claim.CompletionEntries ∧ Sys2Proof.Claim.HostMessage ∧ Sys2Proof.Claim.HostTransfer

/-- Stops at instruction boundaries (R95, R157, R358, R360): IE_STOP_TIMEOUT applies a stop that has waited 4,096 cycles; THERMAL_RANKING
records temperatures; THERMAL_SLOT_DISABLE asks the highest-numbered running slot of a core above the limit, and THERMAL_SLOT_ENABLE
enables the lowest-numbered disabled one 5 degrees below it. That a displaced slot gives up a wait is the model's reading, DEDUCED, log
57. -/
def Sys2Proof.Claim.StopsAndHeat : Prop :=
  ∀ (s : State) (c : Nat) (n : Fin 8),
    let t := s.slotAt c n
    (t.stopAt = none → exec (.ieStopTimeout c n.val) s = .next s) ∧
    (∀ kind asked, t.stopAt = some (kind, asked) → s.cycle < asked + 4096 → exec (.ieStopTimeout c n.val) s = .next s) ∧
    (∀ kind asked, t.stopAt = some (kind, asked) → asked + 4096 ≤ s.cycle → exec (.ieStopTimeout c n.val) s =
      .next (if s.atBoundary t = true ∧ ¬ (kind = .halt ∧ t.kind.isDev = true) then s.applyStop c n kind else s)) ∧
    (∀ kind, ((s.applyStop c n kind).slotAt c n).pc = t.pc ∧ ((s.applyStop c n kind).slotAt c n).out = .none ∧
      ((s.applyStop c n kind).slotAt c n).stopAt = none ∧
      (kind = .halt → ((s.applyStop c n kind).slotAt c n).halted = true) ∧
      (kind = .displace → ((s.applyStop c n kind).slotAt c n).disabled = true)) ∧
    (∀ die temps, ∃ u, exec (.thermalRanking die temps) s = .next u ∧ u.cores = s.cores ∧ u.mem = s.mem ∧
      ∀ e, e ∈ (mapGet u.dies die Die.reset).ranking ↔ e ∈ temps) ∧
    let running := fun (j : Fin 8) => (s.slotAt c j).life = .running ∧ (s.slotAt c j).disabled = false ∧ (s.slotAt c j).stopAt = none
    (running n → (∀ j, n < j → ¬ running j) → ∀ x, s.temperature c = some x →
      exec (.thermalSlotDisable c) s = .next (if s.thermalLimit < x then s.askStop c n .displace else s)) ∧
    (t.disabled = true → (∀ j, j < n → (s.slotAt c j).disabled = false) → ∀ x, s.temperature c = some x →
      exec (.thermalSlotEnable c) s =
        .next (if x + 5 ≤ s.thermalLimit then s.modSlotAt c n fun t => { t with disabled := false, guestAt := none } else s))

/-- PREEMPTION and CONTEXT_RESTORE (R95, R352, R355): a request with a reason that holds is noted, for the vault only where no core is
free; once every running slot can stop and the core has drained, the
context is captured; a context of the vault is loaded into a free core with its map entry. -/
def Sys2Proof.Claim.ContextMoves : Prop :=
  ∀ (s : State) (c : Nat) (dest : Option Nat),
    let k := s.core c
    let fits := fun (p : Nat) => s.destStands p c dest
    (∀ p, fits p = match dest with
      | some d => d != c && s.freeFor p c d
      | none => s.contextRoom p [c]) ∧
    (k.bound = none ∨ k.position = none → exec (.preemption c dest) s = .next s) ∧
    (∀ b pos, k.bound = some b → k.position = some pos →
      (k.preempt = none → exec (.preemption c dest) s =
        .next (if fits b.part = true ∧ s.mayPreempt c b = true ∧ (dest.isSome = true ∨ s.anyFreeCore b.part = false)
          then s.modCore c fun k => { k with preempt := some (dest, s.cycle) } else s)) ∧
      (∀ asked, k.preempt = some (dest, asked) → fits b.part = true → s.coreStopped k asked = true → s.coreDrained c k = true →
        exec (.preemption c dest) s = .next (s.capture c b.part pos dest)) ∧
      (∀ asked, k.preempt = some (dest, asked) → s.coreStopped k asked = false ∨ s.coreDrained c k = false →
        exec (.preemption c dest) s = .next s) ∧
      (∀ asked old, k.preempt = some (old, asked) → old ≠ dest → fits b.part = true → exec (.preemption c dest) s =
        .next (if s.destStands b.part c old = true then s else s.modCore c fun k => { k with preempt := some (dest, asked) }))) ∧
    ∀ p pos x d, mapGet? (s.part p).contexts pos = some x →
      (s.freeCore p d = false → exec (.contextRestore p pos d) s = .next s) ∧
      (s.freeCore p d = true → x.staging = [] → ∃ t, exec (.contextRestore p pos d) s = .next t ∧ s.mem = t.mem ∧
        t.core d = x.rename (restName pos) d ∧ mapGet? (t.part p).posMap pos = some d ∧
        (risesFrom 0 (s.part p).contexts = true → mapGet? (t.part p).contexts pos = none) ∧
        ∀ j, (t.slotAt d j).x = (x.slots[j]).x ∧ (t.slotAt d j).pc = (x.slots[j]).pc ∧ (t.slotAt d j).v = (x.slots[j]).v)

/-- Stops at instruction boundaries, heat, pre-emption and restore. -/
def Obligations.StopsAndContexts : Prop := Sys2Proof.Claim.StopsAndHeat ∧ Sys2Proof.Claim.ContextMoves

/-- Power, firmware and IDE (R395, R397, R398): a die wakes, or enters the lowest state its floor and its queues' tolerances allow; a signed
image that is not older than the fuse, from the side band or the PF, is staged and raises it; IDE_KM_REQUEST keeps the stream and the key of a
function that exists, which is the model's reading, DEDUCED, log 76. -/
def Sys2Proof.Claim.PowerAndFirmware : Prop :=
  ∀ (s : State) (die v fn : Nat) (wake : Bool) (port : SpdmPort) (dg : BitVec 256) (sg : BitVec 512) (st : BitVec 8) (key : BitVec 256),
    (∃ t, exec (.powerStateChange die wake) s = .next t ∧ t.cores = s.cores ∧ t.mem = s.mem ∧
      (mapGet t.dies die Die.reset).power = (if wake = true ∨ s.dieIdle die = false then 0 else s.powerTarget die)) ∧
    (s.powerTarget die ≤ s.powerFloor ∧ s.powerTarget die ≤ 3 ∧
      ∀ a, a ≤ 3 → a ≤ s.powerFloor → (∀ x ∈ s.tolerances die, exitLatency a ≤ x) → a ≤ s.powerTarget die) ∧
    ((port = .sideBand ∨ port = .doe 0) → Config.sm2Verifies dg sg = true → s.fwFuse ≤ v →
      exec (.firmwareUpdate port v dg sg) s = .next { s with fwStaged := some (v, dg, sg), fwFuse := v }) ∧
    (Config.sm2Verifies dg sg = false ∨ v < s.fwFuse → exec (.firmwareUpdate port v dg sg) s = .next s) ∧
    (fn = 0 ∨ s.hasPart fn = true → exec (.ideKmRequest fn st key) s = .next { s with ide := mapSet s.ide fn (st, key) })

/-- The resets (R397, R399, R400, R401): a package reset leaves every core, partition, queue and memory at its reset state, and keeps the
fuse and host memory; the part works, at once by the model's choice (log 63), only with a signed image that is not older than the fuse; THERMAL_RESET
records its cause, which the side band's next report gives; a VF's reset contains the launches and empties its partition, the PF's that of
each, once no entry of their rings waits for a store any more (R381). -/
def Sys2Proof.Claim.Resets : Prop :=
  ∀ (s : State) (failed : List Nat),
    let im := s.fwStaged.getD (s.fwVersion, s.fwDigest, s.fwSignature)
    (∃ t, exec (.packageReset failed) s = .next t ∧ t.cores = [] ∧ t.parts = [] ∧ t.queues = [] ∧ t.mem = [] ∧ t.l2 = [] ∧ t.packets = [] ∧
      t.hostMem = s.hostMem ∧ t.fwFuse = s.fwFuse ∧ t.fwVersion = im.1 ∧ t.fwStaged = none ∧
      (t.ready = true ↔ Config.sm2Verifies im.2.1 im.2.2 = true ∧ s.fwFuse ≤ im.1) ∧ t.recovery = !t.ready ∧ t.lastReset = false ∧
      ∀ d, d ∈ deadDies failed ↔ ∃ e ∈ t.dies, e.1 = d ∧ e.2.enabled = false) ∧
    (∃ t, exec .thermalReset s = .next t ∧ t.lastReset = true ∧ t.cores = [] ∧ t.mem = [] ∧ t.hostMem = s.hostMem) ∧
    (∃ r, (s.giveReport none).reports = s.reports ++ [(none, r)] ∧ r.thermalReset = s.lastReset) ∧
    (∀ fn,
      let vfs := if fn = 0 then s.parts.map fun e => e.1 + 1 else [fn].filter s.hasPart
      let u := vfs.foldl (fun x v => x.killAll (v - 1) 0x0004) (s.ended (.reset fn))
      ((∃ v ∈ vfs, u.storesAwaited v = true) → exec (.functionLevelReset fn) s = .next (u.begin (.reset fn))) ∧
      ((∀ v ∈ vfs, u.storesAwaited v = false) →
        exec (.functionLevelReset fn) s = .next (vfs.foldl (fun x v => x.resetFunction v) u))) ∧
    (∀ v, s.storesAwaited v = true ↔ ∃ q ∈ s.queues, q.2.vf = v ∧ ∃ e ∈ q.2.pending, ∃ k ∈ s.packets, k.outward = true ∧ k.id ∈ e.awaits) ∧
    ∀ vf, s.hasPart vf = true →
      let t := s.resetFunction vf
      let q := t.part (vf - 1)
      q.keys = [] ∧ q.recipes = [] ∧ q.queues = [] ∧ q.contexts = [] ∧ q.launches = [] ∧ q.sealedPages = [] ∧
        (∃ k, q.owners = [(0, { seed := k, ctr := [], xobs := [] })]) ∧ (∀ h ∈ t.queues, h.2.vf ≠ vf) ∧
        ∀ c ∈ t.mem, c.1 / 2 ^ 31 ∉ q.clusters

/-- Power states, firmware images, IDE keys and the resets. -/
def Obligations.PowerAndResets : Prop := Sys2Proof.Claim.PowerAndFirmware ∧ Sys2Proof.Claim.Resets

/-- PAGE_FAULT_REQUEST and PAGE_MIGRATION (R230-R233): the request leaves the list and its notice is sent, refused where firmware gives
no frame or the page cannot be mapped; the notice enters the mesh at a router of the die, of class B as a request and else by escape buffers
(R311); a migration first holds the page's writes, and its second event moves the page. That the page is mapped
with RD and W for the requester's owner is the model's choice, log 23, and the router and the target core of a notice are, logs 75 and 109. -/
def Obligations.PageRequests : Prop :=
  ∀ (s : State) (p : Nat) (tok : BitVec 32) (r : PageReq) (f : Nat) (va : Word),
    ((∀ x ∈ (s.part p).faults, x.token ≠ tok) → ∀ g, exec (.pageFaultRequest p tok g) s = .next s) ∧
    ((s.part p).faults.find? (fun x => x.token == tok) = some r →
      let u := s.modPart p fun q => { q with faults := q.faults.filter fun x => x.token != tok }
      let page := r.va.toNat % 2 ^ 60 / 4096 * 4096
      exec (.pageFaultRequest p tok none) s = .next (u.sendNotice p r true) ∧
      (∀ m v, u.mapped p page = some (m, v) → exec (.pageFaultRequest p tok (some f)) s = .next (v.sendNotice p r false)) ∧
      (u.mapped p page = none → exec (.pageFaultRequest p tok (some f)) s = .next (match u.mapPage p page r.owner 3 f true with
        | .ok v => v.sendNotice p r false
        | .error _ => u.sendNotice p r true))) ∧
    (∀ b, let t := s.sendNotice p r b
      t.mem = s.mem ∧ t.cores = s.cores ∧ ∃ k, t.packets = s.packets ++ [k] ∧ k.load = .notice (noticeOf r b) ∧
        (r.core < restName 0 → let at' := controlCore (dieOf (clusterOf r.core))
          (k.dx, k.dy) = (coreX r.core, coreY r.core) ∧ k.core = at' ∧ k.place = .enter 0 (routerOf at') .core ∧
          k.esc = (s.classOf r.core != 0)) ∧
        (laneOf (noticeOf r b) 0 = r.token ∧ laneOf (noticeOf r b) 1 = (if b then 1 else 0) ∧
          laneOf (noticeOf r b) 2 = r.va.extractLsb' 0 32 ∧ laneOf (noticeOf r b) 3 = r.va.extractLsb' 32 32 ∧
          laneOf (noticeOf r b) 4 = r.lane)) ∧
    ((s.part p).migrating = none →
      (s.mapped p (va.toNat % 2 ^ 60) = none → exec (.pageMigration p va f) s = .next s) ∧
      ∀ m u, s.mapped p (va.toNat % 2 ^ 60) = some (m, u) → ∃ t, exec (.pageMigration p va f) s = .next t ∧
        (t.part p).migrating = some va ∧ Work.migration p va f ∈ t.begun ∧ t.mem = u.mem) ∧
    ((s.part p).migrating = some va → Work.migration p va f ∈ s.begun →
      exec (.pageMigration p va f) s = .next ((s.migrate p va f).ended (.migration p va f)))

/-- The checks of a command on a partition (R386-R388): a response with its tag joins its function's admin queue: BUSY before bring-up
ends, BADCMD from a function that may not issue it, NOPERM for another partition than the function's own, BADPARAM for one that does not
exist. -/
def Sys2Proof.Claim.CommandChecks : Prop :=
  ∀ (s : State) (c : Cmd) (vf : Nat) (va : Word) (o f h a n : Nat) (r : BitVec 3) (b b' : Bool) (i : BitVec 4) (iv : BitVec 96)
    (tag : BitVec 128) (l : BitVec 32) (ls : List Nat) (q : QueueParams),
    let say := fun (st : BitVec 16) (t : State) => t.cores = s.cores ∧ t.mem = s.mem ∧ t.parts = s.parts ∧ t.queues = s.queues ∧
      (t.admin c.fn).responses = (s.admin c.fn).responses ++ [(c.tag, st, 0)]
    (∀ x ∈ [Instr.mapMap c vf va o r f b, .mapUnmap c vf va, .mapRegionEntry c vf i va, .mapImport c vf a h iv tag va n,
        .mapExport c vf va a n h iv, .mapLoad c vf a va n, .debugHalt c vf l ls b b', .debugResume c vf l ls, .eccMode c vf b,
        .queueCreate c { q with vf := vf }],
      (s.ready = false → ∃ t, exec x s = .next t ∧ say 4 t) ∧
      (s.ready = true → c.fn ≠ 0 → vf ≠ c.fn → ∃ t, exec x s = .next t ∧ say 3 t) ∧
      (s.ready = true → c.fn = 0 ∨ c.fn = vf → s.hasPart vf = false → ∃ t, exec x s = .next t ∧ say 2 t)) ∧
    (s.ready = false → ∃ t, exec (.partitionDestroy c vf) s = .next t ∧ say 4 t) ∧
    (s.ready = true → c.fn ≠ 0 → ∃ t, exec (.partitionDestroy c vf) s = .next t ∧ say 1 t) ∧
    (s.ready = true → c.fn = 0 → s.hasPart vf = false → ∃ t, exec (.partitionDestroy c vf) s = .next t ∧ say 2 t)

/-- The MAP commands, ECC_MODE and the debug commands on a partition that exists (R303, R326, R360, R387, R392, R393, R424): each has its
effect and answers OK, or answers the status of the check that fails, with no effect but that of a failed import; a change of the map is
answered once the accesses under way by it have completed (R302). The answers for an unmapped
page and a region entry, and the status of a killed launch that still waits, are the model's readings, DEDUCED, logs 61 and 58. -/
def Sys2Proof.Claim.PartitionCommands : Prop :=
  ∀ (s : State) (c : Cmd) (vf : Nat) (va : Word) (o f h a n : Nat) (r : BitVec 3) (b : Bool) (i : BitVec 4) (iv : BitVec 96)
    (tag : BitVec 128) (l : BitVec 32) (ls : List Nat), s.ready = true → c.fn = 0 ∨ c.fn = vf → s.hasPart vf = true →
    let p := vf - 1
    let done := fun (i : Instr) (t : State) (st : CmdStatus) => exec i s = .next (t.respond c st 0)
    (∀ acc, ((∀ i ∈ acc, s.packet? i = none) → s.answerAfter c vf acc = (s.ended (.answer c vf acc)).respond c .ok 0) ∧
      ((∃ i ∈ acc, s.packet? i ≠ none) → s.answerAfter c vf acc = s.begin (.answer c vf acc))) ∧
    (∀ u, s.mapPage p va.toNat o r f b = .ok u → exec (.mapMap c vf va o r f b) s = .next (u.answerAfter c vf (s.underway p ((s.part p).pageRange va)))) ∧
    (∀ e, s.mapPage p va.toNat o r f b = .error e → done (.mapMap c vf va o r f b) s e) ∧
    (∀ u, s.unmapPage p va.toNat = .ok u →
      exec (.mapUnmap c vf va) s = .next (u.answerAfter c vf (s.underway p ((s.part p).pageRange va)))) ∧
    (∀ e, s.unmapPage p va.toNat = .error e → done (.mapUnmap c vf va) s e) ∧
    (let old := ((s.part p).raf[i.toFin])
     let moves := regionMoves old va && (s.part p).keeps (regionRange i.toNat)
     (regionRefused va = true → done (.mapRegionEntry c vf i va) s .badParam) ∧
     (regionRefused va = false → moves = true → done (.mapRegionEntry c vf i va) s .noPerm) ∧
     (regionRefused va = false → moves = false → exec (.mapRegionEntry c vf i va) s =
       .next ((s.setRegion p i.toFin va).answerAfter c vf (s.underway p (regionRange i.toNat))))) ∧
    (∀ e u, s.importPages p a h iv tag va.toNat n = (e, u) → done (.mapImport c vf a h iv tag va n) u e) ∧
    (∀ e u, s.exportPages p va.toNat a n h iv = (e, u) → done (.mapExport c vf va a n h iv) u e) ∧
    (∀ e u, s.loadPages p a va.toNat n = (e, u) → done (.mapLoad c vf a va n) u e) ∧
    (let q := s.part p
     let me := Work.eccMode c vf b
     (me ∉ s.begun → q.strong ≠ b → q.recode = none →
       exec (.eccMode c vf b) s = .next ((s.modPart p fun q => { q with strong := b, recode := some 0 }).begin me)) ∧
     (me ∉ s.begun → q.strong = b ∨ q.recode.isSome = true → done (.eccMode c vf b) s .ok) ∧
     (me ∈ s.begun → ∀ n, q.recode = some n →
       (n < 4096 * q.clusters.length → exec (.eccMode c vf b) s = .next (s.recodeSet p n) ∧
         ((s.recodeSet p n).part p).recode = some (n + 1) ∧
         ∀ e ∈ (s.recodeSet p n).l2, q.clusters.contains (e.2.slice / 4) = true → q.setIndex e.2.slice e.2.set = n → e.2.strong = q.strong) ∧
       (4096 * q.clusters.length ≤ n → done (.eccMode c vf b) ((s.modPart p fun q => { q with recode := none }).ended me) .ok))) ∧
    (mapGet? (s.part p).launches l.toNat = none → done (.debugHalt c vf l ls b false) s .badParam ∧ done (.debugResume c vf l ls) s .badParam) ∧
    ∀ x, mapGet? (s.part p).launches l.toNat = some x →
      (x.stage = .running → done (.debugHalt c vf l ls b true) (s.contain p l x 0x0004 0) .ok) ∧
      (x.stage = .waiting → done (.debugHalt c vf l ls b true) (s.refuseLaunch p l x 0x0004) .ok) ∧
      (x.stage = .running → (∃ k ∈ ls, x.lanes ≤ k) →
        done (.debugHalt c vf l ls b false) s .badParam ∧ done (.debugResume c vf l ls) s .badParam) ∧
      (x.stage = .running → (∀ k ∈ ls, k < x.lanes) →
        (let held := if b then s.modLaunch p l fun y => y.holdDog true s.cycle else s
         let u := held.modResting p l ls fun t => t.haltedAt s.cycle
         done (.debugHalt c vf l ls b false) ((u.laneSlots p l ls).foldl (fun s y => s.askStop y.1 y.2 .halt) u) .ok) ∧
        (let u := (s.modLaunch p l fun y => y.holdDog false s.cycle).modResting p l ls (·.resumed)
         done (.debugResume c vf l ls) ((u.laneSlots p l ls).foldl (fun s y => s.modSlotAt y.1 y.2 (·.resumed)) u) .ok))

/-- The MAP commands succeed (R387, R392, R393, R424): a page without a mapping takes a free frame, or one of the partition's; a page without
recorded or pinned lines is unmapped; a range whose pages are mapped here is loaded, exported, and, under a key that the partition has,
imported: a wrong tag zeroes its pages. -/
def Sys2Proof.Claim.MapCommandsComplete : Prop :=
  ∀ (s : State) (c : Cmd) (vf : Nat) (va : Word) (o f h a n : Nat) (r : BitVec 3) (b : Bool) (iv : BitVec 96) (tag : BitVec 128),
    s.ready = true → c.fn = 0 ∨ c.fn = vf → s.hasPart vf = true →
    let p := vf - 1
    let page := (s.part p).pageRange (BitVec.ofNat 64 va.toNat)
    let ok := fun (i : Instr) (t : State) => exec i s = .next (t.respond c .ok 0)
    let changed := fun (i : Instr) (t : State) => exec i s = .next (t.answerAfter c vf (s.underway p ((s.part p).pageRange va)))
    let plain := fun (xs : List Stretch) => ∀ x ∈ xs, s.hostRefuses p (x.pa / 64) = false
    (va.toNat < 2 ^ 60 → (s.part p).keeps page = false →
      (s.mapped p va.toNat = none → changed (.mapUnmap c vf va) s) ∧
      (∀ m u, s.mapped p va.toNat = some (m, u) → changed (.mapUnmap c vf va) (u.unmapLeaf p va.toNat m)) ∧
      (s.leafRefused p va.toNat o f b = none → s.mapped p va.toNat = none →
        let size := 2 ^ pageLog ((s.part p).region va.toNat)
        let u := s.modPart p fun q => { q with used := if (q.region va.toNat).getLsbD 10 then q.used else (f, size) :: q.used }
        ∀ k v, u.leafOf p va.toNat true = some (k, v) → changed (.mapMap c vf va o r f b)
          ((v.writeEntry k (localLeaf f o r)).purgeRange p ((v.part p).pageRange (BitVec.ofNat 64 va.toNat))))) ∧
    (va.toNat + n ≤ 2 ^ 60 → n ≠ 0 → ∀ xs, s.stretches p va.toNat n = some xs →
      (plain xs → (s.part p).sealedOnly = false → ok (.mapLoad c vf a va n) (s.hostWriteAll p xs (Memory.readBytes s.hostMem a n))) ∧
      (plain xs → ∀ key, mapGet? (s.part p).keys h = some key →
        let opened := Config.sm4GcmOpen key iv (sealData va.toNat ((xs.head?.map (·.owner)).getD 0) n) (Memory.readBytes s.hostMem a n) tag
        exec (.mapImport c vf a h iv tag va n) s = .next (match opened with
          | some bs => ((s.hostWriteAll p xs ((List.range n).map fun i => bs.getD i 0)).modPart p fun q => q.markSealed xs).respond c .ok 0
          | none => (s.zeroPages p va.toNat n).respond c .authFail 0)) ∧
      ((∀ x ∈ xs, x.pa / 64 ∉ (s.hostRead p xs).1.latent ∧ (∀ w ∈ (s.hostRead p xs).1.memBad, w / 16 ≠ x.pa / 64) ∧ (s.part p).sealedPage x = false) →
        ok (.mapExport c vf va a n h iv) { (s.hostRead p xs).1 with hostMem := Memory.writeBytes (s.hostRead p xs).1.hostMem a (s.hostRead p xs).2 }))

/-- The checks of a command, and the commands on a partition. -/
def Obligations.PartitionCommands : Prop :=
  Sys2Proof.Claim.CommandChecks ∧ Sys2Proof.Claim.PartitionCommands ∧ Sys2Proof.Claim.MapCommandsComplete

/-- The commands that make and end things (R376, R377, R387, R391, R394, R423): PARTITION_CREATE makes a partition of unowned clusters of
working dies, its vaults zeroed and a seed for owner 0; OWNER_CREATE seeds an owner; QUEUE_CREATE an empty queue; KEY_BIND binds a key;
PARTITION_DESTROY contains the launches and, once no entry of their rings waits for a store, leaves no partition, no queue, no register of
its function and zeroed vaults. That KEY_BIND without a session is BADCMD is the model's reading, DEDUCED,
log 60. -/
def Sys2Proof.Claim.CreatingCommands : Prop :=
  ∀ (s : State) (c : Cmd) (vf o n h : Nat) (x : PartitionParams) (q : QueueParams) (seed key : BitVec 128), s.ready = true →
    let p := vf - 1
    let ok := fun (t : State) => (t.admin c.fn).responses = (s.admin c.fn).responses ++ [(c.tag, 0, 0)]
    (c.fn = 0 → partitionOk x = true → s.hasPart x.vf = false → (∀ k ∈ maskClusters x.clusters, s.clusterOwner k = none ∧ s.dieWorks k = true) →
      ∃ t, exec (.partitionCreate c x) s = .next t ∧ ok t ∧
        let z := t.part (x.vf - 1)
        z.clusters = maskClusters x.clusters ∧ z.queueCount = x.queues ∧ z.recipeCap = x.recipes ∧ z.segCap = x.segmentCap ∧
        z.ctxMiB = x.contextMiB ∧ z.tvb = x.tvb &&& ~~~(0x7FF#64) ∧ z.strong = x.strong ∧ z.sealedOnly = x.sealedOnly ∧ z.launches = [] ∧
        (∃ k, z.owners = [(0, { seed := k, ctr := [], xobs := [] })]) ∧ (∀ e ∈ t.mem, e.1 / 2 ^ 31 ∉ z.clusters) ∧
        t.queues = s.queues) ∧
    (c.fn ≠ 0 → ∃ t, exec (.partitionCreate c x) s = .next t ∧ t.parts = s.parts ∧
      (t.admin c.fn).responses = (s.admin c.fn).responses ++ [(c.tag, 1, 0)]) ∧
    (c.fn = 0 ∨ c.fn = vf → s.hasPart vf = true → 1 ≤ o → o ≤ 15 → seed ≠ 0 → (s.part p).ownerDeveloping o = none →
      (s.part p).busy (fun l => l.owner == o) = false → ∃ t, exec (.ownerCreate c vf o seed) s = .next t ∧ ok t ∧
        (t.part p).owner o = { seed := seed, ctr := [], xobs := [] }) ∧
    (c.fn = 0 ∨ c.fn = q.vf → s.hasPart q.vf = true → q.number ≤ 131071 → mapGet? (s.part (q.vf - 1)).owners q.owner ≠ none →
      ringSizeOk q.subSize = true → ringSizeOk q.cplSize = true → ((s.part (q.vf - 1)).clusters.any fun k => dieOf k == q.die) = true →
      (∀ e ∈ s.queues, e.1 ≠ q.number → e.2.vf = q.vf → e.2.index ≠ q.index ∧ ¬ (q.events = true ∧ e.2.events = true)) →
      (∀ e, s.queue? q.number = some e → e.vf = q.vf) → (s.part (q.vf - 1)).busy (fun l => l.queue == q.number) = false →
      ∃ t, exec (.queueCreate c q) s = .next t ∧ ok t ∧ ∃ e, t.queue? q.number = some e ∧ e.vf = q.vf ∧ e.index = q.index ∧
        e.owner = q.owner ∧ e.die = q.die ∧ e.subBase = q.subBase ∧ e.cplBase = q.cplBase ∧ e.subSize = q.subSize ∧ e.cplSize = q.cplSize ∧
        e.subHead = 0 ∧ e.subTail = 0 ∧ e.cplHead = 0 ∧ e.cplTail = 0 ∧ e.phase = true ∧
        e.pending = if q.events then (s.part (q.vf - 1)).held else []) ∧
    (c.fn ≠ 0 → s.hasPart c.fn = true → s.vfSession n c.fn = true → h ≤ 15 → ∃ t, exec (.keyBind c n h key) s = .next t ∧ ok t ∧
      mapGet? (t.part (c.fn - 1)).keys h = some key) ∧
    (c.fn ≠ 0 → s.vfSession n c.fn = false → exec (.keyBind c n h key) s = .next (s.respond c .badCmd 0)) ∧
    (c.fn = 0 → s.hasPart vf = true →
      let me := Work.destroy c vf
      let u := (s.ended me).killAll p 0x0004
      (u.storesAwaited vf = true → exec (.partitionDestroy c vf) s = .next (u.begin me)) ∧
      (u.storesAwaited vf = false → risesFrom 0 s.parts = true → ∃ t, exec (.partitionDestroy c vf) s = .next t ∧ ok t ∧
        mapGet? t.parts p = none ∧ (∀ e ∈ t.queues, e.2.vf ≠ vf) ∧ (∀ e ∈ t.mem, e.1 / 2 ^ 31 ∉ (s.part p).clusters) ∧
        (∀ e ∈ t.bars, e.1 / 2 ^ 35 ≠ vf) ∧ ∀ e ∈ t.sessions, e.2.port ≠ .doe vf))

/-- The commands that take time or set policy (R314, R327, R352, R356, R387, R398, R399, R405): CONTEXT_SAVE asks for the contexts and
goes on until all rest in the vault; without room its pre-emptions are not started, nor go on; a position that no context holds is
BADPARAM; PARTITION_RESIZE moves the contexts one by one, then
the memory; POWER_POLICY sets what it names within its ranges; TELEMETRY reports counts, disabled units and ports, the layout of its
result word being the model's choice (log 25). -/
def Sys2Proof.Claim.PolicyCommands : Prop :=
  ∀ (s : State) (c : Cmd) (vf : Nat) (ps : List Nat) (m : BitVec 64) (x : PowerParams), s.ready = true →
    let p := vf - 1
    let cls := maskClusters m
    let free := cls ≠ [] ∧ (∀ k ∈ cls, ∀ o, s.clusterOwner k = some o → o = p) ∧ (∀ k ∈ cls, s.dieWorks k = true)
    (c.fn = 0 → s.hasPart vf = true →
      (s.holders p ps ≠ [] → s.contextRoom p (s.holders p ps) = true → (∀ k ∈ ps, k ∈ s.heldPositions p) →
        exec (.contextSave c vf ps) s = .next ((s.askVault (s.holders p ps)).begin (.contextSave c vf ps))) ∧
      (s.holders p ps = [] → (∀ k ∈ ps, k ∈ s.heldPositions p) →
        exec (.contextSave c vf ps) s = .next ((s.ended (.contextSave c vf ps)).respond c .ok 0)) ∧
      (s.holders p ps ≠ [] → s.contextRoom p (s.holders p ps) = false → (∀ k ∈ ps, k ∈ s.heldPositions p) →
        let u := s.ended (.contextSave c vf ps)
        exec (.contextSave c vf ps) s =
          .next ((if Work.contextSave c vf ps ∈ s.begun then u.dropVault (s.holders p ps) else u).respond c .noRoom 0)) ∧
      (∀ cs, ∀ k ∈ cs, ((s.dropVault cs).core k).preempt =
        if (s.core k).preempt.map (·.1) = some none then none else (s.core k).preempt) ∧
      ((∃ k ∈ ps, k ∉ s.heldPositions p) → Work.contextSave c vf ps ∉ s.begun →
        exec (.contextSave c vf ps) s = .next (s.respond c .badParam 0)) ∧
      (let me := Work.resize c vf m
       let ended := (s.ended me).modPart p fun q => { q with moved := [] }
       (free → ∀ v, s.moveNext p cls = some v → exec (.partitionResize c vf m) s = .next (v.begin me)) ∧
       (free → s.moveNext p cls = none → (∃ k ∈ s.holders p [], (s.core k).preempt.isSome = true) →
         exec (.partitionResize c vf m) s = .next (s.begin me)) ∧
       (free → s.moveNext p cls = none → (∀ k ∈ s.holders p [], (s.core k).preempt = none) →
         (s.unmoved p cls ≠ [] → exec (.partitionResize c vf m) s = .next (ended.respond c .noRoom 0)) ∧
         (s.unmoved p cls = [] → ∀ u, ended.resize p cls = .ok u → exec (.partitionResize c vf m) s = .next (u.respond c .ok 0))))) ∧
    (c.fn = 0 → x.mask = none → powerOk x = true → exec (.powerPolicy c x) s = .next ({ s with
      powerFloor := x.floor.getD s.powerFloor, thermalLimit := x.limit.getD s.thermalLimit
      powerCap := x.cap.getD s.powerCap }.respond c .ok 0)) ∧
    (c.fn ≠ 0 → x.floor.isSome ∨ x.limit.isSome ∨ x.cap.isSome → exec (.powerPolicy c x) s = .next (s.respond c .badCmd 0)) ∧
    (c.fn = x.vf → c.fn ≠ 0 → s.hasPart x.vf = true → powerOk x = true → x.floor = none → x.limit = none → x.cap = none →
      ∀ k, x.mask = some k → exec (.powerPolicy c x) s = .next ((s.setMask (x.vf - 1) k).respond c .ok 0)) ∧
    ∃ v r, exec (.telemetry c) s =
        .next ({ s with reports := s.reports ++ [(some c.fn, r)], freeCtr := s.freeCtr + 1 }.respond c .ok v) ∧
      (∀ e ∈ s.parts, c.fn = 0 ∨ e.1 + 1 = c.fn → (e.1, e.2.corrected) ∈ r.corrected ∧ (e.1, e.2.lostEvents) ∈ r.lostEvents) ∧
      (∀ e ∈ s.cores, e.2.disabled = true → e.1 ∈ r.deadCores) ∧ (∀ e ∈ s.dies, e.2.enabled = false → e.1 ∈ r.deadDies) ∧
      ∀ e ∈ s.ports, (e.1, e.2.lanes, e.2.rate) ∈ r.ports

/-- The commands that make and end things, move contexts and set policy. -/
def Obligations.ManagementCommands : Prop := Sys2Proof.Claim.CreatingCommands ∧ Sys2Proof.Claim.PolicyCommands

/-- The SPDM responder (R389-R391): a request out of order, or on a port that is not there, has no other effect than ERROR, or none;
version, capabilities and algorithms follow in that order; a session is established by FINISH with the right verify data, and only in one do
HEARTBEAT, KEY_UPDATE, END_SESSION and KEY_BIND act. Codes and reasons are PRESUMED (log 27), signatures and shares free (log 9). -/
def Obligations.SpdmResponder : Prop :=
  ∀ (s : State) (port : SpdmPort) (n h slot off len idx : Nat) (nonce : BitVec 256) (pk : BitVec 512) (v : BitVec 256) (key : BitVec 128)
    (a b d e : Bool), s.portLive port = true →
    let x := s.spdmAt port
    let error := fun (r : Byte) => s.answer port 0x7F [r]
    let ready := x.algs = true
    let live := ∃ q, s.sessionOf port n = some q ∧ q.established = true
    exec (.getVersion port) s =
      .next ((s.setSpdm port { x with version := true, caps := false, algs := false }).answer port 0x04 [0x00, 0x13]) ∧
    exec (.getCapabilities port) s = .next (if x.version = true
      then (s.setSpdm port { x with caps := true, algs := false }).answer port 0x61 [] else error 4) ∧
    (x.caps = false → exec (.negotiateAlgorithms port a b d e) s = .next (error 4)) ∧
    (x.caps = true → exec (.negotiateAlgorithms port a b d e) s = .next (if a = true ∧ b = true
      then (s.setSpdm port { x with algs := true }).answer port 0x63 ([a, b, d, e].map fun z => if z then (1 : Byte) else 0)
      else error 1)) ∧
    (¬ ready → ∀ i ∈ [Instr.getDigests port, .getCertificate port slot off len, .challenge port slot nonce, .getMeasurements port idx,
        .keyExchange port slot pk, .finish port n v, .heartbeat port n, .keyUpdate port n, .endSession port n,
        .vendorDefinedRequest port n h key], exec i s = .next (error 4)) ∧
    (ready →
      exec (.getDigests port) s = .next (s.answer port 0x01 (bytesOf (Config.sm3 (Config.certificateChain 0)).toNat 32)) ∧
      (slot = 0 → off ≤ (Config.certificateChain 0).length → exec (.getCertificate port slot off len) s =
        .next (s.answer port 0x02 (((Config.certificateChain 0).drop off).take len))) ∧
      (slot = 0 → ∃ g, exec (.challenge port slot nonce) s = .next ({ s with freeCtr := s.freeCtr + 1 }.answer port 0x03 g) ∧ g.length = 64) ∧
      (slot = 0 → ∃ g m, ∃ t : State, exec (.keyExchange port slot pk) s = .next (t.answer port 0x64 g) ∧ mapGet? s.sessions m = none ∧
        t.sessionOf port m = some { port := port, established := false, epoch := 0 } ∧ t.cores = s.cores) ∧
      (idx ∈ measuredIndices port → exec (.getMeasurements port idx) s =
        .next (s.answer port 0x60 (bytesOf (Config.measurement idx ((s.measured port idx).getD [])).toNat 32))) ∧
      (∀ q, s.sessionOf port n = some q → q.established = false →
        (v = Config.finishVerify n → ∃ t : State, exec (.finish port n v) s = .next (t.answer port 0x65 []) ∧
          t.sessionOf port n = some { q with established := true }) ∧
        (v ≠ Config.finishVerify n → ∃ t : State, exec (.finish port n v) s = .next (t.answer port 0x7F [6]) ∧
          (risesFrom 0 s.sessions = true → t.sessionOf port n = none))) ∧
      (¬ live → ∀ i ∈ [Instr.heartbeat port n, .keyUpdate port n, .endSession port n, .vendorDefinedRequest port n h key],
        exec i s = .next (error 4)) ∧
      ∀ q, s.sessionOf port n = some q → q.established = true →
        exec (.heartbeat port n) s = .next (s.answer port 0x68 []) ∧
        (∃ t : State, exec (.keyUpdate port n) s = .next (t.answer port 0x69 []) ∧ t.sessionOf port n = some { q with epoch := q.epoch + 1 }) ∧
        (∃ t : State, exec (.endSession port n) s = .next (t.answer port 0x6C []) ∧ (risesFrom 0 s.sessions = true → t.sessionOf port n = none)) ∧
        (∀ fn, port = .doe fn → fn ≠ 0 → h ≤ 15 → s.hasPart fn = true → ∃ t : State, exec (.vendorDefinedRequest port n h key) s =
          .next (t.answer port 0x7E []) ∧ mapGet? (t.part (fn - 1)).keys h = some key))

/-- A port's link (R405, R406, R418): a good flit that is expected next is taken, a failed one counted; an idle link sends a flit after 10
microseconds; what is not acknowledged is kept, and resent from its first flit on; eight failures in a row, or 100 microseconds without a valid flit, take it down with its route choices; a rate change
retrains it; training ends on 4 lanes, on 2, or down. -/
def Sys2Proof.Claim.Links : Prop :=
  ∀ (s : State) (n : Nat) (seq ack : BitVec 16) (rate : Bool) (lanes : Nat), n < 36 →
    let p := s.relran n
    let us := Config.cyclesPerMicrosecond
    (p.up = false → ∀ b, exec (.linkFlitReceive n seq b ack) s = .next s) ∧
    (p.up = true → exec (.linkFlitReceive n seq false ack) s = .next (s.setRelran n { p with fails := p.fails + 1 })) ∧
    (p.up = true → ∃ t, exec (.linkFlitReceive n seq true ack) s = .next t ∧ (t.relran n).lastValid = s.cycle ∧
      (t.relran n).rxSeq = (if seq = p.rxSeq then p.rxSeq + 1 else p.rxSeq) ∧
      (t.relran n).fails = (if seq = p.rxSeq then 0 else p.fails) ∧ (t.relran n).txSeq = p.txSeq ∧
      ((ack - p.acked).toNat ≤ (p.txSeq - p.acked).toNat → (t.relran n).acked = ack) ∧
      ∀ f, f ∈ (t.relran n).kept ↔ f ∈ p.kept ∧ (f.seq - (t.relran n).acked).toNat < 512) ∧
    (p.up = true → p.lastSent + 10 * us ≤ s.cycle → p.unacked < 512 →
      ∃ f : Flit, f.seq = p.txSeq ∧ f.ack = p.rxSeq ∧ f.pkt = none ∧ exec (.keepaliveSend n) s =
        .next (s.setRelran n { p with txSeq := p.txSeq + 1, lastSent := s.cycle, kept := p.kept ++ [f], line := p.line ++ [f] })) ∧
    (s.cycle < p.lastSent + 10 * us → exec (.keepaliveSend n) s = .next s) ∧
    (p.up = true → 8 ≤ p.fails ∨ p.lastValid + 100 * us ≤ s.cycle → ∃ t, exec (.linkDown n) s = .next t ∧ (t.relran n).up = false ∧
      ∀ e ∈ t.routes, ∀ i < 4, e.2.toNat / 2 ^ (6 * i) % 64 = n → e.2.getLsbD (24 + i) = false) ∧
    (p.fails < 8 → s.cycle < p.lastValid + 100 * us → exec (.linkDown n) s = .next s) ∧
    (p.up = true → p.kept ≠ [] → ∃ fs, p.resend s.cycle = { p with lastSent := s.cycle, line := p.line ++ fs } ∧
      fs.map (·.seq) = p.kept.map (·.seq) ∧ ∀ f ∈ fs, f.ack = p.rxSeq) ∧
    (p.rate = rate → exec (.portRateWrite n rate) s = .next s) ∧
    (p.rate ≠ rate → ∃ t, exec (.portRateWrite n rate) s = .next t ∧ (t.relran n).rate = rate ∧ (t.relran n).up = false ∧
      (t.relran n).lanes = 0) ∧
    (p.up = false → exec (.linkTrainingComplete n lanes) s = .next (s.setRelran n
      { lanes := if 4 ≤ lanes then 4 else if 2 ≤ lanes then 2 else 0, rate := p.rate, up := decide (2 ≤ lanes), txSeq := 0, rxSeq := 0
        acked := 0, fails := 0, lastValid := s.cycle, lastSent := s.cycle, kept := [], line := p.line }))

/-- REGISTER_WRITE (R374, R375, R408): the PF's fabric registers keep their writable bits and nothing else; a valid route admits its
package again, which is the model's reading (log 20); any other register of a function that exists is kept as written. -/
def Sys2Proof.Claim.RegisterWrites : Prop :=
  ∀ (s : State) (fn bar off n : Nat) (v : Word),
    exec (.registerWrite 0 2 0 v) s = .next { s with pkgid := v &&& 0x1FFF } ∧
    (n < 64 → exec (.registerWrite 0 2 (8 + 8 * n) v) s = .next { s with dtags := mapPut 0 s.dtags n (v &&& 0x1FFFF) }) ∧
    (n < 4608 → ∃ t, exec (.registerWrite 0 2 (0x1000 + 8 * n) v) s = .next t ∧ t.routes = mapPut 0 s.routes n (v &&& 0xFFFFFFF) ∧
      t.failed = (if ∃ i : Fin 4, v.getLsbD (24 + i.val) = true ∧ v.toNat / 2 ^ (6 * i.val) % 64 < 36 then setDel s.failed n else s.failed) ∧ t.mem = s.mem ∧ t.cores = s.cores) ∧
    (fn ≠ 0 → s.hasPart fn = false → exec (.registerWrite fn bar off v) s = .next s) ∧
    ((fn = 0 ∧ bar ≠ 2) ∨ s.hasPart fn = true → exec (.registerWrite fn bar off v) s = .next { s with bars := mapPut 0 s.bars ((fn * 8 + bar) * 2 ^ 32 + off) v })

/-- FABRIC_REQUEST_ARRIVAL (R412, R415, R416, R418): a request of a failed package, or to a package out of every domain, is discarded;
one performed before is answered from the window and not performed again; one with no right here is answered PROT; another goes to its
home slice. That a malformed one is discarded, and that a reply stands at the ports at once, are the model's readings, logs 37 (DEDUCED) and
80. -/
def Sys2Proof.Claim.FabricArrivals : Prop :=
  ∀ (s : State) (r : FabricReq),
    (4607 < s.pkgid.toNat ∨ r.source ∈ s.failed → exec (.fabricRequestArrival r) s = .next s) ∧
    (s.pkgid.toNat ≤ 4607 → r.source ∉ s.failed →
      let w := (s.window r.source).advance r.ackBelow.toNat
      let u := { s with windows := mapSet s.windows r.source w }
      let fits := seqAbove r.seq.toNat w.base < 4096 ∧ 1 ≤ reqBytes r ∧ r.pa % 64 + reqBytes r ≤ 64 ∧ u.fabricPending r = false
      (¬ fits → exec (.fabricRequestArrival r) s = .next u) ∧
      (fits → ∀ v, mapGet? w.done r.seq.toNat = some v →
        (∀ bs, r.op = .write bs → exec (.fabricRequestArrival r) s = .next (u.replyTo r (.data 0))) ∧
        ((∃ o d b, r.op = .amo o d b) ∨ (∃ d x b, r.op = .cas d x b) →
          exec (.fabricRequestArrival r) s = .next (u.replyTo r (.data ((v.getD 0).setWidth 512))))) ∧
      (fits → mapGet? w.done r.seq.toNat = none ∨ (∃ n, r.op = .read n) →
        (u.fabricHome r.dtag.toNat r.pa = none → exec (.fabricRequestArrival r) s = .next (u.replyTo r .prot)) ∧
        ∀ h, u.fabricHome r.dtag.toNat r.pa = some h → exec (.fabricRequestArrival r) s =
          .next ((u.admitFabric r h).wakeDie (dieOf (homeSlice (u.part h) r.pa / 4))))) ∧
    ∀ a, ∃ k, (s.replyTo r a).packets = s.packets ++ [k] ∧ k.load = .reply r a ∧ k.place = .port ∧ k.origin = some r.source ∧ k.cls = r.cls

/-- The source's side of the fabric (R320, R407, R409, R415, R416, R418-R420): a port that is up decides by the law on structure 9 among
the requests that may leave by it; a request unanswered for 20 microseconds is queued again with its number; 20 after they were last sent, a
keep-alive packet takes the acknowledgements to the ports; a failed package is fenced, leaves the routes and has what waits at the ports for
it dropped, and what it owes is answered
FABRIC; its own failure contains every launch. A port's room of 512 unacknowledged flits is the model's choice, log 34, and a packet stands at
the ports at once, log 80. -/
def Sys2Proof.Claim.FabricSource : Prop :=
  ∀ (s : State) (n target : Nat) (seq : BitVec 32),
    let period := 20 * Config.cyclesPerMicrosecond
    (36 ≤ n ∨ (s.relran n).up = false ∨ 512 < (s.relran n).unacked + s.flits → exec (.relranPortArbitration n) s = .next s) ∧
    (n < 36 → (s.relran n).up = true → (s.relran n).unacked + s.flits ≤ 512 → ∀ p u,
      s.arbitrate 9 n (64 * s.pkgid.toNat + n) (byArrival Packet.portInput (s.packets.filter (s.mayLeave n))) = (some p, u) →
      ∃ t, exec (.relranPortArbitration n) s = .next t ∧ (t.relran n).txSeq = (s.relran n).txSeq + BitVec.ofNat 16 s.flits ∧
        (∀ x y z k, p.load = .away x y z k → t.outstanding =
          u.outstanding.map fun o => if o.pkt == p.id then { o with queued := false, sent := true, sentAt := s.cycle } else o) ∧
        ∀ r a, p.load = .reply r a → ∃ x, t.replied = s.replied ++ [x] ∧ x.target = r.source ∧ x.seq = r.seq ∧ x.answer = a ∧
          ∀ q ∈ t.packets, q.id ≠ p.id) ∧
    (∀ p, s.packets = [p] → s.mayLeave n p = true → n < 36 → (s.relran n).up = true → (s.relran n).unacked + s.flits ≤ 512 →
      ∃ t, exec (.relranPortArbitration n) s = .next t ∧ (t.relran n).txSeq = (s.relran n).txSeq + BitVec.ofNat 16 s.flits ∧ t.mem = s.mem ∧
        t.cores = s.cores ∧ t.parts = s.parts) ∧
    (∀ p, s.mayLeave n p = true → s.pkgid.toNat ≤ 4607 ∧ ∃ to' ps, s.portTarget p = some (to', ps) ∧ to' ∉ s.failed ∧ n ∈ ps ∧
      (p.cls = 0 → ps.head? = some n)) ∧
    (∃ t, exec (.requestRetransmit target seq) s = .next t ∧ t.outstanding.length = s.outstanding.length ∧ t.packets = s.packets ∧
      ∀ o ∈ s.outstanding, (o.target = target → o.req.seq = seq → o.queued = false → o.sentAt + period ≤ s.cycle → target ∉ s.failed →
        s.pkgid.toNat ≤ 4607 → { o with queued := true } ∈ t.outstanding) ∧
        (o.target ≠ target ∨ o.req.seq ≠ seq ∨ s.cycle < o.sentAt + period → o ∈ t.outstanding)) ∧
    (∀ x, mapGet? s.ackSent target = some x → target ∉ s.failed → x.2 + period ≤ s.cycle → s.pkgid.toNat ≤ 4607 →
      exec (.sequenceAckKeepalive target) s = .next { s.tick with
        packets := s.packets ++ [s.keepAlivePacket target], ackSent := mapSet s.ackSent target (s.ackBelow target, s.cycle) }) ∧
    (∀ x, mapGet? s.ackSent target = some x → s.cycle < x.2 + period → exec (.sequenceAckKeepalive target) s = .next s) ∧
    (BitVec.ofNat 64 target ≠ s.pkgid → exec (.packageFailureDeclared target) s =
      .next { s with failed := setAdd s.failed target, routes := mapErase s.routes target
                     packets := s.packets.filter fun k => !(k.place == .port && k.bringsTo target) }) ∧
    (BitVec.ofNat 64 target = s.pkgid → exec (.packageFailureDeclared target) s =
      .next (s.parts.foldl (fun u x => u.killAll x.1 0x0005) s)) ∧
    (target ∉ s.failed → exec (.fabricFailureAnswer target) s = .next s) ∧
    (target ∈ s.failed → ∃ t, exec (.fabricFailureAnswer target) s = .next t ∧
      (∀ o ∈ s.outstanding, o.target = target → (∃ p ∈ s.packets, p.id = o.pkt) → (∀ x ∈ s.outstanding, x.pkt = o.pkt → x = o) →
        ∀ x ∈ t.outstanding, x.pkt ≠ o.pkt) ∧ t.mem = s.mem)

/-- Links, fabric registers, and requests between packages. -/
def Obligations.Fabric : Prop := Sys2Proof.Claim.Links ∧ Sys2Proof.Claim.RegisterWrites ∧ Sys2Proof.Claim.FabricArrivals ∧ Sys2Proof.Claim.FabricSource
end

