-- ==== Sys2Proof/Laws/SMap.lean ====
section
/-!
SUPPORT. Laws of sparse maps and of memory: reading after writing, and the canonical form that every memory operation keeps.
-/
namespace Sys2Proof.Machine

variable {V : Type}

@[simp] theorem mapGet?_mapSet_self (m : SMap V) (k : Nat) (v : V) : mapGet? (mapSet m k v) k = some v := by
  induction m with
  | nil => simp [mapSet, mapGet?]
  | cons e rest ih =>
    obtain ⟨j, u⟩ := e
    simp only [mapSet]
    split
    · simp [mapGet?]
    · split
      · simp [mapGet?]
      · simp_all [mapGet?]

theorem mapGet?_mapSet_ne (m : SMap V) {k k' : Nat} (v : V) (h : k' ≠ k) : mapGet? (mapSet m k v) k' = mapGet? m k' := by
  induction m with
  | nil => simp [mapSet, mapGet?, Ne.symm h]
  | cons e rest ih =>
    obtain ⟨j, u⟩ := e
    simp only [mapSet]
    split
    · next hj => subst hj; simp [mapGet?, Ne.symm h]
    · split
      · next hj hlt =>
        simp only [mapGet?, Ne.symm h, if_false]
        by_cases hk : k' < k
        · have : k' < j := by omega
          have hne : j ≠ k' := by omega
          simp [hk, this, hne]
        · simp [hk]
      · simp [mapGet?, ih]

@[simp] theorem mapGet_mapSet_self (m : SMap V) (k : Nat) (v d : V) : mapGet (mapSet m k v) k d = v := by simp [mapGet]

theorem mapGet_mapSet_ne (m : SMap V) {k k' : Nat} (v d : V) (h : k' ≠ k) : mapGet (mapSet m k v) k' d = mapGet m k' d := by
  simp [mapGet, mapGet?_mapSet_ne m v h]

/-- A key below every listed key is not listed. -/
theorem mapGet?_of_rises {m : SMap V} {lo k : Nat} (h : risesFrom lo m = true) (hk : k < lo) : mapGet? m k = none := by
  cases m with
  | nil => rfl
  | cons e rest =>
    obtain ⟨j, u⟩ := e
    simp only [risesFrom, Bool.and_eq_true, decide_eq_true_eq] at h
    have h1 : j ≠ k := by omega
    have h2 : k < j := by omega
    simp [mapGet?, h1, h2]

theorem risesFrom_mono {m : SMap V} {lo lo' : Nat} (h : risesFrom lo m = true) (hl : lo' ≤ lo) : risesFrom lo' m = true := by
  cases m with
  | nil => rfl
  | cons e rest =>
    simp only [risesFrom, Bool.and_eq_true, decide_eq_true_eq] at h ⊢
    exact ⟨by omega, h.2⟩

theorem risesFrom_mapSet {m : SMap V} {lo k : Nat} (v : V) (h : risesFrom lo m = true) (hk : lo ≤ k) :
    risesFrom lo (mapSet m k v) = true := by
  induction m generalizing lo with
  | nil => simp [mapSet, risesFrom, hk]
  | cons e rest ih =>
    obtain ⟨j, u⟩ := e
    simp only [risesFrom, Bool.and_eq_true, decide_eq_true_eq] at h
    simp only [mapSet]
    split
    · next hj => subst hj; simp [risesFrom, h.1, h.2]
    · split
      · next hj hlt =>
        simp only [risesFrom, Bool.and_eq_true, decide_eq_true_eq]
        exact ⟨hk, by omega, h.2⟩
      · simp only [risesFrom, Bool.and_eq_true, decide_eq_true_eq]
        exact ⟨h.1, ih h.2 (by omega)⟩

theorem risesFrom_mapErase {m : SMap V} {lo k : Nat} (h : risesFrom lo m = true) : risesFrom lo (mapErase m k) = true := by
  induction m generalizing lo with
  | nil => rfl
  | cons e rest ih =>
    obtain ⟨j, u⟩ := e
    simp only [risesFrom, Bool.and_eq_true, decide_eq_true_eq] at h
    simp only [mapErase]
    split
    · exact risesFrom_mono h.2 (by omega)
    · split
      · simp [risesFrom, h.1, h.2]
      · simp only [risesFrom, Bool.and_eq_true, decide_eq_true_eq]
        exact ⟨h.1, ih h.2⟩

theorem risesFrom_filter {m : SMap V} {lo : Nat} (p : Nat × V → Bool) (h : risesFrom lo m = true) :
    risesFrom lo (m.filter p) = true := by
  induction m generalizing lo with
  | nil => rfl
  | cons e rest ih =>
    obtain ⟨j, u⟩ := e
    simp only [risesFrom, Bool.and_eq_true, decide_eq_true_eq] at h
    simp only [List.filter_cons]
    split
    · simp only [risesFrom, Bool.and_eq_true, decide_eq_true_eq]
      exact ⟨h.1, ih h.2⟩
    · exact risesFrom_mono (ih h.2) (by omega)

theorem mem_mapSet {m : SMap V} {k : Nat} {v : V} {e : Nat × V} (h : e ∈ mapSet m k v) : e = (k, v) ∨ e ∈ m := by
  induction m with
  | nil => simpa [mapSet] using h
  | cons x rest ih =>
    obtain ⟨j, u⟩ := x
    simp only [mapSet] at h
    split at h
    · simp only [List.mem_cons] at h ⊢; tauto
    · split at h
      · simp only [List.mem_cons] at h ⊢; tauto
      · simp only [List.mem_cons] at h ⊢
        rcases h with h | h
        · tauto
        · rcases ih h with h | h <;> tauto

theorem mem_mapErase {m : SMap V} {k : Nat} {e : Nat × V} (h : e ∈ mapErase m k) : e ∈ m := by
  induction m with
  | nil => simp [mapErase] at h
  | cons x rest ih =>
    obtain ⟨j, u⟩ := x
    simp only [mapErase] at h
    split at h
    · exact List.mem_cons_of_mem _ h
    · split at h
      · exact h
      · simp only [List.mem_cons] at h ⊢
        rcases h with h | h
        · exact .inl h
        · exact .inr (ih h)

theorem mapGet?_mapErase_ne (m : SMap V) {k k' : Nat} (h : k' ≠ k) {lo : Nat} (hr : risesFrom lo m = true) :
    mapGet? (mapErase m k) k' = mapGet? m k' := by
  induction m generalizing lo with
  | nil => rfl
  | cons e rest ih =>
    obtain ⟨j, u⟩ := e
    simp only [risesFrom, Bool.and_eq_true, decide_eq_true_eq] at hr
    simp only [mapErase]
    split
    · next hj =>
      subst hj
      by_cases hk : k' < j
      · rw [mapGet?_of_rises hr.2 (by omega)]
        have : j ≠ k' := by omega
        simp [mapGet?, hk, this]
      · simp [mapGet?, Ne.symm h, hk]
    · split
      · rfl
      · simp [mapGet?, ih hr.2]

theorem mapGet?_mapErase_self (m : SMap V) (k : Nat) {lo : Nat} (hr : risesFrom lo m = true) :
    mapGet? (mapErase m k) k = none := by
  induction m generalizing lo with
  | nil => rfl
  | cons e rest ih =>
    obtain ⟨j, u⟩ := e
    simp only [risesFrom, Bool.and_eq_true, decide_eq_true_eq] at hr
    simp only [mapErase]
    split
    · next hj => subst hj; exact mapGet?_of_rises hr.2 (by omega)
    · split
      · next hj hlt => simp [mapGet?, hj, hlt]
      · next hj hlt => simp [mapGet?, hj, hlt, ih hr.2]

variable [DecidableEq V]

theorem mapWf_iff {d : V} {m : SMap V} : mapWf d m = true ↔ risesFrom 0 m = true ∧ ∀ e ∈ m, e.2 ≠ d := by
  simp [mapWf, List.all_eq_true]

/-- Setting a key of a map with a default keeps the canonical form. -/
theorem mapWf_mapPut {d : V} {m : SMap V} (k : Nat) (v : V) (h : mapWf d m = true) : mapWf d (mapPut d m k v) = true := by
  rw [mapWf_iff] at h ⊢
  unfold mapPut
  split
  · exact ⟨risesFrom_mapErase h.1, fun e he => h.2 e (mem_mapErase he)⟩
  · next hv =>
    refine ⟨risesFrom_mapSet v h.1 (Nat.zero_le k), fun e he => ?_⟩
    rcases mem_mapSet he with rfl | he
    · exact hv
    · exact h.2 e he

theorem mapWf_filter {d : V} {m : SMap V} (p : Nat × V → Bool) (h : mapWf d m = true) : mapWf d (m.filter p) = true := by
  rw [mapWf_iff] at h ⊢
  exact ⟨risesFrom_filter p h.1, fun e he => h.2 e (List.mem_filter.mp he).1⟩

/-! ### Memory -/

/-- Reading a byte just written gives it. -/
theorem Memory.read_write_self {m : List Host.Cell} (h : Memory.wf m = true) (a : Nat) (b : Byte) :
    Memory.read (Memory.write m a b) a = b := by
  have hr := (mapWf_iff.mp h).1
  unfold Memory.read Memory.write mapPut
  split
  · next hb => subst hb; simp [mapGet, mapGet?_mapErase_self m a hr]
  · exact mapGet_mapSet_self ..

/-- Writing a byte leaves every other byte alone. -/
theorem Memory.read_write_ne {m : List Host.Cell} (h : Memory.wf m = true) {a a' : Nat} (b : Byte) (hne : a' ≠ a) :
    Memory.read (Memory.write m a b) a' = Memory.read m a' := by
  have hr := (mapWf_iff.mp h).1
  unfold Memory.read Memory.write mapPut
  split
  · simp [mapGet, mapGet?_mapErase_ne m hne hr]
  · exact mapGet_mapSet_ne m b _ hne

theorem Memory.wf_nil : Memory.wf [] = true := rfl

theorem Memory.wf_write {m : List Host.Cell} (a : Nat) (b : Byte) (h : Memory.wf m = true) : Memory.wf (Memory.write m a b) = true :=
  mapWf_mapPut a b h

theorem Memory.wf_writeN {m : List Host.Cell} (a n v : Nat) (h : Memory.wf m = true) : Memory.wf (Memory.writeN m a n v) = true := by
  induction n generalizing m a v with
  | zero => exact h
  | succ n ih => exact ih _ _ (Memory.wf_write a _ h)

theorem Memory.wf_writeBytes {m : List Host.Cell} (a : Nat) (bs : List Byte) (h : Memory.wf m = true) :
    Memory.wf (Memory.writeBytes m a bs) = true := by
  induction bs generalizing m a with
  | nil => exact h
  | cons b rest ih => exact ih _ (Memory.wf_write a b h)

theorem Memory.wf_writeCells {m : List Host.Cell} (cs : List Host.Cell) (h : Memory.wf m = true) :
    Memory.wf (Memory.writeCells m cs) = true := by
  unfold Memory.writeCells
  induction cs generalizing m with
  | nil => exact h
  | cons c rest ih => exact ih (Memory.wf_write c.1 c.2 h)

theorem Memory.wf_filter {m : List Host.Cell} (p : Host.Cell → Bool) (h : Memory.wf m = true) : Memory.wf (m.filter p) = true :=
  mapWf_filter p h

theorem Memory.wf_clear {m : List Host.Cell} (a n : Nat) (h : Memory.wf m = true) : Memory.wf (Memory.clear m a n) = true :=
  Memory.wf_filter _ h

/-- Writing n bytes leaves every byte outside them alone. -/
theorem Memory.read_writeN_outside {m : List Host.Cell} (h : Memory.wf m = true) {a n v a' : Nat} (ho : a' < a ∨ a + n ≤ a') :
    Memory.read (Memory.writeN m a n v) a' = Memory.read m a' := by
  induction n generalizing m a v with
  | zero => rfl
  | succ n ih =>
    rw [Memory.writeN, ih (Memory.wf_write a _ h) (by omega), Memory.read_write_ne h _ (by omega)]

/-- Writing some cells leaves every byte alone that none of them names. -/
theorem Memory.read_writeCells_outside {m : List Host.Cell} (h : Memory.wf m = true) {cs : List Host.Cell} {a : Nat}
    (ho : ∀ c ∈ cs, c.1 ≠ a) : Memory.read (Memory.writeCells m cs) a = Memory.read m a := by
  unfold Memory.writeCells
  induction cs generalizing m with
  | nil => rfl
  | cons c rest ih =>
    rw [List.foldl_cons, ih (Memory.wf_write c.1 c.2 h) (fun x hx => ho x (List.mem_cons_of_mem _ hx)),
      Memory.read_write_ne h _ (Ne.symm (ho c List.mem_cons_self))]

/-- Reading n bytes just written gives the low n bytes of the number. -/
theorem Memory.readN_writeN {m : List Host.Cell} (h : Memory.wf m = true) (a n v : Nat) :
    Memory.readN (Memory.writeN m a n v) a n = v % 256 ^ n := by
  induction n generalizing m a v with
  | zero => simp [Memory.readN, Nat.mod_one]
  | succ n ih =>
    have hw := Memory.wf_write a (BitVec.ofNat 8 v) h
    rw [Memory.readN, Memory.writeN, ih hw, Memory.read_writeN_outside hw (by omega), Memory.read_write_self h,
      BitVec.toNat_ofNat, show (2 : Nat) ^ 8 = 256 from rfl, pow_succ', Nat.mod_mul]

end Sys2Proof.Machine
end

