-- ==== Sys2Proof/Laws/State.lean ====
section
/-!
SUPPORT. What each update of the state leaves alone, field by field, and what reading a core, a slot or a partition gives after
writing it.
-/
namespace Sys2Proof.Machine

/-! ### setCore -/

@[simp] theorem State.setCore_inbox (s : State) (c : Nat) (k : Core) : (s.setCore c k).inbox = s.inbox := rfl
@[simp] theorem State.setCore_begun (s : State) (c : Nat) (k : Core) : (s.setCore c k).begun = s.begun := rfl
@[simp] theorem State.setCore_curCore (s : State) (c : Nat) (k : Core) : (s.setCore c k).curCore = s.curCore := rfl
@[simp] theorem State.setCore_curSlot (s : State) (c : Nat) (k : Core) : (s.setCore c k).curSlot = s.curSlot := rfl
@[simp] theorem State.setCore_cycle (s : State) (c : Nat) (k : Core) : (s.setCore c k).cycle = s.cycle := rfl
@[simp] theorem State.setCore_turn (s : State) (c : Nat) (k : Core) : (s.setCore c k).turn = s.turn := rfl
@[simp] theorem State.setCore_stamp (s : State) (c : Nat) (k : Core) : (s.setCore c k).stamp = s.stamp := rfl
@[simp] theorem State.setCore_freeCtr (s : State) (c : Nat) (k : Core) : (s.setCore c k).freeCtr = s.freeCtr := rfl
@[simp] theorem State.setCore_sent (s : State) (c : Nat) (k : Core) : (s.setCore c k).sent = s.sent := rfl
@[simp] theorem State.setCore_mem (s : State) (c : Nat) (k : Core) : (s.setCore c k).mem = s.mem := rfl
@[simp] theorem State.setCore_memBad (s : State) (c : Nat) (k : Core) : (s.setCore c k).memBad = s.memBad := rfl
@[simp] theorem State.setCore_latent (s : State) (c : Nat) (k : Core) : (s.setCore c k).latent = s.latent := rfl
@[simp] theorem State.setCore_l2 (s : State) (c : Nat) (k : Core) : (s.setCore c k).l2 = s.l2 := rfl
@[simp] theorem State.setCore_clusters (s : State) (c : Nat) (k : Core) : (s.setCore c k).clusters = s.clusters := rfl
@[simp] theorem State.setCore_parts (s : State) (c : Nat) (k : Core) : (s.setCore c k).parts = s.parts := rfl
@[simp] theorem State.setCore_packets (s : State) (c : Nat) (k : Core) : (s.setCore c k).packets = s.packets := rfl
@[simp] theorem State.setCore_hostMem (s : State) (c : Nat) (k : Core) : (s.setCore c k).hostMem = s.hostMem := rfl
@[simp] theorem State.setCore_queues (s : State) (c : Nat) (k : Core) : (s.setCore c k).queues = s.queues := rfl
@[simp] theorem State.setCore_admins (s : State) (c : Nat) (k : Core) : (s.setCore c k).admins = s.admins := rfl
@[simp] theorem State.setCore_pfEvents (s : State) (c : Nat) (k : Core) : (s.setCore c k).pfEvents = s.pfEvents := rfl
@[simp] theorem State.setCore_spdm (s : State) (c : Nat) (k : Core) : (s.setCore c k).spdm = s.spdm := rfl
@[simp] theorem State.setCore_sessions (s : State) (c : Nat) (k : Core) : (s.setCore c k).sessions = s.sessions := rfl
@[simp] theorem State.setCore_ide (s : State) (c : Nat) (k : Core) : (s.setCore c k).ide = s.ide := rfl
@[simp] theorem State.setCore_ready (s : State) (c : Nat) (k : Core) : (s.setCore c k).ready = s.ready := rfl
@[simp] theorem State.setCore_recovery (s : State) (c : Nat) (k : Core) : (s.setCore c k).recovery = s.recovery := rfl
@[simp] theorem State.setCore_fwVersion (s : State) (c : Nat) (k : Core) : (s.setCore c k).fwVersion = s.fwVersion := rfl
@[simp] theorem State.setCore_fwFuse (s : State) (c : Nat) (k : Core) : (s.setCore c k).fwFuse = s.fwFuse := rfl
@[simp] theorem State.setCore_fwStaged (s : State) (c : Nat) (k : Core) : (s.setCore c k).fwStaged = s.fwStaged := rfl
@[simp] theorem State.setCore_dies (s : State) (c : Nat) (k : Core) : (s.setCore c k).dies = s.dies := rfl
@[simp] theorem State.setCore_thermalLimit (s : State) (c : Nat) (k : Core) : (s.setCore c k).thermalLimit = s.thermalLimit := rfl
@[simp] theorem State.setCore_powerFloor (s : State) (c : Nat) (k : Core) : (s.setCore c k).powerFloor = s.powerFloor := rfl
@[simp] theorem State.setCore_powerCap (s : State) (c : Nat) (k : Core) : (s.setCore c k).powerCap = s.powerCap := rfl
@[simp] theorem State.setCore_lastReset (s : State) (c : Nat) (k : Core) : (s.setCore c k).lastReset = s.lastReset := rfl
@[simp] theorem State.setCore_debugger (s : State) (c : Nat) (k : Core) : (s.setCore c k).debugger = s.debugger := rfl
@[simp] theorem State.setCore_banks (s : State) (c : Nat) (k : Core) : (s.setCore c k).banks = s.banks := rfl
@[simp] theorem State.setCore_scrubbed (s : State) (c : Nat) (k : Core) : (s.setCore c k).scrubbed = s.scrubbed := rfl
@[simp] theorem State.setCore_replays (s : State) (c : Nat) (k : Core) : (s.setCore c k).replays = s.replays := rfl
@[simp] theorem State.setCore_pkgid (s : State) (c : Nat) (k : Core) : (s.setCore c k).pkgid = s.pkgid := rfl
@[simp] theorem State.setCore_dtags (s : State) (c : Nat) (k : Core) : (s.setCore c k).dtags = s.dtags := rfl
@[simp] theorem State.setCore_routes (s : State) (c : Nat) (k : Core) : (s.setCore c k).routes = s.routes := rfl
@[simp] theorem State.setCore_bars (s : State) (c : Nat) (k : Core) : (s.setCore c k).bars = s.bars := rfl
@[simp] theorem State.setCore_ports (s : State) (c : Nat) (k : Core) : (s.setCore c k).ports = s.ports := rfl
@[simp] theorem State.setCore_nextSeq (s : State) (c : Nat) (k : Core) : (s.setCore c k).nextSeq = s.nextSeq := rfl
@[simp] theorem State.setCore_ackSent (s : State) (c : Nat) (k : Core) : (s.setCore c k).ackSent = s.ackSent := rfl
@[simp] theorem State.setCore_outstanding (s : State) (c : Nat) (k : Core) : (s.setCore c k).outstanding = s.outstanding := rfl
@[simp] theorem State.setCore_windows (s : State) (c : Nat) (k : Core) : (s.setCore c k).windows = s.windows := rfl
@[simp] theorem State.setCore_failed (s : State) (c : Nat) (k : Core) : (s.setCore c k).failed = s.failed := rfl
@[simp] theorem State.setCore_remoteCtr (s : State) (c : Nat) (k : Core) : (s.setCore c k).remoteCtr = s.remoteCtr := rfl
@[simp] theorem State.setCore_remoteSeeds (s : State) (c : Nat) (k : Core) : (s.setCore c k).remoteSeeds = s.remoteSeeds := rfl
@[simp] theorem State.setCore_keepalives (s : State) (c : Nat) (k : Core) : (s.setCore c k).keepalives = s.keepalives := rfl
@[simp] theorem State.setCore_replied (s : State) (c : Nat) (k : Core) : (s.setCore c k).replied = s.replied := rfl
@[simp] theorem State.setCore_vaultBad (s : State) (c : Nat) (k : Core) : (s.setCore c k).vaultBad = s.vaultBad := rfl
@[simp] theorem State.setCore_fwDigest (s : State) (c : Nat) (k : Core) : (s.setCore c k).fwDigest = s.fwDigest := rfl
@[simp] theorem State.setCore_fwSignature (s : State) (c : Nat) (k : Core) : (s.setCore c k).fwSignature = s.fwSignature := rfl
@[simp] theorem State.setCore_debugLog (s : State) (c : Nat) (k : Core) : (s.setCore c k).debugLog = s.debugLog := rfl
@[simp] theorem State.setCore_decided (s : State) (c : Nat) (k : Core) : (s.setCore c k).decided = s.decided := rfl
@[simp] theorem State.setCore_unrouted (s : State) (c : Nat) (k : Core) : (s.setCore c k).unrouted = s.unrouted := rfl
@[simp] theorem State.setCore_announced (s : State) (c : Nat) (k : Core) : (s.setCore c k).announced = s.announced := rfl
@[simp] theorem State.setCore_reports (s : State) (c : Nat) (k : Core) : (s.setCore c k).reports = s.reports := rfl

/-! ### setPart -/

@[simp] theorem State.setPart_inbox (s : State) (p : Nat) (q : Partition) : (s.setPart p q).inbox = s.inbox := rfl
@[simp] theorem State.setPart_begun (s : State) (p : Nat) (q : Partition) : (s.setPart p q).begun = s.begun := rfl
@[simp] theorem State.setPart_curCore (s : State) (p : Nat) (q : Partition) : (s.setPart p q).curCore = s.curCore := rfl
@[simp] theorem State.setPart_curSlot (s : State) (p : Nat) (q : Partition) : (s.setPart p q).curSlot = s.curSlot := rfl
@[simp] theorem State.setPart_cycle (s : State) (p : Nat) (q : Partition) : (s.setPart p q).cycle = s.cycle := rfl
@[simp] theorem State.setPart_turn (s : State) (p : Nat) (q : Partition) : (s.setPart p q).turn = s.turn := rfl
@[simp] theorem State.setPart_stamp (s : State) (p : Nat) (q : Partition) : (s.setPart p q).stamp = s.stamp := rfl
@[simp] theorem State.setPart_freeCtr (s : State) (p : Nat) (q : Partition) : (s.setPart p q).freeCtr = s.freeCtr := rfl
@[simp] theorem State.setPart_sent (s : State) (p : Nat) (q : Partition) : (s.setPart p q).sent = s.sent := rfl
@[simp] theorem State.setPart_mem (s : State) (p : Nat) (q : Partition) : (s.setPart p q).mem = s.mem := rfl
@[simp] theorem State.setPart_memBad (s : State) (p : Nat) (q : Partition) : (s.setPart p q).memBad = s.memBad := rfl
@[simp] theorem State.setPart_latent (s : State) (p : Nat) (q : Partition) : (s.setPart p q).latent = s.latent := rfl
@[simp] theorem State.setPart_l2 (s : State) (p : Nat) (q : Partition) : (s.setPart p q).l2 = s.l2 := rfl
@[simp] theorem State.setPart_cores (s : State) (p : Nat) (q : Partition) : (s.setPart p q).cores = s.cores := rfl
@[simp] theorem State.setPart_clusters (s : State) (p : Nat) (q : Partition) : (s.setPart p q).clusters = s.clusters := rfl
@[simp] theorem State.setPart_packets (s : State) (p : Nat) (q : Partition) : (s.setPart p q).packets = s.packets := rfl
@[simp] theorem State.setPart_hostMem (s : State) (p : Nat) (q : Partition) : (s.setPart p q).hostMem = s.hostMem := rfl
@[simp] theorem State.setPart_queues (s : State) (p : Nat) (q : Partition) : (s.setPart p q).queues = s.queues := rfl
@[simp] theorem State.setPart_admins (s : State) (p : Nat) (q : Partition) : (s.setPart p q).admins = s.admins := rfl
@[simp] theorem State.setPart_pfEvents (s : State) (p : Nat) (q : Partition) : (s.setPart p q).pfEvents = s.pfEvents := rfl
@[simp] theorem State.setPart_spdm (s : State) (p : Nat) (q : Partition) : (s.setPart p q).spdm = s.spdm := rfl
@[simp] theorem State.setPart_sessions (s : State) (p : Nat) (q : Partition) : (s.setPart p q).sessions = s.sessions := rfl
@[simp] theorem State.setPart_ide (s : State) (p : Nat) (q : Partition) : (s.setPart p q).ide = s.ide := rfl
@[simp] theorem State.setPart_ready (s : State) (p : Nat) (q : Partition) : (s.setPart p q).ready = s.ready := rfl
@[simp] theorem State.setPart_recovery (s : State) (p : Nat) (q : Partition) : (s.setPart p q).recovery = s.recovery := rfl
@[simp] theorem State.setPart_fwVersion (s : State) (p : Nat) (q : Partition) : (s.setPart p q).fwVersion = s.fwVersion := rfl
@[simp] theorem State.setPart_fwFuse (s : State) (p : Nat) (q : Partition) : (s.setPart p q).fwFuse = s.fwFuse := rfl
@[simp] theorem State.setPart_fwStaged (s : State) (p : Nat) (q : Partition) : (s.setPart p q).fwStaged = s.fwStaged := rfl
@[simp] theorem State.setPart_dies (s : State) (p : Nat) (q : Partition) : (s.setPart p q).dies = s.dies := rfl
@[simp] theorem State.setPart_thermalLimit (s : State) (p : Nat) (q : Partition) : (s.setPart p q).thermalLimit = s.thermalLimit := rfl
@[simp] theorem State.setPart_powerFloor (s : State) (p : Nat) (q : Partition) : (s.setPart p q).powerFloor = s.powerFloor := rfl
@[simp] theorem State.setPart_powerCap (s : State) (p : Nat) (q : Partition) : (s.setPart p q).powerCap = s.powerCap := rfl
@[simp] theorem State.setPart_lastReset (s : State) (p : Nat) (q : Partition) : (s.setPart p q).lastReset = s.lastReset := rfl
@[simp] theorem State.setPart_debugger (s : State) (p : Nat) (q : Partition) : (s.setPart p q).debugger = s.debugger := rfl
@[simp] theorem State.setPart_banks (s : State) (p : Nat) (q : Partition) : (s.setPart p q).banks = s.banks := rfl
@[simp] theorem State.setPart_scrubbed (s : State) (p : Nat) (q : Partition) : (s.setPart p q).scrubbed = s.scrubbed := rfl
@[simp] theorem State.setPart_replays (s : State) (p : Nat) (q : Partition) : (s.setPart p q).replays = s.replays := rfl
@[simp] theorem State.setPart_pkgid (s : State) (p : Nat) (q : Partition) : (s.setPart p q).pkgid = s.pkgid := rfl
@[simp] theorem State.setPart_dtags (s : State) (p : Nat) (q : Partition) : (s.setPart p q).dtags = s.dtags := rfl
@[simp] theorem State.setPart_routes (s : State) (p : Nat) (q : Partition) : (s.setPart p q).routes = s.routes := rfl
@[simp] theorem State.setPart_bars (s : State) (p : Nat) (q : Partition) : (s.setPart p q).bars = s.bars := rfl
@[simp] theorem State.setPart_ports (s : State) (p : Nat) (q : Partition) : (s.setPart p q).ports = s.ports := rfl
@[simp] theorem State.setPart_nextSeq (s : State) (p : Nat) (q : Partition) : (s.setPart p q).nextSeq = s.nextSeq := rfl
@[simp] theorem State.setPart_ackSent (s : State) (p : Nat) (q : Partition) : (s.setPart p q).ackSent = s.ackSent := rfl
@[simp] theorem State.setPart_outstanding (s : State) (p : Nat) (q : Partition) : (s.setPart p q).outstanding = s.outstanding := rfl
@[simp] theorem State.setPart_windows (s : State) (p : Nat) (q : Partition) : (s.setPart p q).windows = s.windows := rfl
@[simp] theorem State.setPart_failed (s : State) (p : Nat) (q : Partition) : (s.setPart p q).failed = s.failed := rfl
@[simp] theorem State.setPart_remoteCtr (s : State) (p : Nat) (q : Partition) : (s.setPart p q).remoteCtr = s.remoteCtr := rfl
@[simp] theorem State.setPart_remoteSeeds (s : State) (p : Nat) (q : Partition) : (s.setPart p q).remoteSeeds = s.remoteSeeds := rfl
@[simp] theorem State.setPart_keepalives (s : State) (p : Nat) (q : Partition) : (s.setPart p q).keepalives = s.keepalives := rfl
@[simp] theorem State.setPart_replied (s : State) (p : Nat) (q : Partition) : (s.setPart p q).replied = s.replied := rfl
@[simp] theorem State.setPart_vaultBad (s : State) (p : Nat) (q : Partition) : (s.setPart p q).vaultBad = s.vaultBad := rfl
@[simp] theorem State.setPart_fwDigest (s : State) (p : Nat) (q : Partition) : (s.setPart p q).fwDigest = s.fwDigest := rfl
@[simp] theorem State.setPart_fwSignature (s : State) (p : Nat) (q : Partition) : (s.setPart p q).fwSignature = s.fwSignature := rfl
@[simp] theorem State.setPart_debugLog (s : State) (p : Nat) (q : Partition) : (s.setPart p q).debugLog = s.debugLog := rfl
@[simp] theorem State.setPart_decided (s : State) (p : Nat) (q : Partition) : (s.setPart p q).decided = s.decided := rfl
@[simp] theorem State.setPart_unrouted (s : State) (p : Nat) (q : Partition) : (s.setPart p q).unrouted = s.unrouted := rfl
@[simp] theorem State.setPart_announced (s : State) (p : Nat) (q : Partition) : (s.setPart p q).announced = s.announced := rfl
@[simp] theorem State.setPart_reports (s : State) (p : Nat) (q : Partition) : (s.setPart p q).reports = s.reports := rfl

/-! ### focus -/

@[simp] theorem State.focus_inbox (s : State) (c : Nat) (k : Fin 8) : (s.focus c k).inbox = s.inbox := rfl
@[simp] theorem State.focus_begun (s : State) (c : Nat) (k : Fin 8) : (s.focus c k).begun = s.begun := rfl
@[simp] theorem State.focus_cycle (s : State) (c : Nat) (k : Fin 8) : (s.focus c k).cycle = s.cycle := rfl
@[simp] theorem State.focus_turn (s : State) (c : Nat) (k : Fin 8) : (s.focus c k).turn = s.turn := rfl
@[simp] theorem State.focus_stamp (s : State) (c : Nat) (k : Fin 8) : (s.focus c k).stamp = s.stamp := rfl
@[simp] theorem State.focus_freeCtr (s : State) (c : Nat) (k : Fin 8) : (s.focus c k).freeCtr = s.freeCtr := rfl
@[simp] theorem State.focus_sent (s : State) (c : Nat) (k : Fin 8) : (s.focus c k).sent = s.sent := rfl
@[simp] theorem State.focus_mem (s : State) (c : Nat) (k : Fin 8) : (s.focus c k).mem = s.mem := rfl
@[simp] theorem State.focus_memBad (s : State) (c : Nat) (k : Fin 8) : (s.focus c k).memBad = s.memBad := rfl
@[simp] theorem State.focus_latent (s : State) (c : Nat) (k : Fin 8) : (s.focus c k).latent = s.latent := rfl
@[simp] theorem State.focus_l2 (s : State) (c : Nat) (k : Fin 8) : (s.focus c k).l2 = s.l2 := rfl
@[simp] theorem State.focus_cores (s : State) (c : Nat) (k : Fin 8) : (s.focus c k).cores = s.cores := rfl
@[simp] theorem State.focus_clusters (s : State) (c : Nat) (k : Fin 8) : (s.focus c k).clusters = s.clusters := rfl
@[simp] theorem State.focus_parts (s : State) (c : Nat) (k : Fin 8) : (s.focus c k).parts = s.parts := rfl
@[simp] theorem State.focus_packets (s : State) (c : Nat) (k : Fin 8) : (s.focus c k).packets = s.packets := rfl
@[simp] theorem State.focus_hostMem (s : State) (c : Nat) (k : Fin 8) : (s.focus c k).hostMem = s.hostMem := rfl
@[simp] theorem State.focus_queues (s : State) (c : Nat) (k : Fin 8) : (s.focus c k).queues = s.queues := rfl
@[simp] theorem State.focus_admins (s : State) (c : Nat) (k : Fin 8) : (s.focus c k).admins = s.admins := rfl
@[simp] theorem State.focus_pfEvents (s : State) (c : Nat) (k : Fin 8) : (s.focus c k).pfEvents = s.pfEvents := rfl
@[simp] theorem State.focus_spdm (s : State) (c : Nat) (k : Fin 8) : (s.focus c k).spdm = s.spdm := rfl
@[simp] theorem State.focus_sessions (s : State) (c : Nat) (k : Fin 8) : (s.focus c k).sessions = s.sessions := rfl
@[simp] theorem State.focus_ide (s : State) (c : Nat) (k : Fin 8) : (s.focus c k).ide = s.ide := rfl
@[simp] theorem State.focus_ready (s : State) (c : Nat) (k : Fin 8) : (s.focus c k).ready = s.ready := rfl
@[simp] theorem State.focus_recovery (s : State) (c : Nat) (k : Fin 8) : (s.focus c k).recovery = s.recovery := rfl
@[simp] theorem State.focus_fwVersion (s : State) (c : Nat) (k : Fin 8) : (s.focus c k).fwVersion = s.fwVersion := rfl
@[simp] theorem State.focus_fwFuse (s : State) (c : Nat) (k : Fin 8) : (s.focus c k).fwFuse = s.fwFuse := rfl
@[simp] theorem State.focus_fwStaged (s : State) (c : Nat) (k : Fin 8) : (s.focus c k).fwStaged = s.fwStaged := rfl
@[simp] theorem State.focus_dies (s : State) (c : Nat) (k : Fin 8) : (s.focus c k).dies = s.dies := rfl
@[simp] theorem State.focus_thermalLimit (s : State) (c : Nat) (k : Fin 8) : (s.focus c k).thermalLimit = s.thermalLimit := rfl
@[simp] theorem State.focus_powerFloor (s : State) (c : Nat) (k : Fin 8) : (s.focus c k).powerFloor = s.powerFloor := rfl
@[simp] theorem State.focus_powerCap (s : State) (c : Nat) (k : Fin 8) : (s.focus c k).powerCap = s.powerCap := rfl
@[simp] theorem State.focus_lastReset (s : State) (c : Nat) (k : Fin 8) : (s.focus c k).lastReset = s.lastReset := rfl
@[simp] theorem State.focus_debugger (s : State) (c : Nat) (k : Fin 8) : (s.focus c k).debugger = s.debugger := rfl
@[simp] theorem State.focus_banks (s : State) (c : Nat) (k : Fin 8) : (s.focus c k).banks = s.banks := rfl
@[simp] theorem State.focus_scrubbed (s : State) (c : Nat) (k : Fin 8) : (s.focus c k).scrubbed = s.scrubbed := rfl
@[simp] theorem State.focus_replays (s : State) (c : Nat) (k : Fin 8) : (s.focus c k).replays = s.replays := rfl
@[simp] theorem State.focus_pkgid (s : State) (c : Nat) (k : Fin 8) : (s.focus c k).pkgid = s.pkgid := rfl
@[simp] theorem State.focus_dtags (s : State) (c : Nat) (k : Fin 8) : (s.focus c k).dtags = s.dtags := rfl
@[simp] theorem State.focus_routes (s : State) (c : Nat) (k : Fin 8) : (s.focus c k).routes = s.routes := rfl
@[simp] theorem State.focus_bars (s : State) (c : Nat) (k : Fin 8) : (s.focus c k).bars = s.bars := rfl
@[simp] theorem State.focus_ports (s : State) (c : Nat) (k : Fin 8) : (s.focus c k).ports = s.ports := rfl
@[simp] theorem State.focus_nextSeq (s : State) (c : Nat) (k : Fin 8) : (s.focus c k).nextSeq = s.nextSeq := rfl
@[simp] theorem State.focus_ackSent (s : State) (c : Nat) (k : Fin 8) : (s.focus c k).ackSent = s.ackSent := rfl
@[simp] theorem State.focus_outstanding (s : State) (c : Nat) (k : Fin 8) : (s.focus c k).outstanding = s.outstanding := rfl
@[simp] theorem State.focus_windows (s : State) (c : Nat) (k : Fin 8) : (s.focus c k).windows = s.windows := rfl
@[simp] theorem State.focus_failed (s : State) (c : Nat) (k : Fin 8) : (s.focus c k).failed = s.failed := rfl
@[simp] theorem State.focus_remoteCtr (s : State) (c : Nat) (k : Fin 8) : (s.focus c k).remoteCtr = s.remoteCtr := rfl
@[simp] theorem State.focus_remoteSeeds (s : State) (c : Nat) (k : Fin 8) : (s.focus c k).remoteSeeds = s.remoteSeeds := rfl
@[simp] theorem State.focus_keepalives (s : State) (c : Nat) (k : Fin 8) : (s.focus c k).keepalives = s.keepalives := rfl
@[simp] theorem State.focus_replied (s : State) (c : Nat) (k : Fin 8) : (s.focus c k).replied = s.replied := rfl
@[simp] theorem State.focus_vaultBad (s : State) (c : Nat) (k : Fin 8) : (s.focus c k).vaultBad = s.vaultBad := rfl
@[simp] theorem State.focus_fwDigest (s : State) (c : Nat) (k : Fin 8) : (s.focus c k).fwDigest = s.fwDigest := rfl
@[simp] theorem State.focus_fwSignature (s : State) (c : Nat) (k : Fin 8) : (s.focus c k).fwSignature = s.fwSignature := rfl
@[simp] theorem State.focus_debugLog (s : State) (c : Nat) (k : Fin 8) : (s.focus c k).debugLog = s.debugLog := rfl
@[simp] theorem State.focus_decided (s : State) (c : Nat) (k : Fin 8) : (s.focus c k).decided = s.decided := rfl
@[simp] theorem State.focus_unrouted (s : State) (c : Nat) (k : Fin 8) : (s.focus c k).unrouted = s.unrouted := rfl
@[simp] theorem State.focus_announced (s : State) (c : Nat) (k : Fin 8) : (s.focus c k).announced = s.announced := rfl
@[simp] theorem State.focus_reports (s : State) (c : Nat) (k : Fin 8) : (s.focus c k).reports = s.reports := rfl

/-! ### tick -/

@[simp] theorem State.tick_inbox (s : State) : (s.tick).inbox = s.inbox := rfl
@[simp] theorem State.tick_begun (s : State) : (s.tick).begun = s.begun := rfl
@[simp] theorem State.tick_curCore (s : State) : (s.tick).curCore = s.curCore := rfl
@[simp] theorem State.tick_curSlot (s : State) : (s.tick).curSlot = s.curSlot := rfl
@[simp] theorem State.tick_cycle (s : State) : (s.tick).cycle = s.cycle := rfl
@[simp] theorem State.tick_turn (s : State) : (s.tick).turn = s.turn := rfl
@[simp] theorem State.tick_freeCtr (s : State) : (s.tick).freeCtr = s.freeCtr := rfl
@[simp] theorem State.tick_sent (s : State) : (s.tick).sent = s.sent := rfl
@[simp] theorem State.tick_mem (s : State) : (s.tick).mem = s.mem := rfl
@[simp] theorem State.tick_memBad (s : State) : (s.tick).memBad = s.memBad := rfl
@[simp] theorem State.tick_latent (s : State) : (s.tick).latent = s.latent := rfl
@[simp] theorem State.tick_l2 (s : State) : (s.tick).l2 = s.l2 := rfl
@[simp] theorem State.tick_cores (s : State) : (s.tick).cores = s.cores := rfl
@[simp] theorem State.tick_clusters (s : State) : (s.tick).clusters = s.clusters := rfl
@[simp] theorem State.tick_parts (s : State) : (s.tick).parts = s.parts := rfl
@[simp] theorem State.tick_packets (s : State) : (s.tick).packets = s.packets := rfl
@[simp] theorem State.tick_hostMem (s : State) : (s.tick).hostMem = s.hostMem := rfl
@[simp] theorem State.tick_queues (s : State) : (s.tick).queues = s.queues := rfl
@[simp] theorem State.tick_admins (s : State) : (s.tick).admins = s.admins := rfl
@[simp] theorem State.tick_pfEvents (s : State) : (s.tick).pfEvents = s.pfEvents := rfl
@[simp] theorem State.tick_spdm (s : State) : (s.tick).spdm = s.spdm := rfl
@[simp] theorem State.tick_sessions (s : State) : (s.tick).sessions = s.sessions := rfl
@[simp] theorem State.tick_ide (s : State) : (s.tick).ide = s.ide := rfl
@[simp] theorem State.tick_ready (s : State) : (s.tick).ready = s.ready := rfl
@[simp] theorem State.tick_recovery (s : State) : (s.tick).recovery = s.recovery := rfl
@[simp] theorem State.tick_fwVersion (s : State) : (s.tick).fwVersion = s.fwVersion := rfl
@[simp] theorem State.tick_fwFuse (s : State) : (s.tick).fwFuse = s.fwFuse := rfl
@[simp] theorem State.tick_fwStaged (s : State) : (s.tick).fwStaged = s.fwStaged := rfl
@[simp] theorem State.tick_dies (s : State) : (s.tick).dies = s.dies := rfl
@[simp] theorem State.tick_thermalLimit (s : State) : (s.tick).thermalLimit = s.thermalLimit := rfl
@[simp] theorem State.tick_powerFloor (s : State) : (s.tick).powerFloor = s.powerFloor := rfl
@[simp] theorem State.tick_powerCap (s : State) : (s.tick).powerCap = s.powerCap := rfl
@[simp] theorem State.tick_lastReset (s : State) : (s.tick).lastReset = s.lastReset := rfl
@[simp] theorem State.tick_debugger (s : State) : (s.tick).debugger = s.debugger := rfl
@[simp] theorem State.tick_banks (s : State) : (s.tick).banks = s.banks := rfl
@[simp] theorem State.tick_scrubbed (s : State) : (s.tick).scrubbed = s.scrubbed := rfl
@[simp] theorem State.tick_replays (s : State) : (s.tick).replays = s.replays := rfl
@[simp] theorem State.tick_pkgid (s : State) : (s.tick).pkgid = s.pkgid := rfl
@[simp] theorem State.tick_dtags (s : State) : (s.tick).dtags = s.dtags := rfl
@[simp] theorem State.tick_routes (s : State) : (s.tick).routes = s.routes := rfl
@[simp] theorem State.tick_bars (s : State) : (s.tick).bars = s.bars := rfl
@[simp] theorem State.tick_ports (s : State) : (s.tick).ports = s.ports := rfl
@[simp] theorem State.tick_nextSeq (s : State) : (s.tick).nextSeq = s.nextSeq := rfl
@[simp] theorem State.tick_ackSent (s : State) : (s.tick).ackSent = s.ackSent := rfl
@[simp] theorem State.tick_outstanding (s : State) : (s.tick).outstanding = s.outstanding := rfl
@[simp] theorem State.tick_windows (s : State) : (s.tick).windows = s.windows := rfl
@[simp] theorem State.tick_failed (s : State) : (s.tick).failed = s.failed := rfl
@[simp] theorem State.tick_remoteCtr (s : State) : (s.tick).remoteCtr = s.remoteCtr := rfl
@[simp] theorem State.tick_remoteSeeds (s : State) : (s.tick).remoteSeeds = s.remoteSeeds := rfl
@[simp] theorem State.tick_keepalives (s : State) : (s.tick).keepalives = s.keepalives := rfl
@[simp] theorem State.tick_replied (s : State) : (s.tick).replied = s.replied := rfl
@[simp] theorem State.tick_vaultBad (s : State) : (s.tick).vaultBad = s.vaultBad := rfl
@[simp] theorem State.tick_fwDigest (s : State) : (s.tick).fwDigest = s.fwDigest := rfl
@[simp] theorem State.tick_fwSignature (s : State) : (s.tick).fwSignature = s.fwSignature := rfl
@[simp] theorem State.tick_debugLog (s : State) : (s.tick).debugLog = s.debugLog := rfl
@[simp] theorem State.tick_decided (s : State) : (s.tick).decided = s.decided := rfl
@[simp] theorem State.tick_unrouted (s : State) : (s.tick).unrouted = s.unrouted := rfl
@[simp] theorem State.tick_announced (s : State) : (s.tick).announced = s.announced := rfl
@[simp] theorem State.tick_reports (s : State) : (s.tick).reports = s.reports := rfl

/-! ### setSlotAt -/

@[simp] theorem State.setSlotAt_inbox (s : State) (c : Nat) (k : Fin 8) (t : Slot) : (s.setSlotAt c k t).inbox = s.inbox := rfl
@[simp] theorem State.setSlotAt_begun (s : State) (c : Nat) (k : Fin 8) (t : Slot) : (s.setSlotAt c k t).begun = s.begun := rfl
@[simp] theorem State.setSlotAt_curCore (s : State) (c : Nat) (k : Fin 8) (t : Slot) : (s.setSlotAt c k t).curCore = s.curCore := rfl
@[simp] theorem State.setSlotAt_curSlot (s : State) (c : Nat) (k : Fin 8) (t : Slot) : (s.setSlotAt c k t).curSlot = s.curSlot := rfl
@[simp] theorem State.setSlotAt_cycle (s : State) (c : Nat) (k : Fin 8) (t : Slot) : (s.setSlotAt c k t).cycle = s.cycle := rfl
@[simp] theorem State.setSlotAt_turn (s : State) (c : Nat) (k : Fin 8) (t : Slot) : (s.setSlotAt c k t).turn = s.turn := rfl
@[simp] theorem State.setSlotAt_stamp (s : State) (c : Nat) (k : Fin 8) (t : Slot) : (s.setSlotAt c k t).stamp = s.stamp := rfl
@[simp] theorem State.setSlotAt_freeCtr (s : State) (c : Nat) (k : Fin 8) (t : Slot) : (s.setSlotAt c k t).freeCtr = s.freeCtr := rfl
@[simp] theorem State.setSlotAt_sent (s : State) (c : Nat) (k : Fin 8) (t : Slot) : (s.setSlotAt c k t).sent = s.sent := rfl
@[simp] theorem State.setSlotAt_mem (s : State) (c : Nat) (k : Fin 8) (t : Slot) : (s.setSlotAt c k t).mem = s.mem := rfl
@[simp] theorem State.setSlotAt_memBad (s : State) (c : Nat) (k : Fin 8) (t : Slot) : (s.setSlotAt c k t).memBad = s.memBad := rfl
@[simp] theorem State.setSlotAt_latent (s : State) (c : Nat) (k : Fin 8) (t : Slot) : (s.setSlotAt c k t).latent = s.latent := rfl
@[simp] theorem State.setSlotAt_l2 (s : State) (c : Nat) (k : Fin 8) (t : Slot) : (s.setSlotAt c k t).l2 = s.l2 := rfl
@[simp] theorem State.setSlotAt_clusters (s : State) (c : Nat) (k : Fin 8) (t : Slot) : (s.setSlotAt c k t).clusters = s.clusters := rfl
@[simp] theorem State.setSlotAt_parts (s : State) (c : Nat) (k : Fin 8) (t : Slot) : (s.setSlotAt c k t).parts = s.parts := rfl
@[simp] theorem State.setSlotAt_packets (s : State) (c : Nat) (k : Fin 8) (t : Slot) : (s.setSlotAt c k t).packets = s.packets := rfl
@[simp] theorem State.setSlotAt_hostMem (s : State) (c : Nat) (k : Fin 8) (t : Slot) : (s.setSlotAt c k t).hostMem = s.hostMem := rfl
@[simp] theorem State.setSlotAt_queues (s : State) (c : Nat) (k : Fin 8) (t : Slot) : (s.setSlotAt c k t).queues = s.queues := rfl
@[simp] theorem State.setSlotAt_admins (s : State) (c : Nat) (k : Fin 8) (t : Slot) : (s.setSlotAt c k t).admins = s.admins := rfl
@[simp] theorem State.setSlotAt_pfEvents (s : State) (c : Nat) (k : Fin 8) (t : Slot) : (s.setSlotAt c k t).pfEvents = s.pfEvents := rfl
@[simp] theorem State.setSlotAt_spdm (s : State) (c : Nat) (k : Fin 8) (t : Slot) : (s.setSlotAt c k t).spdm = s.spdm := rfl
@[simp] theorem State.setSlotAt_sessions (s : State) (c : Nat) (k : Fin 8) (t : Slot) : (s.setSlotAt c k t).sessions = s.sessions := rfl
@[simp] theorem State.setSlotAt_ide (s : State) (c : Nat) (k : Fin 8) (t : Slot) : (s.setSlotAt c k t).ide = s.ide := rfl
@[simp] theorem State.setSlotAt_ready (s : State) (c : Nat) (k : Fin 8) (t : Slot) : (s.setSlotAt c k t).ready = s.ready := rfl
@[simp] theorem State.setSlotAt_recovery (s : State) (c : Nat) (k : Fin 8) (t : Slot) : (s.setSlotAt c k t).recovery = s.recovery := rfl
@[simp] theorem State.setSlotAt_fwVersion (s : State) (c : Nat) (k : Fin 8) (t : Slot) : (s.setSlotAt c k t).fwVersion = s.fwVersion := rfl
@[simp] theorem State.setSlotAt_fwFuse (s : State) (c : Nat) (k : Fin 8) (t : Slot) : (s.setSlotAt c k t).fwFuse = s.fwFuse := rfl
@[simp] theorem State.setSlotAt_fwStaged (s : State) (c : Nat) (k : Fin 8) (t : Slot) : (s.setSlotAt c k t).fwStaged = s.fwStaged := rfl
@[simp] theorem State.setSlotAt_dies (s : State) (c : Nat) (k : Fin 8) (t : Slot) : (s.setSlotAt c k t).dies = s.dies := rfl
@[simp] theorem State.setSlotAt_thermalLimit (s : State) (c : Nat) (k : Fin 8) (t : Slot) : (s.setSlotAt c k t).thermalLimit = s.thermalLimit := rfl
@[simp] theorem State.setSlotAt_powerFloor (s : State) (c : Nat) (k : Fin 8) (t : Slot) : (s.setSlotAt c k t).powerFloor = s.powerFloor := rfl
@[simp] theorem State.setSlotAt_powerCap (s : State) (c : Nat) (k : Fin 8) (t : Slot) : (s.setSlotAt c k t).powerCap = s.powerCap := rfl
@[simp] theorem State.setSlotAt_lastReset (s : State) (c : Nat) (k : Fin 8) (t : Slot) : (s.setSlotAt c k t).lastReset = s.lastReset := rfl
@[simp] theorem State.setSlotAt_debugger (s : State) (c : Nat) (k : Fin 8) (t : Slot) : (s.setSlotAt c k t).debugger = s.debugger := rfl
@[simp] theorem State.setSlotAt_banks (s : State) (c : Nat) (k : Fin 8) (t : Slot) : (s.setSlotAt c k t).banks = s.banks := rfl
@[simp] theorem State.setSlotAt_scrubbed (s : State) (c : Nat) (k : Fin 8) (t : Slot) : (s.setSlotAt c k t).scrubbed = s.scrubbed := rfl
@[simp] theorem State.setSlotAt_replays (s : State) (c : Nat) (k : Fin 8) (t : Slot) : (s.setSlotAt c k t).replays = s.replays := rfl
@[simp] theorem State.setSlotAt_pkgid (s : State) (c : Nat) (k : Fin 8) (t : Slot) : (s.setSlotAt c k t).pkgid = s.pkgid := rfl
@[simp] theorem State.setSlotAt_dtags (s : State) (c : Nat) (k : Fin 8) (t : Slot) : (s.setSlotAt c k t).dtags = s.dtags := rfl
@[simp] theorem State.setSlotAt_routes (s : State) (c : Nat) (k : Fin 8) (t : Slot) : (s.setSlotAt c k t).routes = s.routes := rfl
@[simp] theorem State.setSlotAt_bars (s : State) (c : Nat) (k : Fin 8) (t : Slot) : (s.setSlotAt c k t).bars = s.bars := rfl
@[simp] theorem State.setSlotAt_ports (s : State) (c : Nat) (k : Fin 8) (t : Slot) : (s.setSlotAt c k t).ports = s.ports := rfl
@[simp] theorem State.setSlotAt_nextSeq (s : State) (c : Nat) (k : Fin 8) (t : Slot) : (s.setSlotAt c k t).nextSeq = s.nextSeq := rfl
@[simp] theorem State.setSlotAt_ackSent (s : State) (c : Nat) (k : Fin 8) (t : Slot) : (s.setSlotAt c k t).ackSent = s.ackSent := rfl
@[simp] theorem State.setSlotAt_outstanding (s : State) (c : Nat) (k : Fin 8) (t : Slot) : (s.setSlotAt c k t).outstanding = s.outstanding := rfl
@[simp] theorem State.setSlotAt_windows (s : State) (c : Nat) (k : Fin 8) (t : Slot) : (s.setSlotAt c k t).windows = s.windows := rfl
@[simp] theorem State.setSlotAt_failed (s : State) (c : Nat) (k : Fin 8) (t : Slot) : (s.setSlotAt c k t).failed = s.failed := rfl
@[simp] theorem State.setSlotAt_remoteCtr (s : State) (c : Nat) (k : Fin 8) (t : Slot) : (s.setSlotAt c k t).remoteCtr = s.remoteCtr := rfl
@[simp] theorem State.setSlotAt_remoteSeeds (s : State) (c : Nat) (k : Fin 8) (t : Slot) : (s.setSlotAt c k t).remoteSeeds = s.remoteSeeds := rfl
@[simp] theorem State.setSlotAt_keepalives (s : State) (c : Nat) (k : Fin 8) (t : Slot) : (s.setSlotAt c k t).keepalives = s.keepalives := rfl
@[simp] theorem State.setSlotAt_replied (s : State) (c : Nat) (k : Fin 8) (t : Slot) : (s.setSlotAt c k t).replied = s.replied := rfl
@[simp] theorem State.setSlotAt_vaultBad (s : State) (c : Nat) (k : Fin 8) (t : Slot) : (s.setSlotAt c k t).vaultBad = s.vaultBad := rfl
@[simp] theorem State.setSlotAt_fwDigest (s : State) (c : Nat) (k : Fin 8) (t : Slot) : (s.setSlotAt c k t).fwDigest = s.fwDigest := rfl
@[simp] theorem State.setSlotAt_fwSignature (s : State) (c : Nat) (k : Fin 8) (t : Slot) : (s.setSlotAt c k t).fwSignature = s.fwSignature := rfl
@[simp] theorem State.setSlotAt_debugLog (s : State) (c : Nat) (k : Fin 8) (t : Slot) : (s.setSlotAt c k t).debugLog = s.debugLog := rfl
@[simp] theorem State.setSlotAt_decided (s : State) (c : Nat) (k : Fin 8) (t : Slot) : (s.setSlotAt c k t).decided = s.decided := rfl
@[simp] theorem State.setSlotAt_unrouted (s : State) (c : Nat) (k : Fin 8) (t : Slot) : (s.setSlotAt c k t).unrouted = s.unrouted := rfl
@[simp] theorem State.setSlotAt_announced (s : State) (c : Nat) (k : Fin 8) (t : Slot) : (s.setSlotAt c k t).announced = s.announced := rfl
@[simp] theorem State.setSlotAt_reports (s : State) (c : Nat) (k : Fin 8) (t : Slot) : (s.setSlotAt c k t).reports = s.reports := rfl

/-! ### setMe -/

@[simp] theorem State.setMe_inbox (s : State) (t : Slot) : (s.setMe t).inbox = s.inbox := rfl
@[simp] theorem State.setMe_begun (s : State) (t : Slot) : (s.setMe t).begun = s.begun := rfl
@[simp] theorem State.setMe_curCore (s : State) (t : Slot) : (s.setMe t).curCore = s.curCore := rfl
@[simp] theorem State.setMe_curSlot (s : State) (t : Slot) : (s.setMe t).curSlot = s.curSlot := rfl
@[simp] theorem State.setMe_cycle (s : State) (t : Slot) : (s.setMe t).cycle = s.cycle := rfl
@[simp] theorem State.setMe_turn (s : State) (t : Slot) : (s.setMe t).turn = s.turn := rfl
@[simp] theorem State.setMe_stamp (s : State) (t : Slot) : (s.setMe t).stamp = s.stamp := rfl
@[simp] theorem State.setMe_freeCtr (s : State) (t : Slot) : (s.setMe t).freeCtr = s.freeCtr := rfl
@[simp] theorem State.setMe_sent (s : State) (t : Slot) : (s.setMe t).sent = s.sent := rfl
@[simp] theorem State.setMe_mem (s : State) (t : Slot) : (s.setMe t).mem = s.mem := rfl
@[simp] theorem State.setMe_memBad (s : State) (t : Slot) : (s.setMe t).memBad = s.memBad := rfl
@[simp] theorem State.setMe_latent (s : State) (t : Slot) : (s.setMe t).latent = s.latent := rfl
@[simp] theorem State.setMe_l2 (s : State) (t : Slot) : (s.setMe t).l2 = s.l2 := rfl
@[simp] theorem State.setMe_clusters (s : State) (t : Slot) : (s.setMe t).clusters = s.clusters := rfl
@[simp] theorem State.setMe_parts (s : State) (t : Slot) : (s.setMe t).parts = s.parts := rfl
@[simp] theorem State.setMe_packets (s : State) (t : Slot) : (s.setMe t).packets = s.packets := rfl
@[simp] theorem State.setMe_hostMem (s : State) (t : Slot) : (s.setMe t).hostMem = s.hostMem := rfl
@[simp] theorem State.setMe_queues (s : State) (t : Slot) : (s.setMe t).queues = s.queues := rfl
@[simp] theorem State.setMe_admins (s : State) (t : Slot) : (s.setMe t).admins = s.admins := rfl
@[simp] theorem State.setMe_pfEvents (s : State) (t : Slot) : (s.setMe t).pfEvents = s.pfEvents := rfl
@[simp] theorem State.setMe_spdm (s : State) (t : Slot) : (s.setMe t).spdm = s.spdm := rfl
@[simp] theorem State.setMe_sessions (s : State) (t : Slot) : (s.setMe t).sessions = s.sessions := rfl
@[simp] theorem State.setMe_ide (s : State) (t : Slot) : (s.setMe t).ide = s.ide := rfl
@[simp] theorem State.setMe_ready (s : State) (t : Slot) : (s.setMe t).ready = s.ready := rfl
@[simp] theorem State.setMe_recovery (s : State) (t : Slot) : (s.setMe t).recovery = s.recovery := rfl
@[simp] theorem State.setMe_fwVersion (s : State) (t : Slot) : (s.setMe t).fwVersion = s.fwVersion := rfl
@[simp] theorem State.setMe_fwFuse (s : State) (t : Slot) : (s.setMe t).fwFuse = s.fwFuse := rfl
@[simp] theorem State.setMe_fwStaged (s : State) (t : Slot) : (s.setMe t).fwStaged = s.fwStaged := rfl
@[simp] theorem State.setMe_dies (s : State) (t : Slot) : (s.setMe t).dies = s.dies := rfl
@[simp] theorem State.setMe_thermalLimit (s : State) (t : Slot) : (s.setMe t).thermalLimit = s.thermalLimit := rfl
@[simp] theorem State.setMe_powerFloor (s : State) (t : Slot) : (s.setMe t).powerFloor = s.powerFloor := rfl
@[simp] theorem State.setMe_powerCap (s : State) (t : Slot) : (s.setMe t).powerCap = s.powerCap := rfl
@[simp] theorem State.setMe_lastReset (s : State) (t : Slot) : (s.setMe t).lastReset = s.lastReset := rfl
@[simp] theorem State.setMe_debugger (s : State) (t : Slot) : (s.setMe t).debugger = s.debugger := rfl
@[simp] theorem State.setMe_banks (s : State) (t : Slot) : (s.setMe t).banks = s.banks := rfl
@[simp] theorem State.setMe_scrubbed (s : State) (t : Slot) : (s.setMe t).scrubbed = s.scrubbed := rfl
@[simp] theorem State.setMe_replays (s : State) (t : Slot) : (s.setMe t).replays = s.replays := rfl
@[simp] theorem State.setMe_pkgid (s : State) (t : Slot) : (s.setMe t).pkgid = s.pkgid := rfl
@[simp] theorem State.setMe_dtags (s : State) (t : Slot) : (s.setMe t).dtags = s.dtags := rfl
@[simp] theorem State.setMe_routes (s : State) (t : Slot) : (s.setMe t).routes = s.routes := rfl
@[simp] theorem State.setMe_bars (s : State) (t : Slot) : (s.setMe t).bars = s.bars := rfl
@[simp] theorem State.setMe_ports (s : State) (t : Slot) : (s.setMe t).ports = s.ports := rfl
@[simp] theorem State.setMe_nextSeq (s : State) (t : Slot) : (s.setMe t).nextSeq = s.nextSeq := rfl
@[simp] theorem State.setMe_ackSent (s : State) (t : Slot) : (s.setMe t).ackSent = s.ackSent := rfl
@[simp] theorem State.setMe_outstanding (s : State) (t : Slot) : (s.setMe t).outstanding = s.outstanding := rfl
@[simp] theorem State.setMe_windows (s : State) (t : Slot) : (s.setMe t).windows = s.windows := rfl
@[simp] theorem State.setMe_failed (s : State) (t : Slot) : (s.setMe t).failed = s.failed := rfl
@[simp] theorem State.setMe_remoteCtr (s : State) (t : Slot) : (s.setMe t).remoteCtr = s.remoteCtr := rfl
@[simp] theorem State.setMe_remoteSeeds (s : State) (t : Slot) : (s.setMe t).remoteSeeds = s.remoteSeeds := rfl
@[simp] theorem State.setMe_keepalives (s : State) (t : Slot) : (s.setMe t).keepalives = s.keepalives := rfl
@[simp] theorem State.setMe_replied (s : State) (t : Slot) : (s.setMe t).replied = s.replied := rfl
@[simp] theorem State.setMe_vaultBad (s : State) (t : Slot) : (s.setMe t).vaultBad = s.vaultBad := rfl
@[simp] theorem State.setMe_fwDigest (s : State) (t : Slot) : (s.setMe t).fwDigest = s.fwDigest := rfl
@[simp] theorem State.setMe_fwSignature (s : State) (t : Slot) : (s.setMe t).fwSignature = s.fwSignature := rfl
@[simp] theorem State.setMe_debugLog (s : State) (t : Slot) : (s.setMe t).debugLog = s.debugLog := rfl
@[simp] theorem State.setMe_decided (s : State) (t : Slot) : (s.setMe t).decided = s.decided := rfl
@[simp] theorem State.setMe_unrouted (s : State) (t : Slot) : (s.setMe t).unrouted = s.unrouted := rfl
@[simp] theorem State.setMe_announced (s : State) (t : Slot) : (s.setMe t).announced = s.announced := rfl
@[simp] theorem State.setMe_reports (s : State) (t : Slot) : (s.setMe t).reports = s.reports := rfl

/-! ### modMe -/

@[simp] theorem State.modMe_inbox (s : State) (f : Slot → Slot) : (s.modMe f).inbox = s.inbox := rfl
@[simp] theorem State.modMe_begun (s : State) (f : Slot → Slot) : (s.modMe f).begun = s.begun := rfl
@[simp] theorem State.modMe_curCore (s : State) (f : Slot → Slot) : (s.modMe f).curCore = s.curCore := rfl
@[simp] theorem State.modMe_curSlot (s : State) (f : Slot → Slot) : (s.modMe f).curSlot = s.curSlot := rfl
@[simp] theorem State.modMe_cycle (s : State) (f : Slot → Slot) : (s.modMe f).cycle = s.cycle := rfl
@[simp] theorem State.modMe_turn (s : State) (f : Slot → Slot) : (s.modMe f).turn = s.turn := rfl
@[simp] theorem State.modMe_stamp (s : State) (f : Slot → Slot) : (s.modMe f).stamp = s.stamp := rfl
@[simp] theorem State.modMe_freeCtr (s : State) (f : Slot → Slot) : (s.modMe f).freeCtr = s.freeCtr := rfl
@[simp] theorem State.modMe_sent (s : State) (f : Slot → Slot) : (s.modMe f).sent = s.sent := rfl
@[simp] theorem State.modMe_mem (s : State) (f : Slot → Slot) : (s.modMe f).mem = s.mem := rfl
@[simp] theorem State.modMe_memBad (s : State) (f : Slot → Slot) : (s.modMe f).memBad = s.memBad := rfl
@[simp] theorem State.modMe_latent (s : State) (f : Slot → Slot) : (s.modMe f).latent = s.latent := rfl
@[simp] theorem State.modMe_l2 (s : State) (f : Slot → Slot) : (s.modMe f).l2 = s.l2 := rfl
@[simp] theorem State.modMe_clusters (s : State) (f : Slot → Slot) : (s.modMe f).clusters = s.clusters := rfl
@[simp] theorem State.modMe_parts (s : State) (f : Slot → Slot) : (s.modMe f).parts = s.parts := rfl
@[simp] theorem State.modMe_packets (s : State) (f : Slot → Slot) : (s.modMe f).packets = s.packets := rfl
@[simp] theorem State.modMe_hostMem (s : State) (f : Slot → Slot) : (s.modMe f).hostMem = s.hostMem := rfl
@[simp] theorem State.modMe_queues (s : State) (f : Slot → Slot) : (s.modMe f).queues = s.queues := rfl
@[simp] theorem State.modMe_admins (s : State) (f : Slot → Slot) : (s.modMe f).admins = s.admins := rfl
@[simp] theorem State.modMe_pfEvents (s : State) (f : Slot → Slot) : (s.modMe f).pfEvents = s.pfEvents := rfl
@[simp] theorem State.modMe_spdm (s : State) (f : Slot → Slot) : (s.modMe f).spdm = s.spdm := rfl
@[simp] theorem State.modMe_sessions (s : State) (f : Slot → Slot) : (s.modMe f).sessions = s.sessions := rfl
@[simp] theorem State.modMe_ide (s : State) (f : Slot → Slot) : (s.modMe f).ide = s.ide := rfl
@[simp] theorem State.modMe_ready (s : State) (f : Slot → Slot) : (s.modMe f).ready = s.ready := rfl
@[simp] theorem State.modMe_recovery (s : State) (f : Slot → Slot) : (s.modMe f).recovery = s.recovery := rfl
@[simp] theorem State.modMe_fwVersion (s : State) (f : Slot → Slot) : (s.modMe f).fwVersion = s.fwVersion := rfl
@[simp] theorem State.modMe_fwFuse (s : State) (f : Slot → Slot) : (s.modMe f).fwFuse = s.fwFuse := rfl
@[simp] theorem State.modMe_fwStaged (s : State) (f : Slot → Slot) : (s.modMe f).fwStaged = s.fwStaged := rfl
@[simp] theorem State.modMe_dies (s : State) (f : Slot → Slot) : (s.modMe f).dies = s.dies := rfl
@[simp] theorem State.modMe_thermalLimit (s : State) (f : Slot → Slot) : (s.modMe f).thermalLimit = s.thermalLimit := rfl
@[simp] theorem State.modMe_powerFloor (s : State) (f : Slot → Slot) : (s.modMe f).powerFloor = s.powerFloor := rfl
@[simp] theorem State.modMe_powerCap (s : State) (f : Slot → Slot) : (s.modMe f).powerCap = s.powerCap := rfl
@[simp] theorem State.modMe_lastReset (s : State) (f : Slot → Slot) : (s.modMe f).lastReset = s.lastReset := rfl
@[simp] theorem State.modMe_debugger (s : State) (f : Slot → Slot) : (s.modMe f).debugger = s.debugger := rfl
@[simp] theorem State.modMe_banks (s : State) (f : Slot → Slot) : (s.modMe f).banks = s.banks := rfl
@[simp] theorem State.modMe_scrubbed (s : State) (f : Slot → Slot) : (s.modMe f).scrubbed = s.scrubbed := rfl
@[simp] theorem State.modMe_replays (s : State) (f : Slot → Slot) : (s.modMe f).replays = s.replays := rfl
@[simp] theorem State.modMe_pkgid (s : State) (f : Slot → Slot) : (s.modMe f).pkgid = s.pkgid := rfl
@[simp] theorem State.modMe_dtags (s : State) (f : Slot → Slot) : (s.modMe f).dtags = s.dtags := rfl
@[simp] theorem State.modMe_routes (s : State) (f : Slot → Slot) : (s.modMe f).routes = s.routes := rfl
@[simp] theorem State.modMe_bars (s : State) (f : Slot → Slot) : (s.modMe f).bars = s.bars := rfl
@[simp] theorem State.modMe_ports (s : State) (f : Slot → Slot) : (s.modMe f).ports = s.ports := rfl
@[simp] theorem State.modMe_nextSeq (s : State) (f : Slot → Slot) : (s.modMe f).nextSeq = s.nextSeq := rfl
@[simp] theorem State.modMe_ackSent (s : State) (f : Slot → Slot) : (s.modMe f).ackSent = s.ackSent := rfl
@[simp] theorem State.modMe_outstanding (s : State) (f : Slot → Slot) : (s.modMe f).outstanding = s.outstanding := rfl
@[simp] theorem State.modMe_windows (s : State) (f : Slot → Slot) : (s.modMe f).windows = s.windows := rfl
@[simp] theorem State.modMe_failed (s : State) (f : Slot → Slot) : (s.modMe f).failed = s.failed := rfl
@[simp] theorem State.modMe_remoteCtr (s : State) (f : Slot → Slot) : (s.modMe f).remoteCtr = s.remoteCtr := rfl
@[simp] theorem State.modMe_remoteSeeds (s : State) (f : Slot → Slot) : (s.modMe f).remoteSeeds = s.remoteSeeds := rfl
@[simp] theorem State.modMe_keepalives (s : State) (f : Slot → Slot) : (s.modMe f).keepalives = s.keepalives := rfl
@[simp] theorem State.modMe_replied (s : State) (f : Slot → Slot) : (s.modMe f).replied = s.replied := rfl
@[simp] theorem State.modMe_vaultBad (s : State) (f : Slot → Slot) : (s.modMe f).vaultBad = s.vaultBad := rfl
@[simp] theorem State.modMe_fwDigest (s : State) (f : Slot → Slot) : (s.modMe f).fwDigest = s.fwDigest := rfl
@[simp] theorem State.modMe_fwSignature (s : State) (f : Slot → Slot) : (s.modMe f).fwSignature = s.fwSignature := rfl
@[simp] theorem State.modMe_debugLog (s : State) (f : Slot → Slot) : (s.modMe f).debugLog = s.debugLog := rfl
@[simp] theorem State.modMe_decided (s : State) (f : Slot → Slot) : (s.modMe f).decided = s.decided := rfl
@[simp] theorem State.modMe_unrouted (s : State) (f : Slot → Slot) : (s.modMe f).unrouted = s.unrouted := rfl
@[simp] theorem State.modMe_announced (s : State) (f : Slot → Slot) : (s.modMe f).announced = s.announced := rfl
@[simp] theorem State.modMe_reports (s : State) (f : Slot → Slot) : (s.modMe f).reports = s.reports := rfl

/-! ### modCore -/

@[simp] theorem State.modCore_inbox (s : State) (c : Nat) (f : Core → Core) : (s.modCore c f).inbox = s.inbox := rfl
@[simp] theorem State.modCore_begun (s : State) (c : Nat) (f : Core → Core) : (s.modCore c f).begun = s.begun := rfl
@[simp] theorem State.modCore_curCore (s : State) (c : Nat) (f : Core → Core) : (s.modCore c f).curCore = s.curCore := rfl
@[simp] theorem State.modCore_curSlot (s : State) (c : Nat) (f : Core → Core) : (s.modCore c f).curSlot = s.curSlot := rfl
@[simp] theorem State.modCore_cycle (s : State) (c : Nat) (f : Core → Core) : (s.modCore c f).cycle = s.cycle := rfl
@[simp] theorem State.modCore_turn (s : State) (c : Nat) (f : Core → Core) : (s.modCore c f).turn = s.turn := rfl
@[simp] theorem State.modCore_stamp (s : State) (c : Nat) (f : Core → Core) : (s.modCore c f).stamp = s.stamp := rfl
@[simp] theorem State.modCore_freeCtr (s : State) (c : Nat) (f : Core → Core) : (s.modCore c f).freeCtr = s.freeCtr := rfl
@[simp] theorem State.modCore_sent (s : State) (c : Nat) (f : Core → Core) : (s.modCore c f).sent = s.sent := rfl
@[simp] theorem State.modCore_mem (s : State) (c : Nat) (f : Core → Core) : (s.modCore c f).mem = s.mem := rfl
@[simp] theorem State.modCore_memBad (s : State) (c : Nat) (f : Core → Core) : (s.modCore c f).memBad = s.memBad := rfl
@[simp] theorem State.modCore_latent (s : State) (c : Nat) (f : Core → Core) : (s.modCore c f).latent = s.latent := rfl
@[simp] theorem State.modCore_l2 (s : State) (c : Nat) (f : Core → Core) : (s.modCore c f).l2 = s.l2 := rfl
@[simp] theorem State.modCore_clusters (s : State) (c : Nat) (f : Core → Core) : (s.modCore c f).clusters = s.clusters := rfl
@[simp] theorem State.modCore_parts (s : State) (c : Nat) (f : Core → Core) : (s.modCore c f).parts = s.parts := rfl
@[simp] theorem State.modCore_packets (s : State) (c : Nat) (f : Core → Core) : (s.modCore c f).packets = s.packets := rfl
@[simp] theorem State.modCore_hostMem (s : State) (c : Nat) (f : Core → Core) : (s.modCore c f).hostMem = s.hostMem := rfl
@[simp] theorem State.modCore_queues (s : State) (c : Nat) (f : Core → Core) : (s.modCore c f).queues = s.queues := rfl
@[simp] theorem State.modCore_admins (s : State) (c : Nat) (f : Core → Core) : (s.modCore c f).admins = s.admins := rfl
@[simp] theorem State.modCore_pfEvents (s : State) (c : Nat) (f : Core → Core) : (s.modCore c f).pfEvents = s.pfEvents := rfl
@[simp] theorem State.modCore_spdm (s : State) (c : Nat) (f : Core → Core) : (s.modCore c f).spdm = s.spdm := rfl
@[simp] theorem State.modCore_sessions (s : State) (c : Nat) (f : Core → Core) : (s.modCore c f).sessions = s.sessions := rfl
@[simp] theorem State.modCore_ide (s : State) (c : Nat) (f : Core → Core) : (s.modCore c f).ide = s.ide := rfl
@[simp] theorem State.modCore_ready (s : State) (c : Nat) (f : Core → Core) : (s.modCore c f).ready = s.ready := rfl
@[simp] theorem State.modCore_recovery (s : State) (c : Nat) (f : Core → Core) : (s.modCore c f).recovery = s.recovery := rfl
@[simp] theorem State.modCore_fwVersion (s : State) (c : Nat) (f : Core → Core) : (s.modCore c f).fwVersion = s.fwVersion := rfl
@[simp] theorem State.modCore_fwFuse (s : State) (c : Nat) (f : Core → Core) : (s.modCore c f).fwFuse = s.fwFuse := rfl
@[simp] theorem State.modCore_fwStaged (s : State) (c : Nat) (f : Core → Core) : (s.modCore c f).fwStaged = s.fwStaged := rfl
@[simp] theorem State.modCore_dies (s : State) (c : Nat) (f : Core → Core) : (s.modCore c f).dies = s.dies := rfl
@[simp] theorem State.modCore_thermalLimit (s : State) (c : Nat) (f : Core → Core) : (s.modCore c f).thermalLimit = s.thermalLimit := rfl
@[simp] theorem State.modCore_powerFloor (s : State) (c : Nat) (f : Core → Core) : (s.modCore c f).powerFloor = s.powerFloor := rfl
@[simp] theorem State.modCore_powerCap (s : State) (c : Nat) (f : Core → Core) : (s.modCore c f).powerCap = s.powerCap := rfl
@[simp] theorem State.modCore_lastReset (s : State) (c : Nat) (f : Core → Core) : (s.modCore c f).lastReset = s.lastReset := rfl
@[simp] theorem State.modCore_debugger (s : State) (c : Nat) (f : Core → Core) : (s.modCore c f).debugger = s.debugger := rfl
@[simp] theorem State.modCore_banks (s : State) (c : Nat) (f : Core → Core) : (s.modCore c f).banks = s.banks := rfl
@[simp] theorem State.modCore_scrubbed (s : State) (c : Nat) (f : Core → Core) : (s.modCore c f).scrubbed = s.scrubbed := rfl
@[simp] theorem State.modCore_replays (s : State) (c : Nat) (f : Core → Core) : (s.modCore c f).replays = s.replays := rfl
@[simp] theorem State.modCore_pkgid (s : State) (c : Nat) (f : Core → Core) : (s.modCore c f).pkgid = s.pkgid := rfl
@[simp] theorem State.modCore_dtags (s : State) (c : Nat) (f : Core → Core) : (s.modCore c f).dtags = s.dtags := rfl
@[simp] theorem State.modCore_routes (s : State) (c : Nat) (f : Core → Core) : (s.modCore c f).routes = s.routes := rfl
@[simp] theorem State.modCore_bars (s : State) (c : Nat) (f : Core → Core) : (s.modCore c f).bars = s.bars := rfl
@[simp] theorem State.modCore_ports (s : State) (c : Nat) (f : Core → Core) : (s.modCore c f).ports = s.ports := rfl
@[simp] theorem State.modCore_nextSeq (s : State) (c : Nat) (f : Core → Core) : (s.modCore c f).nextSeq = s.nextSeq := rfl
@[simp] theorem State.modCore_ackSent (s : State) (c : Nat) (f : Core → Core) : (s.modCore c f).ackSent = s.ackSent := rfl
@[simp] theorem State.modCore_outstanding (s : State) (c : Nat) (f : Core → Core) : (s.modCore c f).outstanding = s.outstanding := rfl
@[simp] theorem State.modCore_windows (s : State) (c : Nat) (f : Core → Core) : (s.modCore c f).windows = s.windows := rfl
@[simp] theorem State.modCore_failed (s : State) (c : Nat) (f : Core → Core) : (s.modCore c f).failed = s.failed := rfl
@[simp] theorem State.modCore_remoteCtr (s : State) (c : Nat) (f : Core → Core) : (s.modCore c f).remoteCtr = s.remoteCtr := rfl
@[simp] theorem State.modCore_remoteSeeds (s : State) (c : Nat) (f : Core → Core) : (s.modCore c f).remoteSeeds = s.remoteSeeds := rfl
@[simp] theorem State.modCore_keepalives (s : State) (c : Nat) (f : Core → Core) : (s.modCore c f).keepalives = s.keepalives := rfl
@[simp] theorem State.modCore_replied (s : State) (c : Nat) (f : Core → Core) : (s.modCore c f).replied = s.replied := rfl
@[simp] theorem State.modCore_vaultBad (s : State) (c : Nat) (f : Core → Core) : (s.modCore c f).vaultBad = s.vaultBad := rfl
@[simp] theorem State.modCore_fwDigest (s : State) (c : Nat) (f : Core → Core) : (s.modCore c f).fwDigest = s.fwDigest := rfl
@[simp] theorem State.modCore_fwSignature (s : State) (c : Nat) (f : Core → Core) : (s.modCore c f).fwSignature = s.fwSignature := rfl
@[simp] theorem State.modCore_debugLog (s : State) (c : Nat) (f : Core → Core) : (s.modCore c f).debugLog = s.debugLog := rfl
@[simp] theorem State.modCore_decided (s : State) (c : Nat) (f : Core → Core) : (s.modCore c f).decided = s.decided := rfl
@[simp] theorem State.modCore_unrouted (s : State) (c : Nat) (f : Core → Core) : (s.modCore c f).unrouted = s.unrouted := rfl
@[simp] theorem State.modCore_announced (s : State) (c : Nat) (f : Core → Core) : (s.modCore c f).announced = s.announced := rfl
@[simp] theorem State.modCore_reports (s : State) (c : Nat) (f : Core → Core) : (s.modCore c f).reports = s.reports := rfl

/-! ### modMyCore -/

@[simp] theorem State.modMyCore_inbox (s : State) (f : Core → Core) : (s.modMyCore f).inbox = s.inbox := rfl
@[simp] theorem State.modMyCore_begun (s : State) (f : Core → Core) : (s.modMyCore f).begun = s.begun := rfl
@[simp] theorem State.modMyCore_curCore (s : State) (f : Core → Core) : (s.modMyCore f).curCore = s.curCore := rfl
@[simp] theorem State.modMyCore_curSlot (s : State) (f : Core → Core) : (s.modMyCore f).curSlot = s.curSlot := rfl
@[simp] theorem State.modMyCore_cycle (s : State) (f : Core → Core) : (s.modMyCore f).cycle = s.cycle := rfl
@[simp] theorem State.modMyCore_turn (s : State) (f : Core → Core) : (s.modMyCore f).turn = s.turn := rfl
@[simp] theorem State.modMyCore_stamp (s : State) (f : Core → Core) : (s.modMyCore f).stamp = s.stamp := rfl
@[simp] theorem State.modMyCore_freeCtr (s : State) (f : Core → Core) : (s.modMyCore f).freeCtr = s.freeCtr := rfl
@[simp] theorem State.modMyCore_sent (s : State) (f : Core → Core) : (s.modMyCore f).sent = s.sent := rfl
@[simp] theorem State.modMyCore_mem (s : State) (f : Core → Core) : (s.modMyCore f).mem = s.mem := rfl
@[simp] theorem State.modMyCore_memBad (s : State) (f : Core → Core) : (s.modMyCore f).memBad = s.memBad := rfl
@[simp] theorem State.modMyCore_latent (s : State) (f : Core → Core) : (s.modMyCore f).latent = s.latent := rfl
@[simp] theorem State.modMyCore_l2 (s : State) (f : Core → Core) : (s.modMyCore f).l2 = s.l2 := rfl
@[simp] theorem State.modMyCore_clusters (s : State) (f : Core → Core) : (s.modMyCore f).clusters = s.clusters := rfl
@[simp] theorem State.modMyCore_parts (s : State) (f : Core → Core) : (s.modMyCore f).parts = s.parts := rfl
@[simp] theorem State.modMyCore_packets (s : State) (f : Core → Core) : (s.modMyCore f).packets = s.packets := rfl
@[simp] theorem State.modMyCore_hostMem (s : State) (f : Core → Core) : (s.modMyCore f).hostMem = s.hostMem := rfl
@[simp] theorem State.modMyCore_queues (s : State) (f : Core → Core) : (s.modMyCore f).queues = s.queues := rfl
@[simp] theorem State.modMyCore_admins (s : State) (f : Core → Core) : (s.modMyCore f).admins = s.admins := rfl
@[simp] theorem State.modMyCore_pfEvents (s : State) (f : Core → Core) : (s.modMyCore f).pfEvents = s.pfEvents := rfl
@[simp] theorem State.modMyCore_spdm (s : State) (f : Core → Core) : (s.modMyCore f).spdm = s.spdm := rfl
@[simp] theorem State.modMyCore_sessions (s : State) (f : Core → Core) : (s.modMyCore f).sessions = s.sessions := rfl
@[simp] theorem State.modMyCore_ide (s : State) (f : Core → Core) : (s.modMyCore f).ide = s.ide := rfl
@[simp] theorem State.modMyCore_ready (s : State) (f : Core → Core) : (s.modMyCore f).ready = s.ready := rfl
@[simp] theorem State.modMyCore_recovery (s : State) (f : Core → Core) : (s.modMyCore f).recovery = s.recovery := rfl
@[simp] theorem State.modMyCore_fwVersion (s : State) (f : Core → Core) : (s.modMyCore f).fwVersion = s.fwVersion := rfl
@[simp] theorem State.modMyCore_fwFuse (s : State) (f : Core → Core) : (s.modMyCore f).fwFuse = s.fwFuse := rfl
@[simp] theorem State.modMyCore_fwStaged (s : State) (f : Core → Core) : (s.modMyCore f).fwStaged = s.fwStaged := rfl
@[simp] theorem State.modMyCore_dies (s : State) (f : Core → Core) : (s.modMyCore f).dies = s.dies := rfl
@[simp] theorem State.modMyCore_thermalLimit (s : State) (f : Core → Core) : (s.modMyCore f).thermalLimit = s.thermalLimit := rfl
@[simp] theorem State.modMyCore_powerFloor (s : State) (f : Core → Core) : (s.modMyCore f).powerFloor = s.powerFloor := rfl
@[simp] theorem State.modMyCore_powerCap (s : State) (f : Core → Core) : (s.modMyCore f).powerCap = s.powerCap := rfl
@[simp] theorem State.modMyCore_lastReset (s : State) (f : Core → Core) : (s.modMyCore f).lastReset = s.lastReset := rfl
@[simp] theorem State.modMyCore_debugger (s : State) (f : Core → Core) : (s.modMyCore f).debugger = s.debugger := rfl
@[simp] theorem State.modMyCore_banks (s : State) (f : Core → Core) : (s.modMyCore f).banks = s.banks := rfl
@[simp] theorem State.modMyCore_scrubbed (s : State) (f : Core → Core) : (s.modMyCore f).scrubbed = s.scrubbed := rfl
@[simp] theorem State.modMyCore_replays (s : State) (f : Core → Core) : (s.modMyCore f).replays = s.replays := rfl
@[simp] theorem State.modMyCore_pkgid (s : State) (f : Core → Core) : (s.modMyCore f).pkgid = s.pkgid := rfl
@[simp] theorem State.modMyCore_dtags (s : State) (f : Core → Core) : (s.modMyCore f).dtags = s.dtags := rfl
@[simp] theorem State.modMyCore_routes (s : State) (f : Core → Core) : (s.modMyCore f).routes = s.routes := rfl
@[simp] theorem State.modMyCore_bars (s : State) (f : Core → Core) : (s.modMyCore f).bars = s.bars := rfl
@[simp] theorem State.modMyCore_ports (s : State) (f : Core → Core) : (s.modMyCore f).ports = s.ports := rfl
@[simp] theorem State.modMyCore_nextSeq (s : State) (f : Core → Core) : (s.modMyCore f).nextSeq = s.nextSeq := rfl
@[simp] theorem State.modMyCore_ackSent (s : State) (f : Core → Core) : (s.modMyCore f).ackSent = s.ackSent := rfl
@[simp] theorem State.modMyCore_outstanding (s : State) (f : Core → Core) : (s.modMyCore f).outstanding = s.outstanding := rfl
@[simp] theorem State.modMyCore_windows (s : State) (f : Core → Core) : (s.modMyCore f).windows = s.windows := rfl
@[simp] theorem State.modMyCore_failed (s : State) (f : Core → Core) : (s.modMyCore f).failed = s.failed := rfl
@[simp] theorem State.modMyCore_remoteCtr (s : State) (f : Core → Core) : (s.modMyCore f).remoteCtr = s.remoteCtr := rfl
@[simp] theorem State.modMyCore_remoteSeeds (s : State) (f : Core → Core) : (s.modMyCore f).remoteSeeds = s.remoteSeeds := rfl
@[simp] theorem State.modMyCore_keepalives (s : State) (f : Core → Core) : (s.modMyCore f).keepalives = s.keepalives := rfl
@[simp] theorem State.modMyCore_replied (s : State) (f : Core → Core) : (s.modMyCore f).replied = s.replied := rfl
@[simp] theorem State.modMyCore_vaultBad (s : State) (f : Core → Core) : (s.modMyCore f).vaultBad = s.vaultBad := rfl
@[simp] theorem State.modMyCore_fwDigest (s : State) (f : Core → Core) : (s.modMyCore f).fwDigest = s.fwDigest := rfl
@[simp] theorem State.modMyCore_fwSignature (s : State) (f : Core → Core) : (s.modMyCore f).fwSignature = s.fwSignature := rfl
@[simp] theorem State.modMyCore_debugLog (s : State) (f : Core → Core) : (s.modMyCore f).debugLog = s.debugLog := rfl
@[simp] theorem State.modMyCore_decided (s : State) (f : Core → Core) : (s.modMyCore f).decided = s.decided := rfl
@[simp] theorem State.modMyCore_unrouted (s : State) (f : Core → Core) : (s.modMyCore f).unrouted = s.unrouted := rfl
@[simp] theorem State.modMyCore_announced (s : State) (f : Core → Core) : (s.modMyCore f).announced = s.announced := rfl
@[simp] theorem State.modMyCore_reports (s : State) (f : Core → Core) : (s.modMyCore f).reports = s.reports := rfl

/-! ### modPart -/

@[simp] theorem State.modPart_inbox (s : State) (p : Nat) (f : Partition → Partition) : (s.modPart p f).inbox = s.inbox := rfl
@[simp] theorem State.modPart_begun (s : State) (p : Nat) (f : Partition → Partition) : (s.modPart p f).begun = s.begun := rfl
@[simp] theorem State.modPart_curCore (s : State) (p : Nat) (f : Partition → Partition) : (s.modPart p f).curCore = s.curCore := rfl
@[simp] theorem State.modPart_curSlot (s : State) (p : Nat) (f : Partition → Partition) : (s.modPart p f).curSlot = s.curSlot := rfl
@[simp] theorem State.modPart_cycle (s : State) (p : Nat) (f : Partition → Partition) : (s.modPart p f).cycle = s.cycle := rfl
@[simp] theorem State.modPart_turn (s : State) (p : Nat) (f : Partition → Partition) : (s.modPart p f).turn = s.turn := rfl
@[simp] theorem State.modPart_stamp (s : State) (p : Nat) (f : Partition → Partition) : (s.modPart p f).stamp = s.stamp := rfl
@[simp] theorem State.modPart_freeCtr (s : State) (p : Nat) (f : Partition → Partition) : (s.modPart p f).freeCtr = s.freeCtr := rfl
@[simp] theorem State.modPart_sent (s : State) (p : Nat) (f : Partition → Partition) : (s.modPart p f).sent = s.sent := rfl
@[simp] theorem State.modPart_mem (s : State) (p : Nat) (f : Partition → Partition) : (s.modPart p f).mem = s.mem := rfl
@[simp] theorem State.modPart_memBad (s : State) (p : Nat) (f : Partition → Partition) : (s.modPart p f).memBad = s.memBad := rfl
@[simp] theorem State.modPart_latent (s : State) (p : Nat) (f : Partition → Partition) : (s.modPart p f).latent = s.latent := rfl
@[simp] theorem State.modPart_l2 (s : State) (p : Nat) (f : Partition → Partition) : (s.modPart p f).l2 = s.l2 := rfl
@[simp] theorem State.modPart_cores (s : State) (p : Nat) (f : Partition → Partition) : (s.modPart p f).cores = s.cores := rfl
@[simp] theorem State.modPart_clusters (s : State) (p : Nat) (f : Partition → Partition) : (s.modPart p f).clusters = s.clusters := rfl
@[simp] theorem State.modPart_packets (s : State) (p : Nat) (f : Partition → Partition) : (s.modPart p f).packets = s.packets := rfl
@[simp] theorem State.modPart_hostMem (s : State) (p : Nat) (f : Partition → Partition) : (s.modPart p f).hostMem = s.hostMem := rfl
@[simp] theorem State.modPart_queues (s : State) (p : Nat) (f : Partition → Partition) : (s.modPart p f).queues = s.queues := rfl
@[simp] theorem State.modPart_admins (s : State) (p : Nat) (f : Partition → Partition) : (s.modPart p f).admins = s.admins := rfl
@[simp] theorem State.modPart_pfEvents (s : State) (p : Nat) (f : Partition → Partition) : (s.modPart p f).pfEvents = s.pfEvents := rfl
@[simp] theorem State.modPart_spdm (s : State) (p : Nat) (f : Partition → Partition) : (s.modPart p f).spdm = s.spdm := rfl
@[simp] theorem State.modPart_sessions (s : State) (p : Nat) (f : Partition → Partition) : (s.modPart p f).sessions = s.sessions := rfl
@[simp] theorem State.modPart_ide (s : State) (p : Nat) (f : Partition → Partition) : (s.modPart p f).ide = s.ide := rfl
@[simp] theorem State.modPart_ready (s : State) (p : Nat) (f : Partition → Partition) : (s.modPart p f).ready = s.ready := rfl
@[simp] theorem State.modPart_recovery (s : State) (p : Nat) (f : Partition → Partition) : (s.modPart p f).recovery = s.recovery := rfl
@[simp] theorem State.modPart_fwVersion (s : State) (p : Nat) (f : Partition → Partition) : (s.modPart p f).fwVersion = s.fwVersion := rfl
@[simp] theorem State.modPart_fwFuse (s : State) (p : Nat) (f : Partition → Partition) : (s.modPart p f).fwFuse = s.fwFuse := rfl
@[simp] theorem State.modPart_fwStaged (s : State) (p : Nat) (f : Partition → Partition) : (s.modPart p f).fwStaged = s.fwStaged := rfl
@[simp] theorem State.modPart_dies (s : State) (p : Nat) (f : Partition → Partition) : (s.modPart p f).dies = s.dies := rfl
@[simp] theorem State.modPart_thermalLimit (s : State) (p : Nat) (f : Partition → Partition) : (s.modPart p f).thermalLimit = s.thermalLimit := rfl
@[simp] theorem State.modPart_powerFloor (s : State) (p : Nat) (f : Partition → Partition) : (s.modPart p f).powerFloor = s.powerFloor := rfl
@[simp] theorem State.modPart_powerCap (s : State) (p : Nat) (f : Partition → Partition) : (s.modPart p f).powerCap = s.powerCap := rfl
@[simp] theorem State.modPart_lastReset (s : State) (p : Nat) (f : Partition → Partition) : (s.modPart p f).lastReset = s.lastReset := rfl
@[simp] theorem State.modPart_debugger (s : State) (p : Nat) (f : Partition → Partition) : (s.modPart p f).debugger = s.debugger := rfl
@[simp] theorem State.modPart_banks (s : State) (p : Nat) (f : Partition → Partition) : (s.modPart p f).banks = s.banks := rfl
@[simp] theorem State.modPart_scrubbed (s : State) (p : Nat) (f : Partition → Partition) : (s.modPart p f).scrubbed = s.scrubbed := rfl
@[simp] theorem State.modPart_replays (s : State) (p : Nat) (f : Partition → Partition) : (s.modPart p f).replays = s.replays := rfl
@[simp] theorem State.modPart_pkgid (s : State) (p : Nat) (f : Partition → Partition) : (s.modPart p f).pkgid = s.pkgid := rfl
@[simp] theorem State.modPart_dtags (s : State) (p : Nat) (f : Partition → Partition) : (s.modPart p f).dtags = s.dtags := rfl
@[simp] theorem State.modPart_routes (s : State) (p : Nat) (f : Partition → Partition) : (s.modPart p f).routes = s.routes := rfl
@[simp] theorem State.modPart_bars (s : State) (p : Nat) (f : Partition → Partition) : (s.modPart p f).bars = s.bars := rfl
@[simp] theorem State.modPart_ports (s : State) (p : Nat) (f : Partition → Partition) : (s.modPart p f).ports = s.ports := rfl
@[simp] theorem State.modPart_nextSeq (s : State) (p : Nat) (f : Partition → Partition) : (s.modPart p f).nextSeq = s.nextSeq := rfl
@[simp] theorem State.modPart_ackSent (s : State) (p : Nat) (f : Partition → Partition) : (s.modPart p f).ackSent = s.ackSent := rfl
@[simp] theorem State.modPart_outstanding (s : State) (p : Nat) (f : Partition → Partition) : (s.modPart p f).outstanding = s.outstanding := rfl
@[simp] theorem State.modPart_windows (s : State) (p : Nat) (f : Partition → Partition) : (s.modPart p f).windows = s.windows := rfl
@[simp] theorem State.modPart_failed (s : State) (p : Nat) (f : Partition → Partition) : (s.modPart p f).failed = s.failed := rfl
@[simp] theorem State.modPart_remoteCtr (s : State) (p : Nat) (f : Partition → Partition) : (s.modPart p f).remoteCtr = s.remoteCtr := rfl
@[simp] theorem State.modPart_remoteSeeds (s : State) (p : Nat) (f : Partition → Partition) : (s.modPart p f).remoteSeeds = s.remoteSeeds := rfl
@[simp] theorem State.modPart_keepalives (s : State) (p : Nat) (f : Partition → Partition) : (s.modPart p f).keepalives = s.keepalives := rfl
@[simp] theorem State.modPart_replied (s : State) (p : Nat) (f : Partition → Partition) : (s.modPart p f).replied = s.replied := rfl
@[simp] theorem State.modPart_vaultBad (s : State) (p : Nat) (f : Partition → Partition) : (s.modPart p f).vaultBad = s.vaultBad := rfl
@[simp] theorem State.modPart_fwDigest (s : State) (p : Nat) (f : Partition → Partition) : (s.modPart p f).fwDigest = s.fwDigest := rfl
@[simp] theorem State.modPart_fwSignature (s : State) (p : Nat) (f : Partition → Partition) : (s.modPart p f).fwSignature = s.fwSignature := rfl
@[simp] theorem State.modPart_debugLog (s : State) (p : Nat) (f : Partition → Partition) : (s.modPart p f).debugLog = s.debugLog := rfl
@[simp] theorem State.modPart_decided (s : State) (p : Nat) (f : Partition → Partition) : (s.modPart p f).decided = s.decided := rfl
@[simp] theorem State.modPart_unrouted (s : State) (p : Nat) (f : Partition → Partition) : (s.modPart p f).unrouted = s.unrouted := rfl
@[simp] theorem State.modPart_announced (s : State) (p : Nat) (f : Partition → Partition) : (s.modPart p f).announced = s.announced := rfl
@[simp] theorem State.modPart_reports (s : State) (p : Nat) (f : Partition → Partition) : (s.modPart p f).reports = s.reports := rfl

/-! ### writeShared -/

@[simp] theorem State.writeShared_inbox (s : State) (lat : Nat) (w : SharedWrite) : (s.writeShared lat w).inbox = s.inbox := rfl
@[simp] theorem State.writeShared_begun (s : State) (lat : Nat) (w : SharedWrite) : (s.writeShared lat w).begun = s.begun := rfl
@[simp] theorem State.writeShared_curCore (s : State) (lat : Nat) (w : SharedWrite) : (s.writeShared lat w).curCore = s.curCore := rfl
@[simp] theorem State.writeShared_curSlot (s : State) (lat : Nat) (w : SharedWrite) : (s.writeShared lat w).curSlot = s.curSlot := rfl
@[simp] theorem State.writeShared_cycle (s : State) (lat : Nat) (w : SharedWrite) : (s.writeShared lat w).cycle = s.cycle := rfl
@[simp] theorem State.writeShared_turn (s : State) (lat : Nat) (w : SharedWrite) : (s.writeShared lat w).turn = s.turn := rfl
@[simp] theorem State.writeShared_stamp (s : State) (lat : Nat) (w : SharedWrite) : (s.writeShared lat w).stamp = s.stamp := rfl
@[simp] theorem State.writeShared_freeCtr (s : State) (lat : Nat) (w : SharedWrite) : (s.writeShared lat w).freeCtr = s.freeCtr := rfl
@[simp] theorem State.writeShared_sent (s : State) (lat : Nat) (w : SharedWrite) : (s.writeShared lat w).sent = s.sent := rfl
@[simp] theorem State.writeShared_mem (s : State) (lat : Nat) (w : SharedWrite) : (s.writeShared lat w).mem = s.mem := rfl
@[simp] theorem State.writeShared_memBad (s : State) (lat : Nat) (w : SharedWrite) : (s.writeShared lat w).memBad = s.memBad := rfl
@[simp] theorem State.writeShared_latent (s : State) (lat : Nat) (w : SharedWrite) : (s.writeShared lat w).latent = s.latent := rfl
@[simp] theorem State.writeShared_l2 (s : State) (lat : Nat) (w : SharedWrite) : (s.writeShared lat w).l2 = s.l2 := rfl
@[simp] theorem State.writeShared_clusters (s : State) (lat : Nat) (w : SharedWrite) : (s.writeShared lat w).clusters = s.clusters := rfl
@[simp] theorem State.writeShared_parts (s : State) (lat : Nat) (w : SharedWrite) : (s.writeShared lat w).parts = s.parts := rfl
@[simp] theorem State.writeShared_packets (s : State) (lat : Nat) (w : SharedWrite) : (s.writeShared lat w).packets = s.packets := rfl
@[simp] theorem State.writeShared_hostMem (s : State) (lat : Nat) (w : SharedWrite) : (s.writeShared lat w).hostMem = s.hostMem := rfl
@[simp] theorem State.writeShared_queues (s : State) (lat : Nat) (w : SharedWrite) : (s.writeShared lat w).queues = s.queues := rfl
@[simp] theorem State.writeShared_admins (s : State) (lat : Nat) (w : SharedWrite) : (s.writeShared lat w).admins = s.admins := rfl
@[simp] theorem State.writeShared_pfEvents (s : State) (lat : Nat) (w : SharedWrite) : (s.writeShared lat w).pfEvents = s.pfEvents := rfl
@[simp] theorem State.writeShared_spdm (s : State) (lat : Nat) (w : SharedWrite) : (s.writeShared lat w).spdm = s.spdm := rfl
@[simp] theorem State.writeShared_sessions (s : State) (lat : Nat) (w : SharedWrite) : (s.writeShared lat w).sessions = s.sessions := rfl
@[simp] theorem State.writeShared_ide (s : State) (lat : Nat) (w : SharedWrite) : (s.writeShared lat w).ide = s.ide := rfl
@[simp] theorem State.writeShared_ready (s : State) (lat : Nat) (w : SharedWrite) : (s.writeShared lat w).ready = s.ready := rfl
@[simp] theorem State.writeShared_recovery (s : State) (lat : Nat) (w : SharedWrite) : (s.writeShared lat w).recovery = s.recovery := rfl
@[simp] theorem State.writeShared_fwVersion (s : State) (lat : Nat) (w : SharedWrite) : (s.writeShared lat w).fwVersion = s.fwVersion := rfl
@[simp] theorem State.writeShared_fwFuse (s : State) (lat : Nat) (w : SharedWrite) : (s.writeShared lat w).fwFuse = s.fwFuse := rfl
@[simp] theorem State.writeShared_fwStaged (s : State) (lat : Nat) (w : SharedWrite) : (s.writeShared lat w).fwStaged = s.fwStaged := rfl
@[simp] theorem State.writeShared_dies (s : State) (lat : Nat) (w : SharedWrite) : (s.writeShared lat w).dies = s.dies := rfl
@[simp] theorem State.writeShared_thermalLimit (s : State) (lat : Nat) (w : SharedWrite) : (s.writeShared lat w).thermalLimit = s.thermalLimit := rfl
@[simp] theorem State.writeShared_powerFloor (s : State) (lat : Nat) (w : SharedWrite) : (s.writeShared lat w).powerFloor = s.powerFloor := rfl
@[simp] theorem State.writeShared_powerCap (s : State) (lat : Nat) (w : SharedWrite) : (s.writeShared lat w).powerCap = s.powerCap := rfl
@[simp] theorem State.writeShared_lastReset (s : State) (lat : Nat) (w : SharedWrite) : (s.writeShared lat w).lastReset = s.lastReset := rfl
@[simp] theorem State.writeShared_debugger (s : State) (lat : Nat) (w : SharedWrite) : (s.writeShared lat w).debugger = s.debugger := rfl
@[simp] theorem State.writeShared_banks (s : State) (lat : Nat) (w : SharedWrite) : (s.writeShared lat w).banks = s.banks := rfl
@[simp] theorem State.writeShared_scrubbed (s : State) (lat : Nat) (w : SharedWrite) : (s.writeShared lat w).scrubbed = s.scrubbed := rfl
@[simp] theorem State.writeShared_replays (s : State) (lat : Nat) (w : SharedWrite) : (s.writeShared lat w).replays = s.replays := rfl
@[simp] theorem State.writeShared_pkgid (s : State) (lat : Nat) (w : SharedWrite) : (s.writeShared lat w).pkgid = s.pkgid := rfl
@[simp] theorem State.writeShared_dtags (s : State) (lat : Nat) (w : SharedWrite) : (s.writeShared lat w).dtags = s.dtags := rfl
@[simp] theorem State.writeShared_routes (s : State) (lat : Nat) (w : SharedWrite) : (s.writeShared lat w).routes = s.routes := rfl
@[simp] theorem State.writeShared_bars (s : State) (lat : Nat) (w : SharedWrite) : (s.writeShared lat w).bars = s.bars := rfl
@[simp] theorem State.writeShared_ports (s : State) (lat : Nat) (w : SharedWrite) : (s.writeShared lat w).ports = s.ports := rfl
@[simp] theorem State.writeShared_nextSeq (s : State) (lat : Nat) (w : SharedWrite) : (s.writeShared lat w).nextSeq = s.nextSeq := rfl
@[simp] theorem State.writeShared_ackSent (s : State) (lat : Nat) (w : SharedWrite) : (s.writeShared lat w).ackSent = s.ackSent := rfl
@[simp] theorem State.writeShared_outstanding (s : State) (lat : Nat) (w : SharedWrite) : (s.writeShared lat w).outstanding = s.outstanding := rfl
@[simp] theorem State.writeShared_windows (s : State) (lat : Nat) (w : SharedWrite) : (s.writeShared lat w).windows = s.windows := rfl
@[simp] theorem State.writeShared_failed (s : State) (lat : Nat) (w : SharedWrite) : (s.writeShared lat w).failed = s.failed := rfl
@[simp] theorem State.writeShared_remoteCtr (s : State) (lat : Nat) (w : SharedWrite) : (s.writeShared lat w).remoteCtr = s.remoteCtr := rfl
@[simp] theorem State.writeShared_remoteSeeds (s : State) (lat : Nat) (w : SharedWrite) : (s.writeShared lat w).remoteSeeds = s.remoteSeeds := rfl
@[simp] theorem State.writeShared_keepalives (s : State) (lat : Nat) (w : SharedWrite) : (s.writeShared lat w).keepalives = s.keepalives := rfl
@[simp] theorem State.writeShared_replied (s : State) (lat : Nat) (w : SharedWrite) : (s.writeShared lat w).replied = s.replied := rfl
@[simp] theorem State.writeShared_vaultBad (s : State) (lat : Nat) (w : SharedWrite) : (s.writeShared lat w).vaultBad = s.vaultBad := rfl
@[simp] theorem State.writeShared_fwDigest (s : State) (lat : Nat) (w : SharedWrite) : (s.writeShared lat w).fwDigest = s.fwDigest := rfl
@[simp] theorem State.writeShared_fwSignature (s : State) (lat : Nat) (w : SharedWrite) : (s.writeShared lat w).fwSignature = s.fwSignature := rfl
@[simp] theorem State.writeShared_debugLog (s : State) (lat : Nat) (w : SharedWrite) : (s.writeShared lat w).debugLog = s.debugLog := rfl
@[simp] theorem State.writeShared_decided (s : State) (lat : Nat) (w : SharedWrite) : (s.writeShared lat w).decided = s.decided := rfl
@[simp] theorem State.writeShared_unrouted (s : State) (lat : Nat) (w : SharedWrite) : (s.writeShared lat w).unrouted = s.unrouted := rfl
@[simp] theorem State.writeShared_announced (s : State) (lat : Nat) (w : SharedWrite) : (s.writeShared lat w).announced = s.announced := rfl
@[simp] theorem State.writeShared_reports (s : State) (lat : Nat) (w : SharedWrite) : (s.writeShared lat w).reports = s.reports := rfl

@[simp] theorem State.focus_curCore (s : State) (c : Nat) (k : Fin 8) : (s.focus c k).curCore = c := rfl
@[simp] theorem State.focus_curSlot (s : State) (c : Nat) (k : Fin 8) : (s.focus c k).curSlot = k := rfl
@[simp] theorem State.tick_stamp (s : State) : s.tick.stamp = s.stamp + 1 := rfl
@[simp] theorem State.setCore_cores (s : State) (c : Nat) (k : Core) : (s.setCore c k).cores = mapSet s.cores c k := rfl
@[simp] theorem State.setPart_parts (s : State) (p : Nat) (q : Partition) : (s.setPart p q).parts = mapSet s.parts p q := rfl

/-! ### Cores, slots and partitions -/

@[simp] theorem State.core_setCore_self (s : State) (c : Nat) (k : Core) : (s.setCore c k).core c = k := mapGet_mapSet_self ..
theorem State.core_setCore_ne (s : State) {c c' : Nat} (k : Core) (h : c' ≠ c) : (s.setCore c k).core c' = s.core c' :=
  mapGet_mapSet_ne _ _ _ h
@[simp] theorem State.part_setPart_self (s : State) (p : Nat) (q : Partition) : (s.setPart p q).part p = q := mapGet_mapSet_self ..
theorem State.part_setPart_ne (s : State) {p p' : Nat} (q : Partition) (h : p' ≠ p) : (s.setPart p q).part p' = s.part p' :=
  mapGet_mapSet_ne _ _ _ h
@[simp] theorem State.core_tick (s : State) (c : Nat) : s.tick.core c = s.core c := rfl
@[simp] theorem State.core_focus (s : State) (c' : Nat) (k : Fin 8) (c : Nat) : (s.focus c' k).core c = s.core c := rfl
@[simp] theorem State.core_setPart (s : State) (p : Nat) (q : Partition) (c : Nat) : (s.setPart p q).core c = s.core c := rfl
@[simp] theorem State.part_setCore (s : State) (c : Nat) (k : Core) (p : Nat) : (s.setCore c k).part p = s.part p := rfl
@[simp] theorem State.slotAt_tick (s : State) (c : Nat) (k : Fin 8) : s.tick.slotAt c k = s.slotAt c k := rfl
@[simp] theorem State.me_tick (s : State) : s.tick.me = s.me := rfl

@[simp] theorem State.core_setSlotAt_self (s : State) (c : Nat) (k : Fin 8) (t : Slot) :
    (s.setSlotAt c k t).core c = { s.core c with slots := (s.core c).slots.set k t } := State.core_setCore_self ..
theorem State.core_setSlotAt_ne (s : State) {c c' : Nat} (k : Fin 8) (t : Slot) (h : c' ≠ c) :
    (s.setSlotAt c k t).core c' = s.core c' := State.core_setCore_ne _ _ h
@[simp] theorem State.slotAt_setSlotAt_self (s : State) (c : Nat) (k : Fin 8) (t : Slot) : (s.setSlotAt c k t).slotAt c k = t := by
  simp [State.slotAt]
theorem State.slotAt_setSlotAt_slot (s : State) (c : Nat) {k k' : Fin 8} (t : Slot) (h : k' ≠ k) :
    (s.setSlotAt c k t).slotAt c k' = s.slotAt c k' := by
  have : k.val ≠ k'.val := fun e => h (Fin.ext e.symm)
  simp [State.slotAt, this]
theorem State.slotAt_setSlotAt_core (s : State) {c c' : Nat} (k k' : Fin 8) (t : Slot) (h : c' ≠ c) :
    (s.setSlotAt c k t).slotAt c' k' = s.slotAt c' k' := by
  simp [State.slotAt, State.core_setSlotAt_ne _ _ _ h]
@[simp] theorem State.me_setMe (s : State) (t : Slot) : (s.setMe t).me = t := State.slotAt_setSlotAt_self ..
@[simp] theorem State.me_modMe (s : State) (f : Slot → Slot) : (s.modMe f).me = f s.me := State.me_setMe ..
@[simp] theorem State.myCore_setMyCore (s : State) (k : Core) : (s.setMyCore k).myCore = k := State.core_setCore_self ..
@[simp] theorem State.myCore_modMyCore (s : State) (f : Core → Core) : (s.modMyCore f).myCore = f s.myCore :=
  State.myCore_setMyCore ..
@[simp] theorem State.core_modCore_self (s : State) (c : Nat) (f : Core → Core) : (s.modCore c f).core c = f (s.core c) :=
  State.core_setCore_self ..
theorem State.core_modCore_ne (s : State) {c c' : Nat} (f : Core → Core) (h : c' ≠ c) : (s.modCore c f).core c' = s.core c' :=
  State.core_setCore_ne _ _ h
theorem State.core_modMe_ne (s : State) {c : Nat} (f : Slot → Slot) (h : c ≠ s.curCore) : (s.modMe f).core c = s.core c :=
  State.core_setSlotAt_ne _ _ _ h
theorem State.core_modMe_self (s : State) (f : Slot → Slot) :
    (s.modMe f).core s.curCore = { s.myCore with slots := s.myCore.slots.set s.curSlot (f s.me) } := State.core_setSlotAt_self ..
/-- A change of the executing slot changes no core but its own, and of that core only the slots. -/
theorem State.core_modMe (s : State) (f : Slot → Slot) (c : Nat) :
    (s.modMe f).core c = { s.core c with slots := ((s.modMe f).core c).slots } := by
  by_cases h : c = s.curCore
  · subst h; rw [State.core_modMe_self]; rfl
  · rw [State.core_modMe_ne _ _ h]

end Sys2Proof.Machine
end

