-- ==== Sys2Proof/Laws/Ops.lean ====
section
/-!
SUPPORT. What the shared operations of the meanings do: reading and writing registers, writing a result, completing, transfers and
waits, taking an exception.
-/
namespace Sys2Proof.Machine

theorem run_of_ok {m : M Unit} {s t : State} (h : m s = .ok ((), t)) : run m s = .next t := by simp [run, h]

/-! ### The monad of a meaning -/

theorem run_of_error {m : M Unit} {s : State} {st : Stop} (h : m s = .error st) : run m s = stopped st s := by simp [run, h]

/-- A sequence goes on with the value and state of its first part. -/
theorem bind_of_ok {α β : Type} {m : M α} {f : α → M β} {s t : State} {a : α} (h : m s = .ok (a, t)) : (m >>= f) s = f a t := by
  simp [bind, StateT.bind, h, Except.bind]

/-- A sequence ends where its first part ends. -/
theorem bind_of_error {α β : Type} {m : M α} {f : α → M β} {s : State} {st : Stop} (h : m s = .error st) :
    (m >>= f) s = .error st := by
  simp [bind, StateT.bind, h, Except.bind]

@[simp] theorem bind_look {α β : Type} (g : State → α) (f : α → M β) (s : State) : (look g >>= f) s = f (g s) s := rfl
@[simp] theorem bind_change {β : Type} (g : State → State) (f : Unit → M β) (s : State) : (change g >>= f) s = f () (g s) := rfl
@[simp] theorem bind_halt {α β : Type} (st : Stop) (f : α → M β) (s : State) : ((halt st : M α) >>= f) s = .error st := rfl
@[simp] theorem bind_trap {α β : Type} (c : Cause) (a : Word) (f : α → M β) (s : State) :
    ((trap c a : M α) >>= f) s = .error (.trap c a) := rfl
@[simp] theorem bind_check_true {β : Type} (c : Cause) (a : Word) (f : Unit → M β) (s : State) : (check true c a >>= f) s = f () s := rfl
@[simp] theorem bind_check_false {β : Type} (c : Cause) (a : Word) (f : Unit → M β) (s : State) :
    (check false c a >>= f) s = .error (.trap c a) := rfl
@[simp] theorem bind_pure' {α β : Type} (a : α) (f : α → M β) (s : State) : ((pure a : M α) >>= f) s = f a s := rfl
@[simp] theorem pure_apply {α : Type} (a : α) (s : State) : (pure a : M α) s = .ok (a, s) := rfl
@[simp] theorem look_apply {α : Type} (g : State → α) (s : State) : look g s = .ok (g s, s) := rfl
@[simp] theorem change_apply (g : State → State) (s : State) : change g s = .ok ((), g s) := rfl
@[simp] theorem halt_apply {α : Type} (st : Stop) (s : State) : (halt st : M α) s = .error st := rfl
@[simp] theorem trap_apply {α : Type} (c : Cause) (a : Word) (s : State) : (trap c a : M α) s = .error (.trap c a) := rfl

/-- What a stop of each kind does. -/
theorem stopped_trap (c : Cause) (a : Word) (s : State) :
    stopped (.trap c a) s = .next (s.takeTrap c a (c == .mce || c == .fabric)) := rfl
theorem stopped_wait (w : Wait) (s : State) : stopped (.wait w) s = .next (s.hold w) := rfl
theorem stopped_keep (u s : State) (st : Stop) : stopped (.keep u st) s = stopped st u := rfl
theorem stopped_paused (u s : State) : stopped (.paused u) s = .next u := rfl

/-- A trap of any cause but MCE and FABRIC contains nothing. -/
theorem stopped_plain {c : Cause} (a : Word) (s : State) (h : (c == .mce || c == .fabric) = false) :
    stopped (.trap c a) s = .next (s.takeTrap c a false) := by rw [stopped_trap, h]

/-- The end of an access instruction: complete, and out of the rotation until its replies are there. -/
theorem finish_served (s : State) : (do finish 4; awaitReply) s = .ok ((), s.served) := rfl

/-! ### Registers and results -/

/-- A register that names no pending entry is read at once. -/
theorem readX_of_unmarked {s : State} {r : Reg} (h : s.markOf r = none) : readX r s = .ok (s.xval r, s) := by
  simp [readX, h]

/-- A register that names a pending entry holds the slot. -/
theorem readX_of_marked {s : State} {r : Reg} {id : Nat} (h : s.markOf r = some id) :
    readX r s = .error (.wait (.future id)) := by simp [readX, h]

theorem unmarked_one {s : State} {a : Reg} (h : s.unmarked [a]) : s.markOf a = none := h a (by simp)
theorem unmarked_two {s : State} {a b : Reg} (h : s.unmarked [a, b]) : s.markOf a = none ∧ s.markOf b = none :=
  ⟨h a (by simp), h b (by simp)⟩

/-- The shape of a scalar result of two sources. -/
theorem binaryXAt_ok {s : State} {a b : Reg} (lat : Nat) (len : Word) (d : Reg) (f : Word → Word → Word)
    (h : s.unmarked [a, b]) :
    binaryXAt lat len d a b f s = .ok ((), s.wroteX lat len d (f (s.xval a) (s.xval b))) := by
  obtain ⟨ha, hb⟩ := unmarked_two h
  simp only [binaryXAt, bind, StateT.bind, readX_of_unmarked ha, readX_of_unmarked hb, Except.bind]
  rfl

/-- The shape of a scalar result of one source. -/
theorem unaryX_ok {s : State} {a : Reg} (len : Word) (d : Reg) (f : Word → Word) (h : s.unmarked [a]) :
    unaryX len d a f s = .ok ((), s.wroteX scalarLat len d (f (s.xval a))) := by
  simp only [unaryX, bind, StateT.bind, readX_of_unmarked (unmarked_one h), Except.bind]
  rfl

/-! ### Completion, transfers and waits -/

/-- Outside a hardware loop only the PC moves (R97). -/
theorem loopStep_plain {t : Slot} (h : t.sw.hl = false) (next : Word) (taken : Bool) : loopStep t next taken = { t with pc := next } := by
  simp [loopStep, h]

/-- Before the last instruction of a loop's body only the PC moves (R97). -/
theorem loopStep_body {t : Slot} (h : t.pc ≠ evenAddr t.lend) (next : Word) : loopStep t next false = { t with pc := next } := by
  unfold loopStep; split
  · simp only [Bool.false_eq_true, if_false]
  · rfl

/-- After the last instruction of the body, with passes left, the body begins again (R97). -/
theorem loopStep_back {t : Slot} (h : t.sw.hl = true) (hp : t.pc = evenAddr t.lend) (hc : t.lc - 1 ≠ 0) (next : Word) :
    loopStep t next false = { t with lc := t.lc - 1, pc := evenAddr t.lstart } := by
  simp only [loopStep, if_pos h, Bool.false_eq_true, if_false, if_pos hp, if_neg hc]

/-- After the last pass the loop ends: HL is clear (R97). -/
theorem loopStep_end {t : Slot} (h : t.sw.hl = true) (hp : t.pc = evenAddr t.lend) (hc : t.lc - 1 = 0) (next : Word) :
    loopStep t next false = { t with lc := t.lc - 1, sw := { t.sw with hl := false }, pc := next } := by
  simp only [loopStep, if_pos h, Bool.false_eq_true, if_false, if_pos hp, if_pos hc]

/-- A taken transfer out of the body ends the loop; one inside it does not (R97). -/
theorem loopStep_taken {t : Slot} (h : t.sw.hl = true) (next : Word) : loopStep t next true =
    { t with sw := { t.sw with hl := !decide (next < evenAddr t.lstart ∨ evenAddr t.lend < next) }, pc := next } := by
  by_cases c : next < evenAddr t.lstart ∨ evenAddr t.lend < next
  · simp [loopStep, h, c]
  · have e : { t with sw := { t.sw with hl := true }, pc := next } = ({ t with pc := next } : Slot) := by rw [← h]
    simp [loopStep, h, c, e]

/-- The loop step changes LC, HL and the PC and nothing else of the slot (R97). -/
theorem loopStep_frame (t : Slot) (next : Word) (taken : Bool) : ∃ lc hl pc,
    loopStep t next taken = { t with lc := lc, sw := { t.sw with hl := hl }, pc := pc } := by
  cases hl : t.sw.hl with
  | false => exact ⟨t.lc, t.sw.hl, next, loopStep_plain hl next taken⟩
  | true =>
    cases taken with
    | true => exact ⟨t.lc, _, next, loopStep_taken hl next⟩
    | false =>
      by_cases hp : t.pc = evenAddr t.lend
      · by_cases hc : t.lc - 1 = 0
        · exact ⟨_, false, next, loopStep_end hl hp hc next⟩
        · exact ⟨_, t.sw.hl, _, loopStep_back hl hp hc next⟩
      · exact ⟨t.lc, t.sw.hl, next, loopStep_body hp next⟩

@[simp] theorem State.me_complete (s : State) (len : Word) : (s.complete len).me = settled (loopStep s.me (s.me.pc + len) false) := State.me_modMe ..
@[simp] theorem State.me_jump (s : State) (target : Word) : (s.jump target).me = settled (loopStep s.me target true) := State.me_modMe ..
@[simp] theorem State.me_resumeAt (s : State) (pc : Word) : (s.resumeAt pc).me = settled { s.me with pc := pc } := State.me_modMe ..
@[simp] theorem State.me_leave (s : State) (w : Wait) : (s.leave w).me = { s.me with out := w, since := s.stamp } := by
  rw [State.leave, State.me_tick]; exact State.me_modMe ..

/-- Completing, a transfer and a wait change the slot being executed only. -/
theorem State.core_complete_ne (s : State) (len : Word) {c : Nat} (h : c ≠ s.curCore) : (s.complete len).core c = s.core c := State.core_modMe_ne s _ h
theorem State.core_leave_ne (s : State) (w : Wait) {c : Nat} (h : c ≠ s.curCore) : (s.leave w).core c = s.core c := by
  rw [State.leave, State.core_tick]; exact State.core_modMe_ne s _ h
@[simp] theorem State.mem_complete (s : State) (len : Word) : (s.complete len).mem = s.mem := rfl
@[simp] theorem State.mem_leave (s : State) (w : Wait) : (s.leave w).mem = s.mem := rfl
@[simp] theorem State.parts_complete (s : State) (len : Word) : (s.complete len).parts = s.parts := rfl
@[simp] theorem State.packets_complete (s : State) (len : Word) : (s.complete len).packets = s.packets := rfl

/-! ### Writing a register -/

theorem isShared_eq_false {r : Reg} (h : r.toNat < 16) : isShared r = false := by simp [isShared]; omega
theorem regLow_val {r : Reg} (h : r.toNat < 16) : (regLow r).val = r.toNat := Nat.mod_eq_of_lt h

/-- A private register reads as written, and is no longer pending (R27, R194). -/
theorem State.xval_setXAt_self (s : State) (lat : Nat) {r : Reg} (h : r.toNat < 16) (h0 : r.toNat ≠ 0) (v : Word) :
    (s.setXAt lat r v).xval r = v ∧ (s.setXAt lat r v).markOf r = none := by
  simp [State.setXAt, State.xval, State.markOf, isShared_eq_false h, h0, State.me_modMe]

/-- Any other private register reads as before. -/
theorem State.xval_setXAt_ne (s : State) (lat : Nat) {r q : Reg} (hr : r.toNat < 16) (hq : q.toNat < 16) (h : q ≠ r) (v : Word) :
    (s.setXAt lat r v).xval q = s.xval q := by
  have hv : (regLow r).val ≠ (regLow q).val := by
    rw [regLow_val hr, regLow_val hq]; exact fun e => h (BitVec.eq_of_toNat_eq e.symm)
  unfold State.setXAt State.xval
  simp only [isShared_eq_false hr, isShared_eq_false hq]
  by_cases h0 : r.toNat = 0
  · simp [h0]
  · simp [h0, State.me_modMe, Vector.getElem_set_ne _ _ hv]

/-- x0 discards what is written to it (R27). -/
theorem State.setXAt_zero (s : State) (lat : Nat) (v : Word) : s.setXAt lat 0 v = s := rfl

/-- The slot that writes a shared register sees it written at once (R82, R86). -/
theorem Core.seenBy_append (k : Core) (l : LateWrite) (slot : Nat) (h : l.slot = slot) :
    ({ k with late := k.late ++ [l] } : Core).seenBy slot =
      let m := (k.late.filter fun l => l.slot == slot).foldl (fun k l => k.apply l.write) { k with late := k.late ++ [l] }
      m.apply l.write := by
  simp [Core.seenBy, List.filter_append, h]

/-- Writing a shared register adds one write that lands later, and changes no slot (R86, R131). -/
theorem State.writeShared_late (s : State) (lat : Nat) (w : SharedWrite) : (s.writeShared lat w).myCore.late =
    s.myCore.late ++ [{ due := s.cycle + lat, slot := s.curSlot.val, write := w }] ∧ (s.writeShared lat w).me = s.me := by
  refine ⟨by simp [State.writeShared, State.myCore_modMyCore], ?_⟩
  simp [State.writeShared, State.modMyCore, State.setMyCore, State.me, State.slotAt, State.myCore]

/-! ### Taking an exception -/

/-- Outside a development a trap enters its handler (R89, R90). -/
theorem State.takeTrap_plain {s : State} (h : s.me.kind.isDev = false) (c : Cause) (addr : Word) (contains : Bool) :
    s.takeTrap c addr contains = s.enter c addr contains := by
  unfold State.takeTrap; cases hk : s.me.kind with
  | dev d => simp [hk, TaskKind.isDev] at h
  | lane => rfl
  | record => rfl

/-- In a development any trap ends the chain, whose root takes DEVFAULT (R252). -/
theorem State.takeTrap_dev {s : State} {d : DevTask} (h : s.me.kind = .dev d) (c : Cause) (addr : Word) (contains : Bool) :
    s.takeTrap c addr contains = s.abandon d .devfault (s.blockOf d.recipe) := by simp [State.takeTrap, h]

/-- A trap that is no upcall goes to the S-mode vector of its cause (R89). -/
theorem State.enter_trap {s : State} {c : Cause} (h : isUpcall s.me c = false) (addr : Word) :
    s.enter c addr false = s.setMe (trapEntry s.me s.mySight.tvb c addr 0 s.me.pc) := by simp [State.enter, h]

/-- An upcall other than PAGE goes to uvb (R90). -/
theorem State.enter_upcall {s : State} {c : Cause} (h : isUpcall s.me c = true) (hp : c ≠ .page) (addr : Word) (b : Bool) :
    s.enter c addr b = s.setMe (upcallEntry s.me c addr 0) := by simp [State.enter, h, hp]

/-- Trap entry, NOTRAP and BADSST in S mode apart: the saved status, PC, cause and address, and the new mode (R89). -/
theorem trapEntry_saves (t : Slot) (tvb : Word) {c : Cause} (addr : Word) (code : Nat) (ret : Word)
    (h : t.sw.s = false ∨ (c ≠ .notrap ∧ c ≠ .badsst)) :
    let u := trapEntry t tvb c addr code ret
    u.epc = ret ∧ u.eaddr = addr ∧ u.sst = (1#64 <<< 63) ||| t.sw.toWord ∧ u.ecause = BitVec.ofNat 64 (c.code + 256 * code) ∧
      u.sw.s = true ∧ u.sw.ie = false ∧ u.sw.hl = false ∧ u.pc = vectorOf tvb c := by
  have : ((c == .notrap || c == .badsst) && t.sw.s) = false := by
    rcases h with h | ⟨h1, h2⟩
    · simp [h]
    · have a : (c == Cause.notrap) = false := by simpa using h1
      have b : (c == Cause.badsst) = false := by simpa using h2
      simp [a, b]
  simp [trapEntry, this]

/-- Trap entry keeps every general register, the predicate word and the loop registers (R89). -/
theorem trapEntry_keeps (t : Slot) (tvb : Word) (c : Cause) (addr : Word) (code : Nat) (ret : Word) :
    let u := trapEntry t tvb c addr code ret
    u.x = t.x ∧ u.v = t.v ∧ u.p = t.p ∧ u.lc = t.lc ∧ u.lstart = t.lstart ∧ u.lend = t.lend ∧ u.uvb = t.uvb ∧ u.uepc = t.uepc ∧ u.marks = t.marks := by
  unfold trapEntry; dsimp only; split <;> exact ⟨rfl, rfl, rfl, rfl, rfl, rfl, rfl, rfl, rfl⟩

/-- The stop under what a stop keeps performed. -/
def Stop.under : Stop → Stop
  | .keep _ st => st.under
  | st => st

/-- A stop ends in a next state, but for the fault of an access that the spec gives no effect (R227, R374). -/
theorem stopped_next (st : Stop) (s : State) (h : ∀ f, st.under ≠ .fault f) : ∃ t, stopped st s = .next t := by
  induction st generalizing s with
  | keep u st ih => exact ih u h
  | fault f => exact absurd rfl (h f)
  | nack => unfold stopped; cases s.me.nack <;> exact ⟨_, rfl⟩
  | trap | softMce | wait | develop | devFault | paused => exact ⟨_, rfl⟩

/-- No stop is a refusal. -/
theorem stopped_not_refused (st : Stop) (s : State) (r : Refusal) : stopped st s ≠ .refused r := by
  induction st generalizing s with
  | keep u st ih => exact ih u
  | nack => unfold stopped; cases s.me.nack <;> exact nofun
  | trap | softMce | wait | develop | devFault | paused | fault => exact nofun

/-- A meaning refuses nothing. -/
theorem run_not_refused (m : M Unit) (s : State) (r : Refusal) : run m s ≠ .refused r := by
  unfold run
  split
  · exact nofun
  · exact stopped_not_refused _ s r

/-! ### Releases and access checks -/

/-- With no store unacknowledged and no refusal recorded, a release writes the core's owned words back and changes nothing else
(R162, R182). -/
theorem release_ok {s : State} (h : (s.packets.any fun pk => pk.isStore && pk.unacked s.curCore s.curSlot.val) = false) (hn : s.me.nack = none) :
    release s = .ok ((), s.writeBackAll s.curCore) := by simp [release, h, hn]
/-- It waits for acknowledgements (R291). -/
theorem release_waits {s : State} (h : (s.packets.any fun pk => pk.isStore && pk.unacked s.curCore s.curSlot.val) = true) :
    release s = .error (.wait .release) := by simp [release, h]
/-- It reports a recorded refusal (R182). -/
theorem release_nack {s : State} (h : (s.packets.any fun pk => pk.isStore && pk.unacked s.curCore s.curSlot.val) = false) (hn : s.me.nack.isSome = true) :
    release s = .error .nack := by simp [release, h, hn]

/-- Pointers with tags 3 to 14 are NONCANON before every other check (R24). -/
theorem checkAccess_badTag (ag : Agent) {p : Word} (n : Nat) (o : Bool) (k : AccKind) (s : State) (h : 3 ≤ ptrTag p ∧ ptrTag p ≤ 14) :
    checkAccess ag p n o k s = .error (.trap .noncanon p) := by
  obtain ⟨lo, hi⟩ := h
  have : (checkAccess ag p n o k) = trap .noncanon p := by
    unfold checkAccess
    generalize ptrTag p = g at lo hi
    interval_cases g <;> rfl
  rw [this]; rfl

end Sys2Proof.Machine
end

