-- ==== Sys2Proof/Tests/Slice0.lean ====
section
/-!
SUPPORT. Tests of the model, with expected values taken from the spec's worked examples and tables or computed by hand from its
rules, and the witnesses: for each claim, a concrete state and operands that meet the hypotheses of its clauses.
-/
namespace Sys2Proof.Tests
open Sys2Proof.Machine

-- one theorem after the other: each waits in a thread of its own otherwise
set_option Elab.async false

/-! ### Helpers -/

/-- The word decodes. -/
def decodes32 (w : Nat) : Bool := match decode32 w with | .ok _ => true | .error _ => false
/-- The instruction goes on to a state with a property. -/
def goes (i : Instr) (s : State) (p : State → Bool) : Bool :=
  match exec i s with
  | .next t => p t
  | .fault _ => false
  | .refused _ => false
/-- The state an instruction goes on to. -/
def after (i : Instr) (s : State) : State :=
  match exec i s with
  | .next t => t
  | .fault _ => s
  | .refused _ => s
/-- A part of a meaning succeeds, with a property of its value and state. -/
def okWith {α : Type} (m : M α) (s : State) (p : α → State → Bool) : Bool :=
  match m s with
  | .ok (a, t) => p a t
  | .error _ => false
/-- It ends with a trap of a cause. -/
def trapsWith {α : Type} (m : M α) (s : State) (c : Cause) : Bool :=
  match m s with
  | .ok _ => false
  | .error st => match st with
    | .trap x _ => x == c
    | _ => false
/-- The bench with scalar registers set. -/
def regs (l : List (Nat × Word)) (s : State := State.bench) : State := l.foldl (fun s e => s.setX (BitVec.ofNat 5 e.1) e.2) s
/-- The bench with lanes of vector registers set. -/
def vecs (l : List (Nat × List HWord)) (s : State := State.bench) : State :=
  l.foldl (fun s e => s.setV (BitVec.ofNat 5 e.1) (ofLanes fun i => e.2.getD i 0)) s
/-- The bench with its slot changed. -/
def slot (f : Slot → Slot) (s : State := State.bench) : State := s.modMe f
/-- The bench with its core changed. -/
def core (f : Core → Core) (s : State := State.bench) : State := s.modMyCore f
/-- The bench with its partition changed. -/
def part (f : Partition → Partition) (s : State := State.bench) : State := s.modPart 0 f
/-- The slot in S mode. -/
def smode (s : State := State.bench) : State := slot (fun t => { t with sw := { t.sw with s := true } }) s
/-- A deterministic task. -/
def det (s : State := State.bench) : State := slot (fun t => { t with sw := { t.sw with dm := true } }) s
/-- A local tray pointer. -/
def tray (off : Nat) : Word := 0x1000000000000000 ||| BitVec.ofNat 64 off
/-- A peer tray pointer to a core of rank 0. -/
def peer (c off : Nat) : Word := 0x2000000000000000 ||| BitVec.ofNat 64 (c * 2 ^ 40 + off)
/-- Register 1 pending on engine entry 7. -/
def pending (s : State := State.bench) : State := slot (fun t => { t with marks := t.marks.set (1 : Fin 16) (some 7) }) s
/-- A development task in the slot, of record 3. -/
def devTask : DevTask := { recipe := 3, depth := 1, root := .slot 0 1 }
def inDev (s : State := State.bench) : State := slot (fun t => { t with kind := .dev devTask }) s

/-- No register of the bench is pending, so every premise `unmarked` of the statements holds there. -/
theorem witness_unmarked (rs : List Reg) : State.bench.unmarked rs :=
  have h : ∀ r : Reg, State.bench.markOf r = none := by decide +kernel
  fun r _ => h r
/-- The bench's slot runs no development. -/
theorem witness_no_development : ∀ d, State.bench.me.kind ≠ .dev d := by
  have h : State.bench.me.kind = .lane := by decide +kernel
  rw [h]; nofun
/-- A slot that runs a development, as the claims on developments ask. -/
theorem witness_development : inDev.me.kind = .dev devTask := by decide +kernel

/-! ### Well-formedness -/

/-- An ill-formed term for each check of well-formedness, which the check refuses (R27, R38-R43). -/
theorem test_ill_formed : ∀ i ∈ [
    Instr.cVmov 0 0, .bfx 1 2 60 4, .bfi 1 2 63 1, .br 9 false 0, .br 8 true 0, .vredAdd 1 2 .f16x2, .vredMin 1 2 .bf16x2,
    .vredMax 1 2 .f16x2, .vfma 1 2 3 .i32, .vfrcp 1 2 .i32, .vfrcp 1 2 .bf16x2, .vfrsq 1 2 .f16x2, .vcmp 1 2 .uno false .i32,
    .vcmp 1 2 .ltu false .f32, .vcmp 1 2 .eq true .bf16x2, .vcvt 1 2 .fp32 .rne false .fp4s, .vcvt 1 2 .fp4s .rne false .fp32,
    .ldg 1 2 3 .d, .sts 1 2 3 .d, .pref 4 1 0, .pref 16 1 0, .qfn 0, .mst 1 0 0 .fp16, .mst 1 0 9 .fp16, .acst 1 2 .fp4s false .f32,
    .act 1 2 3 .i32 .scale, .rdc 1 19, .wrc 1 34, .rdc 1 48],
    i.wf = false := by decide
/-- Neighbours of those terms at the limits of the checks are well formed. -/
theorem test_well_formed : ∀ i ∈ [
    Instr.cVmov 1 0, .bfx 1 2 60 3, .bfi 1 2 63 0, .br 8 false 0, .br 7 true 0, .vredAdd 1 2 .f64, .vfma 1 2 3 .f16x2,
    .vfrcp 1 2 .f64, .vcmp 1 2 .leu false .i32, .vcmp 1 2 .uno false .f64, .vcvt 1 2 .fp6e3 .sr true .n4, .ldg 1 2 3 .w, .pref 3 1 0,
    .pref 15 1 0, .qfn 1, .mst 1 511 8 .fp16, .acst 1 2 .n4 true .i32, .act 1 2 3 .i32 .max, .rdc 1 18, .wrc 1 47, .wrc 1 33],
    i.wf = true := by decide

/-! ### Decoding -/

/-- Words of the scalar operations (R29, R40), field by field from the highest bit. -/
theorem test_decode_alu : ∀ p ∈ [
    (0b0000000000_00101_10100_00011_000000_1, Instr.add 3 20 5),
    (0b0000000001_00101_10100_00011_000000_1, .sub 3 20 5),
    (0b0000000010_00101_10100_00011_000000_1, .mul 3 20 5),
    (0b0000000011_00101_10100_00011_000000_1, .mulh 3 20 5),
    (0b0000000100_00101_10100_00011_000000_1, .mulhu 3 20 5),
    (0b0000000101_00101_10100_00011_000000_1, .div 3 20 5),
    (0b0000000110_00101_10100_00011_000000_1, .divu 3 20 5),
    (0b0000000111_00101_10100_00011_000000_1, .rem 3 20 5),
    (0b0000001000_00101_10100_00011_000000_1, .remu 3 20 5),
    (0b0000001001_00101_10100_00011_000000_1, .and 3 20 5),
    (0b0000001010_00101_10100_00011_000000_1, .or 3 20 5),
    (0b0000001011_00101_10100_00011_000000_1, .xor 3 20 5),
    (0b0000001100_00101_10100_00011_000000_1, .andn 3 20 5),
    (0b0000001101_00101_10100_00011_000000_1, .shl 3 20 5),
    (0b0000001110_00101_10100_00011_000000_1, .shr 3 20 5),
    (0b0000001111_00101_10100_00011_000000_1, .sar 3 20 5),
    (0b0000010000_00101_10100_00011_000000_1, .rol 3 20 5),
    (0b0000010001_00101_10100_00011_000000_1, .min 3 20 5),
    (0b0000010010_00101_10100_00011_000000_1, .minu 3 20 5),
    (0b0000010011_00101_10100_00011_000000_1, .max 3 20 5),
    (0b0000010100_00101_10100_00011_000000_1, .maxu 3 20 5),
    (0b0000011010_00101_10100_00011_000000_1, .lea1 3 20 5),
    (0b0000011011_00101_10100_00011_000000_1, .lea2 3 20 5),
    (0b0000011100_00101_10100_00011_000000_1, .lea4 3 20 5),
    (0b0000011101_00101_10100_00011_000000_1, .lea8 3 20 5),
    (0b0000011111_00101_10100_00011_000000_1, .ptag 3 20 5),
    (0b0000010101_00000_10100_00011_000000_1, .clz 3 20),
    (0b0000010110_00000_10100_00011_000000_1, .popc 3 20),
    (0b0000010111_00000_10100_00011_000000_1, .sextB 3 20),
    (0b0000011000_00000_10100_00011_000000_1, .sextH 3 20),
    (0b0000011001_00000_10100_00011_000000_1, .sextW 3 20),
    (0b0000011110_00000_10100_00011_000000_1, .mov 3 20)],
    decode32 p.1 = .ok p.2 := by decide

/-- Words of the compact forms (R28, R38), field by field from the highest bit. -/
theorem test_decode_compact : ∀ p ∈ [
    (0b1_10010_00111_0000_0, Instr.cMov 7 18),
    (0b1_10010_00111_0001_0, .cAdd 7 18),
    (0b1_10010_00111_0010_0, .cSub 7 18),
    (0b1_10010_00111_0011_0, .cMul 7 18),
    (0b1_10010_00111_0100_0, .cAnd 7 18),
    (0b1_10010_00111_0101_0, .cOr 7 18),
    (0b1_10010_00111_0110_0, .cXor 7 18),
    (0b1_10010_00111_0111_0, .cShl 7 18),
    (0b1_10010_00111_1000_0, .cShr 7 18),
    (0b1_10010_00111_1001_0, .cSar 7 18),
    (0b1_10010_00111_1010_0, .cMin 7 18),
    (0b1_10010_00111_1011_0, .cMax 7 18),
    (0b0_10010_00111_0000_0, .cVmov 7 18),
    (0b0_10010_00111_0001_0, .cVaddI32 7 18),
    (0b0_10010_00111_0010_0, .cVsubI32 7 18),
    (0b0_10010_00111_0011_0, .cVmulI32 7 18),
    (0b0_10010_00111_0100_0, .cVand 7 18),
    (0b0_10010_00111_0101_0, .cVor 7 18),
    (0b0_10010_00111_0110_0, .cVxor 7 18),
    (0b0_10010_00111_0111_0, .cVshl 7 18),
    (0b0_10010_00111_1000_0, .cVshr 7 18),
    (0b0_10010_00111_1001_0, .cVsar 7 18),
    (0b0_10010_00111_1010_0, .cVminI32 7 18),
    (0b0_10010_00111_1011_0, .cVmaxI32 7 18),
    (0b0_10010_00111_1100_0, .cVaddF32 7 18),
    (0b0_10010_00111_1101_0, .cVsubF32 7 18),
    (0b0_10010_00111_1110_0, .cVmulF32 7 18),
    (0b0_10010_00111_1111_0, .cVmaxF32 7 18)],
    decode16 p.1 = .ok p.2 := by decide

/-- Words of the immediate forms (R30, R32, R40), field by field from the highest bit. -/
theorem test_decode_imm : ∀ p ∈ [
    (0b100000000000001_01001_00010_000001_1, Instr.addi 2 9 0x4001),
    (0b100000000000001_01001_00010_000010_1, .andi 2 9 0x4001),
    (0b100000000000001_01001_00010_000011_1, .ori 2 9 0x4001),
    (0b100000000000001_01001_00010_000100_1, .xori 2 9 0x4001),
    (0b000000000111111_01001_00010_000101_1, .shli 2 9 63),
    (0b000000000111111_01001_00010_000110_1, .shri 2 9 63),
    (0b000000000111111_01001_00010_000111_1, .sari 2 9 63),
    (0b111111111111111_00000_00010_001000_1, .li 2 0x7FFF),
    (0b10101011110011011110_00010_001001_1, .liu 2 0xABCDE),
    (0b000_001011_110100_01001_00010_001010_1, .bfx 2 9 52 11),
    (0b000_001011_110100_01001_00010_001011_1, .bfi 2 9 52 11)],
    decode32 p.1 = .ok p.2 := by decide

/-- Words of comparisons, predicates and transfers (R31-R33, R37, R40), field by field from the highest bit. -/
theorem test_decode_control : ∀ p ∈ [
    (0b0000000_011_00110_01001_00_101_001100_1, Instr.cmp 5 9 6 .le),
    (0b111111111111_101_01001_00101_001101_1, .cmpi 5 9 .leu 0xFFF),
    (0b0000000_000_00011_00010_00001_001110_1, .plogAnd 1 2 3),
    (0b0000000_001_00011_00010_00001_001110_1, .plogOr 1 2 3),
    (0b0000000_010_00011_00010_00001_001110_1, .plogXor 1 2 3),
    (0b0000000_011_00011_00010_00001_001110_1, .plogAndn 1 2 3),
    (0b0000000_100_00000_00010_00001_001110_1, .plogNot 1 2),
    (0b0000000_101_00000_00000_00001_001110_1, .plogSet 1),
    (0b0000000_110_00000_00000_00001_001110_1, .plogClr 1),
    (0b000000_1_100_00110_01001_00010_001111_1, .sel 2 9 6 4 true),
    (0b10000000000000000000_1_0111_010000_1, .br 7 true 0x80000),
    (0b00010010001101000101_11111_010001_1, .jal 31 0x12345),
    (0b100000000000000_01001_00010_010010_1, .jalr 2 9 0x4000),
    (0b000000000010101_01001_00000_010011_1, .loop 9 21),
    (0b0000000000_00000_00000_00000_010100_1, .exit),
    (0b0000000001_00000_00000_00000_010100_1, .yield)],
    decode32 p.1 = .ok p.2 := by decide

/-- Words of the lane instructions (R36, R40, R41), field by field from the highest bit. -/
theorem test_decode_lane : ∀ p ∈ [
    (0b0010_000000_10001_00010_00001_011000_1, Instr.vadd 1 2 17 .bf16x2),
    (0b0100_000001_10001_00010_00001_011000_1, .vsub 1 2 17 .f64),
    (0b0011_000010_10001_00010_00001_011000_1, .vmul 1 2 17 .f16x2),
    (0b0001_000100_10001_00010_00001_011000_1, .vmin 1 2 17 .f32),
    (0b0000_000101_10001_00010_00001_011000_1, .vmax 1 2 17 .i32),
    (0b0100_100000_10001_00010_00001_011000_1, .vfma 1 2 17 .f64),
    (0b0000_000011_10001_00010_00001_011000_1, .vmulh 1 2 17),
    (0b0000_000110_10001_00010_00001_011000_1, .vminu 1 2 17),
    (0b0000_000111_10001_00010_00001_011000_1, .vmaxu 1 2 17),
    (0b0000_001000_10001_00010_00001_011000_1, .vand 1 2 17),
    (0b0000_001001_10001_00010_00001_011000_1, .vor 1 2 17),
    (0b0000_001010_10001_00010_00001_011000_1, .vxor 1 2 17),
    (0b0000_001011_10001_00010_00001_011000_1, .vandn 1 2 17),
    (0b0000_001100_10001_00010_00001_011000_1, .vshl 1 2 17),
    (0b0000_001101_10001_00010_00001_011000_1, .vshr 1 2 17),
    (0b0000_001110_10001_00010_00001_011000_1, .vsar 1 2 17),
    (0b0000_010010_10001_00010_00001_011000_1, .vsel 1 2 17),
    (0b0000_010011_10001_00010_00001_011000_1, .vperm 1 2 17),
    (0b0011_001111_00000_00010_00001_011000_1, .vabs 1 2 .f16x2),
    (0b0001_010000_00000_00010_00001_011000_1, .vneg 1 2 .f32),
    (0b0001_010101_00000_00010_00001_011000_1, .vredAdd 1 2 .f32),
    (0b0100_010110_00000_00010_00001_011000_1, .vredMin 1 2 .f64),
    (0b0000_010111_00000_00010_00001_011000_1, .vredMax 1 2 .i32),
    (0b0100_100001_00000_00010_00001_011000_1, .vfrcp 1 2 .f64),
    (0b0001_100010_00000_00010_00001_011000_1, .vfrsq 1 2 .f32),
    (0b0000_010001_00000_00010_00001_011000_1, .vmov 1 2),
    (0b0000_010100_00000_00010_00001_011000_1, .vbc 1 2),
    (0b0001_00_1_110_10001_00010_00000_011001_1, .vcmp 2 17 .uno true .f32),
    (0b0_0000000000_1111_00010_00001_011010_1, .vext 1 2 15),
    (0b1_0000000000_1001_00010_00001_011010_1, .vins 1 2 9),
    (0b00100_0_1_000_00001_00101_00110_011011_1, .vcvt 6 5 .fp32 .rne true .fp8e4)],
    decode32 p.1 = .ok p.2 := by decide

/-- Words of loads, stores, full/empty words, atomics and fences (R34, R40), field by field from the highest bit. -/
theorem test_decode_memory : ∀ p ∈ [
    (0b100000000001_1_01_01001_00010_100000_1, Instr.ld 2 9 .h true 0x801),
    (0b100000000001_1_01_01001_00010_100001_1, .st 2 9 .h true 0x801),
    (0b100000000001_1_01_01001_00010_100100_1, .ldb 2 9 .h true 0x801),
    (0b100000000001_1_01_01001_00010_100101_1, .ldc 2 9 .h true 0x801),
    (0b011111111111_0_10_01001_00010_100010_1, .ldv 2 9 false 0x7FF),
    (0b011111111111_0_10_01001_00010_100011_1, .stv 2 9 false 0x7FF),
    (0b011111111111_0_10_01001_00010_100110_1, .ldfe 2 9 false 0x7FF),
    (0b011111111111_0_10_01001_00010_100111_1, .stfe 2 9 false 0x7FF),
    (0b011111111111_0_10_01001_00010_101000_1, .ldff 2 9 false 0x7FF),
    (0b000000000101_0_11_01001_00010_101111_1, .lda 2 9 .d 5),
    (0b000000000101_0_11_01001_00010_110000_1, .stl 2 9 .d 5),
    (0b0000000001_00110_01001_00000_101001_1, .feset 9 6 true),
    (0b0000000001_00110_01001_00010_101010_1, .ldg 2 9 6 .h),
    (0b0000000010_00110_01001_00010_101011_1, .sts 2 9 6 .w),
    (0b111111111111_0_00_01001_00011_101100_1, .pref 3 9 0xFFF),
    (0b00000_1_0000_00110_01001_00010_101101_1, .amoAdd 2 9 6 true),
    (0b00000_1_0001_00110_01001_00010_101101_1, .amoAnd 2 9 6 true),
    (0b00000_1_0010_00110_01001_00010_101101_1, .amoOr 2 9 6 true),
    (0b00000_1_0011_00110_01001_00010_101101_1, .amoXor 2 9 6 true),
    (0b00000_1_0100_00110_01001_00010_101101_1, .amoMin 2 9 6 true),
    (0b00000_1_0101_00110_01001_00010_101101_1, .amoMax 2 9 6 true),
    (0b00000_1_0110_00110_01001_00010_101101_1, .amoMinu 2 9 6 true),
    (0b00000_1_0111_00110_01001_00010_101101_1, .amoMaxu 2 9 6 true),
    (0b00000_1_1000_00110_01001_00010_101101_1, .amoSwap 2 9 6 true),
    (0b00000_1_1001_00110_01001_00010_101101_1, .amof 2 9 6 true),
    (0b0000000000_00110_01001_00010_101110_1, .cas 2 9 6 false),
    (0b0000000000_00000_00000_00000_110001_1, .facq),
    (0b0000000001_00000_00000_00000_110001_1, .frel),
    (0b0000000010_00000_00000_00000_110001_1, .fseq),
    (0b0000000011_00000_00000_00000_110001_1, .fcon)],
    decode32 p.1 = .ok p.2 := by decide

/-- Words of engines, futures, tasks and channels (R40, R193-R202), field by field from the highest bit. -/
theorem test_decode_task : ∀ p ∈ [
    (0b0_11_000_1_0_1_1_00000_01001_00010_110010_1, Instr.cpy 2 9 true true false true 3),
    (0b1_01_000_0_1_0_0_00000_01001_00010_110010_1, .gth 2 9 false true false 1),
    (0b0000000000_00000_01001_00000_110011_1, .fwait 9),
    (0b0000000001_00000_01001_00101_110011_1, .ftest 5 9),
    (0b0000000010_00000_01001_00000_110011_1, .fcan 9),
    (0b0000000011_00000_01001_00010_110011_1, .fmov 2 9),
    (0b100010_0_100_00000_00000_00000_110011_1, .qfn 0b100010),
    (0b0000000000_00101_00100_00000_110100_1, .spawn 4 5),
    (0b0000000001_00111_00110_00000_110100_1, .jinit 6 7),
    (0b0_100001_010_00000_01001_00000_110100_1, .enq 9 33),
    (0b0_111111_011_00000_00000_00000_110100_1, .deq 63),
    (0b0_000011_100_00000_00000_00111_110100_1, .qst 7 3),
    (0b10000000000000000001_01001_110101_1, .fork 9 0x80001),
    (0b01111111111111111111_01001_110110_1, .join 9 0x7FFFF),
    (0b0000000000_10001_01001_00000_110111_1, .send 9 17),
    (0b000_1101_001_00000_00000_10010_110111_1, .recv 18 13),
    (0b110_1101_010_00000_00000_10010_110111_1, .recvt 18 13 6)],
    decode32 p.1 = .ok p.2 := by decide

/-- Words of the matrix instructions (R40, R206-R221), field by field from the highest bit. -/
theorem test_decode_matrix : ∀ p ∈ [
    (0b00000_00001_00110_01001_00111_111000_1, Instr.tld 7 9 6 true),
    (0b00000_00001_00110_01001_00111_111001_1, .tst 7 9 6 true),
    (0b01001_00000_00000_00000_00110_111010_1, .mwl 6 .fp4s),
    (0b00011_01000_0_111111111_00111_111011_1, .mst 7 511 8 .fp16),
    (0b0000_00_0_000_00110_01001_00000_111100_1, .acz 9 6),
    (0b0000_00_0_001_00000_01001_00101_111100_1, .acld 5 9),
    (0b0000_10_1_010_01010_01001_00101_111100_1, .acst 5 9 .i8 true .i32),
    (0b0010_01_0_011_00110_01001_00010_111100_1, .act 2 9 6 .f64 .max),
    (0b0000_01_0_100_00000_01001_00101_111100_1, .acadd 5 9 .f64),
    (0b0000_00_0_101_00000_00000_00101_111100_1, .tzr 5),
    (0b0000_00_1_110_00000_00000_01001_111100_1, .mstat 9 true)],
    decode32 p.1 = .ok p.2 := by decide

/-- Words of recipes, streams, groups and translation (R40, R292-R303), field by field from the highest bit. -/
theorem test_decode_cluster : ∀ p ∈ [
    (0b0_000_0_00000_00110_01001_00000_111101_1, Instr.rrec 9 6),
    (0b0_000_0_00001_00000_01001_00000_111101_1, .rfix 9),
    (0b0_000_0_00010_00000_01001_00000_111101_1, .rdrop 9),
    (0b0_000_0_00100_00000_01001_00000_111101_1, .rdev 9),
    (0b0_000_0_00101_00000_01001_00000_111101_1, .rlat 9),
    (0b0_000_0_00011_00000_01001_00010_111101_1, .rqry 2 9),
    (0b0_101_1_00100_00000_01001_00000_111101_1, .rdevV 9 5),
    (0b0_000_0_01000_00000_01001_00010_111101_1, .seedrd 2 9),
    (0b0_000_0_01001_00110_01001_00000_111101_1, .reseed 9 6),
    (0b0_000_0_01010_00110_01001_00010_111101_1, .xqry 2 9 6),
    (0b0_000_0_01011_00000_01001_00010_111101_1, .xobs 2 9),
    (0b00000_10000_00_10100101_00000_111101_1, .garr 0xA5),
    (0b00000_10001_00_10100101_00000_111101_1, .gwt 0xA5),
    (0b00000_10010_00_10100101_00000_111101_1, .gbar 0xA5),
    (0b00000_10011_00_10100101_00010_111101_1, .gqry 2 0xA5),
    (0b0_000_0_11000_00110_01001_00000_111101_1, .tlbi 9 6),
    (0b0_000_0_11001_00110_01001_00000_111101_1, .rafw 9 6)],
    decode32 p.1 = .ok p.2 := by decide

/-- Words of the system instructions (R40, R42, R122-R127, R385), field by field from the highest bit. -/
theorem test_decode_system : ∀ p ∈ [
    (0b111111_0000_00000_00000_00000_111110_1, Instr.trap 63),
    (0b000000_0001_00000_00000_00000_111110_1, .tret),
    (0b000000_0010_00000_00000_00000_111110_1, .uret),
    (0b101111_0011_00000_00000_01001_111110_1, .rdc 9 47),
    (0b100000_0100_00000_01001_00000_111110_1, .wrc 9 32),
    (0b000000_0101_00000_00000_01001_111110_1, .rdp 9),
    (0b000000_0110_00000_01001_00000_111110_1, .wrp 9),
    (0b000000_0111_00000_00000_00000_111110_1, .brk),
    (0b000000_1000_00110_01001_00000_111110_1, .hmsg 9 6)],
    decode32 p.1 = .ok p.2 := by decide

/-- A word for each check of R43 and of the entries that an encoding can fail. -/
theorem test_refused_words : ∀ w ∈ [
    0b0000011110_00001_10100_00011_000000_1,  -- reserved field b of MOV
    0b0000100000_00101_10100_00011_000000_1,  -- ALU code 32
    0b000000001000000_01001_00010_000101_1,  -- shift count above 63
    0b000000000000001_00001_00010_001000_1,  -- LI with a
    0b000_001100_110100_01001_00010_001010_1,  -- bit field past bit 63
    0b0000000_110_00110_01001_00_101_001100_1,  -- condition 6
    0b0000000_000_00110_01001_01_000_001100_1,  -- predicate 8
    0b00000000000000000001_0_1001_010000_1,  -- branch on 9
    0b00000000000000000001_1_1000_010000_1,  -- never branch
    0b000000000000001_01001_00001_010011_1,  -- LOOP with d
    0b0000000010_00000_00000_00000_010100_1,  -- CTL code 2
    0b0101_000000_00001_00010_00011_011000_1,  -- lane type 5
    0b0001_001000_00001_00010_00011_011000_1,  -- AND of f32
    0b0000_100000_00001_00010_00011_011000_1,  -- FMA of i32
    0b0011_010101_00000_00010_00011_011000_1,  -- reduction of f16x2
    0b0010_100001_00000_00010_00011_011000_1,  -- estimate of bf16x2
    0b0001_00_0_100_00001_00010_00000_011001_1,  -- unsigned compare of f32
    0b01001_00000_00001_00010_00011_011011_1,  -- conversion to FP4S
    0b00001_00101_00010_00010_00011_011011_1,  -- rounding 5
    0b000000000000_0_11_01001_00010_100010_1,  -- vector load of size d
    0b0000000011_00110_01001_00010_101010_1,  -- gather of size 3
    0b000000000000_0_00_01001_00100_101100_1,  -- prefetch hint 4
    0b0000001010_00110_01001_00010_101101_1,  -- atomic 10
    0b000000000000_1_11_01001_00010_101111_1,  -- acquire column
    0b1_10_0000000_00000_01001_00010_110010_1,  -- gather queue 2
    0b0000000000_00000_01001_10000_110010_1,  -- handle in y0
    0b0000000100_00000_00000_00000_110011_1,  -- empty fence list
    0b0000000101_00000_00000_00000_110100_1,  -- task code 5
    0b00000_00000_00110_01001_01000_111000_1,  -- tile 8
    0b01110_00000_00000_00000_00001_111010_1,  -- format 14
    0b00011_00000_0_000000000_00000_111011_1,  -- no tiles
    0b00011_01001_0_000000000_00000_111011_1,  -- nine tiles
    0b00011_00001_1_000000000_00000_111011_1,  -- row 512
    0b0000_11_0_100_00000_01001_00101_111100_1,  -- class 3
    0b0000_00_0_010_01001_01001_00101_111100_1,  -- store as FP4S
    0b0000_10_0_011_00110_01001_00010_111100_1,  -- SCALE of i32
    0b0_000_0_00110_00000_01001_00000_111101_1,  -- CLS code 6
    0b010011_0011_00000_00000_01001_111110_1,  -- control register 19
    0b000000_1001_00000_00000_00000_111110_1],  -- SYS code 9
    decodes32 w = false := by decide

/-! ### Scalar instructions -/

/-- Operands of the scalar tests: x1 = 3 − 2^63, x2 = −2, x4 = 0xF0, x5 = −7, x6 = 2. -/
def scalars : State := regs [(1, 0x8000000000000003), (2, 0xFFFFFFFFFFFFFFFE), (4, 0xF0), (5, 0xFFFFFFFFFFFFFFF9), (6, 2)]

/-- Results of the two-source operations, by hand from R100 and R104; the PC moves on by the form's length. -/
theorem test_scalar_binary : ∀ p ∈ [
    (Instr.add 3 1 2, 0x8000000000000001#64), (.sub 3 1 2, 0x8000000000000005), (.mul 3 1 2, 0xFFFFFFFFFFFFFFFA), (.mulh 3 1 2, 0),
    (.mulhu 3 1 2, 0x8000000000000001), (.and 3 1 2, 0x8000000000000002), (.or 3 1 2, 0xFFFFFFFFFFFFFFFF),
    (.xor 3 1 2, 0x7FFFFFFFFFFFFFFD), (.andn 3 1 2, 1), (.shl 3 1 2, 0xC000000000000000), (.shr 3 1 2, 2),
    (.sar 3 1 2, 0xFFFFFFFFFFFFFFFE), (.rol 3 1 2, 0xE000000000000000), (.min 3 6 2, 0xFFFFFFFFFFFFFFFE), (.minu 3 6 2, 2),
    (.max 3 6 2, 2), (.maxu 3 6 2, 0xFFFFFFFFFFFFFFFE), (.ptag 3 4 2, 0xE0000000000000F0)],
    goes p.1 scalars (fun t => t.xval 3 == p.2 && t.me.pc == 0x20004) = true := by decide +kernel
/-- The rows of R103's table, and the borrow below 0 (R102). -/
theorem test_lea : ∀ p ∈ [
    (Instr.lea1 3 1 2, 0x0FFFFFFFFFFFFFC0#64, 0x80#64, 0xE000000000000040#64), (.add 3 1 2, 0x0FFFFFFFFFFFFFC0, 0x80, 0x1000000000000040),
    (.lea8 3 1 2, 4, 0xFFFFFFFFFFFFFFFF, 0xEFFFFFFFFFFFFFFC), (.lea8 3 1 2, 0x2000000000000100, 0xFFFFFFFFFFFFFFF8, 0x20000000000000C0),
    (.lea2 3 1 2, 0x1000000000000010, 3, 0x1000000000000016), (.lea4 3 1 2, 0x1000000000000010, 3, 0x100000000000001C)],
    goes p.1 (regs [(1, p.2.1), (2, p.2.2.1)]) (fun t => t.xval 3 == p.2.2.2) = true := by decide +kernel
/-- Results of the one-source, immediate and bit-field operations (R100, R105-R109). -/
theorem test_scalar_unary : ∀ p ∈ [
    (Instr.clz 3 6, 62#64), (.popc 3 4, 4), (.sextB 3 4, 0xFFFFFFFFFFFFFFF0), (.sextH 3 4, 0xF0), (.sextW 3 2, 0xFFFFFFFFFFFFFFFE),
    (.mov 3 1, 0x8000000000000003), (.addi 3 6 0x7FFF, 1), (.andi 3 2 0x7FFF, 0x7FFE), (.ori 3 1 0x7FFF, 0x8000000000007FFF),
    (.xori 3 2 0x7FFF, 0xFFFFFFFFFFFF8001), (.shli 3 6 63, 0), (.shri 3 1 62, 2), (.sari 3 1 62, 0xFFFFFFFFFFFFFFFE),
    (.li 3 0x4000, 0xFFFFFFFFFFFFC000), (.bfx 3 1 62 1, 2), (.bfi 3 4 60 3, 0), (.rdp 3, 0xFFFF)],
    goes p.1 scalars (fun t => t.xval 3 == p.2) = true := by decide +kernel
/-- LIU reads its destination (R108); BFI keeps the bits around its field (R109). -/
theorem test_read_destination : goes (.liu 4 0x12345) scalars (fun t => t.xval 4 == 0x0F012345) = true ∧
    goes (.bfi 2 4 4 7) scalars (fun t => t.xval 2 == 0xFFFFFFFFFFFFFF0E) = true := by decide +kernel
/-- The compact forms take two bytes and d is the first source (R28, R38). -/
theorem test_compact : ∀ p ∈ [
    (Instr.cSub 5 6, 0xFFFFFFFFFFFFFFF7#64), (.cMov 5 6, 2), (.cAdd 5 6, 0xFFFFFFFFFFFFFFFB), (.cMul 5 6, 0xFFFFFFFFFFFFFFF2),
    (.cAnd 5 6, 0), (.cOr 5 6, 0xFFFFFFFFFFFFFFFB), (.cXor 5 6, 0xFFFFFFFFFFFFFFFB), (.cShl 5 6, 0xFFFFFFFFFFFFFFE4),
    (.cShr 5 6, 0x3FFFFFFFFFFFFFFE), (.cSar 5 6, 0xFFFFFFFFFFFFFFFE), (.cMin 5 6, 0xFFFFFFFFFFFFFFF9), (.cMax 5 6, 2)],
    goes p.1 scalars (fun t => t.xval 5 == p.2 && t.me.pc == 0x20002) = true := by decide +kernel
/-- x0 discards a write and reads 0 (R27); y0 is an ordinary register, seen at once by its writer and later by slot 1 (R86). -/
theorem test_zero_and_shared : goes (.add 0 1 2) scalars (fun t => t.xval 0 == 0 && t.me.pc == 0x20004) = true ∧
    goes (.add 16 1 2) scalars (fun t => t.xval 16 == 0x8000000000000001 && (t.focus 0 1).xval 16 == 0) = true := by decide +kernel
/-- Quotients and remainders, with the corners of R101's table, written 34 cycles later (R82). -/
theorem test_divide : ∀ p ∈ [
    (Instr.div 3 5 6, 0xFFFFFFFFFFFFFFFD#64), (.rem 3 5 6, 0xFFFFFFFFFFFFFFFF), (.divu 3 5 6, 0x7FFFFFFFFFFFFFFC), (.remu 3 5 6, 1),
    (.div 3 5 0, 0xFFFFFFFFFFFFFFFF), (.rem 3 5 0, 0xFFFFFFFFFFFFFFF9), (.divu 3 5 0, 0xFFFFFFFFFFFFFFFF), (.remu 3 5 0, 0xFFFFFFFFFFFFFFF9)],
    goes p.1 scalars (fun t => t.me.out == .divide 3 p.2 34 && t.xval 3 == 0) = true := by decide +kernel
/-- The overflowing quotient (R101's table: DIV gives the dividend, REM 0). -/
theorem test_divide_overflow :
    let s := regs [(1, 0x8000000000000000), (2, 0xFFFFFFFFFFFFFFFF)]
    goes (.div 3 1 2) s (fun t => t.me.out == .divide 3 0x8000000000000000 34) = true ∧
    goes (.rem 3 1 2) s (fun t => t.me.out == .divide 3 0 34) = true := by decide +kernel
/-- The result of a divide is written in its cycle, and the slot is in the rotation again (R82, R85). -/
theorem test_divide_result :
    goes (.divideResultWrite 0 0) { after (.div 3 5 6) scalars with cycle := 34 } (fun t => t.xval 3 == 0xFFFFFFFFFFFFFFFD && t.me.out == .none)
      = true := by decide +kernel
/-- Comparisons write one predicate bit (R110, R111). -/
theorem test_compare : ∀ p ∈ [
    (Instr.cmp 2 2 6 .lt, true), (.cmp 2 2 6 .ltu, false), (.cmp 2 6 6 .le, true), (.cmp 2 6 6 .ne, false), (.cmp 2 6 6 .eq, true),
    (.cmp 2 2 6 .leu, false), (.cmpi 2 6 .ltu 0xFFF, true), (.cmpi 2 6 .lt 0xFFF, false)],
    goes p.1 scalars (fun t => t.me.p == if p.2 then 0x4FFFF else 0xFFFF) = true := by decide +kernel
/-- Predicate logic on q0 = 1 and q1 = 0, written to q2; SEL takes its first source where the condition holds (R112, R113). -/
theorem test_predicate_logic : ∀ p ∈ [
    (Instr.plogAnd 2 0 1, false), (.plogOr 2 0 1, true), (.plogXor 2 0 0, false), (.plogAndn 2 0 1, true), (.plogNot 2 0, false),
    (.plogSet 2, true), (.plogClr 2, false)],
    goes p.1 (slot fun t => { t with p := 0x1FFFF }) (fun t => t.me.p == if p.2 then 0x5FFFF else 0x1FFFF) = true := by decide +kernel
theorem test_select :
    let s := slot (fun t => { t with p := 0x1FFFF }) scalars
    goes (.sel 3 4 6 0 false) s (fun t => t.xval 3 == 0xF0) = true ∧ goes (.sel 3 4 6 0 true) s (fun t => t.xval 3 == 2) = true ∧
    goes (.wrp 1) s (fun t => t.me.p == 3) = true := by decide +kernel

/-- Premises of the claims on scalar results: a field inside the register (BitFields), a divide that is due (DivideResult). -/
theorem witness_scalar : (0 : BitVec 6).toNat + (63 : BitVec 6).toNat < 64 ∧
    ((slot fun t => { t with out := .divide 3 5 0 }).slotAt 0 0).out = .divide 3 5 (slot fun t => { t with out := .divide 3 5 0 }).cycle := by
  decide +kernel
/-- Premises of LoopStep: each of its cases is some state's. -/
theorem witness_loop_step :
    let on := fun (pc lc : Word) => slot fun t => { t with pc := pc, lc := lc, lstart := 0x100, lend := 0x120, sw := { t.sw with hl := true } }
    (State.bench.me.sw.hl = false) ∧ ((on 0x120 5).me.sw.hl = true ∧ (on 0x120 5).me.pc = (on 0x120 5).me.lend &&& ~~~1#64 ∧ (on 0x120 5).me.lc ≠ 1) ∧
    ((on 0x120 1).me.lc = 1) ∧ ((on 0x110 1).me.pc ≠ (on 0x110 1).me.lend &&& ~~~1#64) ∧
    (0xFE#64).toNat < ((on 0x110 1).me.lstart &&& ~~~1#64).toNat ∧ ((on 0x110 1).me.lend &&& ~~~1#64).toNat < (0x122#64).toNat := by
  decide +kernel
/-- The loop step (R97): the body repeats, ends with HL clear, and a transfer out of it cancels it. -/
theorem test_loop_step :
    let on := fun (lc : Word) => slot fun t => { t with lc := lc, lstart := 0x1FFF0, lend := 0x20000, sw := { t.sw with hl := true } }
    goes (.plogSet 0) (on 5) (fun t => t.me.pc == 0x1FFF0 && t.me.lc == 4 && t.me.sw.hl) = true ∧
    goes (.plogSet 0) (on 1) (fun t => t.me.pc == 0x20004 && t.me.lc == 0 && !t.me.sw.hl) = true ∧
    goes (.plogSet 0) (on 0) (fun t => t.me.pc == 0x1FFF0 && t.me.lc == 0xFFFFFFFFFFFFFFFF) = true ∧
    goes (.br 8 false 0xFFFFE) (on 5) (fun t => t.me.pc == 0x1FFFC && t.me.lc == 5 && t.me.sw.hl) = true ∧
    goes (.br 8 false 8) (on 5) (fun t => t.me.pc == 0x20010 && t.me.lc == 5 && !t.me.sw.hl) = true := by decide +kernel

/-! ### Lane instructions -/

/-- v1 = −2, 3, 0x7FFFFFFF, 5 and v2 = 3, −4, 1, 33 as integers, v3 with 7 in lane 1; lanes 0 to 2 are active. -/
def lanes : State := slot (fun t => { t with p := 7 })
  (vecs [(1, [0xFFFFFFFE, 3, 0x7FFFFFFF, 5]), (2, [3, 0xFFFFFFFC, 1, 33]), (3, [9, 7, 8, 4])])
/-- The first four lanes of a register. -/
def four (t : State) (r : Reg) : List HWord := [laneOf (t.vval r) 0, laneOf (t.vval r) 1, laneOf (t.vval r) 2, laneOf (t.vval r) 3]

/-- Integer lane results, by hand from R134 and R136; the inactive lane 3 keeps its 4 (R130). -/
theorem test_lane_integer : ∀ p ∈ [
    (Instr.vadd 3 1 2 .i32, [1#32, 0xFFFFFFFF#32, 0x80000000#32, 4#32]), (.vsub 3 1 2 .i32, [0xFFFFFFFB, 7, 0x7FFFFFFE, 4]),
    (.vmul 3 1 2 .i32, [0xFFFFFFFA, 0xFFFFFFF4, 0x7FFFFFFF, 4]), (.vmulh 3 1 2, [0xFFFFFFFF, 0xFFFFFFFF, 0, 4]),
    (.vmin 3 1 2 .i32, [0xFFFFFFFE, 0xFFFFFFFC, 1, 4]), (.vminu 3 1 2, [3, 3, 1, 4]), (.vmax 3 1 2 .i32, [3, 3, 0x7FFFFFFF, 4]),
    (.vmaxu 3 1 2, [0xFFFFFFFE, 0xFFFFFFFC, 0x7FFFFFFF, 4]), (.vand 3 1 2, [2, 0, 1, 4]), (.vor 3 1 2, [0xFFFFFFFF, 0xFFFFFFFF, 0x7FFFFFFF, 4]),
    (.vxor 3 1 2, [0xFFFFFFFD, 0xFFFFFFFF, 0x7FFFFFFE, 4]), (.vandn 3 1 2, [0xFFFFFFFC, 3, 0x7FFFFFFE, 4]),
    (.vshl 3 1 2, [0xFFFFFFF0, 0x30000000, 0xFFFFFFFE, 4]), (.vshr 3 1 2, [0x1FFFFFFF, 0, 0x3FFFFFFF, 4]),
    (.vsar 3 1 2, [0xFFFFFFFF, 0, 0x3FFFFFFF, 4]), (.vabs 3 1 .i32, [2, 3, 0x7FFFFFFF, 4]), (.vneg 3 1 .i32, [2, 0xFFFFFFFD, 0x80000001, 4]),
    (.vmov 3 1, [0xFFFFFFFE, 3, 0x7FFFFFFF, 4]), (.vsel 3 1 2, [0xFFFFFFFE, 3, 0x7FFFFFFF, 33]), (.vperm 3 1 2, [5, 0, 3, 4]),
    (.vbc 3 0, [0, 0, 0, 4]), (.vins 3 0 1, [9, 0, 8, 4]), (.vredAdd 3 1 .i32, [0x80000000, 7, 8, 4]), (.vredMin 3 1 .i32, [0xFFFFFFFE, 7, 8, 4]),
    (.vredMax 3 1 .i32, [0x7FFFFFFF, 7, 8, 4])],
    goes p.1 lanes (fun t => four t 3 == p.2) = true := by decide +kernel
/-- Compact lane forms (R146): V(d) is the first source, and VMOV copies its source. -/
theorem test_lane_compact : ∀ p ∈ [
    (Instr.cVsubI32 1 2, [0xFFFFFFFB#32, 7#32, 0x7FFFFFFE#32, 5#32]), (.cVmov 1 2, [3, 0xFFFFFFFC, 1, 5]), (.cVaddI32 1 2, [1, 0xFFFFFFFF, 0x80000000, 5]),
    (.cVmulI32 1 2, [0xFFFFFFFA, 0xFFFFFFF4, 0x7FFFFFFF, 5]), (.cVand 1 2, [2, 0, 1, 5]), (.cVor 1 2, [0xFFFFFFFF, 0xFFFFFFFF, 0x7FFFFFFF, 5]),
    (.cVxor 1 2, [0xFFFFFFFD, 0xFFFFFFFF, 0x7FFFFFFE, 5]), (.cVshl 1 2, [0xFFFFFFF0, 0x30000000, 0xFFFFFFFE, 5]),
    (.cVshr 1 2, [0x1FFFFFFF, 0, 0x3FFFFFFF, 5]), (.cVsar 1 2, [0xFFFFFFFF, 0, 0x3FFFFFFF, 5]), (.cVminI32 1 2, [0xFFFFFFFE, 0xFFFFFFFC, 1, 5]),
    (.cVmaxI32 1 2, [3, 3, 0x7FFFFFFF, 5])],
    goes p.1 lanes (fun t => four t 1 == p.2 && t.me.pc == 0x20002) = true := by decide +kernel
/-- FP32 lanes: v1 = 1.0, −2.5, NaN, +0 and v2 = 2.0, 12582912.0, 1.0, −0; v3 = 1.0 in each (R71, R135, R137, and the note of R145). -/
theorem test_lane_float :
    let s := vecs [(1, [0x3F800000, 0xC0200000, 0x7F800001, 0]), (2, [0x40000000, 0x4B400000, 0x3F800000, 0x80000000]),
      (3, [0x3F800000, 0x3F800000, 0x3F800000, 0x3F800000])]
    ∀ p ∈ [(Instr.vadd 3 1 2 .f32, [0x40400000#32, 0x4B3FFFFE#32, 0x7FC00001#32, 0#32]), (.vsub 3 1 2 .f32, [0xBF800000, 0xCB400002, 0x7FC00001, 0]),
      (.vmul 3 1 2 .f32, [0x40000000, 0xCBF00000, 0x7FC00001, 0x80000000]), (.vmin 3 1 2 .f32, [0x3F800000, 0xC0200000, 0x7FC00001, 0x80000000]),
      (.vmax 3 1 2 .f32, [0x40000000, 0x4B400000, 0x7FC00001, 0]), (.vabs 3 2 .f32, [0x40000000, 0x4B400000, 0x3F800000, 0]),
      (.vneg 3 1 .f32, [0xBF800000, 0x40200000, 0xFFC00001, 0x80000000]), (.vfma 3 1 3 .f32, [0x40000000, 0xBFC00000, 0x7FC00001, 0x3F800000]),
      (.vfrcp 3 2 .f32, [0x3F000000, 0x33AAA000, 0x3F800000, 0xFF800000]), (.vfrsq 3 2 .f32, [0x3F350000, 0x3993C000, 0x3F800000, 0xFF800000])],
    goes p.1 s (fun t => four t 3 == p.2) = true := by decide +kernel
/-- VCMP keeps the upper half of P, and with AND clears only (R140): v1 < v2 as integers in lane 0 alone of the first four. -/
theorem test_lane_compare :
    goes (.vcmp 1 2 .lt false .i32) (slot (fun t => { t with p := 0xA0007 }) lanes) (fun t => t.me.p == 0xA0009) = true ∧
    goes (.vcmp 1 2 .lt true .i32) lanes (fun t => t.me.p == 0x1) = true ∧
    goes (.vext 3 1 2) lanes (fun t => t.xval 3 == 0x7FFFFFFF) = true := by decide +kernel
/-- The conversion the spec works out: FP32 to FP8 E4M3, nearest, saturating (R144). -/
theorem test_convert :
    goes (.vcvt 6 5 .fp32 .rne true .fp8e4) (vecs [(5, [0x43E80000, 0xBA03126F, 0x7F800001, 0x3F800000]), (6, [1, 2, 3, 4, 5])])
      (fun t => laneOf (t.vval 6) 0 == 0x387F807E && laneOf (t.vval 6) 4 == 0) = true ∧
    goes (.vcvt 6 5 .fp32 .rne true .fp6e3) State.bench (fun t => match t.me.out with | .emulate _ _ _ => true | _ => false) = true := by
  decide +kernel
/-- Premises of the claims on conversions: built and emulated formats, a rounding that takes no key, a slot that has one, and a
development of a launch that is not deterministic, which has none (R145). -/
theorem witness_convert : fmtEmulated .fp64 = false ∧ fmtEmulated .n4 = false ∧ fmtEmulated .fp6e2 = true ∧ State.bench.srKey.isSome = true ∧
    (det inDev).srKey = none := by decide +kernel
/-- Premises of RoundingModes and Estimates: FP32 values within range, an exact reciprocal (1/2 = 2^11 · 2^−12) of the code of 2. -/
theorem witness_numbers : (fmtFloat .fp32).isSome = true ∧ (laneFmt .f32).value 0x40000000 = .fin false 0x800000 (-22) ∧
    (laneFmt .f32).value (laneFmt .f32).maxCode = .fin false 0xFFFFFF 104 ∧ (laneFmt .f32).frcp 0x40000000 = 0x3F000000 ∧
    (Machine.Num.fin false 3 0).rat = some 3 := by
  refine ⟨by decide +kernel, by decide +kernel, by decide +kernel, by decide +kernel, by norm_num [Machine.Num.rat]⟩

/-! ### Transfers, exceptions and control registers -/

/-- BR is taken where its predicate differs from n; the reach is signed (R33, R116). -/
theorem test_branch : goes (.br 0 false 0xFFFFF) (slot fun t => { t with p := 0x10000 }) (fun t => t.me.pc == 0x1FFFE) = true ∧
    goes (.br 0 true 0xFFFFF) (slot fun t => { t with p := 0x10000 }) (fun t => t.me.pc == 0x20004) = true ∧
    goes (.br 8 false 0x7FFFF) State.bench (fun t => t.me.pc == 0x11FFFE) = true := by decide +kernel
/-- JAL and JALR: the link, the target, bit 0 dropped, and a link register that is also the base (R117, R118). -/
theorem test_jump : goes (.jal 1 0x80000) (slot fun t => { t with pc := 0x200000 }) (fun t => t.me.pc == 0x100000 && t.xval 1 == 0x200004) = true ∧
    goes (.jalr 1 1 0x7FFF) (regs [(1, 0x30002)]) (fun t => t.me.pc == 0x30000 && t.xval 1 == 0x20004) = true := by decide +kernel
/-- LOOP starts, skips its body for a count of 0 to after the last instruction, and traps LOOP as the last instruction of an active
body (R96, R119). The half-word at 0x2002C is 0, a 16-bit encoding. -/
theorem test_loop : goes (.loop 1 20) (regs [(1, 3)]) (fun t => t.me.pc == 0x20004 && t.me.lstart == 0x20004 && t.me.lend == 0x2002C && t.me.lc == 3 &&
      t.me.sw.hl) = true ∧
    goes (.loop 0 20) State.bench (fun t => t.me.pc == 0x2002E && !t.me.sw.hl) = true ∧
    goes (.loop 0 20) (slot fun t => { t with lend := 0x20000, sw := { t.sw with hl := true } }) (fun t => t.me.ecause == 11) = true := by
  decide +kernel
/-- Premises of HardwareLoop and Yield: a fetch that succeeds, one that fails, a slot that yields, before and at its time. -/
theorem witness_loop : okWith (fetchHalf State.bench.agent 0x2002C) State.bench (fun h _ => h == 0) = true ∧
    trapsWith (fetchHalf State.bench.agent 0x50000000) State.bench .page = true ∧ ((slot fun t => { t with out := .yield 8 }).slotAt 0 0).out = .yield 8 ∧
    0 < 8 := by decide +kernel
/-- YIELD leaves for 8 cycles (R121). -/
theorem test_yield : goes .yield State.bench (fun t => t.me.out == .yield 8 && t.me.pc == 0x20004) = true ∧
    goes (.yieldExpiry 0 0) (after .yield State.bench) (fun t => t.me.out == .yield 8) = true ∧
    goes (.yieldExpiry 0 0) { after .yield State.bench with cycle := 8 } (fun t => t.me.out == .none) = true := by decide +kernel
/-- A slot in U mode with upcalls on and a handler at 0x7000. -/
def upcalls : State := slot fun t => { t with uvb := 0x7000 }
/-- TRAP 5 from U mode with tvb 0x10000: sst, epc the next PC, ecause with the code, the vector 64 × 22 on, S mode (R89, R122). -/
theorem test_trap : goes (.trap 5) (core fun k => { k with tvb := 0x10000 }) (fun t => t.me.pc == 0x10580 && t.me.epc == 0x20004 && t.me.ecause == 0x516 &&
      t.me.sst == 0x8000000000000006 && t.me.sw.toWord == 0x5) = true ∧
    goes .brk { State.bench with debugger := true } (fun t => t.me.halted && t.me.pc == 0x20000) = true := by decide +kernel
/-- A PAGE trap is an upcall where the slot takes them, with the partition's token, and else enters S mode (R89, R90, R230). -/
theorem test_upcall : goes (.ld 3 1 .d false 0) (upcalls.setX 1 0x50000000) (fun t => t.me.pc == 0x7000 && t.me.uepc == 0x20000 && t.me.ucause == 6 &&
      t.me.uaddr == 0x50000000 && t.me.utoken == 1 && !t.me.sw.ue && !t.me.sw.s && t.myPart.token == 2 && t.myPart.faults.length == 1) = true ∧
    goes (.ld 3 1 .d false 0) (regs [(1, 0x50000000)]) (fun t => t.me.pc == 0x180 && t.me.epc == 0x20000 && t.me.eaddr == 0x50000000 && t.me.sw.s) = true := by
  decide +kernel
/-- Premises of TrapEntry, UpcallEntry, SoftwareTraps and IllegalAndFailedFetch. -/
theorem witness_exceptions : (Cause.align ∉ [Cause.page, .pin, .devdepth, .devfault]) ∧ (upcalls.me.sw.s = false ∧ upcalls.me.sw.ue = true ∧
    upcalls.me.uvb ≠ 0) ∧ (smode.me.sw.s = true ∧ Cause.notrap ∈ [Cause.notrap, .badsst]) ∧ (State.bench.debugger = false) ∧
    ((slot fun t => { t with atVector := true }).me.atVector = true ∧ State.bench.me.atVector = false) := by decide +kernel
/-- The trap of a development ends it at its root with DEVFAULT: slot 1 of the core, which waits for it (R252). -/
theorem test_development_trap : goes (.trap 5) (inDev.modSlotAt 0 1 fun t => { t with life := .running, pc := 0x8000, out := .develop 3 none })
    (fun t => (t.slotAt 0 1).ecause == 17 && (t.slotAt 0 1).epc == 0x8000 && t.me.life == .idle) = true := by decide +kernel
/-- TRET restores the status, clears sst[63] and returns (R123); with sst[63] clear it is NOTRAP at the PC, with a reserved bit BADSST. -/
theorem test_trap_return :
    let s := fun (w : Word) => smode (slot fun t => { t with sst := w, epc := 0x3001 })
    goes .tret (s 0x8000000000000014) (fun t => t.me.pc == 0x3000 && t.me.sw.toWord == 0x14 && t.me.sst == 0x14) = true ∧
    goes .tret (s 0x14) (fun t => t.me.ecause == 21 && t.me.eaddr == 0x20000 && t.me.sst == 0x14) = true ∧
    goes .tret (s 0x8000000000010004) (fun t => t.me.ecause == 20 && t.me.epc == 0x3001) = true ∧
    goes .tret State.bench (fun t => t.me.ecause == 2 && t.me.sw.s) = true := by decide +kernel
/-- URET (R92, R124). -/
theorem test_upcall_return :
    goes .uret (slot fun t => { t with sw := { t.sw with ue := false }, ucause := 0x8006, uepc := 0x4003 }) (fun t => t.me.pc == 0x4002 && t.me.sw.ue &&
      t.me.sw.hl) = true ∧ goes .uret State.bench (fun t => t.me.ecause == 21) = true := by decide +kernel
/-- Premises of TrapReturn and UpcallReturn. -/
theorem witness_return :
    let ok := smode (slot fun t => { t with sst := 0x8000000000000014 })
    let bad := smode (slot fun t => { t with sst := 0xC000000000000000 })
    (ok.me.sw.s = true ∧ ok.me.sst.getLsbD 63 = true ∧ ok.me.sst.extractLsb' 32 31 = 0 ∧ ok.me.sst.extractLsb' 16 16 = 0 ∧ ok.me.sst.extractLsb' 5 3 = 0) ∧
    (bad.me.sst.getLsbD 63 = true ∧ bad.me.sst.extractLsb' 32 31 ≠ 0) ∧ (smode.me.sst.getLsbD 63 = false) ∧ State.bench.me.sw.ue = true ∧
    (slot fun t => { t with sw := { t.sw with ue := false } }).me.sw.ue = false := by decide +kernel
/-- RDC: sw of the bench is 6, capw as R149 lays it out, and the modes of R42. -/
theorem test_read_control : goes (.rdc 3 0) State.bench (fun t => t.xval 3 == 6) = true ∧ goes (.rdc 3 33) State.bench (fun t => t.xval 3 == 0x1C0420851) = true ∧
    goes (.rdc 3 32) State.bench (fun t => t.me.ecause == 2) = true ∧ goes (.rdc 3 13) det (fun t => t.me.ecause == 14) = true := by decide +kernel
/-- WRC: HL may be written and IE may not in U mode; a tc keeps its writable bits; a read-only register is ILL (R42, R78, R128). -/
theorem test_write_control :
    goes (.wrc 1 0) (regs [(1, 0xFFFFFFFFFFFFFFF8)]) (fun t => t.me.sw.toWord == 0x12 && t.me.pc == 0x20004) = true ∧
    goes (.wrc 1 47) (regs [(1, 0xFFFFFFFFFFFFFFFF)]) (fun t => t.mySight.tc[7] == 0xFFFF1FFFFF) = true ∧
    goes (.wrc 1 32) (smode (regs [(1, 0xFFFFFFFFFFFFFFFF)])) (fun t => t.mySight.tvb == 0xFFFFFFFFFFFFF800) = true ∧
    goes (.wrc 1 18) State.bench (fun t => t.me.ecause == 1) = true ∧ goes (.wrc 1 1) State.bench (fun t => t.me.ecause == 2) = true := by decide +kernel
/-- Premises of ReadControl and WriteControl. -/
theorem witness_control : ((1 : BitVec 6).toNat ∈ [1, 2, 3, 4, 32] ∧ State.bench.me.sw.s = false) ∧ det.me.sw.dm = true ∧ smode.me.sw.s = true ∧
    ((12 : BitVec 6).toNat ∉ [1, 2, 3, 4, 32]) := by decide +kernel

/-! ### Memory -/

/-- x1 names a word of memory, x2 holds data, x4 names a word of the local tray. -/
def mem : State := regs [(1, 0x40000), (2, 0xAABBCCDDEEFF1122), (4, tray 0x400)]

/-- The checks of R24 in their order: the first that fails names the cause. -/
theorem test_checks : ∀ p ∈ [
    (0x3000000000000000#64, 8, false, Cause.noncanon), (0x40001, 8, true, .noncanon), (0x1000000000080000, 8, false, .noncanon),
    (0x0FFFFFFFFFFFFFFC, 8, false, .bounds), (0x40001, 8, false, .align), (0xF000000000000004, 8, false, .align),
    (0xF000000000000008, 8, false, .prot), (0x50000000, 8, false, .page), (tray 0x60001, 1, false, .bounds), (tray 0x5FFFF, 2, false, .bounds),
    (tray 0x58001, 2, false, .align), (tray 0x58000, 2, false, .traysys), (peer 16 0x400, 2, false, .prot), (peer 1 0x401, 2, false, .align),
    (0x2004000000000000, 1, false, .noncanon), (tray 0x440, 64, true, .align)],
    trapsWith (checkAccess State.bench.agent p.1 p.2.1 p.2.2.1 .load) State.bench p.2.2.2 = true := by decide +kernel
/-- Places of tray pointers: the core's own position is the local tray, another one a peer's (R150, R160). -/
theorem test_tray_places : ∀ p ∈ [(tray 0x57FFC, Spot.own 0x57FFC), (peer 0 0x400, .own 0x400), (peer 15 0x400, .peer 15 0x400)],
    okWith (checkAccess State.bench.agent p.1 4 false .load) State.bench (fun sp _ => sp == p.2) = true := by decide +kernel
/-- Premises of AccessChecks at the bounds of its clauses: the tray forms, the last bytes below each limit, the rank of the last core
of the partition and the first past it. -/
theorem witness_checks : ((tray 0x57FF8).extractLsb' 60 4 = 1 ∧ (tray 0x57FF8).extractLsb' 19 41 = 0 ∧ trayOff (tray 0x57FF8) + 8 = 0x58000) ∧
    (trayOff (tray 0x5FFF8) + 8 = 0x60000 ∧ trayOff (tray 0x5FFF8) % 8 = 0) ∧ (trayOff (tray 0x5FFF9) + 8 > 0x60000) ∧
    ((peer 15 0).extractLsb' 60 4 = 2 ∧ (peer 15 0).extractLsb' 19 21 = 0 ∧ (peer 15 0).extractLsb' 50 10 = 0) ∧
    ((State.bench.core 0).position = some 0) ∧ ((peer 15 0).extractLsb' 40 10).toNat / 16 < (State.bench.part 0).clusters.length ∧
    (State.bench.part 0).clusters.length ≤ ((peer 16 0).extractLsb' 40 10).toNat / 16 ∧
    (0xF000000000000000#64).extractLsb' 60 4 = 15 ∧ 2 ^ 60 < ((0x0FFFFFFFFFFFFFF9#64).extractLsb' 0 60).toNat + 8 := by decide +kernel
/-- Premises of PageRights: a page with every right and one without W, of owner 0 and of another owner. -/
theorem witness_rights : ∀ p ∈ [(0xF#64, Cause.page), (0x30F, .prot), (0xB, .prot)],
    (if p.2 == .page then okWith (checkRights State.bench.agent 0x40000 { region := benchRegion, leaf := p.1, psize := 4096 } .store) State.bench
      (fun _ _ => true) else trapsWith (checkRights State.bench.agent 0x40000 { region := benchRegion, leaf := p.1, psize := 4096 } .store)
      State.bench p.2) = true := by decide +kernel
/-- A store lands in the core's cache: memory is as before until a release performs it (R162, R257, R291); loads of the core see it. -/
theorem test_store_then_release :
    let s := after (.st 2 1 .w false 1) mem
    Memory.readN s.mem 0x40004 4 = 0 ∧ goes (.ld 3 1 .d false 0) s (fun t => t.xval 3 == 0xEEFF112200000000) = true ∧
    goes .frel s (fun t => Memory.readN t.mem 0x40004 4 == 0xEEFF1122 && t.me.pc == 0x20008) = true ∧
    goes (.ldb 3 1 .h false 3) s (fun t => t.xval 3 == 0xEEFF && Memory.readN t.mem 0x40004 4 == 0xEEFF1122) = true := by decide +kernel
/-- STL performs its store at once, and the core's own copy with it; LDA reads it and acquires (R290). -/
theorem test_release_store : goes (.stl 2 1 .d 0x7FF) mem (fun t => Memory.readN t.mem 0x43FF8 8 == 0xAABBCCDDEEFF1122) = true ∧
    goes (.lda 3 1 .b 0) (after (.stl 2 1 .d 0) mem) (fun t => t.xval 3 == 0x22 && t.me.pc == 0x20008) = true ∧
    goes (.stl 2 4 .d 0) mem (fun t => t.me.ecause == 4) = true := by decide +kernel
/-- LDC goes on returning the cached word after the word has changed, until FCON (R187, R238, R291). -/
theorem test_constant_load :
    let s := after (.stl 2 1 .d 0) (after (.ldc 3 1 .d false 0) mem)
    goes (.ldc 3 1 .d false 0) s (fun t => t.xval 3 == 0) = true ∧
    goes (.ldc 3 1 .d false 0) (after .fcon s) (fun t => t.xval 3 == 0xAABBCCDDEEFF1122) = true := by decide +kernel
/-- Tray loads and stores: bytes, a 64-byte row under the mask, and a frame column (R151, R185, R186). -/
theorem test_tray_access :
    let s := after (.st 2 4 .d false 0) mem
    goes (.ld 3 4 .h false 1) s (fun t => t.xval 3 == 0xEEFF) = true ∧
    goes (.ldv 1 4 false 0) (slot (fun t => { t with p := 2 }) s) (fun t => four t 1 == [0, 0xAABBCCDD, 0, 0]) = true ∧
    goes (.stv 1 5 true 0) (slot (fun t => { t with p := 6 }) (vecs [(1, [1, 2, 3, 4])] (regs [(5, tray 0x408)])))
      (fun t => t.myCore.tray == [(0x448, 2), (0x488, 3)]) = true := by decide +kernel
/-- The premises of the claims on loads and stores: checks that pass and fail, data that is there at once, and data that another core
brings. -/
theorem witness_loads : okWith (checkAccess mem.agent 0x40000 8 false .load) mem (fun sp u =>
      okWith (readSpot mem.agent .plain 0x40000 8 false (.x 3) sp) u (fun g _ => match g with | .now _ => true | .later _ => false)) = true ∧
    okWith (checkAccess mem.agent (peer 5 0x400) 8 false .load) mem (fun sp u =>
      okWith (readSpot mem.agent .plain (peer 5 0x400) 8 false (.x 3) sp) u (fun g _ => match g with | .now _ => false | .later _ => true)) = true ∧
    okWith (checkAccess mem.agent 0x40000 8 false .load) mem (fun sp u => match sp with
      | .mem va _ (.here pa own home false true) => (mapGet? (u.clusterAt 0).cc (pa / 64)).isNone &&
        okWith (constRead mem.agent va pa own home 8) u fun _ w => (mapGet? (w.clusterAt 0).cc (pa / 64)).isSome
      | _ => false) = true ∧ (mem.part 0).recordOf (0x40000 / 64) = none := by decide +kernel
theorem witness_stores : okWith (checkAccess mem.agent 0x40000 8 false .store) mem (fun sp u => match sp with
      | .mem va ps (.here pa own home false true) => pa % 8 == 0 && Memory.wf u.mem &&
        okWith (writeSpot mem.agent 0x40000 8 false (byteMap 5 8) (.mem va ps (.here pa own home false true))) u (fun _ w =>
          okWith (digestStore mem.agent [(sp, byteMap 5 8)]) w fun _ _ => true) &&
        okWith release u (fun _ v => okWith (writeAtHome mem.agent 0x40000 8 (byteMap 5 8) sp) v fun _ _ => true)
      | _ => false) = true ∧ trapsWith (checkAccess mem.agent 0x40001 8 false .store) mem .align = true := by decide +kernel
theorem witness_tray : localTray (tray 0x57FF8) 8 false ∧ localTray (tray 0x57C3C) 64 true ∧ localTray (tray 0x57FC0) 64 false ∧
    mem.sent = [] ∧ Memory.wf mem.myCore.tray = true := by unfold localTray; decide +kernel
/-- Poisoned tray words make an access an MCE that contains the plot (R180), as the second clauses of TrayLoad ask. -/
theorem test_poisoned_tray : goes (.ld 3 4 .w false 0) (core (fun k => { k with trayBad := [0x100] }) mem)
    (fun t => t.me.ecause == 18 && (match t.me.out with | .contained .mce _ => true | _ => false)) = true ∧
    (core fun k => { k with trayBad := [0x100] }).poisonAt [0x403] := by
  refine ⟨by decide +kernel, ⟨0x403, by simp, by decide +kernel⟩⟩
/-- Premises of MemoryFrame: canonical stores, a load and a store that go on. -/
theorem witness_memory_frame : Memory.wf mem.mem = true ∧ Memory.wf mem.myCore.tray = true ∧
    goes (.ld 3 1 .d false 0) mem (fun _ => true) = true ∧ goes (.stl 2 1 .d 0) mem (fun _ => true) = true ∧
    goes (.cas 3 1 2 true) mem (fun _ => true) = true := by decide +kernel
/-- Gathers and scatters: the higher lane wins, inactive lanes do nothing (R189). -/
theorem test_gather_scatter :
    let s := slot (fun t => { t with p := 7 }) (vecs [(1, [3, 1, 3, 9]), (2, [0x11, 0x22, 0x33, 0x44]), (5, [7, 7, 7, 7])] mem)
    goes (.sts 2 4 1 .h) s (fun t => t.myCore.tray == [(0x402, 0x22), (0x406, 0x33)]) = true ∧
    goes (.ldg 5 4 1 .h) (after (.sts 2 4 1 .h) s) (fun t => four t 5 == [0x33, 0x22, 0x33, 7]) = true := by decide +kernel
/-- Premises of the claims on gathers: every active lane in the local tray; a lane whose check fails first. -/
theorem witness_gather :
    let s := slot (fun t => { t with p := 7 }) (vecs [(1, [3, 1, 3, 9])] mem)
    (∀ i < 16, s.me.p.getLsbD i = true → localTray (leaBy (s.xval 4) ((laneOf (s.vval 1) i).toNat * 2)) 2 false) ∧
    (Size.h ≠ .d) ∧ trapsWith (laneSpots 0x40001 (s.vval 1) 2 [0, 1, 2] .load s) s .align = true := by
  unfold localTray; decide +kernel
/-- PREF never traps and never leaves the rotation (R188); a hint 8 does nothing. -/
theorem test_prefetch : goes (.pref 0 1 0) mem (fun t => t.me.pc == 0x20004 && t.me.out == .none && (mapGet? t.myCore.l1d 0x1000).isSome) = true ∧
    goes (.pref 3 5 0) (regs [(5, 0x50000000)]) (fun t => t.me.pc == 0x20004 && !t.me.sw.s) = true ∧
    goes (.pref 2 1 0) mem (fun t => t.packets.any fun k => k.load == .pref 0x1000 0 false) = true ∧ goes (.pref 8 1 0) mem (fun t => t.myCore.l1d == []) = true := by decide +kernel
/-- Full/empty words: LDFE takes a full word, STFE fills an empty one, each waits in the other state (R155, R190); FESET (R192). -/
theorem test_full_empty :
    let full := after (.stfe 2 4 false 0) mem
    (full.myCore.fe = [0x100] ∧ full.myCore.tray = [(0x400, 0x22), (0x401, 0x11), (0x402, 0xFF), (0x403, 0xEE)]) ∧
    goes (.ldfe 3 4 false 0) full (fun t => t.xval 3 == 0xEEFF1122 && t.myCore.fe == []) = true ∧
    goes (.ldff 3 4 false 0) full (fun t => t.xval 3 == 0xEEFF1122 && t.myCore.fe == [0x100]) = true ∧
    goes (.ldfe 3 4 false 0) mem (fun t => t.me.out == .fe .ldfe 3 (tray 0x400) 0) = true ∧
    goes (.feset 4 5 true) (regs [(5, 3)] mem) (fun t => t.myCore.fe == [0x100, 0x101, 0x102]) = true := by decide +kernel
/-- Premises of FullEmptyLocal and SetFullEmpty: an empty, a full, and a full poisoned word; ranges at the limits of each check. -/
theorem witness_full_empty : localTray (tray 0x400) 4 false ∧ 0x100 ∈ (after (.stfe 2 4 false 0) mem).myCore.fe ∧ 0x100 ∉ mem.myCore.fe ∧
    0x100 ∈ (core (fun k => { k with fe := [0x100], trayBad := [0x100] }) mem).myCore.trayBad ∧
    (trayOff (tray 0x57FFC) + 4 * 1 = 0x58000 ∧ trayOff (tray 0x57FFC) + 4 * 2 > 0x58000 ∧ 0x60000 < trayOff (tray 0x5FFFC) + 4 * 2 ∧
      trayOff (tray 0x57FFA) % 4 ≠ 0) := by unfold localTray; decide +kernel
/-- Two slots wait with LDFE on word 0x100, slot 2 first. -/
def waiters : State := (mem.modSlotAt 0 2 fun t => { t with out := .fe .ldfe 5 (tray 0x400) 0, since := 0 }).modSlotAt 0 1 fun t =>
  { t with out := .fe .ldfe 6 (tray 0x400) 0, since := 2 ^ 32 }
/-- Premises of WaiterOrder, and its outcome (R156): the word filled by slot 0 goes to slot 2 and slot 1 still waits. -/
theorem witness_waiters : (waiters.slotAt 0 2).out = .fe .ldfe 5 (tray 0x400) 0 ∧ (waiters.slotAt 0 1).out = .fe .ldfe 6 (tray 0x400) 0 ∧
    wordOfPtr (tray 0x400) = 0x100 ∧ (∀ i : Fin 8, i ≠ 1 → i ≠ 2 → (waiters.slotAt 0 i).out.onWord 0x100 = false) ∧ (waiters.core 0).park = [] ∧
    (waiters.slotAt 0 2).since / 2 ^ 32 < (waiters.slotAt 0 1).since / 2 ^ 32 ∧ 0x100 ∉ (waiters.core 0).fe ∧ (waiters.core 0).trayPoisoned [0x400] = false := by
  decide +kernel
theorem test_waiters : goes (.stfe 2 4 false 0) waiters (fun t => (t.slotAt 0 2).x[5] == 0xEEFF1122 && (t.slotAt 0 2).out == .none &&
    (t.slotAt 0 1).out == .fe .ldfe 6 (tray 0x400) 0 && t.myCore.fe == []) = true := by decide +kernel
/-- Atomics on the tray and at the home slice: the old value and the new one (R288). Memory and tray hold 0xFFFFFFFE, x5 = 3. -/
theorem test_atomics :
    let s := regs [(1, 0x40000), (4, tray 0x400), (5, 3), (6, 0xFFFFFFFE)]
    let m := after (.st 6 4 .w false 0) (after (.stl 6 1 .w 0) s)
    ∀ p ∈ [(Instr.amoAdd 3 1 5 false, 1), (.amoAnd 3 1 5 false, 2), (.amoOr 3 1 5 false, 0xFFFFFFFF), (.amoXor 3 1 5 false, 0xFFFFFFFD),
      (.amoMin 3 1 5 false, 0xFFFFFFFE), (.amoMax 3 1 5 false, 3), (.amoMinu 3 1 5 false, 3), (.amoMaxu 3 1 5 false, 0xFFFFFFFE),
      (.amoSwap 3 1 5 false, 3), (.cas 6 1 5 false, 3), (.cas 5 1 5 false, 0xFFFFFFFE), (.amoAdd 3 1 5 true, 0x100000001)],
      goes p.1 m (fun t => Memory.readN t.mem 0x40000 8 == p.2 && (t.xval 3 == 0xFFFFFFFE || t.xval 5 == 0xFFFFFFFE || t.xval 6 == 0xFFFFFFFE)) = true := by
  decide +kernel
theorem test_tray_atomics :
    let s := regs [(4, tray 0x400), (5, 0x40000000), (6, 0x3F800000)]
    let m := after (.st 6 4 .w false 0) s
    goes (.amof 3 4 5 false) m (fun t => Memory.readN t.myCore.tray 0x400 4 == 0x40400000 && t.xval 3 == 0x3F800000) = true ∧
    goes (.amof 3 4 5 false) (det m) (fun t => t.me.ecause == 14) = true ∧
    goes (.amoAdd 3 7 5 false) (regs [(7, 0x3000000000000000)] m) (fun t => t.me.ecause == 4) = true ∧
    goes (.amoAdd 3 7 5 false) (regs [(7, peer 5 0x400)] m) (fun t => (match t.me.out with | .remote [_] => true | _ => false) && t.packets.length == 1)
      = true := by decide +kernel
/-- Premises of AtomicCompletes and HomeAtomic: a pointer of each kind, a place whose old value is there, one where it is not. -/
theorem witness_atomics : okWith (checkAccess mem.agent 0x40000 8 false .atomic) mem (fun sp u =>
      okWith (rmwAt 0x40000 8 (.amo .add 3) (.x 3) mem sp) u (fun v _ => v.isSome)) = true ∧
    okWith (checkAccess mem.agent (peer 5 0x400) 8 false .atomic) mem (fun sp u =>
      okWith (rmwAt (peer 5 0x400) 8 (.amo .add 3) (.x 3) mem sp) u (fun v _ => v.isNone)) = true ∧
    okWith (rmwHome mem.agent 0x40000 0x40000 0 0 false 8 (.cas 0 5)) mem (fun v _ => v == 0) = true ∧ mem.agent.dev = none ∧
    2 < ((0x3000000000000000#64).extractLsb' 60 4).toNat := by decide +kernel
/-- A slot with an unacknowledged store, and one with a recorded refusal. -/
def storing : State := (after (.st 2 5 .w false 0) (regs [(5, peer 5 0x400)] mem))
def refused : State := slot fun t => { t with nack := some { cause := .prot, addr := 0x77 } }
/-- A release waits for the store's acknowledgement, then reports the refusal once (R182, R291). -/
theorem test_fences : goes .frel storing (fun t => t.me.out == .release) = true ∧
    goes .fseq refused (fun t => t.me.ecause == 7 && t.me.eaddr == 0x77 && t.me.nack == none) = true ∧
    goes .facq (after (.ld 3 1 .w false 0) mem) (fun t => t.myCore.l1d == []) = true := by decide +kernel
/-- Premises of Fences. -/
theorem witness_fences : storing.packets.any (fun pk => pk.isStore && pk.unacked storing.curCore storing.curSlot.val) = true ∧
    refused.packets.any (fun pk => pk.isStore && pk.unacked 0 0) = false ∧ refused.me.nack = some { cause := .prot, addr := 0x77 } ∧
    mem.me.nack = none := by decide +kernel

/-! ### Engines and futures -/

/-- A copy descriptor at 0x41000: two rows of 8 bytes from 0x400 of the tray, 16 apart, to 0x800, 8 apart. -/
def describe (s : State) : State :=
  { s with mem := Memory.writeN (Memory.writeN (Memory.writeN (Memory.writeN s.mem 0x41000 8 (tray 0x400).toNat) 0x41008 8 (tray 0x800).toNat)
      0x41010 8 (2 * 2 ^ 32 + 8)) 0x41018 8 (8 * 2 ^ 32 + 16) }
/-- x1 names the descriptor; the tray holds 0x11 at 0x400 and 0x22 at 0x417. -/
def engines : State := describe (core (fun k => { k with tray := [(0x400, 0x11), (0x417, 0x22)] }) (regs [(1, 0x41000)]))
/-- The words an instruction has asked for are there (R181): its slot is back in the rotation. -/
def arrivedWords (s : State) : State := { s.modMe fun t => { t with out := .none } with packets := [] }
/-- The first part of an instruction that reads a range of global memory is done (R257). -/
def firstPart (i : Instr) (s : State) : State := arrivedWords (after i s)
/-- The descriptor's words are asked for, and there; then the copy is queued on c1 and x3 names it (R171, R181, R193, R194). -/
def asking : State := after (.cpy 3 1 false true false false 1) engines
def copying : State := after (.cpy 3 1 false true false false 1) (arrivedWords asking)
theorem test_copy_issue : (match asking.me.out with | .reply _ => asking.me.pc == 0x20000 && asking.myCore.queues[1] == [] | _ => false) = true ∧
    copying.me.pc = 0x20004 ∧ (copying.myCore.queues[1]).length = 1 ∧ (copying.markOf 3).isSome = true ∧
    goes (.cpy 3 1 false false false false 1) (regs [(1, tray 0x41000)] engines) (fun t => t.me.ecause == 4) = true ∧
    goes (.add 5 3 0) copying (fun t => match t.me.out with | .future _ => true | _ => false) = true := by decide +kernel
/-- Its rows move, its destination words become full, and its end writes the handle: 2 rows, queue 1, status 0 (R172, R174, R175). -/
theorem test_copy_rows : goes (.engineEntryStart 0 1 3) copying (fun t => t.myCore.tray == [(0x400, 0x11), (0x417, 0x22), (0x800, 0x11), (0x80F, 0x22)] &&
      goes (.engineEntryComplete 0 1) t (fun u => u.xval 3 == 0x20100 && u.markOf 3 == none && u.myCore.queues[1] == [] &&
        u.myCore.fe == [0x200, 0x201, 0x202, 0x203])) = true := by decide +kernel
/-- Premises of EngineIssue: a descriptor that passes the checks, the release and the read, with its fields in range and out of range. -/
theorem witness_engine_issue : okWith (checkRange engines.agent 0x41000 32 8 .load) engines (fun sps u => okWith release u fun _ v =>
      okWith (readRange engines.agent sps) { v with cores := (arrivedWords asking).cores } fun ws _ => (copyEntry ws false true false false).isSome && (copyEntry ws false true true false).isNone &&
        (gatherEntry ws false false false).isSome) = true ∧
    trapsWith (checkRange engines.agent 0x41001 32 8 .load) engines .align = true := by decide +kernel
/-- An entry at the head of c2, for the claims on steps. -/
def entry (status : Option Nat) (started : Bool) : Entry :=
  { id := 7, op := .copy (tray 0x400) (tray 0x57FF8) 8 2 0 0 false false false, full := false, started := started, done := 0, part := 0, wrote := [], cancel := false
    status := status, wait := .none, agent := { engines.agent with slot := none, queue := 2 } }
def queued (status : Option Nat) (started : Bool := false) : State := core (fun k => { k with queues := k.queues.set 2 [entry status started] }) engines
/-- Premises of EngineSteps, CopyRow and Cancellation: entries with no status, status 0 and 2, started and not, at the end of the tray. -/
theorem witness_engine_steps : ((queued none).core 0).queues[(2 : Fin 6)] = [entry none false] ∧ ((queued (some 0)).core 0).queues[(2 : Fin 6)] = [entry (some 0) false] ∧
    ((queued none).core 0).queues[(1 : Fin 6)] = [] ∧ ((queued none true).core 0).findEntry 7 = some (2, entry none true) ∧
    Memory.wf ((queued none).core 0).tray = true ∧
    ([tray 0x400, tray 0x57FF8].all fun p => p.extractLsb' 60 4 == 1 && p.extractLsb' 19 41 == 0 && trayOff p + 8 ≤ 0x58000) = true := by decide +kernel
/-- An entry with a failure status ends with it; a cancelled one with status 4 (R175, R195). -/
theorem test_entry_ends :
    let s := fun st => slot (fun t => { t with marks := t.marks.set (1 : Fin 16) (some 7) }) (queued st)
    goes (.engineEntryComplete 0 2) (s (some 2)) (fun t => t.xval 1 == 0x202) = true ∧
    goes (.fcan 1) (s none) (fun t => t.xval 1 == 0x204 && t.markOf 1 == none && t.myCore.queues[2] == []) = true := by decide +kernel
/-- Futures (R194, R195): FTEST, FMOV, FWAIT and QFN on a pending register and a full queue. -/
theorem test_futures : goes (.ftest 1 1) pending (fun t => t.me.p == 0xFFFF) = true ∧ goes (.ftest 1 2) pending (fun t => t.me.p == 0x2FFFF) = true ∧
    goes (.fmov 2 1) pending (fun t => t.markOf 2 == some 7 && t.markOf 1 == some 7) = true ∧
    goes (.fwait 1) pending (fun t => t.me.out == .future 7) = true ∧
    goes (.qfn 1) (core fun k => { k with queues := k.queues.set 0 (List.replicate 16 (entry none false)) }) (fun t => t.me.out == .queue) = true := by
  decide +kernel
/-- Premises of Futures, PendingRead and HandleWritten. -/
theorem witness_futures : pending.markOf 1 = some 7 ∧ det.me.sw.dm = true ∧ pending.me.marks[(1 : Fin 16)] = some 7 ∧ pending.me.marks[(2 : Fin 16)] ≠ some 7 ∧
    (∀ j : Fin 6, (63 : BitVec 6).getLsbD j.val = true → (State.bench.myCore.queues[j]).length < 16) := by decide +kernel

/-! ### Tasks, queues and channels -/

/-- x4 is an entry, x5 an argument, x6 a join counter in memory. -/
def tasks : State := regs [(4, 0x30001), (5, 77), (6, 0x40000)]
/-- A core whose deque is full. -/
def fullDeque (s : State := tasks) : State := core (fun k => { k with deque := List.replicate 32 (s.buildRecord 0 1 none) }) s
/-- SPAWN pushes a record with x1 from X(b); with no place it is DQFULL; JINIT stores its counter (R196-R198). -/
theorem test_spawn : goes (.spawn 4 5) tasks (fun t => t.myCore.deque.map (fun r => (r.pc, r.x[1], r.x[5], r.type)) == [(0x30000, 77, 77, 1)]) = true ∧
    goes (.spawn 4 5) fullDeque (fun t => t.me.ecause == 10 && t.myCore.deque.length == 32) = true ∧
    goes (.jinit 6 5) tasks (fun t => Memory.readN t.mem 0x40000 8 == 77) = true ∧
    goes (.jinit 4 5) (regs [(4, tray 0x400)] tasks) (fun t => t.me.ecause == 4) = true := by decide +kernel
/-- FORK counts up and pushes its target; JOIN counts down, goes on at its target at zero, else ends the task (R199). -/
theorem test_fork_join :
    let s := after (.jinit 6 7) (regs [(7, 1)] tasks)
    goes (.fork 6 0x100) s (fun t => Memory.readN t.mem 0x40000 8 == 2 && t.myCore.deque.map (·.pc) == [0x20204]) = true ∧
    goes (.join 6 0x100) s (fun t => Memory.readN t.mem 0x40000 8 == 0 && t.me.pc == 0x20204 && t.me.life == .running) = true ∧
    goes (.join 6 0x100) (after (.fork 6 0x100) s) (fun t => t.me.life == .idle) = true := by decide +kernel
/-- Premises of SpawnAndCounter and ForkAndJoin. -/
theorem witness_tasks : (∀ r, tasks.markOf r = none) ∧ tasks.myCore.dequeRoom = true ∧ fullDeque.myCore.dequeRoom = false ∧ fullDeque.me.reserved = false ∧
    okWith release (tasks.modMe fun t => { t with reserved := true }) (fun _ _ => true) = true ∧
    okWith (counterSpot 0x40000 tasks) tasks (fun sp u => okWith (rmwAt 0x40000 8 (.amo .add 1) (.fork 0) tasks sp) u fun v _ => v == some 0) = true ∧
    okWith (counterSpot 0x40000 tasks) (after (.jinit 6 5) (regs [(5, 1)] tasks)) (fun sp u =>
      okWith (rmwAt 0x40000 8 (.amo .add (2 ^ 64 - 1)) (.join 0) tasks sp) u fun v _ => v == some 1) = true := by decide +kernel
/-- EXIT ends the task and leaves the slot idle (R120); premises of TaskEnd: a release that goes on and one that waits. -/
theorem test_exit : goes .exit (regs [(1, 5)]) (fun t => t.me.life == .idle && t.xval 1 == 5) = true ∧ okWith release State.bench (fun _ _ => true) = true ∧
    goes .exit storing (fun t => t.me.out == .release) = true := by decide +kernel
/-- The bench with a second core of its launch. -/
def twoCores (f : Core → Core) (s : State) : State :=
  (s.setCore 1 (f { Core.reset with bound := some { part := 0, owner := 0, launch := 1, cls := 1 }, last := some (0, 0), position := some 1 })).modPart 0
    fun q => { q with posMap := [(0, 0), (1, 1)] }
/-- A slot of the core is idle. -/
def idle (n : Fin 8) (s : State) : State := s.modSlotAt 0 n fun t => { t with life := .idle }
/-- A record, and a development's record. -/
def record : TaskRec := tasks.buildRecord 0x30000 1 none
def devRec : TaskRec := { record with dev := some devTask, type := 4 }
/-- An idle slot of core 0, whose deque is empty, and a development above two records on core 1. -/
def thief : State := idle 3 (twoCores (fun k => { k with deque := [devRec, { record with pc := 8 }, { record with pc := 6 }] }) State.bench)
/-- The lowest free slot takes the top record; a steal takes the bottom record that is no development (R177). -/
theorem test_take_and_steal : goes (.taskTake 0) (idle 5 (idle 3 fullDeque)) (fun t => (t.slotAt 0 3).life == .running && t.myCore.deque.length == 31 &&
      (t.slotAt 0 5).life == .idle) = true ∧ goes (.taskTake 0) fullDeque (fun t => t.myCore.deque.length == 32) = true ∧
    goes (.stealRound 0 3) thief (fun t => (t.slotAt 0 3).pc == 6 && (t.core 1).deque.length == 2) = true ∧
    goes (.stealRound 0 3) (idle 3 State.bench) (fun t => (t.slotAt 0 3).stealAt == 256) = true := by decide +kernel
/-- Premises of TakingTasks and StealTakes. -/
theorem witness_taking : ((idle 3 fullDeque).core 0).freeSlot = some 3 ∧ ((idle 3 fullDeque).core 0).preempt = none ∧ (fullDeque.core 0).freeSlot = none ∧
    (thief.slotAt 0 3).free = true ∧ (thief.core 0).deque = [] ∧ (thief.core 0).overflow = [] ∧ (thief.slotAt 0 3).stealAt ≤ thief.cycle ∧
    1 ∈ thief.plotCores 0 ∧ (thief.core 1).stealable ≠ none ∧ ((idle 3 State.bench).core 0).stealable = none ∧ (Core.reset).stealable = none := by
  decide +kernel
/-- Slot 1 asked for the development of record 3 in cycle 0 and no slot has taken it. -/
def asked : Recipe :=
  { id := 3, block := 0x43000, words := Vector.replicate 8 0, lines := [(0x1100, 0x1100)], owners := [0], pins := []
    devs := [{ root := .slot 0 1, depth := 1, asker := .slot 0 1, verify := none, written := [] }] }
def unserved (cycle : Nat) : State :=
  { (part (fun q => { q with recipes := [asked] }) (core fun k => { k with deque := [devRec] })).modSlotAt 0 1 fun t =>
      { t with out := .develop 3 none } with cycle := cycle }
/-- It runs in the requester's slot 64 cycles later and not before (R251); premises of DevelopmentTimeout. -/
theorem test_development_timeout : goes (.developmentSlotTimeout 0 1) (unserved 63) (fun t => (t.slotAt 0 1).out == .develop 3 none) = true ∧
    goes (.developmentSlotTimeout 0 1) (unserved 64) (fun t => (t.slotAt 0 1).life == .running && (t.slotAt 0 1).pc == 0x30000 &&
      (t.slotAt 0 1).kind == .dev devTask && t.myCore.saved.isSome && t.myCore.deque == []) = true ∧
    ((unserved 64).slotAt 0 1).out = .develop 3 none ∧ (unserved 64).askedRecord 0 1 3 = some devRec ∧ (unserved 64).myCore.freeSlot = none ∧
    ((unserved 64).core 0).saved = none := by decide +kernel
/-- A task start keeps uvb, DM and the launch's numbers (R79, R81). -/
theorem test_task_start :
    let t := startRecord { State.bench.me with uvb := 9, lane := 5, epc := 4, sw := { State.bench.me.sw with dm := true, s := true } } record
    t.uvb = 9 ∧ t.lane = 5 ∧ t.epc = 0 ∧ t.pc = 0x30000 ∧ t.sw.toWord = 0xE ∧ t.x[5] = 77 := by decide +kernel
/-- ENQ reads its record from memory and DEQ starts it; a queue the partition has not is PROT; QST counts (R200, R342-R345). The
segment holds one record. -/
def offering : State := firstPart (.enq 1 63) (regs [(1, 0x42000)] { State.bench with mem := Memory.writeN State.bench.mem 0x42000 8 0x5000 })
def enqueued : State := after (.enq 1 63) offering
theorem test_queues : goes (.qst 3 63) enqueued (fun t => t.xval 3 == 0x0001000400000001) = true ∧
    goes (.deq 63) enqueued (fun t => t.me.pc == 0x5000 && t.me.life == .running) = true ∧
    goes (.deq 63) State.bench (fun t => t.me.out == .deq 63) = true ∧
    goes (.qst 3 5) (part fun q => { q with queueCount := 5 }) (fun t => t.me.ecause == 7 && t.me.eaddr == 5) = true ∧
    goes (.enq 1 63) (firstPart (.enq 1 63) enqueued) (fun t => match t.me.out with | .enq 63 _ _ => true | _ => false) = true := by decide +kernel
/-- Premises of Enqueue and DequeueAndStatus. -/
theorem witness_queues : okWith (checkRange offering.agent 0x42000 656 8 .load) offering (fun sps u => okWith release u fun _ v =>
      okWith (readRange offering.agent sps) v fun ws _ => ws.length == 82) = true ∧ trapsWith (checkRange enqueued.agent 0x42004 656 8 .load) enqueued .align = true ∧
    okWith (findSegment 63) enqueued (fun g u => g.isSome && u.myPart.segment 63 (g.getD 0) != []) = true ∧
    okWith (findSegment 63) State.bench (fun g _ => g == none) = true ∧ (5 : BitVec 6).toNat < State.bench.myPart.queueCount := by decide +kernel
/-- A packet sent to endpoint 2 of core 1, at its core; and one core that waits in RECV there. -/
def sent : State := after (.send 4 1) (vecs [(1, [7, 8])] (regs [(4, 0x10000000002)] (twoCores id State.bench)))
def arrived (s : State := sent) : State := { s with packets := s.packets.map fun p => { p with place := .port } }
/-- SEND's checks, its packet with all sixteen lanes, its arrival in the FIFO, and RECV, RECVT of the head packet (R178, R201, R202). -/
theorem test_channels : (match sent.me.out with | .remote [_] => true | _ => false) = true ∧
    goes (.send 4 1) (regs [(4, 0x10000000012)]) (fun t => t.me.ecause == 4) = true ∧ goes (.send 4 1) (regs [(4, 0xF)]) (fun t => t.me.ecause == 2) = true ∧
    goes (.channelPacketArrival 0) arrived (fun t => ((t.core 1).fifo 2).length == 1 && (t.core 1).fifo 3 == []) = true ∧
    goes (.recv 5 2) (core fun k => k.setFifo 2 [(9, false), (8, false)]) (fun t => t.vval 5 == 9 && t.myCore.fifo 2 == [(8, false)]) = true ∧
    goes (.recvt 5 2 1) State.bench (fun t => t.me.p == 0xFFFF && t.me.pc == 0x20004) = true ∧
    goes (.recv 5 2) State.bench (fun t => t.me.out == .recv 2 5) = true := by decide +kernel
/-- Premises of SendCompletes, Receive and PacketArrival: a served, a refused and a held packet, a poisoned one, a receiver. -/
theorem witness_channels : okWith (sendTarget 0x10000000002) (twoCores id State.bench) (fun _ _ => true) = true ∧
    trapsWith (sendTarget 0x100000000002) (twoCores id State.bench) .prot = true ∧
    arrived.packets.map (fun p => (p.id, p.place == .port, arrived.arrival p == .serve 1)) = [(0, true, true)] ∧
    arrived.packets.map (fun p => (arrived.modCore 1 fun k => { k with fenced := true }).arrival p == .refuse .contained) = [true] ∧
    ((arrived.modSlotAt 1 3 fun t => { t with life := .running, out := .recv 2 5 }).core 1).receiver 2 = some (3, 5) ∧
    ((arrived.core 1).receiver 2 = none ∧ ((arrived.core 1).fifo 2).length < 4) ∧ arrived.fifoWaiters 1 2 = [] ∧
    (core fun k => k.setFifo 2 [(9, true)]).myCore.fifo 2 = [(9, true)] ∧
    4 ≤ ((core fun k => k.setFifo 2 [(1, false), (2, false), (3, false), (4, false)]).myCore.fifo 2).length := by decide +kernel

/-! ### The matrix array -/

/-- Tile t0, t1: 2 rows of 4 INT8; t2: 2 rows of 2 FP32; t3: 4 rows of 4 INT8. The tray holds the rows 1, 2, 3, 4 and 5, 6, 7, −1, 16
bytes apart, at x1. -/
def tiles : State :=
  core (fun k => { k with
      tc := (((k.tc.set (0 : Fin 8) 0x0A0402).set (1 : Fin 8) 0x0A0402).set (2 : Fin 8) 0x010202).set (3 : Fin 8) 0x0A0404
      tray := Memory.writeN (Memory.writeN [] 0x400 4 0x04030201) 0x410 4 0xFF070605 })
    (regs [(1, tray 0x400), (2, 16), (3, 5), (4, 2), (6, 64)])
/-- The slot has its operation behind it. -/
def ready (s : State) : State := slot (fun t => { t with out := .none }) s
/-- The tile is loaded into t0 and t1, and t0 is the weights. -/
def loaded : State := ready (after (.tld 1 1 2 false) (ready (after (.tld 0 1 2 false) tiles)))
def weighted : State := ready (after (.mwl 0 .i8) loaded)
/-- Row transfers and TZR (R206, R207, R210): 8 bytes arrive, and leave again. -/
theorem test_tile_rows : loaded.myCore.tiles = [(0, 1), (1, 2), (2, 3), (3, 4), (128, 5), (129, 6), (130, 7), (131, 0xFF),
      (4096, 1), (4097, 2), (4098, 3), (4099, 4), (4224, 5), (4225, 6), (4226, 7), (4227, 0xFF)] ∧
    goes (.tzr 0) loaded (fun t => Memory.readN t.myCore.tiles 0 4 == 0 && Memory.readN t.myCore.tiles 4096 4 == 0x04030201) = true ∧
    goes (.tst 1 1 0 false) (core (fun k => { k with tray := [] }) loaded) (fun t => t.myCore.tray == [(0x400, 5), (0x401, 6), (0x402, 7), (0x403, 0xFF)]) = true := by
  decide +kernel
/-- A column load transposes: stored row i is tile column i (R154, R208). -/
theorem test_tile_columns :
    let s := core (fun k => { k with tray := Memory.writeN (Memory.writeN [] 0x400 4 0x04030201) 0x440 4 0x08070605 }) tiles
    goes (.tld 3 1 6 true) s (fun t => (List.range 4).map (fun j => t.myCore.tileElem 3 j 0 8) == [1, 2, 3, 4] && (List.range 4).map (fun j =>
      t.myCore.tileElem 3 j 1 8) == [5, 6, 7, 8]) = true ∧
    goes (.tld 3 1 2 true) s (fun t => t.me.ecause == 12) = true := by decide +kernel
/-- A stream (R213): row i of the activations times row j of the weights, 1 + 4 + 9 + 16 = 30, 34 and 111, added to the accumulator. -/
theorem test_stream :
    let s := after (.mst 1 5 1 .i8) weighted
    [s.myCore.accElem .i32 5 0, s.myCore.accElem .i32 5 1, s.myCore.accElem .i32 6 0, s.myCore.accElem .i32 6 1] = [30, 34, 34, 111] ∧
    goes (.mst 1 5 1 .i8) (ready s) (fun t => t.myCore.accElem .i32 6 1 == 222) = true ∧
    goes (.mst 1 5 1 .fp16) weighted (fun t => t.me.ecause == 12) = true := by decide +kernel
/-- The accumulator operations on rows 5 and 6 (R216): zero, the larger of each element and 40, and the stored INT8 tile. -/
def summed : State := ready (after (.mst 1 5 1 .i8) weighted)
theorem test_accumulator : goes (.acz 3 4) summed (fun t => t.myCore.acc == []) = true ∧
    goes (.act 8 3 4 .i32 .max) (regs [(8, 40)] summed) (fun t => [t.myCore.accElem .i32 5 0, t.myCore.accElem .i32 6 1] == [40, 111]) = true ∧
    goes (.acst 1 3 .i8 true .i32) summed (fun t => (List.range 2).map (fun j => t.myCore.tileElem 1 1 j 8) == [34, 111]) = true ∧
    goes (.acld 2 3) (core (fun k => { k with tiles := Memory.writeN [] 8192 4 0x3F800000 }) tiles) (fun t => t.myCore.accElem .f32 5 0 == 0x3F800000) = true ∧
    goes (.acadd 2 3 .f32) (core (fun k => { k with tiles := Memory.writeN [] 8192 4 0x3F800000, acc := [(160, 0x40000000)] }) tiles)
      (fun t => t.myCore.accElem .f32 5 0 == 0x40400000) = true := by decide +kernel
/-- MSTAT reads the word the spec works out after the stopped stream of R215's example. -/
theorem test_matrix_status :
    let s := core fun k => { k with
      array := { k.array with wv := true, fmt := some .bf16, rows := 32, cols := 32 }
      resume := some { slot := 3, pc := 0x100, fields := .mst 0 64 2 .bf16, tiles := 1 } }
    goes (.mstat 5 false) s (fun t => t.xval 5 == 0x000000202009010E) = true ∧
    goes (.mstat 5 true) (core fun k => { k with ovf := true }) (fun t => t.xval 5 == 1 && !t.myCore.ovf) = true := by decide +kernel
/-- The latch of an operation on a tile. -/
def latch (s : State) (a b d : Word) : Latch := { tcs := s.mySight.tc, a := a, b := b, d := d }
/-- Premises of TileRows and TileColumns. -/
theorem witness_tiles : tcShape ((latch tiles 0 0 0).tc 0) = some .i8 ∧ Memory.wf tiles.myCore.tiles = true ∧ Memory.wf tiles.myCore.tray = true ∧
    tiles.laneFree (.tld 0 1 2 false) (latch tiles (tray 0x400) 16 0) ∧ tiles.laneFree (.tzr 0) (latch tiles 0 0 0) ∧
    loaded.laneFree (.tst 0 1 2 false) (latch loaded (tray 0x400) 16 0) ∧ loaded.myCore.tilePoisoned 0 2 4 = false ∧
    tiles.laneFree (.tld 3 1 6 true) (latch tiles (tray 0x400) 64 0) ∧ (fmtBits .i8 ≠ 6 ∧ trayOff (tray 0x400) / 4 % 16 + frameCols 4 8 ≤ 16 ∧
      trayOff (tray 0x400) / 64 % 16 = 0 ∧ 4 * 8 % 32 = 0) ∧ (0 : Int) ≤ 0x400 + 1 * 16 := by unfold State.laneFree; decide +kernel
/-- Premises of WeightsLatched: clean and poisoned tiles. -/
theorem witness_weights : loaded.laneFree (.mwl 0 .i8) (latch loaded 0 0 0) ∧ tcFmt ((latch loaded 0 0 0).tc 0) = Fmt.i8.code ∧ shapeOk 2 4 .i8 = true ∧
    (core (fun k => { k with tileBad := [0] }) loaded).myCore.tilePoisoned 0 2 4 = true := by unfold State.laneFree; decide +kernel
/-- Premises of StreamStarts: checks that pass, a tile still to do, clean and poisoned. -/
theorem witness_stream : weighted.laneFree (.mst 1 5 1 .i8) (latch weighted 0 0 0) ∧ mapWf 0 weighted.myCore.acc = true ∧
    okWith (checkStream 1 5 1 .i8 (latch weighted 0 0 0)) weighted (fun r _ => r == (.i8, .i32, true) || r == (.i8, .i32, false)) = true ∧
    resumeTiles weighted.myCore.resume 0 0x20000 (.mst 1 5 1 .i8) = 0 ∧ weighted.myCore.streamPoisoned (latch weighted 0 0 0) .i8 .i32 1 5 = false ∧
    (core (fun k => { k with tileBad := [1024] }) weighted).myCore.streamPoisoned (latch weighted 0 0 0) .i8 .i32 1 5 = true := by
  unfold State.laneFree; decide +kernel
/-- Premises of AccumulatorOperations and MatrixStatus. -/
theorem witness_accumulator : (summed.xval 3).toNat + (summed.xval 4).toNat ≤ 512 ∧ summed.laneFree (.acz 3 4) ⟨summed.mySight.tc, 5, 2, 0⟩ ∧
    summed.laneFree (.act 8 3 4 .i32 .scale) ⟨summed.mySight.tc, 5, 2, 0⟩ ∧ summed.myCore.accPoisoned .i32 5 2 (classCols .i32) = false ∧
    summed.laneFree (.acld 2 3) ⟨summed.mySight.tc, 5, 0, 0⟩ ∧ tcShape summed.mySight.tc[2] = some .fp32 ∧
    summed.laneFree (.acst 1 3 .i8 true .i32) ⟨summed.mySight.tc, 5, 0, 0⟩ ∧ 4 ≤ classCols .i32 ∧ acaddFmt .f32 .fp32 = true ∧
    summed.laneFree (.mstat 5 true) ⟨summed.mySight.tc, 0, 0, 0⟩ := by unfold State.laneFree; decide +kernel
/-- Premises of MatrixWaits: an array operation in flight in slot 1 holds the lane; a tile of FP6 is emulated. -/
def busyLane : State := summed.modSlotAt 0 1 fun t => { t with out := .lane (.mst 1 5 1 .i8) (latch summed 0 0 0) }
def six : State := core (fun k => { k with tc := k.tc.set (0 : Fin 8) 0x060402 }) tiles
theorem witness_matrix_waits : busyLane.entered.myCore.laneBlocked (.mst 1 5 1 .i8) (busyLane.stamp + 1) = true ∧
    six.entered.myCore.laneBlocked (.mwl 0 .fp6e3) six.stamp = false ∧ emulated (.mwl 0 .fp6e3) (latch six 0 0 0) six.entered.myCore = true := by
  decide +kernel
/-- Slot 0 streams and is at a boundary in cycle 100; slot 1 waits for the control core with a conversion. -/
def boundary (tile : Nat) : State := { slot (fun t => { t with out := .stream (.mst 1 5 1 .i8) (latch weighted 0 0 0) tile 7 100 }) weighted with cycle := 100 }
/-- Premises of MatrixCompletion and Emulation. -/
theorem witness_boundary : ((boundary 1).slotAt 0 0).out = .stream (.mst 1 5 1 .i8) (latch weighted 0 0 0) 1 7 100 ∧ (1 : BitVec 5).toNat ≤ 1 ∧
    ((boundary 0).core 0).array.fmt = some .i8 ∧ (matrixPair .i8 .i8).isSome = true ∧ ((boundary 0).core 0).preempt = none ∧
    ((slot fun t => { t with out := .matrix false [] 100 }).slotAt 0 0).out = .matrix false [] 100 ∧ isMatrix (.mwl 0 .fp6e3) = true := by decide +kernel
/-- A stream that is done completes at its boundary, one that is pre-empted there records its place, and a completed operation gives
the slot back in its cycle (R168, R169). -/
theorem test_boundary : goes (.matrixOpComplete 0 0) (boundary 1) (fun t => t.me.out == .none && t.me.pc == 0x20010) = true ∧
    goes (.matrixOpComplete 0 0) ((boundary 0).modCore 0 fun k => { k with preempt := some (none, 90) })
      (fun t => t.me.out == .none && t.me.pc == 0x2000C && (t.myCore.resume.map (·.tiles)) == some 0) = true ∧
    goes (.matrixOpComplete 0 0) { after (.acz 3 4) tiles with cycle := 9 } (fun t => t.me.out != .none) = true ∧
    goes (.matrixOpComplete 0 0) { after (.acz 3 4) tiles with cycle := 10 } (fun t => t.me.out == .none) = true := by decide +kernel
/-- A conversion that waits for the control core is performed there (R64): FP32 1.0 is 0b001100 in FP6 E3M2, lane 0 first. -/
theorem test_emulation : goes (.fp6Emulation 0 0) (after (.vcvt 6 5 .fp32 .rne true .fp6e3) (vecs [(5, [0x3F800000])]))
    (fun t => laneOf (t.vval 6) 0 == 0xC && t.me.out == .none && t.me.pc == 0x20004) = true := by decide +kernel

/-! ### Recipes, groups, streams and translation -/

/-- A block at 0x43000 for a tile of one line at 0x44000, with an entry on an execute-only page at 0x40000000 and a source line at
0x45000; the region regenerates. x1 is the tile, x2 the block. -/
def recipes : State :=
  part (fun q => { q with recipeCap := 2, raf := q.raf.set (0 : Fin 16) (benchRegion ||| 0x100) })
    (regs [(1, 0x44000), (2, 0x43000)] { State.bench with
      mem := [(0x43000, 0x40000000), (0x43008, 0x44000), (0x43010, 2 ^ 48 + 64 * 2 ^ 32 + 64 * 2 ^ 8), (0x43018, 0x45000 / 64), (0x12008, 0x40000009)].foldl
        (fun m (e : Nat × Nat) => Memory.writeN m e.1 8 e.2) State.bench.mem })
def recorded : State := ready (after (.rrec 1 2) (firstPart (.rrec 1 2) recipes))
def latentTile : State := ready (after (.rlat 1) recorded)
/-- RREC enters its record once; a second for the same line is PROT, and a full table RTFULL (R246, R292). -/
theorem test_record : recorded.myPart.recipes.map (fun r => (r.block, r.lines, r.pins, r.devs)) = [(0x43000, [(0x1100, 0x1100)], [0x10C0, 0x1140], [])] ∧
    goes (.rrec 1 2) (firstPart (.rrec 1 2) recorded) (fun t => t.me.ecause == 7 && t.me.eaddr == 0x44000) = true ∧
    goes (.rrec 1 2) (part (fun q => { q with recipeCap := 0 }) (firstPart (.rrec 1 2) recipes)) (fun t => t.me.ecause == 25 && t.me.eaddr == 0x44000) = true ∧
    goes (.rrec 2 2) (firstPart (.rrec 2 2) recipes) (fun t => t.me.ecause == 4 && t.me.eaddr == 0x43000) = true := by decide +kernel
/-- RLAT, RQRY, RDEV, RDROP and RFIX on a tile's line (R247-R250, R293, R295). -/
theorem test_recipe_instructions : latentTile.latent = [0x1100] ∧ goes (.rqry 3 1) recorded (fun t => t.xval 3 == 1) = true ∧
    goes (.rqry 3 1) latentTile (fun t => t.xval 3 == 2) = true ∧ goes (.rqry 3 2) recorded (fun t => t.xval 3 == 0x100) = true ∧
    goes (.rdev 1) latentTile (fun t => (match t.me.out with | .develop _ none => true | _ => false) && t.myCore.deque.length == 1) = true ∧
    goes (.ld 3 1 .w false 0) latentTile (fun t => match t.me.out with | .develop _ none => true | _ => false) = true ∧
    goes (.rdrop 1) latentTile (fun t => t.latent == [] && t.myPart.recipes == []) = true ∧
    goes (.rfix 1) recorded (fun t => t.myPart.recipes == []) = true := by decide +kernel
/-- A development runs from its record to its EXIT: the tile is resident and the waiter executes again (R251). -/
theorem test_development :
    let s := after (.taskTake 0) (idle 1 (after (.rdev 1) latentTile))
    goes .exit (s.focus 0 1) (fun t => t.latent == [] && (t.slotAt 0 0).out == .none && (t.slotAt 0 1).life == .idle &&
      (t.part 0).recipes.map (·.devs) == [[]]) = true ∧ (s.slotAt 0 1).pc = 0x40000000 ∧ (s.slotAt 0 1).x[2] = 1 := by decide +kernel
/-- Premises of RecipeRecorded, RecipeInstructions and DevelopmentRequested: blocks that pass and fail, no record, a resident, a latent and
a developing tile, a development at the last level. -/
theorem witness_recipes : okWith (recipeBlock recipes.agent 0x44000 0x43000) (firstPart (.rrec 1 2) recipes) (fun bl u => okWith (recipeParts recipes.agent 0x44000 0x43000 bl.1 bl.2) u
      fun r v => (v.myPart.recordOf 0x1100).isNone && v.myPart.pinsFit r.pins && r.lines.length == 1) = true ∧
    trapsWith (recipeBlock recipes.agent 0x44000 0x43010) recipes .align = true ∧
    okWith (recipeBlock recipes.agent 0x44040 0x43000) (firstPart (.rrec 1 2) recipes) (fun bl u =>
      trapsWith (recipeParts recipes.agent 0x44040 0x43000 bl.1 bl.2) u .noncanon) = true ∧
    okWith (recordAt 1 recipes) recipes (fun r _ => r.isNone) = true ∧ okWith (recordAt 1 recorded) recorded (fun r u => match r with
      | some (0, r) => r.devs == [] && !u.tileLatent r | _ => false) = true ∧
    okWith (recordAt 1 latentTile) latentTile (fun r u => match r with | some (0, r) => r.devs == [] && u.tileLatent r | _ => false) = true ∧
    okWith (recordAt 1 (ready (after (.rdev 1) latentTile))) (ready (after (.rdev 1) latentTile)) (fun r _ => match r with
      | some (0, r) => r.devs != [] | _ => false) = true ∧ trapsWith (recordAt 1 (regs [(1, tray 0)])) (regs [(1, tray 0)]) .noncanon = true ∧
    (4 ≤ ({ devTask with depth := 4 } : DevTask).depth ∧ latentTile.myCore.dequeRoom = true) := by decide +kernel
/-- A group of two lanes, of which this lane is one in gm slot 0, with sense 0. -/
def grouped (count : Nat := 0) (broken : Bool := false) : State :=
  slot (fun t => { t with gm := 0x100000009 }) (part fun q => { q with groups := [(9, { n := 2, count := count, phase := false, broken := broken, launch := 1 })] })
/-- Arrival, waiting, the last arrival of an episode, a group the lane is not in, and a broken one (R242, R243, R300, R301). -/
theorem test_groups : goes (.garr 9) (grouped 0) (fun t => (t.myPart.group 9).count == 1 && t.me.gm == 0x10100000009) = true ∧
    goes (.gwt 9) (after (.garr 9) (grouped 0)) (fun t => t.me.out == .barrier 9) = true ∧
    goes (.gbar 9) (grouped 1) (fun t => (t.myPart.group 9).count == 0 && (t.myPart.group 9).phase && t.me.pc == 0x20004) = true ∧
    goes (.gbar 9) (grouped 0) (fun t => t.me.out == .barrier 9 && (t.myPart.group 9).count == 1) = true ∧
    goes (.garr 8) (grouped 0) (fun t => t.me.ecause == 13 && t.me.eaddr == 8) = true ∧ goes (.gwt 9) (grouped 0 true) (fun t => t.me.ecause == 19) = true ∧
    goes (.gqry 3 9) (grouped 1) (fun t => t.xval 3 == 0x10002) = true := by decide +kernel
/-- Premises of GroupBarriers and GroupArrival. -/
theorem witness_groups : groupSlot (grouped 0).me.gm 9 = some 0 ∧ groupSlot (grouped 0).me.gm 8 = none ∧ ((grouped 0).myPart.group 9).phase = senseOf (grouped 0).me.gm 0 ∧
    okWith release (grouped 0) (fun _ _ => true) = true ∧ ((grouped 0 true).myPart.group 9).broken = true ∧
    ¬ ((after (.garr 9) (grouped 0)).myPart.group 9).phase = senseOf (after (.garr 9) (grouped 0)).me.gm 0 ∧
    ((grouped 1).part 0).group 9 = { n := 2, count := 1, phase := false, broken := false, launch := 1 } ∧
    (slot (fun t => { t with arrived := true }) (grouped 0)).me.arrived = true := by decide +kernel
/-- The table of R299: P(K ≥ k) for a slice and a vault of two contenders each, for class B; certainty for another class (R298). -/
def classB (s : State := State.bench) : State := core (fun k => { k with bound := some { part := 0, owner := 0, launch := 1, cls := 0 } }) s
theorem test_exceedance : ∀ p ∈ [(0#64, 0xFFFFFFFF#64, 16), (1, 0xC0000000, 18), (2, 0x80000000, 20), (4, 0x30000000, 24)],
    goes (.xqry 3 1 2) (regs [(1, 0x60024002), (2, p.1)] classB) (fun t => t.xval 3 == p.2.1 && t.me.out == .cycles p.2.2) = true ∧
    goes (.xqry 3 1 2) (regs [(1, 0x60024002), (2, p.1)]) (fun t => t.xval 3 == 0xFFFFFFFF && t.me.out == .cycles 16) = true := by decide +kernel
/-- Seeds and counts (R296, R297, R299). -/
theorem test_seeds :
    let s := regs [(1, 0x1111222233334444), (2, 0x5555666677778888)]
    goes (.seedrd 3 4) (regs [(4, 1)] (after (.reseed 1 2) s)) (fun t => t.xval 3 == 0x5555666677778888) = true ∧
    goes (.seedrd 3 0) (after (.reseed 1 2) s) (fun t => t.xval 3 == 0x1111222233334444) = true ∧
    goes (.xobs 3 4) (regs [(4, 0x24)] (part fun q => { q with owners := [(0, { seed := 0, ctr := [], xobs := [(xobsKey 4 2, 6)] })] })) (fun t => t.xval 3 == 6) = true ∧
    goes (.xobs 3 4) det (fun t => t.me.ecause == 14) = true := by decide +kernel
/-- Premises of OwnerStreams: a structure without a law, the form with a live count, an owner whose tile is being developed. -/
theorem witness_streams : (lawPairs 0x7002 0).2 = true ∧ liveForm 0x4000 = true ∧ liveForm 0x60024002 = false ∧ classB.classOf 0 = 0 ∧
    ((after (.rdev 1) latentTile).myPart.ownerDeveloping 0).isSome = true ∧ (State.bench.myPart.ownerDeveloping 0).isNone = true := by decide +kernel
/-- TLBI drops the page's translation; RAFW installs a region, refuses a reserved bit, and refuses to move one with a recorded tile (R302,
R303). Both are PRIV in U mode. -/
theorem test_translation :
    let filled := smode (after (.ld 3 1 .d false 0) mem)
    (filled.clusterAt 0).tlb.length = 1 ∧ goes (.tlbi 1 0) filled (fun t => (t.clusterAt 0).tlb == []) = true ∧
    goes (.rafw 1 2) (smode (regs [(1, 5), (2, benchRegion)])) (fun t => t.myPart.raf[5] == benchRegion) = true ∧
    goes (.rafw 1 2) (smode (regs [(1, 5), (2, 0x1000)])) (fun t => t.me.ecause == 4 && t.me.eaddr == 5) = true ∧
    goes (.rafw 0 4) (smode (regs [(4, 0)] recorded)) (fun t => t.me.ecause == 7) = true ∧
    goes (.tlbi 1 0) mem (fun t => t.me.ecause == 2) = true := by decide +kernel
/-- Premises of TranslationControl. -/
theorem witness_translation : regionRefused 0x1000 = true ∧ regionRefused benchRegion = false ∧ regionMoves recorded.myPart.raf[0] 0 = true ∧
    recorded.myPart.keeps (regionRange 0) = true ∧ (⟨0, 2 ^ 60⟩ : VaRange).has 0x40000 = true ∧ 0 ∈ (State.bench.part 0).clusters := by decide +kernel

/-! ### Steps, arrivals and the mesh -/

/-- A word of code where the next step fetches, on the bench. -/
def code (w : Nat) : State := State.reset.withFetchWord 32 w
/-- A step goes on to a state with a property. -/
def steps (s : State) (p : State → Bool) : Bool :=
  match step s with
  | .next t => p t
  | .fault _ => false
  | .refused _ => false
/-- LIU x9, 0x12345 (R108); the half-word 0 (R43); a PC in a region that is not valid (R26). -/
theorem test_step : steps (code 0x12345493) (fun t => t.xval 9 == 0x12345 && t.me.pc == 0x20004 && t.me.lastIssue == some 0) = true ∧
    steps (code 0) (fun t => t.me.ecause == 1 && t.me.epc == 0x20000) = true ∧
    steps (slot fun t => { t with pc := 0x0100000000000000 }) (fun t => t.me.ecause == 7) = true := by decide +kernel
/-- Premises of StepRunsDecoded: a slot whose turn it is, with a 32-bit form, a 16-bit form, an illegal encoding and a failed fetch. -/
theorem witness_step :
    let at' := fun (s : State) => s.dueActs.isEmpty && s.acts.isEmpty && s.nextIssue == some (0, 0, 0, 0)
    let f := fun (s : State) => s.noteIssue 0 0 0 0
    at' (code 0x12345493) = true ∧ at' (code 0) = true ∧ at' (slot fun t => { t with pc := 0x0100000000000000 }) = true ∧
    okWith (fetchHalf (f (code 0x12345493)).agent 0x20000) (f (code 0x12345493)) (fun h u => h.getLsbD 0 && okWith (fetchHalf u.agent 0x20002) u
      fun h1 _ => match decode (halfBytes h ++ halfBytes h1) with | .ok (i, 4) => i == .liu 9 0x12345 | _ => false) = true ∧
    okWith (fetchHalf (f (code 0)).agent 0x20000) (f (code 0)) (fun h _ => !h.getLsbD 0 && match decode (halfBytes h) with
      | .error _ => true | .ok _ => false) = true ∧
    trapsWith (fetchHalf State.bench.agent 0x0100000000000000) State.bench .prot = true := by decide +kernel
/-- Reset and the bench are in the forms that every step keeps, and the bench goes on. -/
theorem witness_forms : State.reset.memoryForm ∧ State.bench.memoryForm ∧ (∀ e ∈ State.bench.cores, e.2.storeForm) ∧
    (State.bench.parts.all fun q => q.2.contexts.isEmpty) = true ∧ State.reset.cores = [] ∧ State.reset.parts = [] ∧
    steps State.bench (fun _ => true) = true := by
  unfold State.memoryForm Core.storeForm; decide +kernel

/-- A packet of core 1's slot 0 that has reached core 0, whose position is 0. -/
def packet (l : Load) : Packet :=
  { id := 9, part := 0, owner := 0, cls := 1, core := 1, slot := 0, dx := 0, dy := 0, unit := 0, esc := false, poisoned := false, load := l
    ptr := peer 0 0x400, place := .port, since := 0, sync := true, answer := none, nacks := 0, via := none, origin := none, vacated := none, retried := false, causedBy := none, body := .none, lost := [] }
def holding (ps : List Packet) (s : State := State.bench) : State := { twoCores id s with packets := ps }
def readOp : Load := .tray (.read [(0x400, 4)] (.x 3))
def writeOp : Load := .tray (.write [(0x400, 0xAA)])
def takeFe (op : FeOp) : Load := .tray (.fe op 0x400 0x55 3)
/-- The answer of packet 9. -/
def answered (s : State) (a : Answer) : Bool := (s.packet? 9).any fun p => p.answer == some a
def fullWord (s : State := State.bench) : State := core (fun k => { k with tray := [(0x400, 7)], fe := [0x100] }) s
/-- A peer's read, write and full/empty operation at the core they name; a fenced core, a poisoned word, a word in the wrong state. -/
theorem test_requests : goes (.remotePortAccess 9) (holding [packet readOp] fullWord) (fun t => answered t (.data [7, 0, 0, 0])) = true ∧
    goes (.remotePortAccess 9) (holding [packet writeOp]) (fun t => answered t .ok && (t.core 0).tray == [(0x400, 0xAA)]) = true ∧
    goes (.remotePortAccess 9) (holding [packet readOp] (core fun k => { k with fenced := true })) (fun t => answered t (.trap .contained)) = true ∧
    goes (.remotePortAccess 9) (holding [packet readOp] (core fun k => { k with trayBad := [0x100] })) (fun t => answered t (.trap .mce)) = true ∧
    goes (.remotePortAccess 9) (holding [packet readOp] (core fun k => { k with position := some 5 })) (fun t => answered t (.trap .prot)) = true ∧
    goes (.remoteFeRequest 9) (holding [packet (takeFe .ldfe)] fullWord) (fun t => answered t (.data [7, 0, 0, 0]) && (t.core 0).fe == []) = true ∧
    goes (.remoteFeRequest 9) (holding [packet (takeFe .stfe)]) (fun t => answered t .ok && (t.core 0).fe == [0x100] && (t.core 0).tray == [(0x400, 0x55)]) = true ∧
    goes (.remoteFeRequest 9) (holding [packet (takeFe .ldfe)]) (fun t => (t.core 0).park == [9] && !answered t .nack) = true ∧
    goes (.remoteFeRequest 9) (holding [packet (takeFe .ldfe)] (core fun k => { k with park := List.range' 20 16 })) (fun t => answered t .nack) = true := by
  decide +kernel
/-- Core 0's context, position 0, has moved to core 1, or rests in the vault. -/
def moved : State := (holding [packet readOp]).setCore 0 Core.reset |>.setCore 1 { State.bench.myCore with position := some 0 } |>.modPart 0 fun q =>
  { q with forward := [(0, 0)], posMap := [(0, 1)] }
def atRest : State := (holding [packet readOp]).setCore 0 Core.reset |>.modPart 0 fun q =>
  { q with forward := [(0, 0)], contexts := [(0, State.bench.myCore)] }
/-- The retry NACK is back at the port of the request (R354). -/
def nacked (cycle : Nat) : State := { atRest with packets := [{ packet readOp with place := .nacked, answer := some .retry }], cycle := cycle }
/-- A request is passed on to the new core; one for a context at rest is answered with a retry NACK, which crosses the response network,
and is repeated 32 cycles after it is back (R309, R353, R354). -/
theorem test_moved : goes (.forwardedRequest 9) moved (fun t => (t.packet? 9).any fun p => p.dx == coreX 1 && p.place == .enter 0 (routerOf 0) .core) = true ∧
    goes (.contextRetryNack 9) atRest (fun t => (t.packet? 9).any fun p => p.place == .enter 1 (routerOf 0) .core && p.answer == some .retry) = true ∧
    goes (.contextRetryNack 9) (nacked 31) (fun t => (t.packet? 9).any fun p => p.place == .nacked) = true ∧
    goes (.contextRetryNack 9) (nacked 32) (fun t => (t.packet? 9).any fun p => p.place == .enter 0 (routerOf 1) .core) = true := by
  decide +kernel
/-- Premises of ArrivalChecks and RemoteRequests. -/
theorem witness_arrivals : (holding [packet readOp]).arrival (packet readOp) = .serve 0 ∧ moved.arrival (packet readOp) = .forward 0 ∧
    (holding [packet readOp] (core fun k => { k with fenced := true })).arrival (packet readOp) = .refuse .contained ∧
    (holding [packet readOp] (core fun k => { k with position := some 5 })).arrival (packet readOp) = .refuse .prot ∧
    (holding [packet readOp]).packet? 9 = some (packet readOp) ∧ (fullWord.core 0).isFull 0x100 = FeOp.ldfe.wants ∧
    (fullWord.core 0).fePoisoned .ldfe 0x100 = false ∧ ((core (fun k => { k with trayBad := [0x100] }) fullWord).core 0).fePoisoned .ldfe 0x100 = true ∧
    ((State.bench.core 0).isFull 0x100 = true) ≠ (FeOp.ldfe.wants = true) ∧ (State.bench.core 0).park.length < Config.parkEntries ∧
    Config.parkEntries ≤ (List.range' 20 16).length ∧ moved.coreOfPos 0 0 = some 1 ∧ mapGet? (moved.part 0).contexts 0 = none ∧
    mapGet? (atRest.part 0).contexts 0 ≠ none ∧ atRest.arrival (packet readOp) = .forward 0 := by decide +kernel
/-- A slot of core 1 that waits for packet 9. -/
def awaiting (w : Wait) (p : Packet) : State := (holding [p]).modSlotAt 1 0 fun t => { t with life := .running, pc := 0x20000, out := w }
def back (a : Option Answer) (l : Load := readOp) : Packet := { packet l with place := .done, answer := a }
/-- Replies (R156, R181, R182): data to the register, a trap, a recorded refusal of a store, and a NACKed operation. -/
theorem test_replies : goes (.memoryReply 1 0 none) (awaiting (.remote [9]) (back (some (.data [7, 1, 0, 0])))) (fun t => (t.slotAt 1 0).x[3] == 0x107 &&
      (t.slotAt 1 0).pc == 0x20004 && (t.slotAt 1 0).out == .none && t.packets == []) = true ∧
    goes (.memoryReply 1 0 none) (awaiting (.remote [9]) (back (some (.trap .prot)))) (fun t => (t.slotAt 1 0).ecause == 7 && (t.slotAt 1 0).eaddr == peer 0 0x400) = true ∧
    goes (.memoryReply 1 0 none) (awaiting (.remote [9]) (packet readOp)) (fun t => (t.slotAt 1 0).out == .remote [9]) = true ∧
    goes (.remoteStoreAck 9 none) (awaiting .none { back (some (.trap .prot)) writeOp with sync := false }) (fun t =>
      (t.slotAt 1 0).nack == some { cause := .prot, addr := peer 0 0x400 } && t.packets == []) = true ∧
    goes (.feNackRetry 1 0) (awaiting (.feNacked 9 0) (back none (takeFe .ldfe))) (fun t => (t.slotAt 1 0).out == .remote [9]) = true ∧
    goes (.feNackRetry 1 0) (awaiting (.feNacked 9 0) { back none (takeFe .ldfe) with nacks := 1024 }) (fun t => (t.slotAt 1 0).ecause == 9) = true := by
  decide +kernel
/-- Premises of RepliesTaken. -/
theorem witness_replies : (back (some (.data [7, 1, 0, 0]))).sinkOf = .x 3 ∧ ({ back (some .ok) writeOp with sync := false } : Packet).isStore = true ∧
    ((awaiting (.feNacked 9 0) (back none)).slotAt 1 0).out = .feNacked 9 0 ∧ ((awaiting (.reply []) (packet readOp)).slotAt 1 0).out = .reply [] ∧
    Config.feNackLimit ≤ 1024 := by decide +kernel

/-- Two packets at the home slice 0, of one owner, of two owners, of two classes. -/
def meet (a b : Packet → Packet) : List Packet :=
  let p := { packet (.home 0x1000 false) with place := .slice 0 }
  [a p, { b p with id := 10 }]
def duel : State := { holding (meet id fun p => { p with owner := 3 }) with
  parts := (State.bench.modPart 0 fun q => { q with owners := [(0, { Owner.reset with seed := 0x00000004000000030000000200000001 }), (3, Owner.reset)] }).parts }
/-- The law (R318-R322): the oldest of one owner without a draw, the higher class alone, and the example of R318 and R319: 0x1264_8381
beats 0x0204_0081, the second owner's request loses one round and both counters are 1. -/
theorem test_law :
    let one := meet id id
    let s := holding one
    ((s.arbitrate 4 0 0 one).1.map (·.id) = some 9 ∧ (s.arbitrate 4 0 0 one).2.parts = s.parts) ∧
    ((s.arbitrate 4 0 0 (meet id fun p => { p with cls := 0, owner := 3 })).1.map (·.id) = some 10) ∧
    ((duel.draw 0 0 4 0 0).1 = 0x12648381 ∧ (duel.draw 0 3 4 0 0).1 = 0x02040081) ∧
    (let r := duel.arbitrate 4 0 0 duel.packets
     r.1.map (·.id) = some 9 ∧ r.2.packets.map (fun p => mapGet p.lost 4 0) = [0, 1] ∧
     [0, 3].map (fun o => mapGet ((r.2.part 0).owner o).ctr (ctrKey 4 0) 0) = [1, 1]) := by
  decide +kernel
/-- Premises of ArbitrationLaw: both orders of the tickets of two owners. -/
theorem witness_law : topClass (meet id fun p => { p with owner := 3 }) = meet id (fun p => { p with owner := 3 }) ∧
    (∀ s : State, s.arbitrate 4 0 0 [] = (none, s)) ∧ (packet readOp).origin = none ∧
    (packet readOp).identity ≠ ({ packet readOp with owner := 3 } : Packet).identity ∧
    ((duel.draw 0 0 4 0 0).2.draw 0 3 4 0 0).1.toNat < (duel.draw 0 0 4 0 0).1.toNat ∧
    (duel.draw 0 3 4 0 0).1.toNat < ((duel.draw 0 3 4 0 0).2.draw 0 0 4 0 0).1.toNat := by
  refine ⟨by decide +kernel, fun s => ?_, by decide +kernel⟩
  rfl
/-- A packet at a router moves east, a slice lets a request go home, a bank is busy for 4 cycles, and a refresh is at most 113 cycles. -/
theorem test_mesh :
    let p := { packet readOp with place := .router (routerOf 0) .core, dx := coreX 1 }
    let b := { packet (.home 0x1000 true) with place := .bank 0 3, unit := 1 }
    goes (.routerPacketForward (routerOf 0) 0 .east) (holding [p]) (fun t => t.packets.map (·.place) == [.router (routerOf 1) .west]) = true ∧
    goes (.routerPacketForward (routerOf 0) 0 .north) (holding [p]) (fun t => t.packets == [p]) = true ∧
    goes (.l2SliceRequest 0) (holding (meet id id)) (fun t => t.packets.map (·.place) == [.enter 1 (routerOf (sliceCore 0 0)) .slice, .slice 0]) = true ∧
    goes (.vaultBankAccess 0 3) (holding [b]) (fun t => (t.bank 0 3).ready == 4 && t.packets.map (·.place) == [.enter 1 (routerOf (sliceCore 0 0)) .slice]) = true ∧
    goes (.vaultBankAccess 0 3) (after (.vaultRefresh 0 3 113) (holding [b])) (fun t => t.packets == [b]) = true ∧
    goes (.vaultRefresh 0 3 114) State.bench (fun t => t.banks == []) = true ∧ (State.bench.bank 0 3).free 0 = true := by decide +kernel
/-- Scrub visits of a plain line, a recorded one, and one that the L2 holds (R326, R327). -/
theorem test_scrub :
    let held := { State.bench with l2 := [(0x1000, { slice := 0, set := 0, way := 0, owner := 0, dirty := true, strong := false, reg := [] })] }
    goes (.scrubVisit true 0x1000 .uncorrectable) State.bench (fun t => t.memBad.length == 16 && t.latent == []) = true ∧
    goes (.scrubVisit true 0x1100 .uncorrectable) { recorded with l2 := [] } (fun t => t.memBad == [] && t.latent == [0x1100]) = true ∧
    goes (.scrubVisit false 0x1000 .corrected) held (fun t => (t.part 0).corrected == [(0, 1)] && t.memBad == []) = true ∧
    mapGet? State.bench.l2 0x1000 = none ∧ mapGet? held.l2 0x1000 ≠ none ∧ ((State.bench.part 0).recordOf 0x1000).isNone = true := by decide +kernel

/-! ### Launches -/

/-- A launch record (R378): its shape word and its options; entry 0x30000, argument 77, tag 0x99. -/
def launchRec (shape opts : Word) : List Host.Cell :=
  [(0, 0x30000), (1, 77), (3, shape.toNat), (4, opts.toNat), (9, 0x99)].foldl (fun m w => Memory.writeN m (8 * w.1) 8 w.2) []
/-- One row, one column, one slot, one lane. -/
def oneLane : Word := 0x10101
def queue7 : HwQueue :=
  { vf := 1, index := 0, owner := 0, die := 0, subBase := 0, cplBase := 0x10000, subSize := 16, cplSize := 16, vector := 0, events := false
    subTail := 1, subHead := 0, cplHead := 0, cplTail := 0, phase := true, pending := [], msix := 0, lost := 0, bells := [(1, 0)] }
/-- No core is bound, and the record waits in queue 7's ring. -/
def submitted (shape : Word := oneLane) (opts : Word := 0) : State :=
  { State.bench with cores := [], queues := [(7, queue7)], hostMem := launchRec shape opts }
def fetched (s : State := submitted) : State := after (.launchRecordFetch 7) s
def placed (s : State := fetched) : State := after (.placementAttempt 0 1 0 0 1) s
def started (s : State := placed) : State := after (.laneStart 0 0) s
/-- Its one lane has ended its task. -/
def done (s : State := started) : State := after .exit (s.focus 0 0)
def completed (s : State := done) : State := after (.launchComplete 0 1) s
/-- The launch n of the partition is at a stage. -/
def stageIs (s : State) (x : LaunchStage) : Bool := (mapGet? (s.part 0).launches 1).any fun l => l.stage == x
/-- The entries that queue 7 has to write: status and detail. -/
def entries (s : State) : List (BitVec 16 × Word) := ((s.queue? 7).map fun h => h.pending.map fun e => (e.status, e.detail)).getD []
/-- From the record to the completion entry (R80, R334-R336, R380, R422). -/
theorem test_launch : stageIs fetched .waiting = true ∧ (fetched.part 0).nextLaunch = 2 ∧ stageIs placed .running = true ∧ ((placed.core 0).binds[0]).v = true ∧
    (let t := started.slotAt 0 0
     t.life = .running ∧ t.pc = 0x30000 ∧ t.x[1] = 77 ∧ t.x[2] = 0 ∧ t.x[3] = 1 ∧ t.lcount = 1 ∧ t.launch = 1) ∧
    ((started.core 0).bound = some { part := 0, owner := 0, launch := 1, cls := 0 } ∧ (started.core 0).position = some 0) ∧
    (done.slotAt 0 0).life = .idle ∧ goes (.launchComplete 0 1) started (fun t => stageIs t .running) = true ∧ stageIs completed .complete = true ∧
    entries completed = [(0, 0)] ∧ (completed.core 0).bound = none ∧ (completed.core 0).last = some (0, 0) ∧
    goes (.completionEntryWrite 7) completed (fun t => Memory.readN t.hostMem 0x10000 8 == 0x99 && Memory.readN t.hostMem 0x10008 8 == 0x8001000000000001 &&
      (t.queue? 7).any fun h => h.cplTail == 1 && h.msix == 1 && h.pending == []) = true := by decide +kernel
/-- The plot descriptor (R339) of the core of row 0 and column 1 of a plot of 2 rows and 3 columns, its core (r, c) at position 10 r + c. -/
theorem test_plot_descriptor : plotDescriptor (fun r c => 10 * r + c) 0 1 2 3 4 = [1, 11, 2, 11, 0, 0, 1, 2, 3, 4] := by decide +kernel
/-- Records that are refused (R422): a reserved bit, DET with QFED, DET with KSPLIT of an FP class, a shape no place fits. -/
theorem test_refused_records : ([((oneLane, 3), (0x16, 0)), ((oneLane, 0x300), (0x14, 0)), ((oneLane, 0x500), (0x15, 0)), ((0x10111, 0), (0x10, 0))].all
    fun p => entries (fetched (submitted p.1.1 p.1.2)) == [p.2] && stageIs (fetched (submitted p.1.1 p.1.2)) .complete) = true := by decide +kernel
/-- Premises of LaunchFetchedAndPlaced and FirstChecks. -/
theorem witness_records : submitted.queue? 7 = some queue7 ∧ queue7.subHead ≠ queue7.subTail ∧ queue7.vf ≠ 0 ∧
    (let w := fun (s : State) => (List.range 32).map fun i => BitVec.ofNat 64 (Memory.readN s.hostMem (8 * i) 8)
     submitted.firstStage (submitted.part 0) 0 (w submitted) = none ∧ badRecord (w (submitted oneLane 3)) = true ∧
     badRecord (w (submitted oneLane 0x300)) = false ∧ badRecord (w (submitted oneLane 0x500)) = false ∧
     ((w (submitted oneLane 3)).getD 4 0).extractLsb' 0 2 = 3) := by decide +kernel
/-- Premises of LaneStarts and PlotBound: a valid record on a bound core, an invalid one, one on a core that lost its binding; a core
whose last binding was another's. -/
theorem witness_lane_start : ((placed.core 0).binds[0]).v = true ∧ ((placed.core 0).binds[1]).v = false ∧ (placed.slotAt 0 0).life = .unbound ∧
    (placed.core 0).bound = some { part := 0, owner := 0, launch := 1, cls := 0 } ∧ ((placed.modCore 0 fun k => { k with bound := none }).core 0).bound = none ∧
    (started.slotAt 0 0).life ≠ .unbound ∧ 0 ∈ rectangle 0 0 0 1 1 ∧ (fetched.core 0).last ≠ some (0, 0) := by decide +kernel
/-- A plot of one row and two columns with a single lane: both its cores are bound, and each knows the other (R49, R338, R339). -/
theorem test_plot_bound : (let t := after (.placementAttempt 0 1 0 0 1) (fetched (submitted 0x10201))
    (t.core (coreAt 0 0 1)).bound = some { part := 0, owner := 0, launch := 1, cls := 0 } ∧ (t.core (coreAt 0 0 1)).position = some 1 ∧
    (t.part 0).posMap = [(0, 0), (1, coreAt 0 0 1)] ∧ ((t.core (coreAt 0 0 1)).binds.toList.all fun b => !b.v) = true ∧
    t.descriptorBytes { words := [0, 0, 0, 0x10201], queue := 7, owner := 0, die := 0, stage := .running, row := 0, col := 0, lanes := 1, digest := 0, start := 0, wdog := 0, wdogFrom := 0, hold := false } 0 1 = [1, 0, 1, 0, 0, 0, 1, 0, 0, 0, 0, 0, 1, 0, 1, 0, 2, 0, 1, 0] ++ List.replicate 44 0) := by decide +kernel
/-- The watchdog of the record is 1 µs: 940 cycles. -/
def watched (now : Nat) : State := { started (placed (fetched { submitted with hostMem := Memory.writeN (launchRec oneLane 0) 0x28 8 (2 ^ 32) })) with cycle := now }
/-- A slot of the launch waits for its containment for MCE. -/
def dying : State := started.modSlotAt 0 0 fun t => { t with out := .contained .mce 0x40 }
/-- The watchdog, a kill, a trap's containment, and the fence it leaves (R329, R382, R384). -/
theorem test_containment : goes (.watchdogExpiry 0 1) (watched 939) (fun t => stageIs t .running) = true ∧
    goes (.watchdogExpiry 0 1) (watched 940) (fun t => entries t == [(1, 0)] && (t.core 0).fenced && (t.core 0).bound == none && stageIs t .complete) = true ∧
    goes (.containment 0 1 .killed 0) started (fun t => entries t == [(4, 0)]) = true ∧
    goes (.containment 0 1 .mce 0x40) dying (fun t => entries t == [(2, 0x40)]) = true ∧
    goes (.containment 0 1 .mce 0x40) started (fun t => entries t == []) = true ∧ goes (.placementAttempt 0 1 0 0 1) started (fun t => stageIs t .running && entries t == []) = true := by
  decide +kernel
/-- Eight launches of class B of other owners are placed (R322). -/
def crowded : State :=
  fetched.modPart 0 fun q => { q with launches := q.launches ++ (List.range 8).map fun i => (2 + i, { words := [], queue := 0, owner := 1 + i, die := 0, stage := .running, row := 0, col := 0, lanes := 0, digest := 0, start := 0, wdog := 0, wdogFrom := 0, hold := false }) }
/-- Premises of LaunchSteps and ContainmentEffect: done and not done, expired and not, asked and not, a free place, second checks that pass
and fail (a group image that cannot be read). -/
theorem witness_launch_steps :
    let l := fun (s : State) => (mapGet? (s.part 0).launches 1).getD { words := [], queue := 0, owner := 0, die := 0, stage := .complete, row := 0, col := 0, lanes := 0, digest := 0, start := 0, wdog := 0, wdogFrom := 0, hold := false }
    (mapGet? (done.part 0).launches 1).isSome = true ∧ done.launchDone 0 1 (l done) = true ∧ started.launchDone 0 1 (l started) = false ∧
    (l (watched 940)).expired 940 = true ∧ (l (watched 939)).expired 939 = false ∧ (l done).stage = .running ∧ (l fetched).stage = .waiting ∧
    dying.containAsked 0 1 .mce 0x40 = true ∧ fetched.fits (fetched.part 0) 0 0 0 1 1 = true ∧ lanesAllowed (l fetched).words 1 = true ∧
    fetched.behind 0 1 (l fetched) = false ∧ (rectangle 0 0 0 1 1).all (fun x => (fetched.core x).unbound) = true ∧
    (match fetched.secondStage 0 (l fetched) 0 0 1 with | .ok _ => true | .error _ => false) = true ∧
    (match fetched.secondStage 0 { l fetched with words := (l fetched).words.set 2 9 } 0 0 1 with | .ok _ => false | .error st => st == 0x13) = true ∧
    (match crowded.secondStage 0 (l fetched) 0 0 1 with | .ok _ => false | .error st => st == 0x11) = true ∧ (l fetched).word 2 = 0 ∧
    started.launchCores 0 1 = [0] ∧ (started.queue? 7).isSome = true := by decide +kernel

/-! ### Host rings -/

/-- Doorbells in and outside the ring (R375, R377, R382). -/
theorem test_doorbells : goes (.submissionDoorbell 1 0 15) submitted (fun t => (t.queue? 7).any fun h => h.subTail == 15) = true ∧
    goes (.submissionDoorbell 1 0 16) submitted (fun t => (t.part 0).held.map (·.status) == [0x0101] && (t.queue? 7).any fun h => h.subTail == 1) = true ∧
    goes (.completionDoorbell 1 0 3) submitted (fun t => (t.queue? 7).any fun h => h.cplHead == 3) = true ∧
    submitted.queueOf 1 0 = some (7, queue7) ∧ submitted.queueOf 1 1 = none := by decide +kernel
/-- The host has set the size of the PF's admin submission ring to 16: a doorbell in the ring and one outside it. -/
def adminRing : State := { State.bench with bars := [(0x10, 16)] }
theorem test_admin_doorbell : adminRing.adminSize 0 false = 16 ∧ goes (.adminDoorbell 0 false 15) adminRing (fun t => (t.admin 0).subTail == 15) = true ∧
    goes (.adminDoorbell 0 false 16) adminRing (fun t => (t.admin 0).subTail == 0) = true := by decide +kernel
/-- A host message (R385): its entry, and the slot goes on when it is written. In a development it is PRIV, which ends the development. -/
def messaging : State := regs [(5, 0xD), (6, 0xE)] { started with curCore := 0, curSlot := 0 }
theorem test_host_message : goes (.hmsg 5 6) messaging (fun t => t.me.out == .ring 7 && t.me.pc == 0x30000 &&
      goes (.completionEntryWrite 7) t (fun u => u.me.out == .none && u.me.pc == 0x30004 && Memory.readN u.hostMem 0x10010 8 == 0xD &&
        Memory.readN u.hostMem 0x10018 8 == 0xE && Memory.readN u.hostMem 0x10008 8 == 0x8002000000000001)) = true ∧
    goes (.hmsg 5 6) (slot (fun t => { t with kind := .dev devTask }) messaging) (fun t => entries t == [] && t.me.out != .ring 7) = true ∧
    (messaging.launchOf messaging.curCore).isSome = true := by decide +kernel
/-- Premises of CompletionEntries: a full ring, the last place of the ring, canonical host memory. -/
theorem witness_entries : Memory.wf completed.hostMem = true ∧ ({ queue7 with cplHead := 1 } : HwQueue).full = true ∧
    ({ queue7 with cplTail := 15, cplHead := 1 } : HwQueue).full = false ∧
    goes (.completionEntryWrite 7) (completed.modQueue 7 fun h => { h with cplTail := 15, cplHead := 1 }) (fun t => (t.queue? 7).any fun h =>
      h.cplTail == 0 && !h.phase) = true := by decide +kernel
/-- A transfer fetches the record, or writes the entry; nothing asks on the bench (R320). -/
theorem test_transfer : goes .hostInterfaceTransfer submitted (fun t => (t.queue? 7).any fun h => h.subHead == 1) = true ∧
    goes .hostInterfaceTransfer completed (fun t => entries t == []) = true ∧ goes .hostInterfaceTransfer State.bench (fun t => t == State.bench) = true ∧
    submitted.transferOf 7 queue7 ≠ none ∧ submitted.transferOf 7 { queue7 with subTail := 0 } = none := by decide +kernel

/-! ### Stops, contexts, power and resets -/

/-- A stop asked at cycle 0 of a slot whose IE is clear, at a cycle. -/
def stopping (now : Nat) (s : State := State.bench) : State :=
  { slot (fun t => { t with stopAt := some (.halt, 0), sw := { t.sw with ie := false } }) s with cycle := now }
/-- Core 0 is at a temperature, with the limit at 95 degrees. -/
def heated (x : Nat) (s : State := State.bench) : State := after (.thermalRanking 0 [(3, 99), (0, x)]) s
/-- Stops and heat (R95, R358). -/
theorem test_stops : goes (.ieStopTimeout 0 0) (stopping 4095) (fun t => !t.me.halted) = true ∧
    goes (.ieStopTimeout 0 0) (stopping 4096) (fun t => t.me.halted && t.me.stopAt == none && t.me.pc == 0x20000) = true ∧
    (heated 96).dies.map (fun d => d.2.ranking) = [[(0, 96), (3, 99)]] ∧
    goes (.thermalSlotDisable 0) (heated 96) (fun t => t.me.disabled && t.me.guestAt == none) = true ∧
    goes (.thermalSlotDisable 0) (heated 95) (fun t => !t.me.disabled) = true ∧
    goes (.thermalSlotEnable 0) (after (.thermalRanking 0 [(0, 90)]) (after (.thermalSlotDisable 0) (heated 96))) (fun t => !t.me.disabled) = true ∧
    goes (.thermalSlotEnable 0) (after (.thermalRanking 0 [(0, 91)]) (after (.thermalSlotDisable 0) (heated 96))) (fun t => t.me.disabled) = true := by
  decide +kernel
/-- Premises of StopsAndHeat. -/
theorem witness_stops : (stopping 4096).me.stopAt = some (.halt, 0) ∧ State.bench.me.stopAt = none ∧ (heated 96).temperature 0 = some 96 ∧
    (stopping 4096).atBoundary (stopping 4096).me = true ∧ (stopping 4096).atBoundary { (stopping 4096).me with out := .divide 3 0 0 } = false ∧
    (State.bench.slotAt 0 0).life = .running ∧ (∀ j, (0 : Fin 8) < j → (State.bench.slotAt 0 j).life ≠ .running) := by decide +kernel
/-- Core 0's context moves to core 5 in two events; one at rest is restored (R352, R353, R355). -/
def preempted : State := after (.preemption 0 (some 5)) { regs [(3, 42)] with inbox := [.disableCore 0] }
def resting : State := (part fun q => { q with contexts := [(4, State.bench.myCore.rename 0 (restName 4))] }).setCore 0 Core.reset
theorem test_contexts : (preempted.core 0).preempt = some (some 5, 0) ∧ goes (.preemption 0 (some 5)) preempted (fun t => (t.core 5).position == some 0 &&
      (t.slotAt 5 0).x[3] == 42 && (t.slotAt 5 0).pc == 0x20000 && (t.core 0).bound == none && (t.part 0).posMap == [(0, 5)]) = true ∧
    goes (.preemption 0 (some 6)) preempted (fun t => (t.core 0).preempt == some (some 5, 0)) = true ∧
    State.bench.anyFreeCore 0 = true ∧
    goes (.preemption 0 (some 5)) State.bench (fun t => (t.core 0).preempt == none) = true ∧
    goes (.contextRestore 0 4 7) resting (fun t => (t.slotAt 7 0).pc == 0x20000 && (t.slotAt 7 0).life == .running && (t.part 0).contexts == []) = true ∧
    goes (.contextRestore 0 4 16) resting (fun t => (t.part 0).contexts.length == 1) = true := by decide +kernel
/-- Premises of ContextMoves: a core that may take the context and one that may not, slots stopped, the core drained and not. -/
theorem witness_contexts : preempted.destStands 0 0 (some 5) = true ∧ preempted.freeCore 0 5 = false ∧ preempted.freeCore 0 16 = false ∧ preempted.coreStopped (preempted.core 0) 0 = true ∧
    preempted.coreDrained 0 (preempted.core 0) = true ∧ (queued none).coreDrained 0 ((queued none).core 0) = false ∧ (State.reset.core 0).bound = none ∧
    mapGet? (resting.part 0).contexts 4 ≠ none ∧ resting.freeCore 0 7 = true ∧ risesFrom 0 (resting.part 0).contexts = true ∧
    (State.bench.myCore.rename 0 (restName 4)).staging = [] ∧ (stopping 4095).coreStopped ((stopping 4095).core 0) 0 = false := by decide +kernel
/-- The context area has room for a context of any size (log 10). -/
theorem witness_context_room : (part fun q => { q with ctxMiB := Config.contextBytes }).contextRoom 0 [0] = true := by
  have h : (part fun q => { q with ctxMiB := Config.contextBytes }).contextUse 0 = 0 := rfl
  have g : ((part fun q => { q with ctxMiB := Config.contextBytes }).part 0).ctxMiB = Config.contextBytes := rfl
  have k : (part fun q => { q with ctxMiB := Config.contextBytes }).contextKept 0 [0] = 0 * Config.contextBytes := rfl
  unfold State.contextRoom
  rw [h, g, k, decide_eq_true_eq, List.length_singleton]; omega
/-- Power states (R398): an idle die falls to the floor, one whose queue tolerates 2 µs to A1; a running slot keeps it in A0. -/
theorem test_power :
    let s := fun (tol : Nat) => { fetched { submitted with hostMem := Memory.writeN (launchRec oneLane 0) 0x28 8 tol } with powerFloor := 3 }
    goes (.powerStateChange 0 false) { submitted with powerFloor := 3 } (fun t => (mapGet t.dies 0 Die.reset).power == 3) = true ∧
    goes (.powerStateChange 0 false) (s 2) (fun t => (mapGet t.dies 0 Die.reset).power == 1) = true ∧
    goes (.powerStateChange 0 false) (s 1) (fun t => (mapGet t.dies 0 Die.reset).power == 0) = true ∧
    goes (.powerStateChange 0 false) { State.bench with powerFloor := 3 } (fun t => (mapGet t.dies 0 Die.reset).power == 0) = true := by decide +kernel
/-- Whether a signature verifies is the model's free value; premises of PowerAndFirmware for either. -/
theorem witness_firmware : (∀ d g, Config.sm2Verifies d g = true ∨ Config.sm2Verifies d g = false) ∧ State.bench.fwFuse ≤ 0 ∧ State.bench.hasPart 1 = true ∧
    State.bench.hasPart 2 = false ∧ (0 : Nat) < ({ State.bench with fwFuse := 1 } : State).fwFuse := by
  refine ⟨fun d g => ?_, by decide +kernel⟩
  cases Config.sm2Verifies d g <;> simp
/-- Resets (R397, R399-R401): the package, the thermal cause, a VF, a die whose bridges failed. -/
theorem test_resets : goes (.packageReset [0]) { submitted with fwFuse := 3, fwStaged := some (4, 0, 0) } (fun t => t.cores == [] && t.mem == [] && t.parts == [] &&
      t.hostMem == submitted.hostMem && t.fwVersion == 4 && t.fwStaged == none && t.dies.map (fun d => (d.1, d.2.enabled)) == [(0, false), (1, false)]) = true ∧
    goes .thermalReset State.bench (fun t => t.lastReset) = true ∧
    [true, false].map (fun b => (({ State.bench with lastReset := b } : State).giveReport none).reports.map fun r => r.2.thermalReset) = [[true], [false]] ∧
    goes (.functionLevelReset 1) completed (fun t => t.mem == [] && t.queues == [] && (t.part 0).launches == [] && (t.part 0).clusters == [0]) = true ∧
    goes (.functionLevelReset 0) completed (fun t => t.queues == []) = true := by decide +kernel
/-- An image older than the fuse leaves the part in recovery, whatever its signature (R397, R400). -/
theorem test_recovery : (({ State.bench with fwFuse := 3 } : State).bringUp []).ready = false := by
  have h : ∀ b : Bool, (b && decide (3 ≤ 0)) = false := by decide
  exact h _
/-- A request for the page at 0x40000000, which is not mapped (R230, R231). -/
def faulting : State := part fun q => { q with faults := [{ token := 7, core := 0, slot := 0, owner := 0, lane := 5, va := 0x40000010 }] }
/-- Region 1 has one page of 4 KiB, at frame 0x18000, its tables from 0x13000 on. -/
def paged : State :=
  part (fun q => { q with raf := q.raf.set (1 : Fin 16) (BitVec.ofNat 64 (0x13 * 2 ^ 24 + 0x7E + 1)) }) { State.bench with
    mem := [(0x13000, 0x14001), (0x14000, 0x15001), (0x15000, 0x16001), (0x16000, 0x17001), (0x17000, 0x1800F), (0x18000, 0x5A)].foldl
      (fun m (e : Nat × Nat) => Memory.writeN m e.1 8 e.2) State.bench.mem }
theorem test_page_requests : goes (.pageFaultRequest 0 7 (some 0x40000000)) faulting (fun t => (t.part 0).faults == [] && Memory.readN t.mem 0x12008 8 == 0x40000007 &&
      t.packets.map (·.load) == [.notice (noticeOf { token := 7, core := 0, slot := 0, owner := 0, lane := 5, va := 0x40000010 } false)]) = true ∧
    goes (.pageFaultRequest 0 7 none) faulting (fun t => Memory.readN t.mem 0x12008 8 == 0 && t.packets.length == 1) = true ∧
    goes (.pageFaultRequest 0 8 none) faulting (fun t => t == faulting) = true ∧
    (faulting.mapped 0 0x40000000).isNone = true ∧ (faulting.mapped 0 0).isSome = true ∧
    goes (.pageMigration 0 (2 ^ 56) 0x19000) paged (fun t => (t.part 0).migrating == some (2 ^ 56) && t.begun.length == 1 &&
      goes (.pageMigration 0 (2 ^ 56) 0x19000) t (fun u => (u.part 0).migrating == none && u.begun == [] && Memory.readN u.mem 0x17000 8 == 0x1900F &&
        Memory.readN u.mem 0x19000 8 == 0x5A)) = true := by
  decide +kernel

/-! ### Commands -/

def pf : Cmd := { fn := 0, tag := 0x77 }
def vf1 : Cmd := { fn := 1, tag := 0x78 }
/-- The responses of a function's admin queue: tag, status, result. -/
def responses (s : State) (fn : Nat) : List (BitVec 32 × BitVec 16 × Word) := (s.admin fn).responses
/-- The checks of a command (R386-R388). -/
theorem test_command_checks : goes (.mapUnmap pf 1 0) { State.bench with ready := false } (fun t => responses t 0 == [(0x77, 4, 0)]) = true ∧
    goes (.mapUnmap vf1 2 0) State.bench (fun t => responses t 1 == [(0x78, 3, 0)] && t.mem == State.bench.mem) = true ∧
    goes (.mapUnmap pf 2 0) State.bench (fun t => responses t 0 == [(0x77, 2, 0)]) = true ∧
    goes (.partitionDestroy vf1 1) State.bench (fun t => responses t 1 == [(0x78, 1, 0)]) = true ∧
    goes (.mapUnmap vf1 1 0) State.bench (fun t => responses t 1 == [(0x78, 0, 0)] && Memory.readN t.mem 0x12000 8 == 0) = true := by decide +kernel
/-- The scrubber has gone through the 4,096 sets of the partition's cluster. -/
def recoding : State := (part fun q => { q with strong := true, recode := some 4096 }).begin (.eccMode vf1 1 true)
/-- MAP, ECC_MODE and the debug commands (R303, R326, R360, R392, R393, R424). -/
theorem test_partition_commands :
    goes (.mapMap vf1 1 0x40000000 0 3 0x40000000 true) State.bench (fun t => responses t 1 == [(0x78, 0, 0)] && Memory.readN t.mem 0x12008 8 == 0x40000007) = true ∧
    goes (.mapMap vf1 1 0x40000000 0 3 0x1000 true) State.bench (fun t => responses t 1 == [(0x78, 2, 0)]) = true ∧
    goes (.mapRegionEntry vf1 1 5 benchRegion) State.bench (fun t => (t.part 0).raf[5] == benchRegion) = true ∧
    goes (.mapRegionEntry vf1 1 5 0x1000) State.bench (fun t => responses t 1 == [(0x78, 2, 0)]) = true ∧
    goes (.mapRegionEntry vf1 1 0 0) recorded (fun t => responses t 1 == [(0x78, 3, 0)]) = true ∧
    goes (.mapLoad pf 1 0 0x5000 8) submitted (fun t => Memory.readN t.mem 0x5000 8 == 0x30000) = true ∧
    goes (.mapExport pf 1 0x20000 0x8000 4 0 0) (code 0x12345493) (fun t => Memory.readN t.hostMem 0x8000 4 == 0x12345493) = true ∧
    goes (.mapImport pf 1 0 9 0 0 0x5000 8) submitted (fun t => responses t 0 == [(0x77, 9, 0)]) = true ∧
    goes (.eccMode vf1 1 true) State.bench (fun t => (t.part 0).strong && (t.part 0).recode == some 0 && responses t 1 == []) = true ∧
    goes (.eccMode vf1 1 true) recoding (fun t => (t.part 0).recode == none && responses t 1 == [(0x78, 0, 0)]) = true ∧
    goes (.debugHalt vf1 1 1 [0] true false) started (fun t => (t.slotAt 0 0).halted && (mapGet? (t.part 0).launches 1).any fun l => l.hold) = true ∧
    goes (.debugResume vf1 1 1 [0]) (after (.debugHalt vf1 1 1 [0] true false) started) (fun t => !(t.slotAt 0 0).halted) = true ∧
    goes (.debugHalt vf1 1 1 [1] false false) started (fun t => responses t 1 == [(0x78, 2, 0)]) = true ∧
    goes (.debugHalt vf1 1 1 [] false true) started (fun t => entries t == [(4, 0)]) = true := by decide +kernel
/-- Premises of CommandChecks and PartitionCommands. -/
theorem witness_commands : State.bench.ready = true ∧ State.bench.hasPart 1 = true ∧ State.bench.hasPart 2 = false ∧ regionRefused 0x1000 = true ∧
    mapGet? (State.bench.part 0).launches 1 = none ∧ (mapGet? (started.part 0).launches 1).isSome = true ∧
    (match State.bench.mapPage 0 0x40000000 0 3 0x40000000 true with | .ok _ => true | .error _ => false) = true ∧
    (match State.bench.mapPage 0 0x40000000 0 3 0x1000 true with | .ok _ => false | .error _ => true) = true ∧
    (match State.bench.unmapPage 0 0 with | .ok _ => true | .error _ => false) = true ∧
    (match recorded.unmapPage 0 0 with | .ok _ => false | .error _ => true) = true := by decide +kernel
def newPart : PartitionParams :=
  { vf := 5, clusters := 6, recipes := 8, contextMiB := 1, queues := 4, segmentCap := 64, tvb := 0x12345, strong := false, sealedOnly := false }
def newQueue : QueueParams :=
  { vf := 1, index := 3, number := 40, owner := 0, die := 0, subBase := 0x20000, cplBase := 0x30000, subSize := 32, cplSize := 16, vector := 1, events := true }
/-- A session of VF 1's mailbox that FINISH has established. -/
def inSession : State := { State.bench with
  sessions := [(1, { port := .doe 1, established := true, epoch := 0 })], spdm := [(.doe 1, { version := true, caps := true, algs := true, replies := [] })] }
/-- The commands that make and end things (R376, R377, R387, R391, R394, R423). -/
theorem test_creating : goes (.partitionCreate pf newPart) State.bench (fun t => responses t 0 == [(0x77, 0, 0)] && (t.part 4).clusters == [1, 2] &&
      (t.part 4).tvb == 0x12000 && (t.part 4).owners.length == 1) = true ∧
    goes (.partitionCreate pf { newPart with clusters := 1 }) State.bench (fun t => responses t 0 == [(0x77, 3, 0)]) = true ∧
    goes (.partitionCreate vf1 newPart) State.bench (fun t => responses t 1 == [(0x78, 1, 0)]) = true ∧
    goes (.ownerCreate vf1 1 15 0xABC) State.bench (fun t => ((t.part 0).owner 15).seed == 0xABC) = true ∧
    goes (.ownerCreate vf1 1 16 0xABC) State.bench (fun t => responses t 1 == [(0x78, 2, 0)]) = true ∧
    goes (.queueCreate vf1 newQueue) State.bench (fun t => (t.queue? 40).any fun h => h.subSize == 32 && h.phase && h.index == 3) = true ∧
    goes (.queueCreate vf1 { newQueue with subSize := 8 }) State.bench (fun t => responses t 1 == [(0x78, 2, 0)]) = true ∧
    goes (.keyBind vf1 1 15 0x5EED) inSession (fun t => mapGet? (t.part 0).keys 15 == some 0x5EED) = true ∧
    goes (.keyBind vf1 2 15 0x5EED) inSession (fun t => responses t 1 == [(0x78, 1, 0)] && (t.part 0).keys == []) = true ∧
    goes (.partitionDestroy pf 1) submitted (fun t => t.parts == [] && t.queues == [] && t.mem == []) = true := by decide +kernel
/-- Premises of CreatingCommands. -/
theorem witness_creating : partitionOk newPart = true ∧ State.bench.hasPart 5 = false ∧ (maskClusters 6).all (fun k => (State.bench.clusterOwner k).isNone &&
      State.bench.dieWorks k) = true ∧ (State.bench.part 0).ownerDeveloping 15 = none ∧ (State.bench.part 0).busy (fun l => l.owner == 15) = false ∧
    ringSizeOk 32 = true ∧ ringSizeOk 16 = true ∧ mapGet? (State.bench.part 0).owners 0 ≠ none ∧ ((State.bench.part 0).clusters.any fun k => dieOf k == 0) = true ∧
    inSession.vfSession 1 1 = true ∧ inSession.vfSession 2 1 = false ∧ risesFrom 0 State.bench.parts = true := by decide +kernel
/-- POWER_POLICY, TELEMETRY, CONTEXT_SAVE and PARTITION_RESIZE (R314, R352, R356, R387, R398). -/
def policy : PowerParams := { vf := 1, mask := none, floor := some 2, limit := some 80, cap := some 1000 }
/-- Nothing of the partition is bound. -/
def unboundPart : State := { State.bench with cores := [] }
theorem test_policy : goes (.powerPolicy pf policy) State.bench (fun t => t.powerFloor == 2 && t.thermalLimit == 80 && t.powerCap == 1000) = true ∧
    goes (.powerPolicy pf { policy with floor := some 4 }) State.bench (fun t => t.powerFloor == 0 && responses t 0 == [(0x77, 2, 0)]) = true ∧
    goes (.powerPolicy vf1 policy) State.bench (fun t => t.powerFloor == 0 && responses t 1 == [(0x78, 1, 0)]) = true ∧
    goes (.powerPolicy vf1 { policy with floor := none, limit := none, cap := none, mask := some 5 }) State.bench (fun t => (t.part 0).mask == 5) = true ∧
    goes (.telemetry pf) State.bench (fun t => (responses t 0).map (fun r => (r.1, r.2.1)) == [(0x77, 0)]) = true ∧
    goes (.contextSave pf 1 [0]) unboundPart (fun t => responses t 0 == [(0x77, 2, 0)]) = true ∧
    goes (.contextSave pf 1 [0, 9]) State.bench (fun t => responses t 0 == [(0x77, 2, 0)] && (t.core 0).preempt == none) = true ∧
    goes (.contextSave pf 1 []) unboundPart (fun t => responses t 0 == [(0x77, 0, 0)]) = true ∧
    goes (.partitionResize pf 1 3) unboundPart (fun t => responses t 0 == [(0x77, 0, 0)] && (t.part 0).clusters == [0, 1]) = true := by decide +kernel
/-- Premises of PolicyCommands. -/
theorem witness_policy : State.bench.holders 0 [0] = [0] ∧ State.bench.holders 0 [] = [0] ∧ unboundPart.holders 0 [] = [] ∧ powerOk policy = true ∧
    (maskClusters 3).all (fun k => (State.bench.clusterOwner k).all (· == 0) && State.bench.dieWorks k) = true ∧
    unboundPart.moveNext 0 [0, 1] = none ∧ unboundPart.unmoved 0 [0, 1] = [] ∧
    (match ((unboundPart.ended (.resize pf 1 3)).modPart 0 fun q => { q with moved := [] }).resize 0 [0, 1] with | .ok _ => true | .error _ => false) = true ∧ State.bench.heldPositions 0 = [0] := by
  decide +kernel
/-- The context area has room for a context of the one size the model leaves open, and none where it is too small (log 10). -/
theorem witness_room : ∀ n : Nat, (part fun q => { q with ctxMiB := n }).contextRoom 0 [0] = decide (Config.contextBytes ≤ n * 0x100000) := by
  intro n
  have h : (part fun q => { q with ctxMiB := n }).contextUse 0 = 0 := rfl
  have k : (part fun q => { q with ctxMiB := n }).contextKept 0 [0] = 0 * Config.contextBytes := rfl
  have g : ((part fun q => { q with ctxMiB := n }).part 0).ctxMiB = n := rfl
  unfold State.contextRoom
  rw [h, g, k, List.length_singleton, Nat.one_mul, Nat.zero_mul, Nat.zero_add]

/-! ### The SPDM responder and the fabric -/

/-- The last answer of VF 1's mailbox. -/
def lastReply (s : State) : Option (Nat × List Byte) := (s.spdmAt (.doe 1)).replies.getLast?
/-- Version, capabilities and algorithms; a request before them; a session's requests (R389-R391). -/
theorem test_spdm :
    let v := after (.getVersion (.doe 1)) State.bench
    let c := after (.getCapabilities (.doe 1)) v
    let a := after (.negotiateAlgorithms (.doe 1) true true true true) c
    (lastReply v = some (4, [0, 0x13]) ∧ lastReply c = some (0x61, []) ∧ lastReply a = some (0x63, [1, 1, 1, 1])) ∧
    goes (.negotiateAlgorithms (.doe 1) true true true true) v (fun t => lastReply t == some (0x7F, [4])) = true ∧
    goes (.getDigests (.doe 1)) c (fun t => lastReply t == some (0x7F, [4])) = true ∧ goes (.getVersion (.doe 9)) State.bench (fun t => t == State.bench) = true ∧
    goes (.keyExchange (.doe 1) 0 0) a (fun t => t.sessions == [(1, { port := .doe 1, established := false, epoch := 0 })]) = true ∧
    goes (.heartbeat (.doe 1) 1) inSession (fun t => lastReply t == some (0x68, [])) = true ∧
    goes (.heartbeat .sideBand 1) { inSession with spdm := [(.sideBand, { version := true, caps := true, algs := true, replies := [] })] } (fun t =>
      ((t.spdmAt .sideBand).replies == [(0x7F, [4])])) = true ∧
    goes (.keyUpdate (.doe 1) 1) inSession (fun t => t.sessions.map (fun e => e.2.epoch) == [1]) = true ∧
    goes (.endSession (.doe 1) 1) inSession (fun t => t.sessions == []) = true ∧
    goes (.vendorDefinedRequest (.doe 1) 1 0 9) inSession (fun t => mapGet? (t.part 0).keys 0 == some 9) = true ∧
    goes (.ideKmRequest 1 2 3) State.bench (fun t => t.ide == [(1, (2, 3))]) = true := by decide +kernel
/-- Premises of SpdmResponder: live and dead ports, negotiated and not, sessions established and not; the right verify data is the model's
free value, and other data differs from it. -/
theorem witness_spdm : State.bench.portLive (.doe 1) = true ∧ State.bench.portLive (.doe 9) = false ∧ State.bench.portLive .sideBand = true ∧
    (inSession.spdmAt (.doe 1)).algs = true ∧ (State.bench.spdmAt (.doe 1)).caps = false ∧ (inSession.sessionOf (.doe 1) 1).isSome = true ∧
    (inSession.sessionOf (.doe 1) 2).isNone = true ∧ 5 ∈ measuredIndices (.doe 1) ∧ 5 ∉ measuredIndices .sideBand ∧ risesFrom 0 inSession.sessions = true := by decide +kernel
theorem witness_spdm_free : Config.finishVerify 1 ≠ Config.finishVerify 1 + 1 ∧ 0 ≤ (Config.certificateChain 0).length :=
  ⟨by bv_omega, Nat.zero_le _⟩

/-- Port 4 is up, nothing unacknowledged. -/
def link (f : Port → Port := id) (s : State := State.bench) : State := s.setRelran 4 (f { Port.reset with lanes := 4, up := true })
/-- Links (R405, R406, R418): 10 µs are 9,400 cycles, 100 µs are 94,000. -/
theorem test_links : goes (.linkTrainingComplete 4 3) State.bench (fun t => (t.relran 4).lanes == 2 && (t.relran 4).up) = true ∧
    goes (.linkTrainingComplete 4 1) State.bench (fun t => !(t.relran 4).up) = true ∧
    goes (.linkFlitReceive 4 0 true 0) link (fun t => (t.relran 4).rxSeq == 1) = true ∧ goes (.linkFlitReceive 4 5 true 0) link (fun t => (t.relran 4).rxSeq == 0) = true ∧
    goes (.linkFlitReceive 4 0 false 0) link (fun t => (t.relran 4).fails == 1) = true ∧
    goes (.keepaliveSend 4) { link with cycle := 9400 } (fun t => (t.relran 4).txSeq == 1) = true ∧ goes (.keepaliveSend 4) { link with cycle := 9399 } (fun t => (t.relran 4).txSeq == 0) = true ∧
    goes (.linkDown 4) { link with routes := [(3, 0x1000004)] } (fun t => (t.relran 4).up) = true ∧
    goes (.linkDown 4) { link with routes := [(3, 0x1000004)], cycle := 94000 } (fun t => !(t.relran 4).up && t.routes == [(3, 4)]) = true ∧
    goes (.linkDown 4) (link fun p => { p with fails := 8 }) (fun t => !(t.relran 4).up) = true ∧
    goes (.portRateWrite 4 true) link (fun t => (t.relran 4).rate && !(t.relran 4).up) = true := by decide +kernel
/-- Premises of Links. -/
theorem witness_links : (link.relran 4).up = true ∧ (State.bench.relran 4).up = false ∧ (link.relran 4).unacked < 512 ∧
    ((0#16 - (link.relran 4).acked).toNat ≤ ((link.relran 4).txSeq - (link.relran 4).acked).toNat) ∧ (link.relran 4).rate = false := by decide +kernel
/-- The fabric registers (R408, R418): PKGID, a domain tag, a route that admits package 3 again, and another function's register. -/
theorem test_registers : goes (.registerWrite 0 2 0 0xFFFFFFFF) State.bench (fun t => t.pkgid == 0x1FFF) = true ∧
    goes (.registerWrite 0 2 16 0x10005) State.bench (fun t => t.dtags == [(1, 0x10005)]) = true ∧
    goes (.registerWrite 0 2 0x1018 0x1000004) { State.bench with failed := [3] } (fun t => t.routes == [(3, 0x1000004)] && t.failed == []) = true ∧
    goes (.registerWrite 0 2 0x1018 4) { State.bench with failed := [3] } (fun t => t.failed == [3]) = true ∧
    goes (.registerWrite 0 2 0x1018 0x1000024) { State.bench with failed := [3] } (fun t => t.failed == [3]) = true ∧
    goes (.registerWrite 2 0 8 5) State.bench (fun t => t == State.bench) = true ∧
    goes (.registerWrite 1 0 8 5) State.bench (fun t => mapGet t.bars (8 * 2 ^ 32 + 8) 0 == 5) = true := by decide +kernel
/-- This package is number 2, and its partition 0 answers for domain tag 5. -/
def joined (s : State := State.bench) : State := { s with pkgid := 2, dtags := [(0, 0x10005)] }
def request (op : FabricOp) : FabricReq :=
  { source := 3, seq := 0, ackBelow := 0, dtag := 5, part := 1, owner := 0, cls := 1, pa := 0x5000, op := op }
/-- The replies of the package's packets: to whom, and what. -/
def replying (s : State) : List (Nat × RemoteAnswer) := s.packets.filterMap fun p => match p.load with
  | .reply r a => some (r.source, a)
  | _ => none
/-- A write arrives, is performed at its home slice and answered; again, it is answered from the window alone (R412, R415, R416). -/
theorem test_fabric_arrival :
    let performed := after (.l2SliceRequest (homeSlice (joined.part 0) 0x5000)) (after (.fabricRequestArrival (request (.write [1, 2]))) joined)
    Memory.readN performed.mem 0x5000 2 = 0x201 ∧ replying performed = [(3, .data 0)] ∧
    goes (.fabricRequestArrival (request (.write [9, 9]))) performed (fun t => (replying t).length == 2 && Memory.readN t.mem 0x5000 2 == 0x201) = true ∧
    goes (.fabricRequestArrival { request (.read 8) with dtag := 6 }) joined (fun t => replying t == [(3, .prot)]) = true ∧
    goes (.fabricRequestArrival { request (.read 8) with pa := 0x503C }) joined (fun t => t.packets == []) = true ∧
    goes (.fabricRequestArrival (request (.read 8))) State.bench (fun t => t == State.bench) = true ∧
    goes (.fabricRequestArrival (request (.read 8))) { joined with failed := [3] } (fun t => t.packets == []) = true := by decide +kernel
/-- Premises of FabricArrivals. -/
theorem witness_fabric_arrivals : (4607 < State.bench.pkgid.toNat) ∧ joined.pkgid.toNat ≤ 4607 ∧ reqBytes (request (.read 8)) = 8 ∧
    joined.fabricPending (request (.read 8)) = false ∧ mapGet? ((after (.l2SliceRequest (homeSlice (joined.part 0) 0x5000)) (after (.fabricRequestArrival (request (.write [1, 2]))) joined)).window 3).done 0 = some none ∧
    mapGet? ((after (.l2SliceRequest (homeSlice (joined.part 0) 0x5000)) (after (.fabricRequestArrival (request (.amo .add true 5))) joined)).window 3).done 0 = some (some 0) ∧
    joined.fabricHome 5 0x5000 = some 0 ∧ joined.fabricHome 6 0x5000 = none ∧ seqAbove 0 0 < 4096 := by decide +kernel
/-- A write to package 3 that waits at the ports, its packet, and a route by port 4. -/
def leaving (queued : Bool := true) : State := { link id joined with
  routes := [(3, 0x1000004)]
  packets := [{ packet (.away 3 0 0x5000 .none) with core := 0 }]
  outstanding := [{ target := 3, req := request (.write [1]), who := .slot 0 0, pkt := 9, ports := 2 ^ 36 - 1, sentAt := 0, queued := queued, sent := !queued }] }
/-- Retransmission after 20 µs, 18,800 cycles; acknowledgements; the failure of another package and of this one (R415, R416, R418-R420). -/
theorem test_fabric_source : goes (.requestRetransmit 3 0) { leaving false with cycle := 18800 } (fun t => t.outstanding.map (·.queued) == [true]) = true ∧
    goes (.requestRetransmit 3 0) { leaving false with cycle := 18799 } (fun t => t.outstanding.map (·.queued) == [false]) = true ∧
    goes (.sequenceAckKeepalive 3) { leaving with ackSent := [(3, (0, 0))], cycle := 18800, nextSeq := [(3, 1)] } (fun t => t.ackSent == [(3, (0, 18800))]) = true ∧
    goes (.sequenceAckKeepalive 3) { leaving with ackSent := [(3, (0, 0))], cycle := 18799 } (fun t => t.ackSent == [(3, (0, 0))]) = true ∧
    goes (.packageFailureDeclared 3) leaving (fun t => t.failed == [3] && t.routes == []) = true ∧
    goes (.packageFailureDeclared 2) (joined started) (fun t => entries t == [(5, 0)]) = true ∧
    goes (.fabricFailureAnswer 3) { leaving with failed := [3] } (fun t => t.outstanding == [] && answered t (.trap .fabric)) = true ∧
    goes (.fabricFailureAnswer 3) leaving (fun t => t.outstanding.length == 1) = true := by decide +kernel
/-- The number of flits of a packet is 1 to 3, so a port with nothing unacknowledged has room (R407, log 18). -/
theorem witness_flits (s : State) : (0 : Nat) + s.flits ≤ 512 := by
  have h : Config.freeFlits s.freeCtr % 3 < 3 := Nat.mod_lt _ (by decide)
  unfold State.flits
  omega
/-- Premises of FabricSource. -/
theorem witness_fabric_source : (leaving.relran 4).up = true ∧ (leaving.relran 4).unacked = 0 ∧ leaving.packets = [{ packet (.away 3 0 0x5000 .none) with core := 0 }] ∧
    leaving.portTarget { packet (.away 3 0 0x5000 .none) with core := 0 } = some (3, [4]) ∧ leaving.inDomain = true ∧
    BitVec.ofNat 64 2 = leaving.pkgid ∧ BitVec.ofNat 64 3 ≠ leaving.pkgid ∧ 3 ∉ leaving.failed ∧ (∃ p ∈ leaving.packets, p.id = 9) := by decide +kernel

/-! ### Where instructions complete -/

/-- A release goes on at once. -/
def quietB (s : State) : Bool := s.packets.all (fun k => !k.isStore || !k.unacked s.curCore s.curSlot.val) && s.me.nack == none
theorem quiet_of {s : State} (h : quietB s = true) : s.quiet := by
  simp only [quietB, Bool.and_eq_true, List.all_eq_true, beq_iff_eq] at h
  exact ⟨fun k hk hs => by simpa [hs] using h.1 k hk, h.2⟩
/-- The parts of `plainLine` for a slot that runs a lane. -/
def plainB (s : State) (pa : Nat) : Bool :=
  s.me.kind == .lane && s.myPart.recordOf (pa / 64) == none && s.myPart.pinCount (pa / 64) == 0 && s.myPart.migrating == none &&
    !s.reseeding s.agent && s.memBad.all (fun w => w / 16 != pa / 64) && (mapGet? s.l2 (pa / 64)).all (fun e => e.older == none) &&
    s.cores.all (fun x => x.2.l1d.all fun e => e.2.pa != pa / 64 || e.2.owned == 0) && Memory.wf s.mem && risesFrom 0 s.l2 &&
    s.cores.all fun x => risesFrom 0 x.2.l1d
theorem plainLine_of {s : State} {pa : Nat} (h : plainB s pa = true) : s.plainLine pa := by
  simp only [plainB, Bool.and_eq_true, List.all_eq_true, beq_iff_eq, bne_iff_ne, Bool.not_eq_true', Bool.or_eq_true] at h
  obtain ⟨⟨⟨⟨⟨⟨⟨⟨⟨⟨hk, hr⟩, hp⟩, hm⟩, hs⟩, hb⟩, ho⟩, hl⟩, hw⟩, h2⟩, h1⟩ := h
  exact ⟨fun d e => by simp [hk] at e, hr, hp, hm, hs, hb,
    fun e o he h => by simp [he, h] at ho,
    fun x hx e he hpa => ((hl x hx e he).resolve_left (not_not_intro hpa)), hw, h2, h1⟩
/-- The parts of `reaches` for the translation that the TLB holds. -/
def reachesB (s : State) (p : Word) (n : Nat) (k : AccKind) (pa : Nat) : Bool :=
  (s.tlbEntry s.myPartNo s.curCore p).any fun e =>
    p.extractLsb' 60 4 == 0 && (p.extractLsb' 0 60).toNat + n ≤ 2 ^ 60 && p.toNat % n == 0 &&
      (s.myPart.raf[(p.extractLsb' 56 4).toNat]?).any (·.getLsbD 0) && (mapGet? s.myCore.l1d (p.toNat / 64)).all (fun l => l.tr == some e) &&
      decide (12 ≤ e.psize) && decide (e.psize ≤ 48) && !e.region.getLsbD 10 && !e.region.getLsbD 11 && allows s.me.sw.s e k &&
      (field e.leaf 8 4 == s.myOwner || field e.leaf 8 4 == 0) &&
      pa == field e.leaf e.psize (48 - e.psize) * 2 ^ e.psize + p.toNat % 2 ^ e.psize && s.myPart.owns pa
theorem reaches_of {s : State} {p : Word} {n : Nat} {k : AccKind} {pa : Nat} (h : reachesB s p n k pa = true) : ∃ e, s.reaches p n k e pa := by
  simp only [reachesB, Option.any_eq_true, Bool.and_eq_true, beq_iff_eq, decide_eq_true_eq, Bool.not_eq_true', Bool.or_eq_true] at h
  obtain ⟨e, he, ⟨⟨⟨⟨⟨⟨⟨⟨⟨⟨⟨⟨h0, h1⟩, h2⟩, h3⟩, h4⟩, h5⟩, h6⟩, h7⟩, h8⟩, h9⟩, ha⟩, hb⟩, hc⟩⟩ := h
  refine ⟨e, h0, h1, h2, ⟨by simpa only [Option.any_eq_true] using h3, he, fun l hl => ?_⟩, h5, h6, h7, h8, h9, ha, hb, hc⟩
  simpa [hl] using h4
/-- No register of the slot is pending. -/
theorem unmarked_of {s : State} (h : ∀ r : Reg, s.markOf r = none) (rs : List Reg) : s.unmarked rs := fun r _ => h r

/-- The page of x1 is in the TLB, and no packet is under way; its line is also in the L1. -/
def warm (s : State := mem) : State := { ready (after (.ldb 3 1 .d false 0) s) with packets := [] }
def held (s : State := mem) : State := { ready (after (.ld 3 1 .d false 0) s) with packets := [] }
/-- The words of a copy's descriptor have come. -/
def described : State := firstPart (.cpy 3 1 false true false false 1) (warm engines)
/-- Premises of GlobalLoads, GlobalStores, HomeAtomicsComplete and EngineIssueCompletes (x1 names a copy descriptor). -/
theorem witness_global : ((∃ e, warm.reaches 0x40000 8 .plainLoad e 0x40000) ∧ (∃ e, warm.reaches 0x40000 8 .plainStore e 0x40000) ∧
      (∃ e, warm.reaches 0x40000 8 .load e 0x40000) ∧ (∃ e, warm.reaches 0x40000 8 .store e 0x40000) ∧
      (∃ e, warm.reaches 0x40000 8 .atomic e 0x40000) ∧ (∃ e, held.reaches 0x40000 8 .plainLoad e 0x40000) ∧
      (∃ e, (warm engines).reaches 0x41000 32 .load e 0x41000) ∧ ∃ e, described.reaches 0x41000 32 .load e 0x41000) ∧
    (warm.plainLine 0x40000 ∧ warm.quiet ∧ (warm engines).plainLine 0x41000 ∧ (warm engines).quiet ∧ described.quiet) :=
  ⟨⟨reaches_of (by decide +kernel), reaches_of (by decide +kernel), reaches_of (by decide +kernel), reaches_of (by decide +kernel), reaches_of (by decide +kernel),
    reaches_of (by decide +kernel), reaches_of (by decide +kernel), reaches_of (by decide +kernel)⟩,
    plainLine_of (by decide +kernel), quiet_of (by decide +kernel), plainLine_of (by decide +kernel), quiet_of (by decide +kernel),
    quiet_of (by decide +kernel)⟩
theorem witness_global_lines : effPtr (warm.xval 1) 8 0 = 0x40000 ∧ warm.myCore.l1d = [] ∧ (mapGet? held.myCore.l1d (0x40000 / 64)).any (fun l =>
      l.holds 0x40000 8 && l.bad == 0) = true ∧ (warm.clusterAt 0).cc = [] ∧ ((ready (after (.ldc 3 1 .d false 0) mem)).clusterAt 0).cc ≠ [] ∧
    warm.me.sw.dm = false ∧ (warm engines).me.fetched = [] ∧ ((warm engines).myCore.queues[queueNo 1]).length < 16 ∧
    (copyEntry ((List.range 4).map fun i => (mapGet? described.me.fetched (0x41000 + 8 * i)).getD 0) false true false false).isSome = true ∧
    described.me.fetched.length = 4 ∧ (described.myCore.queues[queueNo 1]).length < 16 := by decide +kernel
/-- x6's page is warm; its counter is 1, or not. -/
def counting (n : Nat) : State := warm (regs [(1, 0x40000)] { tasks with mem := Memory.writeN tasks.mem 0x40000 8 n })
/-- Premises of TasksComplete. -/
theorem witness_tasks_complete : ((∃ e, (counting 1).reaches ((counting 1).xval 6) 8 .atomic e 0x40000) ∧ (counting 1).plainLine 0x40000 ∧
      (counting 1).quiet ∧ ∃ e, (counting 2).reaches ((counting 2).xval 6) 8 .atomic e 0x40000) ∧
    ((∀ r, (counting 1).markOf r = none) ∧ (counting 1).me.kind = .lane ∧ (counting 1).myCore.dequeRoom = true ∧
      Memory.readN (counting 1).mem 0x40000 8 = 1 ∧ Memory.readN (counting 2).mem 0x40000 8 ≠ 1) :=
  ⟨⟨reaches_of (by decide +kernel), plainLine_of (by decide +kernel), quiet_of (by decide +kernel), reaches_of (by decide +kernel)⟩,
    by decide +kernel⟩
/-- A record in the tray for ENQ; a slot of another core that waits in DEQ for it. -/
def toQueue : State := regs [(1, tray 0x400)]
def expecting : State := (twoCores id toQueue).modSlotAt 1 0 fun t => { t with life := .running, out := .deq 63 }
/-- Premises of QueuesComplete and SendGoesOut. -/
theorem witness_queues_complete : toQueue.quiet ∧ (twoCores id State.bench).quiet ∧
    ((63 : BitVec 6).toNat < toQueue.myPart.queueCount ∧ (toQueue.xval 1).extractLsb' 60 4 = 1 ∧ (toQueue.xval 1).extractLsb' 19 41 = 0 ∧
      trayOff (toQueue.xval 1) + 656 ≤ 0x58000 ∧ toQueue.myCore.trayBad = [] ∧ toQueue.waitersOf 0 (·.isDeq 63) = [] ∧
      (toQueue.myPart.segment 63 0).length < toQueue.myPart.segCap ∧ expecting.waitersOf 0 (·.isDeq 63) = [(1, 0)] ∧
      enqueued.me.sw.dm = false ∧ (enqueued.myPart.firstFull 63 (rankOf enqueued.myPart 0)).isSome = true ∧
      ((List.range 8).all fun j => enqueued.waitersOf 0 (·.isEnq 63 j) == []) = true) ∧
    ((twoCores id State.bench).coreFor 0 0 1 = some 1 ∧ ((twoCores id State.bench).core 1).bound.map (·.part) = some 0 ∧
      ((twoCores id State.bench).core 1).position = some 1 ∧ ((twoCores id State.bench).core 1).disabled = false) :=
  ⟨quiet_of (by decide +kernel), quiet_of (by decide +kernel), by decide +kernel, by decide +kernel⟩
/-- The packet that SEND waits for has been answered. -/
def sentBack : State := { sent with packets := sent.packets.map fun p => { p with place := .done, answer := some .ok } }
theorem witness_sent : ∃ k, sentBack.me.out = .remote [k.id] ∧ sentBack.packet? k.id = some k ∧ k.load = .channel 2 (sentBack.vval 1) ∧
    k.place = .done ∧ k.answer = some .ok := by
  have h : (match sentBack.packets with
    | [k] => sentBack.me.out == .remote [k.id] && sentBack.packet? k.id == some k && k.load == .channel 2 (sentBack.vval 1) && k.place == .done &&
        k.answer == some .ok
    | _ => false) = true := by decide +kernel
  split at h
  · rename_i k _
    simp only [Bool.and_eq_true, beq_iff_eq] at h
    exact ⟨k, h.1.1.1.1, h.1.1.1.2, h.1.1.2, h.1.2, h.2⟩
  · cases h
/-- The pages of a block, its tile, its entry and its sources are warm, and nothing is recorded yet. -/
def unrecorded : State := { part (fun q => { q with recipes := [] }) recorded with packets := [] }
/-- Its words have come. -/
def recording : State := firstPart (.rrec 1 2) unrecorded
/-- The block at 0x43000. -/
def block : Vector Word 8 := Vector.ofFn fun i => BitVec.ofNat 64 (Memory.readN unrecorded.mem (0x43000 + 8 * i.val) 8)
/-- Premises of RecordCompletes and RecipesComplete. -/
theorem witness_record_complete : (unrecorded.quiet ∧ unrecorded.plainLine 0x43000 ∧ (∃ e, unrecorded.reaches 0x43000 64 .load e 0x43000) ∧
      (∃ e, unrecorded.reaches 0x44000 64 .store e (64 * 0x1100)) ∧ (∃ e, unrecorded.reaches 0x45000 64 .load e (64 * 0x1140)) ∧
      (∃ e, recorded.reaches 0x44000 1 .load e 0x44000) ∧ (∃ e, latentTile.reaches 0x44000 1 .load e 0x44000) ∧
      (∃ e, unrecorded.reaches 0x44000 1 .load e 0x44000) ∧ recording.quiet ∧ (∃ e, recording.reaches 0x43000 64 .load e 0x43000) ∧
      (∃ e, recording.reaches 0x44000 64 .store e (64 * 0x1100)) ∧ ∃ e, recording.reaches 0x45000 64 .load e (64 * 0x1140)) :=
  ⟨quiet_of (by decide +kernel), plainLine_of (by decide +kernel), reaches_of (by decide +kernel), reaches_of (by decide +kernel),
    reaches_of (by decide +kernel), reaches_of (by decide +kernel), reaches_of (by decide +kernel), reaches_of (by decide +kernel),
    quiet_of (by decide +kernel), reaches_of (by decide +kernel), reaches_of (by decide +kernel), reaches_of (by decide +kernel)⟩
theorem witness_record_block : blockOk block 0x44000 = true ∧ tileLines block = [0x44000] ∧ allSources block = [0x45000] ∧
    unrecorded.me.fetched = [] ∧ ((List.range 8).map fun i => mapGet? recording.me.fetched (0x43000 + 8 * i)) = block.toList.map some ∧
    ((recording.tlbEntry 0 0 block[0]).any execOnly) = true ∧ (unrecorded.myPart.raf[0].getLsbD 8) = true ∧ unrecorded.myPart.recordOf 0x1100 = none ∧
    unrecorded.myPart.recipes.length < unrecorded.myPart.recipeCap ∧ unrecorded.myPart.pinsFit [0x10C0, 0x1140] = true ∧
    (recorded.myPart.recordOf 0x1100).any (fun r => r.devs == [] && !recorded.tileLatent r) = true ∧
    (latentTile.myPart.recordOf 0x1100).any (fun r => r.devs == [] && latentTile.tileLatent r) = true := by decide +kernel
/-- Premises of GroupsComplete and of a RESEED that has its turn. -/
theorem witness_groups_complete : (grouped 0).quiet ∧ (grouped 1).quiet ∧ ((grouped 0).reseeding (grouped 0).agent = false ∧
    (grouped 0).me.sw.dm = false ∧ ((grouped 1).myPart.group 9).count + 1 = ((grouped 1).myPart.group 9).n ∧
    (slot (fun t => { t with arrived := true }) (grouped 0)).me.arrived = true) ∧ (mem.askReseed.reseedNext = true ∧
    (part (fun q => { q with reseeds := [(0, 5, 0)] }) mem).askReseed.reseedNext = false) :=
  ⟨quiet_of (by decide +kernel), quiet_of (by decide +kernel), by decide +kernel, by decide +kernel⟩
/-- One packet at a router, at a slice, at a bank; premises of MeshCompletes. -/
theorem witness_mesh_complete :
    let east := { packet readOp with place := .router (routerOf 0) .core, dx := coreX 1 }
    let home := fun v => { packet (.home 0x1000 v) with place := .slice 0 }
    let bank := { packet (.home 0x1000 true) with place := .bank 0 3, unit := 1 }
    east.at? 0 = some (routerOf 0, .core) ∧ ((holding [east]).moveOf 0 east (routerOf 0) .core).out = some .east ∧
    (home true).origin = none ∧ (home false).place = .slice 0 ∧ 0x1000 / 2 ^ 25 = 0 / 4 ∧ bank.via = none ∧ bank.load.isWriteBack = false ∧
    (packet (.writeBack 0x1000)).load.isWriteBack = true ∧ ((holding [bank]).bank 0 3).free 0 = true ∧ State.bench.mayDecide 5 0 1 = true ∧
    State.bench.mayDecide 4 0 0 = true ∧ State.bench.mayDecide 6 0 3 = true ∧ submitted.queues = [(7, queue7)] ∧ queue7.fetchable = true ∧
    (match completed.queues with | [(_, h)] => (completed.writable h).isSome | _ => false) = true := by decide +kernel
/-- Premises of MapCommandsComplete: a mapped page and one that is not, a free frame, a range with ordinary lines, a key. -/
theorem witness_map_complete : State.bench.ready = true ∧ (State.bench.part 0).keeps ((State.bench.part 0).pageRange 0) = false ∧
    (State.bench.mapped 0 0).isSome = true ∧ (State.bench.mapped 0 0x40000000).isNone = true ∧
    State.bench.leafRefused 0 0x40000000 0 0x40000000 true = none ∧ (State.bench.leafOf 0 0x40000000 true).isSome = true ∧
    (match State.bench.stretches 0 0x5000 8 with
      | some xs => xs.length == 1 && xs.all fun x => !State.bench.hostRefuses 0 (x.pa / 64) && !(State.bench.part 0).sealedPage x
      | none => false) = true ∧ (State.bench.part 0).sealedOnly = false ∧ State.bench.latent = [] ∧ State.bench.memBad = [] ∧
    mapGet? ((part fun q => { q with keys := [(0, 5)] }).part 0).keys 0 = some 5 := by decide +kernel
/-- A line that stays in the L2 with a registered word, clean there, is written to no vault; one that has been recalled and written is (R235, R249). -/
theorem test_vault_writes :
    let line := fun (reg : SMap Nat) => ({ slice := 0, set := 0, way := 0, owner := 0, dirty := false, strong := false, reg := reg } : L2Line)
    let s := { State.bench with l2 := [(5, line [(0, 0)])] }
    vaultWrites s s = [] ∧ vaultWrites s { s with l2 := [(5, line [])] } = [(5, 0)] ∧ vaultWrites s { s with l2 := [] } = [(5, 0)] ∧
      vaultWrites s { s with l2 := [], latent := [5] } = [] := by decide +kernel

/-! ### The debugger, and what waits -/

/-- The draws of seed 4:3:2:1 (R236, R318, R371): structure 4 and structure 1 with its set as the session of spec/17 prints them, structure 2
by R318 worked by hand (log 107). -/
theorem test_draws :
    let s := part fun q => { q with owners := [(1, { Owner.reset with seed := 0x00000004000000030000000200000001, ctr := [(4 * 2 ^ 32 + 9, 37)] })] }
    s.debugDraws 0 1 1 0x0A004000 1 = .draws [0x4A41C9A0] [416] [] ∧
    s.debugDraws 0 1 4 0 1 = .draws [0x12648381] [] [(9, 37)] ∧ s.debugDraws 0 1 2 0 1 = .draws [0x91628340] [] [] ∧ s.debugDraws 0 2 4 0 1 = .absent := by decide +kernel
/-- Bits 31:24 of a halted slot's P ignore a debugger's write (R77, R360). -/
theorem test_debug_p : (({ slot (fun t => { t with halted := true }) with debugger := true }).debugWrite 0 0 .p 0xFFFFFFFF).me.p = 0x00FFFFFF := by
  decide +kernel
/-- Premises of EmulatedConversion: a conversion that draws waits for the control core, with a key. -/
theorem witness_emulated_conversion :
    let s := after (.vcvt 6 5 .fp32 .sr true .fp6e3) State.bench
    (match (s.slotAt 0 0).out with | .emulate (.vcvt 6 5 .fp32 .sr true .fp6e3) _ _ => true | _ => false) = true ∧
      ((s.focus 0 0).modMe fun t => { t with out := .none }).srKey.isSome = true := by decide +kernel
/-- Exact results of the float operations: 1 + 1, 1 × 1 and two zeros of FP32; premises of FloatOperations. -/
theorem witness_float_operations :
    let F := laneFmt .f32
    (F.value 0x3F800000).add (F.value 0x3F800000) = .fin false (2 ^ 24) (-23) ∧ (F.value 0x3F800000).mul (F.value 0x3F800000) = .fin false (2 ^ 46) (-46) ∧
      F.value 0x80000000 = .fin true 0 (-149) ∧ F.value 0 = .fin false 0 (-149) ∧ F.add 0x3F800000 0x3F800000 = 0x40000000 := by decide +kernel
/-- Premises of the claims on steals, tasks and starts: no resize and no pre-emption holds the core, another has a record to steal, and a
completion entry follows no store that is still to be performed. -/
theorem witness_not_resting : thief.resting (thief.core 0) = false ∧ (thief.core 0).preempt = none ∧ thief.stealableAt 1 ≠ none ∧
    (idle 3 State.bench).stealableAt 0 = none ∧ (unserved 64).resting ((unserved 64).core 0) = false ∧
    (part fun q => { q with moved := [0] }).resting State.bench.myCore = true ∧ completed.packets = [] ∧
    (match completed.queues with | [(_, h)] => h.pending.length == 1 && h.pending.all fun e => !completed.entryHeld e | _ => false) = true := by decide +kernel

/-! ### What waits, what is poisoned, and older values -/

/-- A slot whose state came from poisoned words takes MCE at its next issue (R180); premises of StepRunsDecoded and TaskStart. -/
def tainted : State := slot fun t => { t with spoiled := true }
theorem test_spoiled : steps tainted (fun t => t.me.ecause == 18 && t.me.epc == 0x20000 && !t.me.spoiled) = true ∧
    (startRecord State.bench.me { record with bad := [3] }).spoiled = true ∧ record.bad = [] ∧ tainted.dueActs = [] ∧ tainted.acts = [] ∧
    tainted.nextIssue = some (0, 0, 0, 0) := by decide +kernel
/-- The core may still read what stood at the word 0x400 before another core's store (R265, R271); an acquire forgets it. Premises of
TrayLoad, TrayGatherScatter and Fences. -/
def olderWord : State := core (fun k => { k with tray := [(0x400, 7)], trayOld := [(0x100, 5)] }) (regs [(1, tray 0x400)])
theorem test_older : (olderWord.trayWas true 0x400, olderWord.trayWas false 0x400) = (5, 7) ∧
    (mapGet? olderWord.myCore.trayOld (0x400 / 4)).isSome = true ∧ olderWord.sent = [] ∧ olderWord.myCore.trayBad = [] ∧
    goes .facq olderWord (fun t => t.myCore.trayOld == []) = true := by decide +kernel
/-- A cancelled entry stops after its row, with status 4 (R195); within a row it goes on to the row's end. Premises of Cancellation. -/
def cancelled (inRow : Bool) : State :=
  core (fun k => { k with queues := k.queues.set 2 [{ entry none true with cancel := true, inRow := inRow }] }) engines
theorem test_cancelled : goes (.engineEntryStart 0 2 1) (cancelled false) (fun t => (t.myCore.queues[2]).map (fun e => (e.status, e.done)) == [(some 4, 0)]) = true ∧
    goes (.engineEntryStart 0 2 1) (cancelled true) (fun t => (t.myCore.queues[2]).map (fun e => (e.status, e.done)) == [(none, 1)]) = true ∧
    goes (.engineEntryStart 0 2 5) (cancelled true) (fun t => (t.myCore.queues[2]).map (fun e => (e.status, e.done)) == [(some 4, 1)]) = true ∧
    (cancelled false).engineStores 0 2 = [] ∧ ((cancelled false).core 0).findEntry 7 = some (2, { entry none true with cancel := true }) := by
  decide +kernel
/-- Rows of 64 bytes lie at multiples of 64 (R151); premises of TileRows: the second row is the first that does not. -/
def wideTile : State := core (fun k => { k with tc := k.tc.set (0 : Fin 8) 0x0A4002 }) tiles
theorem test_tile_align : goes (.tld 0 1 2 false) wideTile (fun t => t == wideTile.takeTrap .align (tray 0x410) false) = true ∧
    goes (.tst 0 1 2 false) (regs [(1, tray 0x404)] wideTile) (fun t => t.me.ecause == Cause.align.code && t.me.eaddr == tray 0x404) = true ∧
    goes (.tld 0 1 6 false) wideTile (fun t => t.me.ecause == 0) = true ∧ rowBytesOf 0x40 .i8 = 64 := by decide +kernel
/-- Shapes a stream and MWL refuse, and unusable weights (R211, R212); premises of StreamShapes and WeightsLatched. -/
theorem test_stream_shapes :
    let unfit := core (fun k => { k with array := { k.array with wbad := true } }) weighted
    goes (.mst 7 5 2 .i8) weighted (fun t => t == weighted.takeTrap .matfmt 0 false) = true ∧
    goes (.mst 1 511 1 .i8) weighted (fun t => t.me.ecause == 12) = true ∧ goes (.mst 1 5 1 .i8) loaded (fun t => t == loaded.takeTrap .matfmt 0 false) = true ∧
    goes (.mwl 2 .i8) loaded (fun t => t == loaded.takeTrap .matfmt 0 false) = true ∧
    goes (.mst 1 5 1 .i8) unfit (fun t => t == unfit.takeTrap .mce 0 false) = true ∧ unfit.laneFree (.mst 1 5 1 .i8) (latch unfit 0 0 0) ∧
    loaded.laneFree (.mwl 2 .i8) (latch loaded 0 0 0) := by unfold State.laneFree; decide +kernel
/-- A poisoned word is an MCE and nothing is written; another operation clears the resume record (R180, R216). -/
theorem test_accumulator_poison :
    let a := core (fun k => { k with accBad := [160] }) summed
    let b := core (fun k => { k with tileBad := [1024] }) summed
    let c := core (fun k => { k with tileBad := [2048] }) summed
    let mce := fun (i : Instr) (s : State) => goes i s fun t => t == s.takeTrap .mce 0 false
    (mce (.act 8 3 4 .i32 .max) a = true ∧ mce (.acst 1 3 .i8 true .i32) a = true ∧ mce (.acadd 1 3 .i32) b = true ∧ mce (.acld 2 3) c = true) ∧
    goes (.acz 3 4) (core (fun k => { k with resume := some { slot := 3, pc := 0x100, fields := .mst 0 64 2 .bf16, tiles := 1 } }) summed)
      (fun t => t.myCore.resume == none) = true := by decide +kernel
/-- A page without a present entry faults with the pointer (R24, R225); premises of TranslationChecks and PageWalk. -/
theorem test_page_fault : goes (.ld 3 1 .d false 0) (regs [(1, 0x40000008)]) (fun t => t.me.ecause == Cause.page.code && t.me.eaddr == 0x40000008) = true ∧
    goes (.ld 3 1 .d false 0) (regs [(1, 0x0100000000000008)]) (fun t => t.me.ecause == Cause.prot.code) = true ∧
    okWith (walk State.bench.agent 0x40000008 30 false 3 0x10000) State.bench (fun r _ => r == none) = true ∧
    okWith (walkRead State.bench.agent 0x10000 0x40000008) State.bench (fun e _ => e == 0x11001) = true ∧
    okWith (walkRead State.bench.agent 0x12008 0x40000008) State.bench (fun e _ => e == 0) = true ∧
    okWith (walkRead State.bench.agent 0x12000 8) State.bench (fun e _ => leafPresent e 30 false) = true ∧
    mapGet? State.bench.myCore.l1d (0x40000008 / 64) = none ∧ State.bench.clusterAt 0 = Cluster.reset := by decide +kernel
/-- A load whose replies are awaited; a poisoned one makes it an MCE as if it had not begun (R87). Premises of RepliesTaken. -/
def awaited : State := State.afterIssue mem (after (.ld 3 1 .d false 0) mem)
theorem test_exact_reply :
    (match awaited.me.out, awaited.packets.getLast? with
      | .reply ids, some p => ids.contains p.id && (mapGet? awaited.myCore.undo 0 == some mem.me) &&
        (let t := awaited.consumePoison p
         t.me.ecause == 18 && t.me.epc == 0x20000 && t.me.eaddr == 0x40000 && t.xval 3 == 0)
      | _, _ => false) = true ∧
    goes (.memoryReply 0 0 none) { awaited with packets := [] } (fun t => t.me.out == .none && t.me.pc == 0x20004) = true := by decide +kernel
/-- The retry NACK comes back to the sender's port (R354), and a scrub visit of a vault line occupies its bank for 4 cycles (R315). -/
theorem test_retry_and_scrub :
    let p := { packet readOp with answer := some .retry }
    (((holding [p]).responseHome p).packet? 9).any (fun q => q.place == .nacked && q.answer == none) = true ∧
    goes (.scrubVisit true 0x1000 .clean) State.bench (fun t => (t.bank 0 0).ready == 4) = true ∧ State.bench.scrubFree true 0x1000 = true := by
  decide +kernel
/-- RESEED removes the owner's lines from the L2, and no other's (R240). -/
theorem test_reseed_lines :
    let line := fun (o : Nat) => ({ slice := 0, set := 0, way := o, owner := o, dirty := false, strong := false, reg := [] } : L2Line)
    goes (.reseed 1 2) { State.bench with l2 := [(0x1000, line 0), (0x1001, line 3)] } (fun t => t.l2.map (·.1) == [0x1001]) = true := by decide +kernel
/-- A launch whose group image lies in a latent tile waits for its development, on the core that a launch of the partition holds; one whose
owner is being reseeded waits too (R251, R297, R379). Premises of LaunchSteps. -/
def imaged : State := after (.launchRecordFetch 7) { latentTile with
  cores := [(5, { Core.reset with bound := some { part := 0, owner := 0, launch := 9, cls := 1 }, position := some 5 })], packets := []
  queues := [(7, queue7)], hostMem := Memory.writeN (launchRec oneLane 0) 0x10 8 0x44000 }
def imagedLaunch : Launch := (mapGet? (imaged.part 0).launches 1).getD
  { words := [], queue := 0, owner := 0, die := 0, stage := .complete, row := 0, col := 0, lanes := 0, digest := 0, start := 0, wdog := 0, wdogFrom := 0, hold := false }
theorem test_image : goes (.placementAttempt 0 1 0 0 1) imaged (fun t => stageIs t .waiting && (t.part 0).recipes.map (·.devs.length) == [1] &&
      (t.core 5).deque.length == 1) = true ∧ (imaged.imageHeld 0 imagedLaunch 0 0 1).any (·.isSome) = true ∧
    goes (.placementAttempt 0 1 0 0 1) ((imaged.modPart 0 fun q => { q with reseeds := [(0, 5, 0)] })) (fun t => stageIs t .waiting && entries t == []) = true ∧
    (imaged.modPart 0 fun q => { q with reseeds := [(0, 5, 0)] }).imageHeld 0 imagedLaunch 0 0 1 = some none ∧
    imaged.imageHeld 0 { imagedLaunch with imageFailed := true } 0 0 1 = none := by decide +kernel
/-- An entry of the function's ring waits for a store that is not performed: the reset and the destruction wait with it (R381). -/
def storing' : State := { completed.modQueue 7 (fun h => { h with pending := h.pending.map fun e => { e with awaits := [9] } }) with
  packets := [packet writeOp] }
theorem test_stores_awaited : storing'.storesAwaited 1 = true ∧ completed.storesAwaited 1 = false ∧
    goes (.functionLevelReset 1) storing' (fun t => t.begun == [.reset 1] && (t.queue? 7).isSome) = true ∧
    goes (.partitionDestroy pf 1) storing' (fun t => t.begun == [.destroy pf 1] && responses t 0 == [] && t.hasPart 1) = true ∧
    goes (.partitionDestroy pf 1) completed (fun t => !t.hasPart 1 && t.queues == []) = true := by decide +kernel
/-- A prefetch under way by the page: an UNMAP is answered when it has completed (R302, R424). -/
def fetching : State := { State.bench with packets := [{ packet (.pref 0x1000 0 false) with ptr := 0x40000 }] }
theorem test_map_waits : fetching.underway 0 ((fetching.part 0).pageRange 0) = [9] ∧
    goes (.mapUnmap vf1 1 0) fetching (fun t => responses t 1 == [] && t.begun == [.answer vf1 1 [9]]) = true ∧
    (State.bench.answerAfter vf1 1 [9]).begun = [] ∧ State.bench.underway 0 ((State.bench.part 0).pageRange 0) = [] := by decide +kernel
/-- A notice enters the mesh, as an escape packet for a core of class 1 (R311); a pre-emption to the vault that is not started is dropped
(R352). -/
theorem test_notice : goes (.pageFaultRequest 0 7 none) faulting (fun t => t.packets.all fun p => p.esc && match p.place with
      | .enter 0 _ .core => true
      | _ => false) = true ∧ faulting.classOf 0 = 1 ∧
    (((core fun k => { k with preempt := some (none, 3) }).dropVault [0]).core 0).preempt = none ∧
    (((core fun k => { k with preempt := some (some 5, 3) }).dropVault [0]).core 0).preempt = some (some 5, 3) := by decide +kernel
/-- A failed package's reply and transit packet leave the ports (R418). -/
theorem test_failed_drops : goes (.packageFailureDeclared 3) { leaving with packets := leaving.packets ++ [{ packet (.keepAlive 3 0) with id := 10 },
      { packet (.transit 4 2) with id := 11, origin := some 3 }, { packet (.transit 4 2) with id := 12, origin := some 6 }] }
    (fun t => t.packets.map (·.id) == [9, 12]) = true ∧ (packet (.transit 4 2)).portInput = 3 ∧ (packet readOp).portInput = 0 := by decide +kernel

end Sys2Proof.Tests
end

/-!
PROOFS. Pointer moves (R102), branches and jumps (R116-R118), and the returns from exceptions (R123, R124).
-/
namespace Sys2Proof.Machine

/-! ### Meanings that are one check or one change -/

/-- A check that opens a meaning lets it go on, or ends it in its trap. -/
theorem run_check_bind (ok : Bool) (c : Cause) (a : Word) (f : Unit → M Unit) (s : State) :
    run (check ok c a >>= f) s = if ok = true then run (f ()) s else stopped (.trap c a) s := by
  cases ok <;> rfl

/-- A meaning that only changes the state goes on to the changed state. -/
theorem run_change (g : State → State) (s : State) : run (change g) s = .next (g s) := rfl

/-- A scalar operation of two unmarked sources and the latency of R82 writes its result and completes. -/
theorem run_binaryX {s : State} {a b : Reg} (len : Word) (d : Reg) (f : Word → Word → Word) (h : s.unmarked [a, b]) :
    run (binaryX len d a b f) s = .next (s.wroteX 2 len d (f (s.xval a) (s.xval b))) :=
  run_of_ok (binaryXAt_ok scalarLat len d f h)

/-! ### Fields of a word -/

/-- The bits of a word from `lo` on, as a number, are the model's field. -/
theorem toNat_extractLsb'_eq_field (w : Word) (lo len : Nat) : (w.extractLsb' lo len).toNat = field w lo len := by
  rw [BitVec.extractLsb'_toNat, Nat.shiftRight_eq_div_pow, field]

/-- Some bits of a word are zero when their field is. -/
theorem extractLsb'_eq_zero_iff (w : Word) (lo len : Nat) : w.extractLsb' lo len = 0 ↔ field w lo len = 0 := by
  rw [← toNat_extractLsb'_eq_field, ← BitVec.toNat_inj]
  rfl

theorem toNat_low60 (p : Word) : (p.extractLsb' 0 60).toNat = ptrLow p := by
  rw [toNat_extractLsb'_eq_field, field, pow_zero, Nat.div_one, ptrLow]

theorem toNat_tag4 (p : Word) : (p.extractLsb' 60 4).toNat = ptrTag p := by
  have := p.isLt
  rw [toNat_extractLsb'_eq_field, field, ptrTag]
  omega

/-! ### Moving a pointer (R34, R102) -/

theorem ptrTag_lt (p : Word) : ptrTag p < 16 := by
  have := p.isLt
  unfold ptrTag
  omega

/-- A word put together from a tag and 60 low bits has that tag and those bits. -/
theorem ptr_fields_of_parts {t n : Nat} (ht : t < 16) (hn : n < 2 ^ 60) :
    ptrTag (BitVec.ofNat 64 (t * 2 ^ 60 + n)) = t ∧ ptrLow (BitVec.ofNat 64 (t * 2 ^ 60 + n)) = n := by
  unfold ptrTag ptrLow
  rw [BitVec.toNat_ofNat]
  omega

/-- The tag of a moved pointer: 0xE where the exact sum leaves the 60 bits, the old one otherwise. Its low bits are the sum's. -/
theorem leaBy_fields (a : Word) (d : Int) :
    ptrTag (leaBy a d) = (if (ptrLow a : Int) + d < 0 ∨ 2 ^ 60 ≤ (ptrLow a : Int) + d then 0xE else ptrTag a) ∧
      ptrLow (leaBy a d) = (((ptrLow a : Int) + d) % 2 ^ 60).toNat := by
  simp only [leaBy, Bool.or_eq_true, decide_eq_true_eq]
  refine ptr_fields_of_parts ?_ (by omega)
  have := ptrTag_lt a
  split <;> omega

/-- The low bits of a moved pointer are the exact sum, modulo 2^60. -/
theorem extractLsb'_low_leaBy (a : Word) (d : Int) : (leaBy a d).extractLsb' 0 60 = BitVec.ofInt 60 ((ptrLow a : Int) + d) := by
  apply BitVec.eq_of_toNat_eq
  rw [toNat_low60, (leaBy_fields a d).2, BitVec.toNat_ofInt]
  rfl

/-- A move inside the 60 bits keeps the tag. -/
theorem extractLsb'_tag_leaBy_inside (a : Word) {d : Int} (lo : 0 ≤ (ptrLow a : Int) + d) (hi : (ptrLow a : Int) + d < 2 ^ 60) :
    (leaBy a d).extractLsb' 60 4 = a.extractLsb' 60 4 := by
  apply BitVec.eq_of_toNat_eq
  rw [toNat_tag4, toNat_tag4, (leaBy_fields a d).1, if_neg (by omega)]

/-- A move out of the 60 bits sets the tag 0xE. -/
theorem extractLsb'_tag_leaBy_outside (a : Word) {d : Int} (h : (ptrLow a : Int) + d < 0 ∨ 2 ^ 60 ≤ (ptrLow a : Int) + d) :
    (leaBy a d).extractLsb' 60 4 = 0xE := by
  apply BitVec.eq_of_toNat_eq
  rw [toNat_tag4, (leaBy_fields a d).1, if_pos h]
  rfl

/-- Each LEA writes its first source moved by its scale times the second. -/
theorem exec_lea {s : State} {a b : Reg} (d : Reg) (h : s.unmarked [a, b]) {p : Instr × Int}
    (hp : p ∈ [(Instr.lea1 d a b, (1 : Int)), (.lea2 d a b, 2), (.lea4 d a b, 4), (.lea8 d a b, 8)]) :
    exec p.1 s = .next (s.wroteX 2 4 d (leaBy (s.xval a) (p.2 * (s.xval b).toInt))) := by
  simp only [List.mem_cons, List.not_mem_nil, or_false] at hp
  rcases hp with rfl | rfl | rfl | rfl
  · exact run_binaryX 4 d (fun x y => leaBy x (1 * y.toInt)) h
  · exact run_binaryX 4 d (fun x y => leaBy x (2 * y.toInt)) h
  · exact run_binaryX 4 d (fun x y => leaBy x (4 * y.toInt)) h
  · exact run_binaryX 4 d (fun x y => leaBy x (8 * y.toInt)) h

/-- Settles O11: every LEA is one pointer move, and the move's tag and low bits follow from its exact sum. -/
theorem leaComputesPointer : Obligations.LeaComputesPointer := by
  intro s d a b h p hp
  refine ⟨_, exec_lea d h hp, ?_⟩
  rw [toNat_low60]
  exact ⟨extractLsb'_low_leaBy _ _, extractLsb'_tag_leaBy_inside _, extractLsb'_tag_leaBy_outside _⟩

/-! ### Transfers (R97, R116-R118) -/

/-- A transfer goes twice its signed displacement from the PC (R33). -/
theorem branchTarget_eq (pc : Word) (o : BitVec 20) : branchTarget pc o = pc + BitVec.ofInt 64 (2 * o.toInt) := by
  rw [branchTarget, BitVec.signExtend, mul_comm 2, BitVec.ofInt_mul]
  rfl

/-- A branch is taken where its predicate, or the constant true of q4 = 8, differs from the negation bit (R116). -/
theorem branchTaken_iff (p : HWord) {q : BitVec 4} (n : Bool) (hq : q.toNat ≤ 8) :
    branchTaken p q n = true ↔ (if q = 8 then true else p.getLsbD (16 + q.toNat)) ≠ n := by
  by_cases h : q = 8
  · simp [branchTaken, h]
  · have hlt : q.toNat < 8 := by
      have : q.toNat ≠ 8 := fun e => h (BitVec.eq_of_toNat_eq e)
      omega
    have hlow : (q.setWidth 3).toNat = q.toNat := by rw [BitVec.toNat_setWidth]; exact Nat.mod_eq_of_lt hlt
    have hne : (q == 8) = false := beq_eq_false_iff_ne.mpr h
    rw [branchTaken, predOf, hne, hlow, if_neg h, Bool.false_or, bne_iff_ne]

/-- BR transfers or completes, as its predicate says. -/
theorem exec_br (q : BitVec 4) (n : Bool) (o : BitVec 20) (s : State) :
    exec (.br q n o) s =
      .next (if branchTaken s.me.p q n = true then s.jump (branchTarget s.me.pc o) else s.complete 4) := by
  change execBr q n o s = _
  unfold execBr
  split <;> rfl

/-- A word of major opcode 0x10 with q4 of 9 to 15, or a negated q4 of 8, is no instruction (R33, R116). -/
theorem decode32_br_ne_ok {w : Nat} (hmaj : fieldOf w 6 1 = 0x10)
    (hbad : 9 ≤ fieldOf w 10 7 ∨ (fieldOf w 10 7 = 8 ∧ fieldOf w 11 11 = 1)) (i : Instr) : decode32 w ≠ .ok i := by
  have hq : (fieldBits w 10 7 4).toNat = fieldOf w 10 7 := by
    rw [fieldBits, BitVec.toNat_ofNat]
    exact Nat.mod_mod_of_dvd _ (dvd_refl _)
  have hwf : (Instr.br (fieldBits w 10 7 4) (fieldBool w 11) (fieldBits w 31 12 20)).wf = false := by
    rcases hbad with h9 | ⟨h8, h1⟩
    · have : ¬ (fieldBits w 10 7 4).toNat ≤ 8 := by omega
      simp [Instr.wf, this]
    · have hq8 : fieldBits w 10 7 4 = 8 := BitVec.eq_of_toNat_eq (hq.trans h8)
      simp [Instr.wf, hq8, fieldBool, h1]
  simp [decode32, hmaj, decodeMajor, decodeMajor10, hwf]

/-- Settles O20: BR by its predicate (R116), and the words of its major opcode that do not decode (R33). -/
theorem branch : Obligations.Branch := by
  refine ⟨fun s q n o hq => ?_, fun w _ _ hmaj hbad i => decode32_br_ne_ok hmaj hbad i⟩
  rw [exec_br, branchTarget_eq]
  simp only [branchTaken_iff s.me.p n hq]

/-- Writing a scalar register changes nothing of the slot but the register and its mark (R27, R194). -/
theorem State.me_setXAt_frame (s : State) (lat : Nat) (r : Reg) (v : Word) :
    ∃ x marks, (s.setXAt lat r v).me = { s.me with x := x, marks := marks } := by
  unfold State.setXAt
  split
  · exact ⟨_, _, (State.writeShared_late s lat _).2⟩
  · split
    · exact ⟨_, _, rfl⟩
    · exact ⟨_, _, State.me_modMe ..⟩

/-- A transfer out of the loop's body leaves no loop active (R97). -/
theorem State.hl_jump_outside (s : State) {target : Word}
    (h : target < evenAddr s.me.lstart ∨ evenAddr s.me.lend < target) : (s.jump target).me.sw.hl = false := by
  rw [State.me_jump]
  cases hl : s.me.sw.hl with
  | false => rw [loopStep_plain hl]; exact hl
  | true => rw [loopStep_taken hl]; simp [settled, h]

/-- JAL writes the link and transfers (R117). -/
theorem exec_jal (d : Reg) (i : BitVec 20) (s : State) :
    exec (.jal d i) s = .next ((s.setXAt 2 d (s.me.pc + 4)).jump (branchTarget s.me.pc i)) := rfl

/-- JALR transfers by the value its register held before the link was written (R118). -/
theorem exec_jalr {s : State} {a : Reg} (d : Reg) (i : BitVec 15) (h : s.unmarked [a]) :
    exec (.jalr d a i) s = .next ((s.setXAt 2 d (s.me.pc + 4)).jump (evenAddr (s.xval a + i.signExtend 64))) :=
  run_of_ok (bind_of_ok (readX_of_unmarked (unmarked_one h)))

/-- JAL: the write and the transfer, the reach of its displacement, and the loop it leaves (R97, R117). -/
theorem jumpAndLink : Sys2Proof.Claim.JumpAndLink := by
  intro s d i
  refine ⟨?_, ?_, fun hout => State.hl_jump_outside _ ?_⟩
  · rw [exec_jal, branchTarget_eq]
  · have lo := i.le_toInt
    have hi := i.toInt_lt
    omega
  · obtain ⟨x, marks, hme⟩ := s.me_setXAt_frame 2 d (s.me.pc + 4)
    rw [hme]
    exact hout

/-- Settles O21: the link is written and the transfer taken, for JAL and for JALR. -/
theorem jumps : Obligations.Jumps :=
  ⟨jumpAndLink, fun _ d _ i h => exec_jalr d i h⟩

/-! ### Returns from exceptions (R123, R124) -/

/-- TRET refuses a saved status by its reserved bits (R123). -/
theorem sstReserved_iff (w : Word) :
    sstReserved w = true ↔ w.extractLsb' 32 31 ≠ 0 ∨ w.extractLsb' 16 16 ≠ 0 ∨ w.extractLsb' 5 3 ≠ 0 := by
  simp only [sstReserved, Bool.or_eq_true, bne_iff_ne, ne_eq, extractLsb'_eq_zero_iff, or_assoc]

/-- TRET: its three checks in their order, then the return. -/
theorem exec_tret (s : State) : exec .tret s = .next (
    if s.me.sw.s = false then s.takeTrap .priv 0 false
    else if s.me.sst.getLsbD 63 = false then s.takeTrap .notrap s.me.pc false
    else if sstReserved s.me.sst = true then s.takeTrap .badsst s.me.pc false
    else s.modMe returnFromTrap) := by
  change execTret s = _
  unfold execTret
  simp only [run_check_bind, run_change, stopped_plain (c := .priv) _ s rfl, stopped_plain (c := .notrap) _ s rfl,
    stopped_plain (c := .badsst) _ s rfl]
  cases s.me.sw.s
  · rfl
  cases s.me.sst.getLsbD 63
  · rfl
  cases sstReserved s.me.sst <;> rfl

/-- URET: its check, then the return (R124). -/
theorem exec_uret (s : State) : exec .uret s = .next (
    if s.me.sw.ue = true then s.takeTrap .notrap s.me.pc false else s.modMe returnFromUpcall) := by
  change execUret s = _
  unfold execUret
  simp only [run_check_bind, run_change, stopped_plain (c := .notrap) _ s rfl]
  cases s.me.sw.ue <;> rfl

/-- NOTRAP and BADSST taken in S mode, outside a development, keep the saved status and PC (R89). -/
theorem State.takeTrap_keeps_saved {s : State} {c : Cause} (hc : c = .notrap ∨ c = .badsst) (hs : s.me.sw.s = true)
    (hk : ∀ d, s.me.kind ≠ .dev d) (addr : Word) :
    (s.takeTrap c addr false).me.sst = s.me.sst ∧ (s.takeTrap c addr false).me.epc = s.me.epc := by
  have hdev : s.me.kind.isDev = false := by
    cases h : s.me.kind with
    | dev d => exact absurd h (hk d)
    | lane | record => rfl
  have hup : isUpcall s.me c = false := by simp [isUpcall, hs]
  rw [State.takeTrap_plain hdev, State.enter_trap hup, State.me_setMe]
  rcases hc with rfl | rfl <;> simp [trapEntry, hs]

/-- TRET with its checks, its return, and what its NOTRAP and BADSST keep (R89, R123). -/
theorem trapReturn : Sys2Proof.Claim.TrapReturn := by
  intro s
  simp only [← sstReserved_iff, exec_tret]
  refine ⟨fun hs => ?_, fun hs hv => ?_, fun hs hv hr => ?_, fun hs hv hr => ?_, fun hs hbad hk => ⟨_, rfl, ?_⟩⟩
  · rw [if_pos hs]
  · simp only [hs, hv, if_true, Bool.true_eq_false, if_false]
  · simp only [hs, hv, hr, if_true, Bool.true_eq_false, if_false]
  · simp only [hs, hv, hr, Bool.true_eq_false, if_false]
    rfl
  · simp only [hs, Bool.true_eq_false, if_false]
    cases hv : s.me.sst.getLsbD 63 with
    | false => exact State.takeTrap_keeps_saved (.inl rfl) hs hk _
    | true =>
      have hr : sstReserved s.me.sst = true := hbad.resolve_left (by simp [hv])
      simp only [hr, Bool.true_eq_false, if_false, if_true]
      exact State.takeTrap_keeps_saved (.inr rfl) hs hk _

/-- URET with its check and its return (R124). -/
theorem upcallReturn : Sys2Proof.Claim.UpcallReturn := by
  intro s
  simp only [exec_uret]
  refine ⟨fun hu => ?_, fun hu => ?_⟩
  · rw [if_pos hu]
  · simp only [hu, Bool.false_eq_true, if_false]
    rfl

/-- Settles O25: TRET and URET by their checks and their restored fields. -/
theorem exceptionReturn : Obligations.ExceptionReturn := ⟨trapReturn, upcallReturn⟩

end Sys2Proof.Machine

/-!
PROOFS. The integer operations and the movements of the lane family, with their compact forms (R134, R136, R141, R146).
-/
namespace Sys2Proof.Machine

/-! ### Elements of a packed register (R129, R130) -/

/-- Packed fields take no more bits than their number times their width. -/
theorem packFields_lt (w : Nat) (l : List Nat) : packFields w l < 2 ^ (w * l.length) := by
  induction l with
  | nil => exact Nat.two_pow_pos _
  | cons x l ih =>
    rw [List.length_cons, Nat.mul_succ, Nat.add_comm (w * l.length), pow_add]
    calc packFields w (x :: l) < 2 ^ w + 2 ^ w * packFields w l :=
          Nat.add_lt_add_right (Nat.mod_lt _ (Nat.two_pow_pos w)) _
      _ = 2 ^ w * (packFields w l + 1) := by rw [Nat.mul_succ, Nat.add_comm]
      _ ≤ 2 ^ w * 2 ^ (w * l.length) := Nat.mul_le_mul_left _ ih

/-- Field e of packed fields is the number packed there. -/
theorem packFields_field (w : Nat) (l : List Nat) (e : Nat) (he : e < l.length) :
    packFields w l / 2 ^ (w * e) % 2 ^ w = l[e] % 2 ^ w := by
  induction l generalizing e with
  | nil => exact absurd he (Nat.not_lt_zero e)
  | cons x l ih =>
    cases e with
    | zero => simp [packFields]
    | succ e =>
      have rest : packFields w (x :: l) / 2 ^ w = packFields w l := by
        rw [packFields, Nat.add_mul_div_left _ _ (Nat.two_pow_pos w), Nat.div_eq_of_lt (Nat.mod_lt _ (Nat.two_pow_pos w)),
          Nat.zero_add]
      rw [Nat.mul_succ, Nat.add_comm (w * e), pow_add, ← Nat.div_div_eq_div_mul, rest]
      exact ih e (Nat.lt_of_succ_lt_succ he)

/-- The elements of a lane type fill the register. -/
theorem laneWidth_mul_laneCount (t : LaneType) : laneWidth t * laneCount t = 512 := by cases t <;> rfl

/-- Every element of a register is governed by one of the sixteen mask bits. -/
theorem governs_lt {t : LaneType} {e : Nat} (he : e < laneCount t) : governs t e < 16 := by
  cases t <;> simp only [governs, laneCount, laneWidth] at he ⊢ <;> omega

/-- A number that fits a register is the number the register holds. -/
theorem toNat_ofNat_of_lt {w n : Nat} (h : n < 2 ^ w) : (BitVec.ofNat w n).toNat = n := by
  rw [BitVec.toNat_ofNat, Nat.mod_eq_of_lt h]

/-- Element e of a register packed from elements is the one packed there. -/
theorem elemOf_packed (t : LaneType) (f : Nat → Nat) {e : Nat} (he : e < laneCount t) :
    elemOf t (BitVec.ofNat 512 (packFields (laneWidth t) ((List.range (laneCount t)).map f))) e = f e % 2 ^ laneWidth t := by
  have fits := packFields_lt (laneWidth t) ((List.range (laneCount t)).map f)
  rw [List.length_map, List.length_range, laneWidth_mul_laneCount] at fits
  rw [elemOf, vecField, toNat_ofNat_of_lt fits, packFields_field _ _ _ (by simpa using he), List.getElem_map, List.getElem_range]

/-- The enabled bits are the whole of each element whose mask bit is set. -/
theorem elemOf_laneEnable (t : LaneType) (m : BitVec 16) {e : Nat} (he : e < laneCount t) :
    elemOf t (laneEnable t m) e = if m.getLsbD (governs t e) then 2 ^ laneWidth t - 1 else 0 := by
  rw [laneEnable, elemOf_packed t _ he]
  split
  · exact Nat.mod_eq_of_lt (Nat.sub_lt (Nat.two_pow_pos _) Nat.one_pos)
  · exact Nat.zero_mod _

/-- A masked write puts the new element where the mask bit is set. -/
theorem elemOf_maskedWrite_active {t : LaneType} {m : BitVec 16} {e : Nat} (he : e < laneCount t)
    (on : m.getLsbD (governs t e) = true) (old : Vec) (f : Nat → Nat) :
    elemOf t (maskedWrite t m old f) e = f e % 2 ^ laneWidth t := by
  rw [maskedWrite, elemOf_packed t _ he, if_pos on]

/-- The lane mask holds the mask bits of P. -/
theorem laneMask_governs (s : State) {t : LaneType} {e : Nat} (he : e < laneCount t) :
    (laneMask s.me.p).getLsbD (governs t e) = s.laneOn t e := by
  rw [laneMask, BitVec.getLsbD_setWidth, State.laneOn, decide_eq_true (governs_lt he), Bool.true_and]

/-- Bit j of the word 2^l is set for j = l alone. -/
theorem oneHot_getLsbD (l : BitVec 4) {j : Nat} (hj : j < 16) : (BitVec.ofNat 16 (2 ^ l.toNat)).getLsbD j = (j == l.toNat) := by
  rw [BitVec.getLsbD_ofNat, decide_eq_true hj, Bool.true_and, Nat.testBit_two_pow]
  exact decide_eq_decide.2 eq_comm

/-! ### Masked writes of a lane instruction (R130, R132) -/

/-- An instruction that ends in a masked write of V(d) writes the lanes of its mask. -/
theorem writesLanes_of_maskedWrite {i : Instr} {s : State} {lat : Nat} {len : Word} {d : Reg} {t : LaneType} {m : BitVec 16}
    {act : Nat → Bool} {f : Nat → Nat}
    (h : exec i s = .next (s.wroteV lat len d (laneEnable t m) (maskedWrite t m (s.vval d) f)))
    (hm : ∀ e < laneCount t, m.getLsbD (governs t e) = act e) : writesLanes i s lat len d t act f := by
  refine ⟨_, _, h, fun e he => ⟨?_, fun on => ?_⟩⟩
  · rw [elemOf_laneEnable t m he, hm e he]
  · exact elemOf_maskedWrite_active he ((hm e he).trans on) _ _

/-- The masked write of a lane operation: V(d) under the slot's lane mask, then completion. -/
theorem writeLanes_apply (len : Word) (t : LaneType) (d : Reg) (f : Nat → Nat) (s : State) :
    writeLanes len t d f s = .ok ((),
      s.wroteV (laneLat t) len d (laneEnable t (laneMask s.me.p)) (maskedWrite t (laneMask s.me.p) (s.vval d) f)) := by
  simp only [writeLanes, readMask, bind_look, bind_change, finish, change_apply]
  rfl

/-- An instruction that ends in a lane write writes the active elements of V(d). -/
theorem writesLanes_of_writeLanes {i : Instr} {s : State} {len : Word} {d : Reg} {t : LaneType} {f : Nat → Nat}
    (h : exec i s = run (writeLanes len t d f) s) : writesLanes i s (laneLat t) len d t (s.laneOn t) f :=
  writesLanes_of_maskedWrite (h.trans (run_of_ok (writeLanes_apply len t d f s))) fun _ he => laneMask_governs s he

/-- Meanings that do the same in a state end the same. -/
theorem run_congr {m n : M Unit} {s : State} (h : m s = n s) : run m s = run n s := by simp only [run, h]

/-- A binary lane operation writes element e by the elements e of its two sources. -/
theorem run_binaryV (len : Word) (t : LaneType) (d a b : Reg) (op : Nat → Nat → Nat) (s : State) :
    run (binaryV len t d a b op) s = run (writeLanes len t d fun e => op (elemOf t (s.vval a) e) (elemOf t (s.vval b) e)) s :=
  run_congr (by simp only [binaryV, readV, bind_look])

/-- A unary lane operation writes element e by the element e of its source. -/
theorem run_unaryV (len : Word) (t : LaneType) (d a : Reg) (op : Nat → Nat) (s : State) :
    run (unaryV len t d a op) s = run (writeLanes len t d fun e => op (elemOf t (s.vval a) e)) s :=
  run_congr (by simp only [unaryV, readV, bind_look])

/-! ### Operations of i32 lanes (R134) -/

/-- An i32 element is its lane, as a number. -/
theorem elemOf_i32 (v : Vec) (e : Nat) : elemOf .i32 v e = (laneOf v e).toNat := by
  rw [elemOf, vecField, laneOf, BitVec.extractLsb'_toNat, Nat.shiftRight_eq_div_pow]
  rfl

/-- An operation on i32 elements computes a function on words. -/
def Computes (op : Nat → Nat → Nat) (g : HWord → HWord → HWord) : Prop := ∀ x y : HWord, op x.toNat y.toNat = (g x y).toNat

/-- An operation made of a function on words computes it, and every function equal to it. -/
theorem computes_onInt {f g : HWord → HWord → HWord} (h : ∀ x y, f x y = g x y) : Computes (onInt f) g := fun x y => by
  simp only [onInt, BitVec.ofNat_toNat, BitVec.setWidth_eq, h]

/-- The instruction i of `len` bytes writes to the active i32 lanes of V(d) what g gives of the lanes of V(a) and V(b). -/
def IntLanes (i : Instr) (s : State) (len : Word) (d a b : Reg) (g : HWord → HWord → HWord) : Prop :=
  writesLanes i s 3 len d .i32 (s.laneOn .i32) fun e => (g (laneOf (s.vval a) e) (laneOf (s.vval b) e)).toNat

/-- A binary i32 operation writes what its element operation computes. -/
theorem intLanes_of_binaryV {i : Instr} {s : State} {len : Word} {d a b : Reg} {op : Nat → Nat → Nat}
    {g : HWord → HWord → HWord} (h : exec i s = run (binaryV len .i32 d a b op) s) (hop : Computes op g) :
    IntLanes i s len d a b g := by
  rw [run_binaryV] at h
  simp only [elemOf_i32, hop _ _] at h
  exact writesLanes_of_writeLanes h

/-- A binary operation made of a function on words writes what that function gives. -/
theorem intLanes_of_onInt {i : Instr} {s : State} {len : Word} {d a b : Reg} {f : HWord → HWord → HWord}
    (h : exec i s = run (binaryV len .i32 d a b (onInt f)) s) : IntLanes i s len d a b f :=
  intLanes_of_binaryV h (computes_onInt fun _ _ => rfl)

/-- A unary i32 operation writes what its element operation computes of its source. -/
theorem writesLanes_of_unaryV {i : Instr} {s : State} {len : Word} {d a : Reg} {op : Nat → Nat} {g : HWord → HWord}
    (h : exec i s = run (unaryV len .i32 d a op) s) (hop : ∀ x : HWord, op x.toNat = (g x).toNat) :
    writesLanes i s 3 len d .i32 (s.laneOn .i32) fun e => (g (laneOf (s.vval a) e)).toNat := by
  rw [run_unaryV] at h
  simp only [elemOf_i32, hop] at h
  exact writesLanes_of_writeLanes h

/-- A movement writes the lanes of its source as they are. -/
theorem writesLanes_of_movement {i : Instr} {s : State} {len : Word} {d a : Reg}
    (h : exec i s = run (unaryV len .i32 d a fun x => x) s) :
    writesLanes i s 3 len d .i32 (s.laneOn .i32) fun e => (laneOf (s.vval a) e).toNat :=
  writesLanes_of_unaryV (g := fun x => x) h fun _ => rfl

/-! ### The functions of R134 -/

/-- The high half of a signed product is that of the product of the sign-extended words. -/
theorem mulhi32_eq (x y : HWord) : mulhi32 x y = (x.signExtend 64 * y.signExtend 64).extractLsb' 32 32 := by
  have product : x.signExtend 64 * y.signExtend 64 = BitVec.ofInt 64 (x.toInt * y.toInt) := (BitVec.ofInt_mul ..).symm
  apply BitVec.eq_of_toNat_eq
  rw [product, mulhi32, BitVec.extractLsb'_toNat, Nat.shiftRight_eq_div_pow, BitVec.toNat_ofInt, BitVec.toNat_ofInt]
  push_cast
  omega

/-- An arithmetic shift right divides by a power of two, rounding down. -/
theorem sshiftRight_eq_div (x : HWord) (n : Nat) : x.sshiftRight n = BitVec.ofInt 32 (x.toInt / 2 ^ n) := by
  rw [BitVec.sshiftRight, Int.shiftRight_eq_div_pow]
  norm_cast

theorem ite_sle (x y a b : HWord) : (if x.sle y then a else b) = if x.toInt ≤ y.toInt then a else b := by
  simp only [BitVec.sle, decide_eq_true_eq]

theorem ite_ule (x y a b : HWord) : (if x.ule y then a else b) = if x.toNat ≤ y.toNat then a else b := by
  simp only [BitVec.ule, decide_eq_true_eq]

theorem ite_slt_zero (x a b : HWord) : (if x.slt 0 then a else b) = if x.toInt < 0 then a else b := by
  simp [BitVec.slt]

/-! ### The element operations of i32 lanes -/

theorem laneOp_add_computes : Computes (laneOp .add .i32) fun x y => x + y := computes_onInt fun _ _ => rfl
theorem laneOp_sub_computes : Computes (laneOp .sub .i32) fun x y => x - y := computes_onInt fun _ _ => rfl
theorem laneOp_mul_computes : Computes (laneOp .mul .i32) fun x y => x * y := computes_onInt fun _ _ => rfl
theorem laneOp_min_computes : Computes (laneOp .min .i32) fun x y => if x.toInt ≤ y.toInt then x else y :=
  computes_onInt fun x y => ite_sle x y x y
theorem laneOp_max_computes : Computes (laneOp .max .i32) fun x y => if y.toInt ≤ x.toInt then x else y :=
  computes_onInt fun x y => ite_sle y x x y
theorem minu_computes : Computes (onInt fun x y => if x.ule y then x else y) fun x y => if x.toNat ≤ y.toNat then x else y :=
  computes_onInt fun x y => ite_ule x y x y
theorem maxu_computes : Computes (onInt fun x y => if y.ule x then x else y) fun x y => if y.toNat ≤ x.toNat then x else y :=
  computes_onInt fun x y => ite_ule y x x y
theorem mulh_computes : Computes (onInt mulhi32) fun x y => (x.signExtend 64 * y.signExtend 64).extractLsb' 32 32 :=
  computes_onInt mulhi32_eq
theorem sar_computes : Computes (onInt fun x y => x.sshiftRight (y.toNat % 32)) fun x y =>
    BitVec.ofInt 32 (x.toInt / 2 ^ (y.toNat % 32)) :=
  computes_onInt fun x y => sshiftRight_eq_div x (y.toNat % 32)

theorem laneAbs_i32 (x : HWord) : laneAbs .i32 x.toNat = (if x.toInt < 0 then -x else x).toNat :=
  computes_onInt (fun x _ => ite_slt_zero x (-x) x) x 0
theorem laneNeg_i32 (x : HWord) : laneNeg .i32 x.toNat = (-x).toNat :=
  computes_onInt (g := fun x _ => -x) (fun _ _ => rfl) x 0

/-! ### Movements (R136, R141) -/

/-- VPERM writes in each active lane the lane of V(a) that the same lane of V(b) names. -/
theorem exec_vperm (d a b : Reg) (s : State) : exec (.vperm d a b) s =
    run (writeLanes 4 .i32 d fun i => (laneOf (s.vval a) ((laneOf (s.vval b) i).toNat % 16)).toNat) s := by
  change execVperm d a b s = _
  exact run_congr (by simp only [readV, bind_look])

/-- VBC writes the low word of X(a) in each active lane. -/
theorem exec_vbc {s : State} {a : Reg} (d : Reg) (h : s.unmarked [a]) :
    exec (.vbc d a) s = run (writeLanes 4 .i32 d fun _ => ((s.xval a).setWidth 32).toNat) s := by
  change execVbc d a s = _
  exact run_congr (bind_of_ok (readX_of_unmarked (unmarked_one h)))

/-- VINS writes the low word of X(a) in lane l, whatever the mask. -/
theorem exec_vins {s : State} {a : Reg} (d : Reg) (l : BitVec 4) (h : s.unmarked [a]) :
    let m := BitVec.ofNat 16 (2 ^ l.toNat)
    exec (.vins d a l) s =
      .next (s.wroteV 3 4 d (laneEnable .i32 m) (maskedWrite .i32 m (s.vval d) fun _ => ((s.xval a).setWidth 32).toNat)) :=
  run_of_ok (bind_of_ok (readX_of_unmarked (unmarked_one h)))

/-! ### The obligation -/

/-- Settles O15: each two-source, one-source or compact form is an element operation that computes its row of R134 or R136;
VPERM, VBC and VINS are masked writes of the lanes they name. -/
theorem laneInteger : Obligations.LaneInteger := by
  intro s d a b
  dsimp only
  refine ⟨?_, ?_, writesLanes_of_writeLanes (exec_vperm d a b s), fun h => writesLanes_of_writeLanes (exec_vbc d h),
    fun l h => writesLanes_of_maskedWrite (exec_vins d l h) fun _ he => oneHot_getLsbD l (governs_lt he)⟩
  · change ∀ p ∈ (_ : List (Instr × (HWord → HWord → HWord))), IntLanes p.1 s 4 d a b p.2
    simp only [List.forall_mem_cons]
    exact ⟨intLanes_of_binaryV rfl laneOp_add_computes, intLanes_of_binaryV rfl laneOp_sub_computes,
      intLanes_of_binaryV rfl laneOp_mul_computes, intLanes_of_binaryV rfl mulh_computes,
      intLanes_of_binaryV rfl laneOp_min_computes, intLanes_of_binaryV rfl laneOp_max_computes,
      intLanes_of_binaryV rfl minu_computes, intLanes_of_binaryV rfl maxu_computes,
      intLanes_of_onInt rfl, intLanes_of_onInt rfl, intLanes_of_onInt rfl, intLanes_of_onInt rfl,
      intLanes_of_onInt rfl, intLanes_of_onInt rfl, intLanes_of_binaryV rfl sar_computes,
      writesLanes_of_unaryV rfl laneAbs_i32, writesLanes_of_unaryV rfl laneNeg_i32, writesLanes_of_movement rfl,
      List.forall_mem_nil _⟩
  · change ∀ p ∈ (_ : List (Instr × (HWord → HWord → HWord))), IntLanes p.1 s 2 d d a p.2
    simp only [List.forall_mem_cons]
    exact ⟨intLanes_of_binaryV rfl laneOp_add_computes, intLanes_of_binaryV rfl laneOp_sub_computes,
      intLanes_of_binaryV rfl laneOp_mul_computes, intLanes_of_binaryV rfl laneOp_min_computes,
      intLanes_of_binaryV rfl laneOp_max_computes, intLanes_of_onInt rfl, intLanes_of_onInt rfl, intLanes_of_onInt rfl,
      intLanes_of_onInt rfl, intLanes_of_onInt rfl, intLanes_of_binaryV rfl sar_computes,
      writesLanes_of_movement rfl, List.forall_mem_nil _⟩

end Sys2Proof.Machine
